-- ==== Sys2Proof/Word.lean ====
section
/-! DEFINITION. The words, numbers and small names of the LA-16 (spec 00_scope.md section 6):
bytes, station indexes, buffer positions, times, tags, rates and the named alternatives that
several blocks share. -/

namespace Sys2Proof

/-- One byte of any external format (R212). -/
abbrev Byte := BitVec 8

/-- A station index, 0..15 (00_scope.md section 6.4). -/
abbrev Station := Fin 16

/-- A position in the intake buffer, 0..32,767; the next position after 32,767 is 0 (R27). -/
abbrev Pos := BitVec 15

/-- The number of a share-store block, 0..16,383 (R139). -/
abbrev Block := BitVec 14

/-- The claim key: the class in the upper two bits, the station index in the lower four (R112). -/
abbrev ClaimKey := BitVec 6

/-- A point in time: an epoch second and a time within the second in fu (00_scope.md section 6.1). -/
structure Time where
  sec : Nat
  fu : Nat
  deriving DecidableEq, Repr, Inhabited

/-- A slot tag `(S, k)` (00_scope.md section 6.3). -/
structure Tag where
  sec : Nat
  k : Nat
  deriving DecidableEq, Repr, Inhabited

/-- The rate set {10, 25, 30, 50, 60, 100, 120} per second (00_scope.md section 6.2). -/
inductive Rate where
  | r10 | r25 | r30 | r50 | r60 | r100 | r120
  deriving DecidableEq, Repr, Inhabited

/-- The five clock states of chapter 1, section 1.4. -/
inductive ClockState where
  | acquiring | locked | holdover | stepping | stopped
  deriving DecidableEq, Repr, Inhabited

/-- The kind of a leap: a second inserted or a second deleted (R7). -/
inductive LeapKind where
  | insertSecond | deleteSecond
  deriving DecidableEq, Repr

/-- A transition of the PPS line (R3). -/
inductive Transition where
  | rise | fall
  deriving DecidableEq, Repr

/-- The quality of a cell (R90). -/
inductive Quality where
  | exact | interpolated | held | absent
  deriving DecidableEq, Repr, Inhabited

/-- The direction of a mark (R178). -/
inductive Direction where
  | rising | falling
  deriving DecidableEq, Repr

/-- The two kinds of notice (R110). -/
inductive NoticeKind where
  | stepped | stopping
  deriving DecidableEq, Repr

/-- One phasor: a magnitude 0..16,777,215 and an angle 0..65,535 (00_scope.md section 6.4). -/
structure Phasor where
  mag : Nat
  ang : Nat
  deriving DecidableEq, Repr, Inhabited

/-- One character of the time-of-day line, begun by its start bit (R215). -/
structure TodChar where
  /-- The eight data bits in the order they arrive. -/
  data : Vector Bool 8
  /-- The stop bit stood at its place; a broken character misses it. -/
  stop : Bool
  /-- How many fu before the message's end the character began. -/
  age : Nat
  deriving DecidableEq, Repr

/-- The sixteen station indexes in ascending order. -/
def allStations : List Station := [0, 1, 2, 3, 4, 5, 6, 7, 8, 9, 10, 11, 12, 13, 14, 15]

end Sys2Proof
end

