-- ==== Sys2Proof/Config.lean ====
section
/-! DEFINITION. The fixed sizes and times of the LA-16, each with the rule that gives it, and the
model's one open value. -/

namespace Sys2Proof.Config

/-- A second holds 6,000,000 fu (00_scope.md section 6.1). -/
abbrev fuPerSecond : Nat := 6000000
/-- One millisecond is 6,000 fu (00_scope.md section 6.1). -/
abbrev fuPerMs : Nat := 6000
/-- One microsecond is 6 fu (00_scope.md section 6.1). -/
abbrev fuPerUs : Nat := 6
/-- The last second an unsigned 32-bit count of epoch seconds can hold. -/
abbrev lastSecond : Nat := 4294967295

/-- OPEN VALUE. What the 32-bit seconds field holds after second 4,294,967,295 passes: the spec
gives the width and states no result there (notes/assumptions/3.md). It has no body, so no proof
can rest on a value of it. -/
opaque secondAfterLast : BitVec 32

/-- A time-of-day message ends when no character has begun for this long after its last one (R215). -/
abbrev todQuiet : Nat := 6000

/-- The edge age at which LOCKED falls into HOLDOVER (R13). -/
abbrev holdoverEntryAge : Nat := 9000000
/-- A step younger than this escalates the next one (R16). -/
abbrev stepWindow : Nat := 96000000
/-- The admission age at which a LIVE stream becomes STALLED (R53). -/
abbrev stallAge : Nat := 12000000
/-- The length of a MARK pulse (R169). -/
abbrev markPulse : Nat := 60

/-- The intake buffer's size in bytes (R27). -/
abbrev bufferSize : Nat := 32768
/-- The size of a stamp entry (R28). -/
abbrev stampSize : Nat := 9
/-- The size of the largest measurement frame (R29). -/
abbrev maxFrame : Nat := 85
/-- The size of the smallest measurement frame (R35). -/
abbrev minFrame : Nat := 30

/-- The largest directory count (R47). -/
abbrev maxStreams : Nat := 48
/-- The capacity of a sample ring (R55). -/
abbrev ringCapacity : Nat := 32
/-- The LATE bound lies this many stream periods before the horizon (R58). -/
abbrev latePeriods : Nat := 3

/-- The slot table's capacity (R65). -/
abbrev maxRecords : Nat := 64
/-- The most records that may be DRAINING (R65). -/
abbrev maxDraining : Nat := 16
/-- Output periods from opening to DRAINING (R70). -/
abbrev spanPeriods : Nat := 47
/-- Periods of the fastest stream that the wait may reach (R70). -/
abbrev ringPeriods : Nat := 28
/-- The largest requested wait in milliseconds (R69). -/
abbrev maxWait : Nat := 2000

/-- The share queue's capacity (R109). -/
abbrev maxQueue : Nat := 64
/-- The collision run at which the link is MUTED (R119). -/
abbrev collisionLimit : Nat := 3
/-- The length of a share's header (R121). -/
abbrev shareHeaderSize : Nat := 17
/-- The length of the smallest share (chapter 6, section 6.2). -/
abbrev minShare : Nat := 21
/-- The length of the largest link frame (R122). -/
abbrev maxLinkFrame : Nat := 3509
/-- The length of the smallest link frame (R122). -/
abbrev minLinkFrame : Nat := 14

/-- The number of share-store blocks (R139). -/
abbrev storeBlocks : Nat := 16384
/-- The size of a share-store block (R139). -/
abbrev blockSize : Nat := 64
/-- The miss count at which a peer becomes SILENT (R136). -/
abbrev missLimit : Nat := 4

/-- The capacity of a record's local mark list (R179). -/
abbrev maxMarks : Nat := 8
/-- The number of excursion monitors (R173). -/
abbrev monitorCount : Nat := 8

/-- Counters saturate here (chapter 11, section 11.3). -/
abbrev counterMax : Nat := 65535
/-- An error-group counter raises COUNT_WATCH on leaving this value upward (R210). -/
abbrev watchBelow : Nat := 127

/-- The smallest image length the loader passes (R218). -/
abbrev minImage : Nat := 1494
/-- The largest image length the loader passes (R218). -/
abbrev maxImage : Nat := 6870
/-- Where the first station section begins (R218). -/
abbrev firstSection : Nat := 34

end Sys2Proof.Config
end

