-- ==== Sys2Proof/Syntax.lean ====
section
/-! DEFINITION. The commands of the LA-16: one constructor for each row of spec/opcode_table.json,
with what the event brings from outside as its operands (bytes, a level on pins, a tag). The table
gives its rows no operands; notes/assumptions/4.md says how each was chosen. -/

namespace Sys2Proof

/-- The operations and events of the part, in the order of spec/opcode_table.json. -/
inductive Instr where
  /-- POWER_ON (R189): supply reaches its level; `straps` is the level on the four strap pins. -/
  | powerOn (straps : Station)
  /-- RESET_PIN_ASSERT (R189). -/
  | resetPinAssert
  /-- RESET_PIN_RELEASE (R189); `straps` is the level on the strap pins at the release. -/
  | resetPinRelease (straps : Station)
  /-- LOAD_COMPLETE (R198); `image` is what the configuration memory port read, from its first byte. -/
  | loadComplete (image : List Byte)
  /-- LOAD_FAULT (R199); `image` is what the configuration memory port read, from its first byte. -/
  | loadFault (image : List Byte)
  /-- PPS_EDGE (R4): one transition of the PPS line. -/
  | ppsEdge (edge : Transition)
  /-- TIME_OF_DAY_MESSAGE (R6): the characters on the line up to the quiet that ends the message now
  (R215). -/
  | timeOfDayMessage (chars : List TodChar)
  /-- LOCAL_SECOND_BOUNDARY (R2). -/
  | localSecondBoundary
  /-- SLOT_TIME_REACHED (R21). -/
  | slotTimeReached
  /-- HOLDOVER_ENTRY (R13). -/
  | holdoverEntry
  /-- HOLDOVER_LIMIT_EXPIRY (R14). -/
  | holdoverLimitExpiry
  /-- FRAME_START (R28). -/
  | frameStart
  /-- BYTE_EVENT (R29): the byte presented. -/
  | byteEvent (value : Byte)
  /-- FRAME_END (R31). -/
  | frameEnd
  /-- FRAME_JUDGEMENT (R41). -/
  | frameJudgement
  /-- STALL_EXPIRY (R53) of the stream at position `n`. -/
  | stallExpiry (n : Nat)
  /-- CLOSE_DEADLINE (R71) of the record of `tag`. -/
  | closeDeadline (tag : Tag)
  /-- STREAM_RESOLUTION (R87) of the next stream of the record in close. -/
  | streamResolution
  /-- CLOSE_COMPLETION (R78). -/
  | closeCompletion
  /-- GATHERING_DEADLINE (R71) of the record of `tag`. -/
  | gatheringDeadline (tag : Tag)
  /-- SHARE_EXPIRY (R120) of the queued share of `tag`. -/
  | shareExpiry (tag : Tag)
  /-- SNAPSHOT_BYTE_TAKEN (R155). -/
  | snapshotByteTaken
  /-- DELIVERY_END (R168). -/
  | deliveryEnd
  /-- MARK_PULSE_END (R169). -/
  | markPulseEnd
  /-- CLAIM_START (R113). -/
  | claimStart
  /-- CLAIM_RESOLVED (R114): the six key bits as the line carried them. -/
  | claimResolved (line : ClaimKey)
  /-- FOREIGN_CLAIM_RESOLVED (R115). -/
  | foreignClaimResolved
  /-- DEFER_IDLE_EXPIRY (R115). -/
  | deferIdleExpiry
  /-- TRANSMISSION_COMPLETE (R117). -/
  | transmissionComplete
  /-- COLLISION (R118). -/
  | collision
  /-- SHARE_HEADER (R140): the first 17 bytes of the share in reception. -/
  | shareHeader (bytes : List Byte)
  /-- LINK_FRAME_END (R121): the claim key noted and the whole bytes of the frame. -/
  | linkFrameEnd (key : ClaimKey) (bytes : List Byte)
  /-- SILENCE_EXPIRY (R135) of the peer's entry. -/
  | silenceExpiry (peer : Station)
  /-- CHIP_SELECT_ASSERT (R201). -/
  | chipSelectAssert
  /-- CHIP_SELECT_DEASSERT (R201); `straps` is read only when a pending RELOAD is carried out. -/
  | chipSelectDeassert (straps : Station)
  /-- READ_STATUS (R203). -/
  | readStatus
  /-- READ_ROSTER (R204). -/
  | readRoster
  /-- READ_STREAM (R204); the argument bytes shifted in, none or one. -/
  | readStream (args : List Byte)
  /-- READ_COUNTERS (R206). -/
  | readCounters
  /-- READ_LAST_DROP (R205). -/
  | readLastDrop
  /-- READ_RESET_CAUSE (R205). -/
  | readResetCause
  /-- CLEAR_COUNTERS (R206). -/
  | clearCounters
  /-- SET_WAIT (R207); the argument bytes shifted in, up to two, most significant first. -/
  | setWait (args : List Byte)
  /-- ENABLE_STREAM (R207); the argument bytes shifted in, none or one. -/
  | enableStream (args : List Byte)
  /-- DISABLE_STREAM (R207); the argument bytes shifted in, none or one. -/
  | disableStream (args : List Byte)
  /-- RESUME_CLOCK (R208). -/
  | resumeClock
  /-- ACK_ATTENTION (R209); the argument bytes shifted in, none or one. -/
  | ackAttention (args : List Byte)
  /-- RELOAD (R208). -/
  | reload
  /-- UNKNOWN_COMMAND (R202): a code that names no command. -/
  | unknownCommand (code : Byte)
  /-- LINK_IDLE_JUDGED (R107). -/
  | linkIdleJudged
  deriving DecidableEq, Repr

end Sys2Proof
end

