-- ==== Sys2Proof/WellFormed.lean ====
section
/-! DEFINITION. Which commands the outside world can send at all: the checks on operands that the
types of Syntax.lean leave open. -/

namespace Sys2Proof

/-- The codes that name a command (R202). -/
def knownCodes : List Byte :=
  [0x10, 0x11, 0x12, 0x13, 0x14, 0x15, 0x20, 0x21, 0x22, 0x23, 0x24, 0x25, 0x2F]

/-- A tag as five bytes can carry one on a grid of the rate set: S in 32 bits, k below 120 (R212). -/
def Tag.wellFormed (t : Tag) : Bool := t.sec ≤ Config.lastSecond && t.k < 120

/-- The characters of one message in the order they began, the last of them 1 ms ago and none 1 ms or
more after the one before it (R215; notes/assumptions/31.md). -/
def oneMessage : List TodChar → Bool
  | [] => false
  | [c] => c.age == Config.todQuiet
  | c :: d :: rest => d.age < c.age && c.age < d.age + Config.todQuiet && oneMessage (d :: rest)

/-- The operand checks, one for each command that has something to check. -/
def Instr.wellFormed : Instr → Bool
  | .stallExpiry n => n < Config.maxStreams
  | .closeDeadline tag => tag.wellFormed
  | .gatheringDeadline tag => tag.wellFormed
  | .shareExpiry tag => tag.wellFormed
  | .shareHeader bytes => bytes.length == Config.shareHeaderSize
  | .readStream args => args.length ≤ 1
  | .setWait args => args.length ≤ 2
  | .enableStream args => args.length ≤ 1
  | .disableStream args => args.length ≤ 1
  | .ackAttention args => args.length ≤ 1
  | .timeOfDayMessage chars => oneMessage chars
  | .unknownCommand code => !knownCodes.contains code
  | .powerOn _ => true
  | .resetPinAssert => true
  | .resetPinRelease _ => true
  | .loadComplete _ => true
  | .loadFault _ => true
  | .ppsEdge _ => true
  | .localSecondBoundary => true
  | .slotTimeReached => true
  | .holdoverEntry => true
  | .holdoverLimitExpiry => true
  | .frameStart => true
  | .byteEvent _ => true
  | .frameEnd => true
  | .frameJudgement => true
  | .streamResolution => true
  | .closeCompletion => true
  | .snapshotByteTaken => true
  | .deliveryEnd => true
  | .markPulseEnd => true
  | .claimStart => true
  | .claimResolved _ => true
  | .foreignClaimResolved => true
  | .deferIdleExpiry => true
  | .transmissionComplete => true
  | .collision => true
  | .linkFrameEnd _ _ => true
  | .silenceExpiry _ => true
  | .chipSelectAssert => true
  | .chipSelectDeassert _ => true
  | .readStatus => true
  | .readRoster => true
  | .readCounters => true
  | .readLastDrop => true
  | .readResetCause => true
  | .clearCounters => true
  | .resumeClock => true
  | .reload => true
  | .linkIdleJudged => true

end Sys2Proof
end

