-- ==== Sys2Proof/Decode.lean ====
section
/-! DEFINITION. The commands that a word of spec/opcode_table.json spells, and those that the code byte
of the service port spells (R202). The table gives none of its rows any bits (every row's "fields" is
empty and none has a "fixed" or a word), so no word spells a command. -/

namespace Sys2Proof

/-- The command a table word spells: none, whatever the word, because no row of the table has bits. -/
def decodeTableWord (_nbits _w : Nat) : Option Instr := none

/-- The code table of the service port (R202): for each code, how many argument bytes it takes and the
command it names with the argument bytes shifted in. -/
def serviceTable : List (Byte × Nat × (List Byte → Instr)) :=
  [(0x10, 0, fun _ => .readStatus), (0x11, 0, fun _ => .readRoster), (0x12, 1, .readStream),
    (0x13, 0, fun _ => .readCounters), (0x14, 0, fun _ => .readLastDrop),
    (0x15, 0, fun _ => .readResetCause), (0x20, 0, fun _ => .clearCounters), (0x21, 2, .setWait),
    (0x22, 1, .enableStream), (0x23, 1, .disableStream), (0x24, 0, fun _ => .resumeClock),
    (0x25, 1, .ackAttention), (0x2F, 0, fun _ => .reload)]

/-- How many argument bytes a code takes: none for a code that names no command (R202). -/
def argumentCount (code : Byte) : Nat :=
  match serviceTable.find? (fun e => e.1 == code) with
  | some e => e.2.1
  | none => 0

/-- The command that a code byte with the argument bytes shifted in spells (R202). -/
def serviceCommand (code : Byte) (args : List Byte) : Instr :=
  match serviceTable.find? (fun e => e.1 == code) with
  | some e => e.2.2 args
  | none => .unknownCommand code

end Sys2Proof
end

