-- ==== Sys2Proof/Machine/State.lean ====
section
/-! DEFINITION. The state of one LA-16: every register, buffer, queue, counter, mode and line the
spec gives the node, block by block (00_scope.md section 3), the queue of waiting commands, the
reasons a command can stop, and the state right after a power-on reset. -/

namespace Sys2Proof.Machine

open Sys2Proof

/-- Why a command stops with a fault. -/
inductive Fault where
  /-- Raised by every meaning when its operands are not ones the outside world can send
  (`Instr.wellFormed` fails). Safe: the model stops where the node has no such event. -/
  | illFormed
  deriving DecidableEq, Repr

/-- Why a command is refused. -/
inductive Refusal where
  /-- Raised by `exec` for a command that has no meaning yet. Safe. -/
  | notModelled (mnemonic : String)
  deriving DecidableEq, Repr

/-! ## Lines (00_scope.md section 5) -/

/-- The levels of the input lines that rules read between events. -/
structure Pins where
  /-- The reset pin is asserted (R189). -/
  resetAsserted : Bool
  /-- The intake port's frame-valid strobe is asserted (R25, R26). -/
  strobe : Bool
  /-- The service port's chip select is asserted (R201). -/
  chipSelect : Bool
  deriving DecidableEq, Repr

/-! ## Configuration loader (chapter 10) -/

/-- The loader's three states (R191). -/
inductive LoaderState where
  | loading | loaded | fault
  deriving DecidableEq, Repr

/-- The fault reasons of the load report, in the order R219 encodes them. -/
inductive FaultReason where
  | none | markerFault | lengthFault | crcFault | slotRateFault | encodingFault | stationFault
  | countFault | streamRateFault | phasorFault | codeFault | duplicateCodeFault | primaryFault
  deriving DecidableEq, Repr

/-- The item of a fault place within its section (R219). -/
inductive FaultItem where
  | none
  | position (n : Nat)
  | monitor (n : Nat)
  deriving DecidableEq, Repr

/-- A fault place: a station section and an item in it (R191). -/
structure FaultPlace where
  station : Nat
  item : FaultItem
  deriving DecidableEq, Repr

/-- The shared-section settings clamped by a load (R191, R194), in the bit order of R219. -/
structure Clamps where
  defaultWait : Bool
  grace : Bool
  silenceLimit : Bool
  holdoverLimit : Bool
  blanking : Bool
  lockTolerance : Bool
  stepLimit : Bool
  snapTolerance : Bool
  holdLimit : Bool
  earlyLimit : Bool
  accuracyLimit : Bool
  deriving DecidableEq, Repr

/-- No setting clamped. -/
def Clamps.none : Clamps :=
  ⟨false, false, false, false, false, false, false, false, false, false, false⟩

/-- The load report less the strap index, which the loader holds beside it (R191). -/
structure LoadReport where
  reason : FaultReason
  place : Option FaultPlace
  clamped : Clamps
  digest : Option (BitVec 32)
  deriving DecidableEq, Repr

/-- The empty load report of a reset (R191). -/
def LoadReport.empty : LoadReport := ⟨.none, none, .none, none⟩

/-- The reset cause record, a set of four flags (R190). -/
structure ResetCause where
  powerOn : Bool
  pin : Bool
  reload : Bool
  configFault : Bool
  deriving DecidableEq, Repr

/-- The PPS edge select (R3). -/
inductive EdgeSelect where
  | off | rising | falling
  deriving DecidableEq, Repr

/-- The settings of the shared section as every block uses them (chapter 10, section 10.3). -/
structure Shared where
  slotRate : Rate
  /-- The configured station set, ascending. -/
  stations : List Station
  defaultWait : Nat
  /-- G in milliseconds. -/
  grace : Nat
  /-- In milliseconds. -/
  silenceLimit : Nat
  /-- In seconds. -/
  holdoverLimit : Nat
  stopOnExpiry : Bool
  edgeSelect : EdgeSelect
  /-- c in fu. -/
  delayComp : Nat
  /-- In milliseconds. -/
  blanking : Nat
  /-- In fu. -/
  lockTolerance : Nat
  /-- In fu. -/
  stepLimit : Nat
  /-- T_snap in fu. -/
  snapTolerance : Nat
  /-- H in stream periods. -/
  holdLimit : Nat
  /-- In microseconds. -/
  earlyLimit : Nat
  accuracyLimit : Nat
  /-- The shared digest (R193). -/
  digest : BitVec 32
  deriving DecidableEq, Repr

/-- The working settings that stand before a load has ended in LOADED. No rule reads them then
(notes/assumptions/5.md). DESIGN CHOICE, unsafe. -/
def Shared.blank : Shared :=
  { slotRate := .r10, stations := [], defaultWait := 0, grace := 0, silenceLimit := 0,
    holdoverLimit := 0, stopOnExpiry := false, edgeSelect := .off, delayComp := 0, blanking := 0,
    lockTolerance := 0, stepLimit := 0, snapTolerance := 0, holdLimit := 0, earlyLimit := 0,
    accuracyLimit := 0, digest := 0 }

/-- The configuration loader: its state, the strap index, the load report, the reset cause record
and the working configuration's shared part. -/
structure Loader where
  state : LoaderState
  strap : Station
  report : LoadReport
  cause : ResetCause
  shared : Shared
  /-- MODEL'S OWN: the reset pin was asserted while an accepted RELOAD waited for its deassertion, and
  no time has passed since, so that the two still fall together (R190; notes/assumptions/32.md). -/
  reloadMet : Bool
  deriving DecidableEq, Repr

/-! ## Station clock (chapter 1) -/

/-- A time-of-day message that passed its check: the second it names and the leap it announces (R6, R7). -/
structure TodMessage where
  second : Nat
  leap : Option LeapKind
  deriving DecidableEq, Repr

/-- The station clock. -/
structure Clock where
  state : ClockState
  /-- The local count (R1). -/
  now : Time
  /-- Oscillator time since the last accepted edge, absent if none (R4). -/
  edgeAge : Option Nat
  pendingTod : Option TodMessage
  announcement : Option LeapKind
  /-- Oscillator time since the last step, absent if none (R16). -/
  stepAge : Option Nat
  holdoverAge : Nat
  holdoverLong : Bool
  /-- The newest tag opened since reset (R22). -/
  newest : Option Tag
  /-- MODEL'S OWN: the count has wrapped and the boundary is not delivered yet (notes/assumptions/1.md). -/
  boundaryDue : Bool
  /-- MODEL'S OWN: the count has reached a slot time the cadence has not evaluated yet (notes/assumptions/1.md). -/
  slotDue : Bool
  /-- MODEL'S OWN: oscillator time since the load ended in LOADED, absent before (R23, R215;
  notes/assumptions/31.md). -/
  loadAge : Option Nat
  deriving DecidableEq, Repr

/-- The clock's reset state (R23). -/
def Clock.reset : Clock :=
  { state := .acquiring, now := ⟨0, 0⟩, edgeAge := none, pendingTod := none, announcement := none,
    stepAge := none, holdoverAge := 0, holdoverLong := false, newest := none,
    boundaryDue := false, slotDue := false, loadAge := none }

/-! ## Intake unit (chapter 2) -/

/-- An arrival stamp: the local count at frame start with its known-second mark (R28). -/
structure Stamp where
  at_ : Time
  known : Bool
  deriving DecidableEq, Repr, Inhabited

/-- The writer's five states (R25). -/
inductive WriterState where
  | closed | idle | receiving | discarding | ignoring
  deriving DecidableEq, Repr

/-- The checker's two states (R33). -/
inductive CheckerState where
  | idle | checking
  deriving DecidableEq, Repr

/-- The reasons of the last-drop record, in the order R219 encodes them. -/
inductive DropReason where
  | none | bufferFull | oversize | runt | badMarker | format | badCrc | unknownSource
  | disabledSource | early | late | duplicate | stale
  deriving DecidableEq, Repr

/-- The last-drop record (R43). -/
structure LastDrop where
  code : Nat
  reason : DropReason
  stamp : Time
  deriving DecidableEq, Repr

/-- The intake unit. -/
structure Intake where
  writer : WriterState
  readPtr : Pos
  writeHead : Pos
  writeCur : Pos
  /-- Bytes of the complete region, 0..32,768 (R27). -/
  held : Nat
  /-- Bytes taken of the frame in reception (R29). -/
  frameBytes : Nat
  /-- Arrival stamp of the frame in reception (R28). -/
  frameStamp : Stamp
  checker : CheckerState
  lastDrop : LastDrop
  /-- The buffer memory, positions 0..32,767 in canonical form (R27). -/
  mem : List Host.Cell
  deriving DecidableEq, Repr

/-- The intake's reset state around a buffer memory whose contents the reset leaves (R27, R46). -/
def Intake.reset (mem : List Host.Cell) : Intake :=
  { writer := .closed, readPtr := 0, writeHead := 0, writeCur := 0, held := 0, frameBytes := 0,
    frameStamp := ⟨⟨0, 0⟩, false⟩, checker := .idle, lastDrop := ⟨0, .none, ⟨0, 0⟩⟩, mem := mem }

/-! ## Stream directory and sample rings (chapter 3) -/

/-- The role of a directory entry (R48). -/
inductive Role where
  | primary
  | secondary (station : Station)
  deriving DecidableEq, Repr

/-- A directory entry (R47). -/
structure Entry where
  code : Nat
  rate : Rate
  phasors : Nat
  role : Role
  enabledAtStart : Bool
  deriving DecidableEq, Repr

/-- A sample held in a ring (R38, R55). -/
structure Sample where
  t : Time
  phasors : List Phasor
  freq : Int
  rocof : Int
  digital : BitVec 16
  invalid : Bool
  suspect : Bool
  stamp : Stamp
  settled : Bool
  deriving DecidableEq, Repr, Inhabited

/-- Stream health (chapter 3, section 3.3). -/
inductive Health where
  | unseen | live | stalled | disabled
  deriving DecidableEq, Repr

/-- The six per-stream counters (R63). -/
structure StreamCounters where
  admitted : Nat
  lateAdmitted : Nat
  evicted : Nat
  late : Nat
  duplicate : Nat
  stale : Nat
  deriving DecidableEq, Repr

/-- The per-stream counters at 0. -/
def StreamCounters.zero : StreamCounters := ⟨0, 0, 0, 0, 0, 0⟩

/-- One stream: its directory entry and all the directory keeps for it. The pending and working
enable sets (R50) are the streams whose flag is set. -/
structure Stream where
  entry : Entry
  pending : Bool
  working : Bool
  health : Health
  /-- Oscillator time since the last admission, absent if none (R52). -/
  age : Option Nat
  /-- Samples in timestamp order, oldest first (R55). -/
  ring : List Sample
  /-- The horizon, a slot time or none (R57). -/
  horizon : Option Time
  counters : StreamCounters
  deriving DecidableEq, Repr

/-! ## Cells and marks (chapters 5 and 9) -/

/-- The values of a cell that is not ABSENT (R91). -/
structure CellValues where
  phasors : List Phasor
  freq : Int
  rocof : Int
  digital : BitVec 16
  deriving DecidableEq, Repr, Inhabited

/-- A cell (R91). `values` is none exactly for quality ABSENT. -/
structure Cell where
  code : Nat
  quality : Quality
  invalid : Bool
  suspect : Bool
  secondary : Bool
  used : Bool
  primary : Nat
  values : Option CellValues
  deriving DecidableEq, Repr, Inhabited

/-- A mark of a record or a share (R183): its station is the record's or the sender. -/
structure Mark where
  monitor : Nat
  code : Nat
  direction : Direction
  deriving DecidableEq, Repr

/-! ## Slot table (chapter 4) -/

/-- The four states of a record. -/
inductive RecordState where
  | opened | closing | gathering | draining
  deriving DecidableEq, Repr

/-- A record's attachment for one peer (R146); STORED holds its blocks in order and the frame's length (R143). -/
inductive Attachment where
  | none
  | stored (blocks : List Block) (length : Nat)
  | lost
  | abandoned
  deriving DecidableEq, Repr, Inhabited

/-- A slot record (R65). -/
structure Record where
  tag : Tag
  state : RecordState
  closeDeadline : Time
  gatherDeadline : Time
  /-- The close deadline has passed (R71). -/
  closePassed : Bool
  /-- The gathering deadline has passed (R71). -/
  gatherPassed : Bool
  /-- The enable set: directory positions, ascending. -/
  enabled : List Nat
  /-- Absent while OPEN, then the cells resolved so far in position order. -/
  cells : Option (List Cell)
  marks : List Mark
  /-- Absent until close completion, then the stations waited for, ascending (R147). -/
  expected : Option (List Station)
  attachments : Vector Attachment 16
  afterStep : Bool
  deriving DecidableEq, Repr

/-- The close sequencer (R73). -/
inductive Sequencer where
  | idle | closing
  deriving DecidableEq, Repr

/-- The slot table. -/
structure Table where
  /-- Records in tag order, oldest first. -/
  records : List Record
  sequencer : Sequencer
  /-- The after-step mark (R67). -/
  afterStep : Bool
  /-- W_req in milliseconds (R69). -/
  requestedWait : Nat
  /-- W_eff in fu (R70). -/
  effectiveWait : Nat
  /-- G_eff in fu (R70). -/
  effectiveGrace : Nat
  deriving DecidableEq, Repr

/-- The slot table's reset state (R86). -/
def Table.reset : Table :=
  { records := [], sequencer := .idle, afterStep := false, requestedWait := 0,
    effectiveWait := 0, effectiveGrace := 0 }

/-! ## Link controller (chapter 6) -/

/-- The three link states (R108). -/
inductive LinkState where
  | listening | active | muted
  deriving DecidableEq, Repr

/-- What the receiver makes of the line (R107, R121, R129). -/
inductive Medium where
  /-- Judged busy; the traffic until the next idle is not taken. -/
  | unsynced
  /-- Judged idle. -/
  | idle
  /-- A frame this station takes is on the line. -/
  | foreign
  /-- This station's own claim or transmission, up to the idle that ends it. -/
  | own
  deriving DecidableEq, Repr

/-- A notice waiting or in transmission (R110). -/
structure Notice where
  kind : NoticeKind
  tag : Tag
  deriving DecidableEq, Repr

/-- A pending beacon: the second of the boundary that queued it, with its known mark (R111). -/
structure BeaconSecond where
  second : Nat
  known : Bool
  deriving DecidableEq, Repr

/-- The fields of a beacon frame after the common header (chapter 6, section 6.2). -/
structure BeaconFrame where
  clock : ClockState
  slotRate : Byte
  digest : BitVec 32
  wait : BitVec 32
  grace : BitVec 32
  second : BeaconSecond
  deriving DecidableEq, Repr

/-- The fields of a share frame after the common header (chapter 6, section 6.2). -/
structure ShareFrame where
  tag : Tag
  slotRate : Byte
  digest : BitVec 32
  clock : ClockState
  cells : List Cell
  marks : List Mark
  deriving DecidableEq, Repr

/-- A share in the queue: the link controller's copy with the gathering deadline (R109). -/
structure QueuedShare where
  tag : Tag
  cells : List Cell
  marks : List Mark
  deadline : Time
  /-- The deadline has passed (R120). -/
  passed : Bool
  deriving DecidableEq, Repr

/-- A frame this station sends, its fields fixed at the start bit (R112, R117). -/
inductive OutFrame where
  | notice (n : Notice)
  | share (f : ShareFrame)
  | beacon (f : BeaconFrame)
  deriving DecidableEq, Repr

/-- How far a frame in transmission has come: in the claim, or past it (R113, R117). -/
inductive TxPhase where
  | claiming | transmitting
  deriving DecidableEq, Repr

/-- The frame in transmission (R112). -/
structure Transmission where
  frame : OutFrame
  phase : TxPhase
  deriving DecidableEq, Repr

/-- The link controller. -/
structure Link where
  state : LinkState
  medium : Medium
  /-- Outgoing shares in tag order, oldest first. -/
  queue : List QueuedShare
  notice : Option Notice
  beacon : Option BeaconSecond
  tx : Option Transmission
  deferFlag : Bool
  collisionRun : Nat
  deriving DecidableEq, Repr

/-- The link controller's reset state (R129). -/
def Link.reset : Link :=
  { state := .listening, medium := .unsynced, queue := [], notice := none, beacon := none,
    tx := none, deferFlag := false, collisionRun := 0 }

/-! ## Roster and share gatherer (chapter 7) -/

/-- The state of a roster entry (R131). -/
inductive PeerState where
  | unconfigured | unheard | present | silent | mismatched | local_
  deriving DecidableEq, Repr

/-- A roster entry (R131). -/
structure Peer where
  state : PeerState
  lastClock : Option ClockState
  /-- Last effective wait and grace, in fu. -/
  lastEffective : Option (Nat × Nat)
  lastBeacon : Option BeaconSecond
  misses : Nat
  /-- Oscillator time since the peer's last valid frame, absent if none. -/
  silence : Option Nat
  deriving DecidableEq, Repr

/-- An entry with nothing heard, in a given state (R131, R153). -/
def Peer.fresh (st : PeerState) : Peer := ⟨st, none, none, none, 0, none⟩

/-- The reception in progress: the header handed, the blocks taken, the short-of-room mark (R140). -/
structure Reception where
  header : List Byte
  blocks : List Block
  short : Bool
  deriving DecidableEq, Repr

/-- The roster and share gatherer. -/
structure Gather where
  roster : Vector Peer 16
  /-- The free-block list, head first (R139). -/
  free : List Block
  reception : Option Reception
  /-- The share store's bytes: block b, byte i at address 64 × b + i, in canonical form. -/
  mem : List Host.Cell
  deriving DecidableEq, Repr

/-- All 16,384 block numbers in ascending order (R139). -/
def allBlocks : List Block := (List.range Config.storeBlocks).map (BitVec.ofNat 14)

/-- The gatherer's reset state around a store whose contents the reset leaves (R139, R153). -/
def Gather.reset (mem : List Host.Cell) : Gather :=
  { roster := Vector.replicate 16 (Peer.fresh .unconfigured), free := allBlocks,
    reception := none, mem := mem }

/-! ## Snapshot assembler (chapter 8) -/

/-- A segment's status, in the order R212 encodes them. -/
inductive SegmentStatus where
  | local_ | received | missing | lost | abandoned | excluded
  deriving DecidableEq, Repr

/-- A segment as composed: its written cells after the merge (R161, R162). -/
structure Segment where
  station : Station
  status : SegmentStatus
  /-- None is UNKNOWN (R162). -/
  clock : Option ClockState
  cells : List Cell
  deriving DecidableEq, Repr

/-- The header flags (R159). -/
structure SnapshotFlags where
  gap : Bool
  afterStep : Bool
  holdoverLong : Bool
  marked : Bool
  partial_ : Bool
  deriving DecidableEq, Repr

/-- A composed snapshot: every value fixed by R157. -/
structure Composition where
  tag : Tag
  slotRate : Rate
  emitter : Station
  clock : ClockState
  flags : SnapshotFlags
  skipped : Nat
  /-- Marks with their stations, in the order of R163. -/
  marks : List (Station × Mark)
  segments : List Segment
  /-- Record length in bytes (R158). -/
  length : Nat
  deriving DecidableEq, Repr

/-- The assembler's three states; DELIVERING holds the composition and the bytes taken (R154). -/
inductive AssemblerState where
  | closed
  | idle
  | delivering (c : Composition) (taken : Nat)
  deriving DecidableEq, Repr

/-- The snapshot assembler and the MARK line. -/
structure Assembler where
  state : AssemblerState
  /-- The skipped count (R160). -/
  skipped : Nat
  /-- MARK high: oscillator time since the latest marked start; none is low (R169). -/
  mark : Option Nat
  deriving DecidableEq, Repr

/-- The assembler's reset state (R171). -/
def Assembler.reset : Assembler := ⟨.closed, 0, none⟩

/-! ## Excursion monitors (chapter 9) -/

/-- The quantity a monitor reads (R173). -/
inductive Quantity where
  | freq | rocof | mag0
  deriving DecidableEq, Repr

/-- The edge mode of a monitor (R173). -/
inductive EdgeMode where
  | off | rising | falling | both
  deriving DecidableEq, Repr

/-- The level a monitor stores for a position (R175). -/
inductive Level where
  | unknown | above | below
  deriving DecidableEq, Repr

/-- The settings of a monitor (R173). -/
structure MonitorSettings where
  quantity : Quantity
  threshold : Int
  base : BitVec 16
  mask : BitVec 16
  mode : EdgeMode
  blanking : Nat
  deriving DecidableEq, Repr

/-- One excursion monitor (R173 to R175, R179). -/
structure Monitor where
  settings : MonitorSettings
  /-- The watch set: directory positions, ascending (R174). -/
  watch : List Nat
  /-- One level for each of the 48 positions. -/
  levels : List Level
  countdown : Nat
  /-- The note that it fired in the current close (R179). -/
  fired : Bool
  deriving DecidableEq, Repr

/-- A monitor at reset: no settings, behaving as OFF (R188). -/
def Monitor.reset : Monitor :=
  { settings := ⟨.freq, 0, 0, 0, .off, 0⟩, watch := [],
    levels := List.replicate Config.maxStreams .unknown, countdown := 0, fired := false }

/-! ## Service port (chapter 11) -/

/-- The port's five phases (R201). -/
inductive PortPhase where
  | waiting | command | arguments | response | dropping
  deriving DecidableEq, Repr

/-- The four attention causes (R209). -/
structure Causes where
  configFault : Bool
  indexClash : Bool
  clockStopped : Bool
  countWatch : Bool
  deriving DecidableEq, Repr

/-- No cause pending. -/
def Causes.none : Causes := ⟨false, false, false, false⟩

/-- The service port. -/
structure Port where
  phase : PortPhase
  /-- The command byte taken, while its arguments are shifted in. -/
  command : Option Byte
  /-- The argument bytes taken so far. -/
  args : List Byte
  /-- The whole response fixed at the taking of the command (R202). -/
  response : List Byte
  reloadPending : Bool
  causes : Causes
  deriving DecidableEq, Repr

/-- The service port's reset state (R211). -/
def Port.reset : Port :=
  { phase := .dropping, command := none, args := [], response := [], reloadPending := false,
    causes := .none }

/-! ## Station counters -/

/-- The 48 station counters, in the order READ_COUNTERS sends them (R219). -/
inductive Counter where
  | ppsSpurious | phaseHit | todBad | leap
  | framesReceived | samplesAdmitted | bufferFull | oversize | runt | badMarker | format | badCrc
  | unknownSource | disabledSource | early | late | duplicate | stale | framesIgnored
  | earlyClose | recordsAbandoned | skipped | tableFull
  | linkFramesSent | linkFramesReceived | linkBadLength | linkBadCrc | linkBadKind | stranger
  | indexClash | collision | shareExpired | shareDisplaced
  | sharesStored | shareLost | duplicateShare | lateShare | aheadShare | orphanShare | mismatch
  | mismatchedShare | peerSilent
  | snapshotsDelivered | codeConflict
  | marksAppended | marksBlanked | markOverflow
  | commandsRefused
  deriving DecidableEq, Repr

/-! ## The node -/

/-- The whole state of the node, with the commands that wait. -/
structure State where
  pins : Pins
  loader : Loader
  clock : Clock
  intake : Intake
  /-- The directory: one stream per entry, in position order (R47). -/
  streams : List Stream
  table : Table
  link : Link
  gather : Gather
  assembler : Assembler
  monitors : Vector Monitor 8
  port : Port
  counters : Vector Nat 48
  /-- Commands that wait, first in, first out. -/
  pending : List Instr
  deriving DecidableEq, Repr

/-- The eight monitors at reset (R188). -/
def Monitor.resetAll : Vector Monitor 8 := Vector.replicate 8 Monitor.reset

/-- Every station counter at 0. -/
def zeroCounters : Vector Nat 48 := Vector.replicate 48 0

/-- The node right after a power-on reset, its configuration load begun and nothing waiting. The
levels of the lines and the strap index are the model's (notes/assumptions/6.md). -/
def State.reset : State :=
  { pins := ⟨false, false, false⟩
    loader := { state := .loading, strap := 0, report := .empty,
                cause := ⟨true, false, false, false⟩, shared := .blank, reloadMet := false }
    clock := .reset
    intake := .reset []
    streams := []
    table := .reset
    link := .reset
    gather := .reset []
    assembler := .reset
    monitors := Monitor.resetAll
    port := .reset
    counters := zeroCounters
    pending := [] }

end Sys2Proof.Machine
end

