-- ==== Sys2Proof/Machine/Update.lean ====
section
/-! DEFINITION. One update for each field of State, so that every change to the node is written as
the block it changes. -/

namespace Sys2Proof.Machine

/-- The node with its `pins` replaced. -/
def State.setPins (s : State) (v : Pins) : State :=
  { s with pins := v }

/-- The node with its `loader` replaced. -/
def State.setLoader (s : State) (v : Loader) : State :=
  { s with loader := v }

/-- The node with its `clock` replaced. -/
def State.setClock (s : State) (v : Clock) : State :=
  { s with clock := v }

/-- The node with its `intake` replaced. -/
def State.setIntake (s : State) (v : Intake) : State :=
  { s with intake := v }

/-- The node with its `streams` replaced. -/
def State.setStreams (s : State) (v : List Stream) : State :=
  { s with streams := v }

/-- The node with its `table` replaced. -/
def State.setTable (s : State) (v : Table) : State :=
  { s with table := v }

/-- The node with its `link` replaced. -/
def State.setLink (s : State) (v : Link) : State :=
  { s with link := v }

/-- The node with its `gather` replaced. -/
def State.setGather (s : State) (v : Gather) : State :=
  { s with gather := v }

/-- The node with its `assembler` replaced. -/
def State.setAssembler (s : State) (v : Assembler) : State :=
  { s with assembler := v }

/-- The node with its `monitors` replaced. -/
def State.setMonitors (s : State) (v : Vector Monitor 8) : State :=
  { s with monitors := v }

/-- The node with its `port` replaced. -/
def State.setPort (s : State) (v : Port) : State :=
  { s with port := v }

/-- The node with its `counters` replaced. -/
def State.setCounters (s : State) (v : Vector Nat 48) : State :=
  { s with counters := v }

/-- The node with its `pending` replaced. -/
def State.setPending (s : State) (v : List Instr) : State :=
  { s with pending := v }

end Sys2Proof.Machine
end

