-- ==== Sys2Proof/Machine/Flags.lean ====
section
/-! DEFINITION. Counters, attention causes and every byte of flags: how a counter is incremented and
what that sets (R206, R210), and how each set of flags is encoded (R212, R219). -/

namespace Sys2Proof.Machine

open Sys2Proof

/-- A number from its bits, bit 0 first (R212). -/
def bitsNat : List Bool → Nat
  | [] => 0
  | b :: bs => (if b then 1 else 0) + 2 * bitsNat bs

/-- Every station counter, in the order of R219. -/
def Counter.all : List Counter :=
  [.ppsSpurious, .phaseHit, .todBad, .leap,
   .framesReceived, .samplesAdmitted, .bufferFull, .oversize, .runt, .badMarker, .format, .badCrc,
   .unknownSource, .disabledSource, .early, .late, .duplicate, .stale, .framesIgnored,
   .earlyClose, .recordsAbandoned, .skipped, .tableFull,
   .linkFramesSent, .linkFramesReceived, .linkBadLength, .linkBadCrc, .linkBadKind, .stranger,
   .indexClash, .collision, .shareExpired, .shareDisplaced,
   .sharesStored, .shareLost, .duplicateShare, .lateShare, .aheadShare, .orphanShare, .mismatch,
   .mismatchedShare, .peerSilent,
   .snapshotsDelivered, .codeConflict,
   .marksAppended, .marksBlanked, .markOverflow,
   .commandsRefused]

/-- A counter's place in the order of R219. -/
def Counter.index : Counter → Fin 48
  | .ppsSpurious => 0 | .phaseHit => 1 | .todBad => 2 | .leap => 3
  | .framesReceived => 4 | .samplesAdmitted => 5 | .bufferFull => 6 | .oversize => 7 | .runt => 8
  | .badMarker => 9 | .format => 10 | .badCrc => 11 | .unknownSource => 12 | .disabledSource => 13
  | .early => 14 | .late => 15 | .duplicate => 16 | .stale => 17 | .framesIgnored => 18
  | .earlyClose => 19 | .recordsAbandoned => 20 | .skipped => 21 | .tableFull => 22
  | .linkFramesSent => 23 | .linkFramesReceived => 24 | .linkBadLength => 25 | .linkBadCrc => 26
  | .linkBadKind => 27 | .stranger => 28 | .indexClash => 29 | .collision => 30
  | .shareExpired => 31 | .shareDisplaced => 32
  | .sharesStored => 33 | .shareLost => 34 | .duplicateShare => 35 | .lateShare => 36
  | .aheadShare => 37 | .orphanShare => 38 | .mismatch => 39 | .mismatchedShare => 40
  | .peerSilent => 41
  | .snapshotsDelivered => 42 | .codeConflict => 43
  | .marksAppended => 44 | .marksBlanked => 45 | .markOverflow => 46
  | .commandsRefused => 47

/-- The error group of COUNT_WATCH (R210 and the tables of R44, R84, R128, R152, R172, R187). -/
def Counter.inErrorGroup : Counter → Bool
  | .ppsSpurious | .phaseHit | .todBad => true
  | .bufferFull | .oversize | .runt | .badMarker | .format | .badCrc | .unknownSource
  | .early | .late | .stale => true
  | .recordsAbandoned | .skipped | .tableFull => true
  | .linkBadLength | .linkBadCrc | .linkBadKind | .stranger | .indexClash | .collision
  | .shareExpired | .shareDisplaced => true
  | .shareLost | .duplicateShare | .lateShare | .aheadShare | .mismatch | .peerSilent => true
  | .codeConflict => true
  | .markOverflow => true
  | .leap | .framesReceived | .samplesAdmitted | .disabledSource | .duplicate | .framesIgnored
  | .earlyClose | .linkFramesSent | .linkFramesReceived | .sharesStored | .orphanShare
  | .mismatchedShare | .snapshotsDelivered | .marksAppended | .marksBlanked | .commandsRefused => false

/-- The value of a station counter. -/
def State.count (s : State) (c : Counter) : Nat := s.counters[c.index]

/-- A 16-bit saturating increment (chapter 11, section 11.3). -/
def satInc (n : Nat) : Nat := min (n + 1) Config.counterMax

/-- The attention causes (R209). -/
inductive Cause where
  | configFault | indexClash | clockStopped | countWatch
  deriving DecidableEq, Repr

/-- The set with a cause added (R209). -/
def Causes.add (p : Causes) : Cause → Causes
  | .configFault => { p with configFault := true }
  | .indexClash => { p with indexClash := true }
  | .clockStopped => { p with clockStopped := true }
  | .countWatch => { p with countWatch := true }

/-- A setting event at the service port (R209). -/
def raise (c : Cause) (s : State) : State :=
  s.setPort { s.port with causes := s.port.causes.add c }

/-- A counter incremented once, COUNT_WATCH set at an error-group counter's step from 127 to 128 (R210). -/
def bump (c : Counter) (s : State) : State :=
  let s' := s.setCounters (s.counters.set c.index (satInc (s.count c)))
  if c.inErrorGroup && s.count c == Config.watchBelow then raise .countWatch s' else s'

/-- A counter incremented `n` times. -/
def bumpTimes (c : Counter) : Nat → State → State
  | 0, s => s
  | n + 1, s => bumpTimes c n (bump c s)

/-- The byte of the pending causes (R212). -/
def Causes.toNat (p : Causes) : Nat :=
  bitsNat [p.configFault, p.indexClash, p.clockStopped, p.countWatch]

/-- The ATTN line is asserted while a cause is pending (R209). -/
def State.attn (s : State) : Bool :=
  s.port.causes.configFault || s.port.causes.indexClash || s.port.causes.clockStopped
    || s.port.causes.countWatch

/-- The MARK line is high during a pulse (R169). -/
def State.markHigh (s : State) : Bool := s.assembler.mark.isSome

/-- The causes left after removing those a mask names (R209). -/
def Causes.without (p : Causes) (mask : Byte) : Causes :=
  { configFault := p.configFault && !mask.getLsbD 0
    indexClash := p.indexClash && !mask.getLsbD 1
    clockStopped := p.clockStopped && !mask.getLsbD 2
    countWatch := p.countWatch && !mask.getLsbD 3 }

/-- The byte of the reset cause record (R212). -/
def ResetCause.toNat (r : ResetCause) : Nat := bitsNat [r.powerOn, r.pin, r.reload, r.configFault]

/-- The clamped settings as a bit set (R219). -/
def Clamps.toNat (c : Clamps) : Nat :=
  bitsNat [c.defaultWait, c.grace, c.silenceLimit, c.holdoverLimit, c.blanking, c.lockTolerance,
    c.stepLimit, c.snapTolerance, c.holdLimit, c.earlyLimit, c.accuracyLimit]

/-- CONFIG_CLAMPED: the clamped settings are not empty (R191). -/
def Clamps.any (c : Clamps) : Bool := c != .none

/-- The byte of the snapshot flags (R212). -/
def SnapshotFlags.toNat (f : SnapshotFlags) : Nat :=
  bitsNat [f.gap, f.afterStep, f.holdoverLong, f.marked, f.partial_]

/-- The byte of a cell's flags (R212). -/
def Cell.flags (c : Cell) : Nat := bitsNat [c.invalid, c.suspect, c.secondary, c.used]

end Sys2Proof.Machine
end

