-- ==== Sys2Proof/Machine/Memory.lean ====
section
/-! DEFINITION. The node's two addressed memories, the intake buffer (R27) and the share store
(R139), as lists of address and byte pairs in one canonical form: addresses strictly rising, no
entry equal to what an unlisted address reads as. -/

namespace Sys2Proof

/-- A memory: (address, byte) pairs. -/
abbrev Memory := List Host.Cell

/-- What an unlisted address reads as (notes/assumptions/7.md). DESIGN CHOICE, unsafe. -/
abbrev unwritten : Byte := 0

/-- Every listed address lies above `low`. -/
def memAbove (low : Nat) : Memory → Bool
  | [] => true
  | (a, _) :: m => low < a && memAbove low m

/-- The canonical form holds. -/
def memWf : Memory → Bool
  | [] => true
  | (a, v) :: m => v != unwritten && memAbove a m && memWf m

/-- The byte at an address. -/
def memRead : Memory → Nat → Byte
  | [], _ => unwritten
  | (k, v) :: m, a => if k = a then v else memRead m a

/-- The memory with a byte written; writing what an unlisted address reads as removes the entry. -/
def memWrite : Memory → Nat → Byte → Memory
  | [], a, v => if v = unwritten then [] else [(a, v)]
  | (k, w) :: m, a, v =>
    if a < k then (if v = unwritten then (k, w) :: m else (a, v) :: (k, w) :: m)
    else if a = k then (if v = unwritten then m else (a, v) :: m)
    else (k, w) :: memWrite m a v

/-- Bytes written at rising addresses. -/
def memWriteRun : Memory → Nat → List Byte → Memory
  | m, _, [] => m
  | m, a, b :: bs => memWriteRun (memWrite m a b) (a + 1) bs

/-- Bytes read at rising addresses. -/
def memReadRun (m : Memory) (a : Nat) : Nat → List Byte
  | 0 => []
  | n + 1 => memRead m a :: memReadRun m (a + 1) n

/-- Bytes written into the intake buffer from a position on, following 32,767 to 0 (R27). -/
def bufferWrite : Memory → Pos → List Byte → Memory
  | m, _, [] => m
  | m, p, b :: bs => bufferWrite (memWrite m p.toNat b) (p + 1) bs

/-- Bytes read from the intake buffer from a position on, following 32,767 to 0 (R33). -/
def bufferRead (m : Memory) (p : Pos) : Nat → List Byte
  | 0 => []
  | n + 1 => memRead m p.toNat :: bufferRead m (p + 1) n

/-- The store address of a block's first byte (R139). -/
def blockBase (b : Block) : Nat := b.toNat * Config.blockSize

/-- Bytes written into an ordered list of blocks, 64 to a block; no byte past the last block (R121, R139). -/
def storeWrite : Memory → List Block → List Byte → Memory
  | m, [], _ => m
  | m, b :: bs, bytes =>
    storeWrite (memWriteRun m (blockBase b) (bytes.take Config.blockSize)) bs
      (bytes.drop Config.blockSize)

/-- The bytes an ordered list of blocks holds. -/
def storeReadAll (m : Memory) : List Block → List Byte
  | [] => []
  | b :: bs => memReadRun m (blockBase b) Config.blockSize ++ storeReadAll m bs

/-- The first `length` bytes of an ordered list of blocks (R139). -/
def storeRead (m : Memory) (blocks : List Block) (length : Nat) : List Byte :=
  (storeReadAll m blocks).take length

end Sys2Proof
end

