-- ==== Sys2Proof/Machine/Crc.lean ====
section
/-! DEFINITION. The two check values of R213, bit by bit. -/

namespace Sys2Proof

/-- One bit of the CRC-16: shift left, and add the generator 0x1021 if a 1 fell out (R213). -/
def crc16Bit (c : BitVec 16) : BitVec 16 :=
  if c.getLsbD 15 then (c <<< 1) ^^^ 0x1021#16 else c <<< 1

/-- Eight bits of the CRC-16. -/
def crc16Eight (c : BitVec 16) : BitVec 16 :=
  crc16Bit (crc16Bit (crc16Bit (crc16Bit (crc16Bit (crc16Bit (crc16Bit (crc16Bit c)))))))

/-- One byte into the CRC-16, most significant bit first (R213). -/
def crc16Byte (c : BitVec 16) (b : Byte) : BitVec 16 :=
  crc16Eight (c ^^^ (b.setWidth 16 <<< 8))

/-- The CRC-16 of a list of bytes: from 0xFFFF, not reflected, no final inversion (R213). -/
def crc16 (bytes : List Byte) : BitVec 16 := bytes.foldl crc16Byte 0xFFFF#16

/-- One bit of the CRC-32 held reflected: shift right, and add the reflected generator
0xEDB88320 of 0x04C11DB7 if a 1 fell out (R213). -/
def crc32Bit (c : BitVec 32) : BitVec 32 :=
  if c.getLsbD 0 then (c >>> 1) ^^^ 0xEDB88320#32 else c >>> 1

/-- Eight bits of the CRC-32. -/
def crc32Eight (c : BitVec 32) : BitVec 32 :=
  crc32Bit (crc32Bit (crc32Bit (crc32Bit (crc32Bit (crc32Bit (crc32Bit (crc32Bit c)))))))

/-- One byte into the CRC-32, least significant bit first (R213). -/
def crc32Byte (c : BitVec 32) (b : Byte) : BitVec 32 := crc32Eight (c ^^^ b.setWidth 32)

/-- The CRC-32 of a list of bytes: from 0xFFFFFFFF, result reflected and inverted (R213). -/
def crc32 (bytes : List Byte) : BitVec 32 := ~~~ bytes.foldl crc32Byte 0xFFFFFFFF#32

end Sys2Proof
end

