-- ==== Sys2Proof/Machine/Time.lean ====
section
/-! DEFINITION. Arithmetic of times, tags and rates (00_scope.md section 6; R1, R20, R58, R89). -/

namespace Sys2Proof

/-- The second after a second of the 32-bit seconds field. Past the field's last value the spec
states no result: there it is the open value (notes/assumptions/3.md). -/
def nextSecond (n : Nat) : Nat :=
  if n < Config.lastSecond then n + 1 else Config.secondAfterLast.toNat

/-- The second that follows `n` by `k` seconds. -/
def addSeconds (n : Nat) : Nat → Nat
  | 0 => n
  | k + 1 => nextSecond (addSeconds n k)

/-- A time a duration later, carried over second boundaries (00_scope.md section 6.1). -/
def Time.plus (t : Time) (d : Nat) : Time :=
  ⟨addSeconds t.sec ((t.fu + d) / Config.fuPerSecond), (t.fu + d) % Config.fuPerSecond⟩

/-- A time a duration earlier, borrowing from the second; none before second 0, fu 0 (R58). -/
def Time.minus (t : Time) (d : Nat) : Option Time :=
  let total := t.sec * Config.fuPerSecond + t.fu
  if total < d then none
  else some ⟨(total - d) / Config.fuPerSecond, (total - d) % Config.fuPerSecond⟩

/-- The signed difference `a − b` in fu (R89). -/
def Time.diff (a b : Time) : Int :=
  ((a.sec : Int) - b.sec) * Config.fuPerSecond + ((a.fu : Int) - b.fu)

/-- `a` is earlier than `b`, by second first and then by fu (R39). -/
def Time.before (a b : Time) : Bool :=
  a.sec < b.sec || (a.sec == b.sec && a.fu < b.fu)

/-- `a` is at or before `b`. -/
def Time.atOrBefore (a b : Time) : Bool := !b.before a

/-- The fu from `a` on to `b`, 0 when `b` is not later. -/
def Time.until_ (a b : Time) : Nat := (b.diff a).toNat

/-- `a` is older than `b` (00_scope.md section 6.3). -/
def Tag.older (a b : Tag) : Bool :=
  a.sec < b.sec || (a.sec == b.sec && a.k < b.k)

/-- `a` is at or before `b`. -/
def Tag.atOrOlder (a b : Tag) : Bool := !b.older a

/-- The rate itself, per second (00_scope.md section 6.2, R212). -/
def Rate.perSecond : Rate → Nat
  | .r10 => 10 | .r25 => 25 | .r30 => 30 | .r50 => 50 | .r60 => 60 | .r100 => 100 | .r120 => 120

/-- The period of a rate in fu (00_scope.md section 6.2). -/
def Rate.period : Rate → Nat
  | .r10 => 600000 | .r25 => 240000 | .r30 => 200000 | .r50 => 120000 | .r60 => 100000
  | .r100 => 60000 | .r120 => 50000

/-- The rate a number names, none outside the rate set (R212). -/
def rateOfNat (n : Nat) : Option Rate :=
  if n = 10 then some .r10 else if n = 25 then some .r25 else if n = 30 then some .r30
  else if n = 50 then some .r50 else if n = 60 then some .r60 else if n = 100 then some .r100
  else if n = 120 then some .r120 else none

/-- The slot time τ of a tag on the grid of a slot rate (00_scope.md section 6.3). -/
def slotTime (r : Rate) (t : Tag) : Time := ⟨t.sec, t.k * r.period⟩

/-- The current tag of a count on the grid of a slot rate (R20). -/
def currentTag (r : Rate) (now : Time) : Tag := ⟨now.sec, now.fu / r.period⟩

end Sys2Proof
end

