-- ==== Sys2Proof/Machine/Operands.lean ====
section
/-! DEFINITION. The external formats of chapter 12: how the bytes of a time-of-day message, a
measurement frame and a link frame are read, and how link frames and snapshot records are written. -/

namespace Sys2Proof.Machine

open Sys2Proof

/-! ## Fields -/

/-- The value of bytes, most significant first (R212). -/
def beNat (bytes : List Byte) : Nat := bytes.foldl (fun n b => n * 256 + b.toNat) 0

/-- A value in a number of bytes, most significant first (R212). -/
def beBytes : Nat → Nat → List Byte
  | 0, _ => []
  | w + 1, n => BitVec.ofNat 8 (n / 256 ^ w) :: beBytes w n

/-- The unsigned field of `len` bytes at an offset. -/
def field (bytes : List Byte) (off len : Nat) : Nat := beNat ((bytes.drop off).take len)

/-- A 16-bit two's complement number (R212). -/
def signed16 (n : Nat) : Int := (BitVec.ofNat 16 n).toInt

/-- A 32-bit two's complement number (R212). -/
def signed32 (n : Nat) : Int := (BitVec.ofNat 32 n).toInt

/-- A signed number as its 16-bit two's complement value (R212). -/
def unsigned16 (v : Int) : Nat := (BitVec.ofInt 16 v).toNat

/-- A time in 7 bytes (R212). -/
def timeBytes (t : Time) : List Byte := beBytes 4 t.sec ++ beBytes 3 t.fu

/-- A slot tag in 5 bytes (R212). -/
def tagBytes (t : Tag) : List Byte := beBytes 4 t.sec ++ beBytes 1 t.k

/-- The slot tag at an offset (R212). -/
def tagAt (bytes : List Byte) (off : Nat) : Tag := ⟨field bytes off 4, field bytes (off + 4) 1⟩

/-- The encoding of a clock state (R212). -/
def clockCode : ClockState → Nat
  | .acquiring => 0 | .locked => 1 | .holdover => 2 | .stepping => 3 | .stopped => 4

/-- The encoding of a clock state or of UNKNOWN or none, 7 (R212). -/
def clockCodeOr7 : Option ClockState → Nat
  | some c => clockCode c
  | none => 7

/-- The clock state a number encodes (R212). -/
def clockOf (n : Nat) : Option ClockState :=
  if n = 0 then some .acquiring else if n = 1 then some .locked else if n = 2 then some .holdover
  else if n = 3 then some .stepping else if n = 4 then some .stopped else none

/-- The encoding of a cell quality, which also ranks it: lower is better (R165, R212). -/
def qualityCode : Quality → Nat
  | .exact => 0 | .interpolated => 1 | .held => 2 | .absent => 3

/-- The quality a number encodes (R212). -/
def qualityOf (n : Nat) : Option Quality :=
  if n = 0 then some .exact else if n = 1 then some .interpolated else if n = 2 then some .held
  else if n = 3 then some .absent else none

/-- The encoding of a mark direction (R212). -/
def directionCode : Direction → Nat
  | .rising => 1 | .falling => 2

/-- The direction a number encodes (R212). -/
def directionOf (n : Nat) : Option Direction :=
  if n = 1 then some .rising else if n = 2 then some .falling else none

/-- The encoding of a notice kind (R212). -/
def noticeCode : NoticeKind → Nat
  | .stepped => 1 | .stopping => 2

/-- The notice kind a number encodes (R212). -/
def noticeOf (n : Nat) : Option NoticeKind :=
  if n = 1 then some .stepped else if n = 2 then some .stopping else none

/-! ## Time-of-day message (R215) -/

/-- The number that data bits carry, the first one least significant (R215). -/
def dataNat (bits : List Bool) : Nat := bits.foldr (fun b n => b.toNat + 2 * n) 0

/-- The byte a character carries: its data bits least significant first, whether its stop bit stood or
not (R215). -/
def todByte (c : TodChar) : Byte := BitVec.ofNat 8 (dataNat c.data.toList)

/-- A character on the line: its start bit, its eight data bits in order, its stop bit (R215). PRESUMED:
the start bit is a 0 and the stop bit a 1, as asynchronous characters have them; the spec gives the two
no level (notes/assumptions/35.md). -/
def todBits (c : TodChar) : List Bool := false :: (c.data.toList ++ [c.stop])

/-- The character that ten bits of the line are, with its age: none where no start bit begins it (R215). -/
def readTodChar (age : Nat) : List Bool → Option TodChar
  | [false, b0, b1, b2, b3, b4, b5, b6, b7, stop] =>
    some ⟨#v[b0, b1, b2, b3, b4, b5, b6, b7], stop, age⟩
  | _ => none

/-- The check of R6 and R215 on a whole message, and what a good message says. -/
def checkTod (bytes : List Byte) : Option TodMessage :=
  let flags := (bytes.getD 1 0)
  let leapPending := flags.getLsbD 0
  let ins := flags.getLsbD 1
  let del := flags.getLsbD 2
  if bytes.length = 8 ∧ bytes.getD 0 0 = 0x5C#8 ∧ crc16 (bytes.take 6) = BitVec.ofNat 16 (field bytes 6 2)
      ∧ ¬ (leapPending = true ∧ ins = del) then
    some { second := field bytes 2 4,
           leap := if leapPending then (if ins then some .insertSecond else some .deleteSecond) else none }
  else none

/-! ## Measurement frame (R214) -/

/-- The source code field. -/
def frameCode (f : List Byte) : Nat := field f 4 2
/-- The fraction field, microseconds. -/
def frameFraction (f : List Byte) : Nat := field f 10 3
/-- The phasor count field. -/
def framePhasors (f : List Byte) : Nat := field f 16 1

/-- The phasors in 5 bytes each, phasor 0 first (R214, R216). -/
def phasorsAt (f : List Byte) (off : Nat) : Nat → List Phasor
  | 0 => []
  | n + 1 => ⟨field f off 3, field f (off + 3) 2⟩ :: phasorsAt f (off + 5) n

/-- The timestamp, microseconds turned to fu (R38). -/
def frameTime (f : List Byte) : Time := ⟨field f 6 4, frameFraction f * Config.fuPerUs⟩

/-- The sample a frame carries (R38), under the accuracy limit and with the stamp of its entry. -/
def frameSample (f : List Byte) (accuracyLimit : Nat) (stamp : Stamp) : Sample :=
  let n := framePhasors f
  let quality := f.getD 13 0
  { t := frameTime f
    phasors := phasorsAt f 17 n
    freq := signed16 (field f (17 + 5 * n) 2)
    rocof := signed16 (field f (19 + 5 * n) 2)
    digital := BitVec.ofNat 16 (field f (21 + 5 * n) 2)
    invalid := (f.getD 14 0).getLsbD 7
    suspect := quality.getLsbD 7 || accuracyLimit < (quality.setWidth 4).toNat
    stamp := stamp
    settled := false }

/-- Check 4: the last two bytes are the CRC-16 of all before them (R35, R213). -/
def frameCrcGood (f : List Byte) : Bool :=
  crc16 (f.take (f.length - 2)) == BitVec.ofNat 16 (field f (f.length - 2) 2)

/-! ## Cells and marks (R216) -/

/-- The length of a cell in bytes (R158, R216). -/
def Cell.size (c : Cell) : Nat :=
  match c.values with
  | none => 6
  | some v => 12 + 5 * v.phasors.length

/-- A phasor in 5 bytes. -/
def phasorBytes (p : Phasor) : List Byte := beBytes 3 p.mag ++ beBytes 2 p.ang

/-- A cell in the form of a share and of a snapshot (R216). -/
def cellBytes (c : Cell) : List Byte :=
  beBytes 2 c.code ++ beBytes 1 (qualityCode c.quality) ++ beBytes 1 c.flags ++ beBytes 1 c.primary ++
    match c.values with
    | none => beBytes 1 0
    | some v =>
      beBytes 1 v.phasors.length ++ v.phasors.flatMap phasorBytes ++ beBytes 2 (unsigned16 v.freq) ++
        beBytes 2 (unsigned16 v.rocof) ++ beBytes 2 v.digital.toNat

/-- A mark in 4 bytes (R216). -/
def markBytes (m : Mark) : List Byte :=
  beBytes 1 m.monitor ++ beBytes 2 m.code ++ beBytes 1 (directionCode m.direction)

/-- A cell read from the front of bytes, with what follows it; none where check 3 fails it (R124, R216). -/
def parseCell (b : List Byte) : Option (Cell × List Byte) :=
  let n := field b 5 1
  let flags := b.getD 3 0
  let head (q : Quality) (v : Option CellValues) : Cell :=
    { code := field b 0 2, quality := q, invalid := flags.getLsbD 0, suspect := flags.getLsbD 1,
      secondary := flags.getLsbD 2, used := flags.getLsbD 3, primary := field b 4 1, values := v }
  if b.length < 6 then none
  else match qualityOf (field b 2 1) with
    | none => none
    | some .absent => if n = 0 then some (head .absent none, b.drop 6) else none
    | some q =>
      if n = 0 ∨ 12 < n ∨ b.length < 12 + 5 * n then none
      else some (head q (some
        { phasors := phasorsAt b 6 n
          freq := signed16 (field b (6 + 5 * n) 2)
          rocof := signed16 (field b (8 + 5 * n) 2)
          digital := BitVec.ofNat 16 (field b (10 + 5 * n) 2) }), b.drop (12 + 5 * n))

/-- A number of cells from the front of bytes. -/
def parseCells : Nat → List Byte → Option (List Cell × List Byte)
  | 0, b => some ([], b)
  | n + 1, b =>
    match parseCell b with
    | none => none
    | some (c, rest) =>
      match parseCells n rest with
      | none => none
      | some (cs, rest') => some (c :: cs, rest')

/-- A number of marks from the front of bytes (R216). -/
def parseMarks : Nat → List Byte → Option (List Mark × List Byte)
  | 0, b => some ([], b)
  | n + 1, b =>
    if b.length < 4 then none
    else match directionOf (field b 3 1), parseMarks n (b.drop 4) with
      | some d, some (ms, rest) => some (⟨field b 0 1, field b 1 2, d⟩ :: ms, rest)
      | _, _ => none

/-! ## Link frames (R216) -/

/-- The encoding of a frame kind, which is also its claim class (R112, R216). -/
def kindNotice : Nat := 0
/-- SHARE (R212). -/
def kindShare : Nat := 1
/-- BEACON (R212). -/
def kindBeacon : Nat := 2

/-- A received frame of one of the three kinds, its fields read (R126). -/
inductive LinkFrame where
  | notice (n : Notice)
  | beacon (f : BeaconFrame)
  | share (f : ShareFrame)
  deriving DecidableEq, Repr

/-- The kind field, read only from a byte whose format number is 1 (R216). -/
def frameKind (b : List Byte) : Option Nat :=
  if field b 0 1 / 16 = 1 then some (field b 0 1 % 16) else none

/-- The sender index field. -/
def frameSender (b : List Byte) : Nat := field b 1 1
/-- The length field. -/
def frameLength (b : List Byte) : Nat := field b 2 2

/-- A share read whole; none where the form of check 3 fails (R124). -/
def parseShare (b : List Byte) : Option ShareFrame :=
  let nCells := field b 15 1
  let nMarks := field b 16 1
  if b.length < Config.minShare ∨ 48 < nCells ∨ 8 < nMarks then none
  else match clockOf (field b 14 1), parseCells nCells ((b.take (b.length - 4)).drop 17) with
    | some clock, some (cells, rest) =>
      match parseMarks nMarks rest with
      | some (marks, []) =>
        some { tag := tagAt b 4, slotRate := b.getD 9 0, digest := BitVec.ofNat 32 (field b 10 4),
               clock := clock, cells := cells, marks := marks }
      | _ => none
    | _, _ => none

/-- A beacon read whole; none where the form of check 3 fails (R124, R216). -/
def parseBeacon (b : List Byte) : Option BeaconFrame :=
  let clockByte := b.getD 4 0
  if b.length ≠ 26 then none
  else match clockOf (clockByte.setWidth 3).toNat with
    | none => none
    | some clock =>
      some { clock := clock, slotRate := b.getD 5 0, digest := BitVec.ofNat 32 (field b 6 4),
             wait := BitVec.ofNat 32 (field b 10 4), grace := BitVec.ofNat 32 (field b 14 4),
             second := ⟨field b 18 4, clockByte.getLsbD 7⟩ }

/-- A notice read whole; none where the form of check 3 fails (R124). -/
def parseNotice (b : List Byte) : Option Notice :=
  if b.length ≠ 14 then none
  else match noticeOf (field b 4 1) with
    | none => none
    | some k => some ⟨k, tagAt b 5⟩

/-- Check 3 whole: the kind, its class and index against the claim key, and the form (R124, R216). -/
def parseLinkFrame (key : ClaimKey) (b : List Byte) : Option LinkFrame :=
  match frameKind b with
  | none => none
  | some kind =>
    if key.toNat / 16 ≠ kind ∨ key.toNat % 16 ≠ frameSender b then none
    else if kind = kindNotice then (parseNotice b).map .notice
    else if kind = kindShare then (parseShare b).map .share
    else if kind = kindBeacon then (parseBeacon b).map .beacon
    else none

/-- A frame's body closed by its CRC-32 (R213). -/
def closeCrc32 (body : List Byte) : List Byte := body ++ beBytes 4 (crc32 body).toNat

/-- The common header of a link frame: format number 1, kind, sender, length (R216). -/
def commonHeader (kind : Nat) (sender : Station) (length : Nat) : List Byte :=
  beBytes 1 (16 + kind) ++ beBytes 1 sender.val ++ beBytes 2 length

/-- The length of a share in bytes (chapter 6, section 6.2). -/
def ShareFrame.size (f : ShareFrame) : Nat :=
  Config.minShare + (f.cells.map Cell.size).sum + 4 * f.marks.length

/-- The bytes of a notice (R216). -/
def noticeBytes (sender : Station) (n : Notice) : List Byte :=
  closeCrc32 (commonHeader kindNotice sender 14 ++ beBytes 1 (noticeCode n.kind) ++ tagBytes n.tag)

/-- The bytes of a beacon (R216). -/
def beaconBytes (sender : Station) (f : BeaconFrame) : List Byte :=
  closeCrc32 (commonHeader kindBeacon sender 26 ++
    beBytes 1 (clockCode f.clock + if f.second.known then 128 else 0) ++ [f.slotRate] ++
    beBytes 4 f.digest.toNat ++ beBytes 4 f.wait.toNat ++ beBytes 4 f.grace.toNat ++
    beBytes 4 f.second.second)

/-- The bytes of a share (R216). -/
def shareBytes (sender : Station) (f : ShareFrame) : List Byte :=
  closeCrc32 (commonHeader kindShare sender f.size ++ tagBytes f.tag ++ [f.slotRate] ++
    beBytes 4 f.digest.toNat ++ beBytes 1 (clockCode f.clock) ++ beBytes 1 f.cells.length ++
    beBytes 1 f.marks.length ++ f.cells.flatMap cellBytes ++ f.marks.flatMap markBytes)

/-- The bytes a frame in transmission drives after its claim (R117). -/
def OutFrame.bytes (sender : Station) : OutFrame → List Byte
  | .notice n => noticeBytes sender n
  | .share f => shareBytes sender f
  | .beacon f => beaconBytes sender f

/-- The claim class of a frame (R112). -/
def OutFrame.frameClass : OutFrame → Nat
  | .notice _ => kindNotice
  | .share _ => kindShare
  | .beacon _ => kindBeacon

/-- The claim key of an offered frame (R112). -/
def OutFrame.key (sender : Station) (f : OutFrame) : ClaimKey :=
  BitVec.ofNat 6 (16 * f.frameClass + sender.val)

/-- The share header a receiver hands over: its first 17 bytes, once the kind reads SHARE and the
length field lies in 21..3,509 (R121). -/
def shareHeaderOf (b : List Byte) : Option (List Byte) :=
  if Config.shareHeaderSize ≤ b.length ∧ frameKind b = some kindShare ∧
      Config.minShare ≤ frameLength b ∧ frameLength b ≤ Config.maxLinkFrame then
    some (b.take Config.shareHeaderSize)
  else none

/-! ## Snapshot record (R217) -/

/-- The encoding of a segment status (R212). -/
def statusCode : SegmentStatus → Nat
  | .local_ => 0 | .received => 1 | .missing => 2 | .lost => 3 | .abandoned => 4 | .excluded => 5

/-- The length of a segment in bytes (R158). -/
def Segment.size (g : Segment) : Nat := 4 + (g.cells.map Cell.size).sum

/-- A segment in bytes (R217). -/
def segmentBytes (g : Segment) : List Byte :=
  beBytes 1 g.station.val ++ beBytes 1 (statusCode g.status) ++ beBytes 1 (clockCodeOr7 g.clock) ++
    beBytes 1 g.cells.length ++ g.cells.flatMap cellBytes

/-- A mark entry of a snapshot (R217). -/
def snapshotMarkBytes (e : Station × Mark) : List Byte := beBytes 1 e.1.val ++ markBytes e.2

/-- The whole record a composition stands for, trailer included (R167, R217). -/
def Composition.bytes (c : Composition) : List Byte :=
  closeCrc32 (beBytes 4 c.length ++ tagBytes c.tag ++ beBytes 1 c.slotRate.perSecond ++
    beBytes 1 c.emitter.val ++ beBytes 1 (clockCode c.clock) ++ beBytes 1 c.flags.toNat ++
    beBytes 2 c.skipped ++ beBytes 1 c.segments.length ++ beBytes 1 c.marks.length ++
    c.marks.flatMap snapshotMarkBytes ++ c.segments.flatMap segmentBytes)

/-- The byte presented on the snapshot port, with its record-start indication (R155); none when the
byte-valid indication is deasserted. -/
def Assembler.presented (a : Assembler) : Option (Byte × Bool) :=
  match a.state with
  | .delivering c taken => c.bytes[taken]?.map (fun b => (b, taken == 0))
  | _ => none

end Sys2Proof.Machine
end

