-- ==== Sys2Proof/Machine/Merge.lean ====
section
/-! DEFINITION. What a snapshot is made of (R158 to R165): the cells each station contributes, the
primary/secondary merge over them, the mark list and the segment statuses. -/

namespace Sys2Proof.Machine

open Sys2Proof

/-- The cell carries values (it is not ABSENT). -/
def Cell.isValue (c : Cell) : Bool := c.quality != .absent

/-- A primary cell with values for a code (R164). -/
def Cell.primaryValue (code : Nat) (c : Cell) : Bool :=
  !c.secondary && c.isValue && c.code == code

/-- A secondary cell with values for a code (R165). -/
def Cell.secondaryValue (code : Nat) (c : Cell) : Bool :=
  c.secondary && c.isValue && c.code == code

/-- The primary cell is omitted as a conflict: an earlier one of its code has values (R164). -/
def conflicts (before : List Cell) (c : Cell) : Bool :=
  !c.secondary && c.isValue && before.any (Cell.primaryValue c.code)

/-- A rival secondary cell before this one in snapshot order is chosen instead (R165). -/
def beatenBefore (c r : Cell) : Bool :=
  r.secondaryValue c.code && qualityCode r.quality ≤ qualityCode c.quality

/-- A rival secondary cell after this one in snapshot order is chosen instead (R165). -/
def beatenAfter (c r : Cell) : Bool :=
  r.secondaryValue c.code && qualityCode r.quality < qualityCode c.quality

/-- The merge's decision for a cell between those before and after it in snapshot order: the cell as
written, or omitted (R164, R165). -/
def mergeCell (before after : List Cell) (c : Cell) : Option Cell :=
  if c.secondary then
    if c.isValue && !(before ++ after).any (Cell.primaryValue c.code)
        && !before.any (beatenBefore c) && !after.any (beatenAfter c) then
      some { c with used := true }
    else none
  else if conflicts before c then none
  else some { c with used := false }

/-- The written cells of one segment between the cells of the segments before and after it. -/
def mergeSegment (before after : List Cell) : List Cell → List Cell
  | [] => []
  | c :: rest =>
    match mergeCell before (rest ++ after) c with
    | some w => w :: mergeSegment (before ++ [c]) after rest
    | none => mergeSegment (before ++ [c]) after rest

/-- The written cells of each segment, in snapshot order (R164, R165). -/
def mergeAll (before : List Cell) : List (List Cell) → List (List Cell)
  | [] => []
  | seg :: rest => mergeSegment before rest.flatten seg :: mergeAll (before ++ seg) rest

/-- The primary cells omitted as conflicts, each counted once (R164). -/
def conflictCount (before : List Cell) : List Cell → Nat
  | [] => 0
  | c :: rest => (if conflicts before c then 1 else 0) + conflictCount (before ++ [c]) rest

/-- The share an attachment stores, read from the share store (R146, R150). -/
def storedShare (mem : Memory) : Attachment → Option ShareFrame
  | .stored blocks length => parseShare (storeRead mem blocks length)
  | _ => none

/-- A local cell with the role of its stream on it (R150, R162). -/
def withRole (streams : List Stream) (pos : Nat) (c : Cell) : Cell :=
  match streams[pos]? with
  | some st =>
    match st.entry.role with
    | .primary => { c with secondary := false, primary := 0 }
    | .secondary p => { c with secondary := true, primary := p.val }
  | none => c

/-- A record's local cells, in position order, each with its role (R162). -/
def localCells (streams : List Stream) (r : Record) : List Cell :=
  List.zipWith (withRole streams) r.enabled (r.cells.getD [])

/-- The status of a station's segment (R161). -/
def segmentStatus (own : Station) (r : Record) (i : Station) : SegmentStatus :=
  if i = own then .local_
  else match r.attachments[i] with
    | .stored _ _ => .received
    | .lost => .lost
    | .abandoned => .abandoned
    | .none => if i ∈ r.expected.getD [] then .missing else .excluded

/-- The cells a station brings to the merge (R161). -/
def segmentCells (own : Station) (streams : List Stream) (mem : Memory) (r : Record) (i : Station) :
    List Cell :=
  if i = own then localCells streams r
  else match storedShare mem r.attachments[i] with
    | some f => f.cells
    | none => []

/-- The marks a station brings to the mark list (R163). -/
def segmentMarks (own : Station) (mem : Memory) (r : Record) (i : Station) : List (Station × Mark) :=
  if i = own then r.marks.map (fun m => (i, m))
  else match storedShare mem r.attachments[i] with
    | some f => f.marks.map (fun m => (i, m))
    | none => []

/-- The SECONDARY cell of a stream is left out of the outgoing share: its primary's stored share has
a value for the code (R150). -/
def leftOut (streams : List Stream) (mem : Memory) (r : Record) (pos : Nat) (c : Cell) : Bool :=
  match streams[pos]? with
  | some st =>
    match st.entry.role with
    | .primary => false
    | .secondary p =>
      match storedShare mem r.attachments[p] with
      | some f => f.cells.any (fun d => d.code == c.code && d.isValue)
      | none => false
  | none => false

/-- The cells of the outgoing share, in position order (R76, R150). -/
def outgoingCells (streams : List Stream) (mem : Memory) (r : Record) : List Cell :=
  ((r.enabled.zip (r.cells.getD [])).filter (fun e => !leftOut streams mem r e.1 e.2)).map
    (fun e => withRole streams e.1 e.2)

/-- The record length of a snapshot (R158). -/
def snapshotLength (marks : List (Station × Mark)) (segments : List Segment) : Nat :=
  17 + 5 * marks.length + (segments.map Segment.size).sum + 4

/-- The composition of a record from the values R157 reads at one moment. -/
def composeRecord (rate : Rate) (own : Station) (stations : List Station) (clock : ClockState)
    (holdoverLong : Bool) (skipped : Nat) (roster : Vector Peer 16) (streams : List Stream)
    (mem : Memory) (r : Record) : Composition :=
  let merged := mergeAll [] (stations.map (segmentCells own streams mem r))
  let segments := List.zipWith
    (fun (i : Station) cells =>
      { station := i, status := segmentStatus own r i,
        clock := if i = own then some clock else roster[i].lastClock, cells := cells : Segment })
    stations merged
  let marks := stations.flatMap (segmentMarks own mem r)
  { tag := r.tag, slotRate := rate, emitter := own, clock := clock
    flags :=
      { gap := 1 ≤ skipped
        afterStep := r.afterStep
        holdoverLong := holdoverLong
        marked := !marks.isEmpty
        partial_ := segments.any (fun g => g.status == .missing || g.status == .lost
          || g.status == .abandoned) }
    skipped := skipped, marks := marks, segments := segments
    length := snapshotLength marks segments }

/-- How many cells the merge of a record omits as conflicts (R164). -/
def recordConflicts (own : Station) (stations : List Station) (streams : List Stream)
    (mem : Memory) (r : Record) : Nat :=
  conflictCount [] (stations.map (segmentCells own streams mem r)).flatten

end Sys2Proof.Machine
end

