-- ==== Sys2Proof/Machine/Passage.lean ====
section
/-! DEFINITION. The passage of oscillator time (R1): what a stretch of time changes, when each
time-driven event of the node falls due, and how a command that names one meets it
(notes/assumptions/1.md). -/

namespace Sys2Proof.Machine

open Sys2Proof

/-- A load has ended in LOADED, so the count advances and the blocks work (R1, R191). -/
def State.running (s : State) : Bool := s.loader.state == .loaded

/-- The output period P_out in fu. -/
def State.outPeriod (s : State) : Nat := s.loader.shared.slotRate.period

/-- The clock states in which the cadence opens slots (R21). -/
def cadenceRuns : ClockState → Bool
  | .locked | .holdover => true
  | .acquiring | .stepping | .stopped => false

/-- The count `k` fu on, with the natural wrap (R1). -/
def advanceCount (t : Time) (k : Nat) : Time :=
  if t.fu + k < Config.fuPerSecond then ⟨t.sec, t.fu + k⟩
  else ⟨nextSecond t.sec, t.fu + k - Config.fuPerSecond⟩

/-- `k` fu of oscillator time in the clock: the count advances and the ages grow (R1, R4, R14, R16,
R215). -/
def Clock.advance (c : Clock) (k pOut : Nat) : Clock :=
  let wraps := Config.fuPerSecond ≤ c.now.fu + k
  { c with
    now := advanceCount c.now k
    edgeAge := c.edgeAge.map (· + k)
    stepAge := c.stepAge.map (· + k)
    loadAge := c.loadAge.map (· + k)
    holdoverAge := if c.state = .holdover then c.holdoverAge + k else c.holdoverAge
    boundaryDue := c.boundaryDue || wraps
    slotDue := c.slotDue || (cadenceRuns c.state && (wraps || c.now.fu / pOut < (c.now.fu + k) / pOut)) }

/-- A stream's admission age grows (R52). -/
def Stream.advance (k : Nat) (st : Stream) : Stream := { st with age := st.age.map (· + k) }

/-- A peer's silence age grows (R135). -/
def Peer.advance (k : Nat) (p : Peer) : Peer := { p with silence := p.silence.map (· + k) }

/-- `k` fu of oscillator time pass in the whole node. -/
def elapse (k : Nat) (s : State) : State :=
  ((((s.setClock (s.clock.advance k s.outPeriod)).setStreams (s.streams.map (Stream.advance k))).setGather
    { s.gather with roster := s.gather.roster.map (Peer.advance k) }).setAssembler
    { s.assembler with mark := s.assembler.mark.map (· + k) })

/-! ## When each event falls due: the fu until then, none when it cannot come -/

/-- The next local second boundary (R2). -/
def boundaryIn (s : State) : Nat :=
  if s.clock.boundaryDue then 0 else Config.fuPerSecond - s.clock.now.fu

/-- The next slot time (R21). -/
def slotIn (s : State) : Nat :=
  if s.clock.slotDue then 0 else s.outPeriod - s.clock.now.fu % s.outPeriod

/-- Holdover entry (R13). -/
def holdoverEntryIn (s : State) : Option Nat :=
  match s.clock.state, s.clock.edgeAge with
  | .locked, some a => some (Config.holdoverEntryAge - a)
  | _, _ => none

/-- The holdover limit in fu (R14). -/
def State.holdoverLimit (s : State) : Nat := s.loader.shared.holdoverLimit * Config.fuPerSecond

/-- Holdover limit expiry, once in one stay in HOLDOVER (R14). -/
def holdoverLimitIn (s : State) : Option Nat :=
  if s.clock.state = .holdover ∧ s.clock.holdoverLong = false then
    some (s.holdoverLimit - s.clock.holdoverAge)
  else none

/-- Stall expiry of a stream (R53). -/
def stallIn (st : Stream) : Option Nat :=
  match st.health, st.age with
  | .live, some a => some (Config.stallAge - a)
  | _, _ => none

/-- A deadline that has not passed yet (R71). -/
def deadlineIn (now deadline : Time) (passed : Bool) : Option Nat :=
  if passed then none else some (now.until_ deadline)

/-- The silence limit in fu (R135). -/
def State.silenceLimit (s : State) : Nat := s.loader.shared.silenceLimit * Config.fuPerMs

/-- Silence expiry of an entry under a limit in fu (R135). -/
def silenceIn (limit : Nat) (p : Peer) : Option Nat :=
  match p.state, p.silence with
  | .present, some a => some (limit - a)
  | _, _ => none

/-- The end of the MARK pulse (R169). -/
def markIn (s : State) : Option Nat :=
  match s.assembler.mark with
  | some a => some (Config.markPulse - a)
  | none => none

/-- Delivery end: at once when the last byte has been taken (R168). -/
def deliveryEndIn (s : State) : Option Nat :=
  match s.assembler.state with
  | .delivering c taken => if c.length ≤ taken then some 0 else none
  | _ => none

/-- The times to every event that time or a finished delivery brings, but for the second boundary. -/
def dueTimes (s : State) : List (Option Nat) :=
  [if cadenceRuns s.clock.state then some (slotIn s) else none, holdoverEntryIn s,
    holdoverLimitIn s, markIn s, deliveryEndIn s]
  ++ s.streams.map stallIn
  ++ s.table.records.map (fun r => deadlineIn s.clock.now r.closeDeadline r.closePassed)
  ++ s.table.records.map (fun r => deadlineIn s.clock.now r.gatherDeadline r.gatherPassed)
  ++ s.link.queue.map (fun q => deadlineIn s.clock.now q.deadline q.passed)
  ++ s.gather.roster.toList.map (silenceIn s.silenceLimit)

/-- The fu until the first time-driven event falls due. -/
def timeToNext (s : State) : Nat := ((dueTimes s).filterMap id).foldl min (boundaryIn s)

/-- The node at the moment an event falls due `d` fu from now: at once when it is due already, and
otherwise after the time, if no other event falls due before it. -/
def arrive (d : Option Nat) (s : State) : Option State :=
  match d with
  | none => none
  | some 0 => some s
  | some (k + 1) => if k + 1 ≤ timeToNext s then some (elapse (k + 1) s) else none

/-- A command that names a time-driven event: time runs on to the event and the event takes place.
Where it cannot come next, it does not take place and the node is as before
(notes/assumptions/2.md). -/
def atMoment (due : State → Option Nat) (event : State → State) (s : State) : State :=
  if s.running then
    match arrive (due s) s with
    | some s' => event s'
    | none => s
  else s

end Sys2Proof.Machine
end

