-- ==== Sys2Proof/Machine/Resolver.lean ====
section
/-! DEFINITION. Cell resolution (chapter 5): one stream's view and one slot time to one cell, in
exact integers with the floor toward negative infinity at every division (R104). -/

namespace Sys2Proof.Machine

open Sys2Proof

/-- What a resolution reads beside the view (R87). -/
structure ResolverSettings where
  /-- τ -/
  tau : Time
  /-- P_s in fu. -/
  period : Nat
  /-- T_snap in fu. -/
  snap : Nat
  /-- H in stream periods. -/
  hold : Nat
  /-- The entry's source code. -/
  code : Nat
  deriving DecidableEq, Repr

/-- The signed distance of a sample from τ (R89). -/
def offset (tau : Time) (x : Sample) : Int := x.t.diff tau

/-- The sample lies in the snap window (R90, R92). -/
def inSnap (tau : Time) (snap : Nat) (x : Sample) : Bool := (offset tau x).natAbs ≤ snap

/-- The better of two samples of the snap window, the earlier one first: the nearer, and of two
equally near the earlier (R92). -/
def nearer (tau : Time) (a b : Sample) : Sample :=
  if (offset tau b).natAbs < (offset tau a).natAbs then b else a

/-- The EXACT case's source sample (R92). -/
def exactSource (tau : Time) (snap : Nat) (view : List Sample) : Option Sample :=
  match view.filter (inSnap tau snap) with
  | [] => none
  | a :: rest => some (rest.foldl (nearer tau) a)

/-- The earlier bracket end t0: the newest sample before τ − T_snap (R93). -/
def earlierEnd (tau : Time) (snap : Nat) (view : List Sample) : Option Sample :=
  (view.filter (fun x => offset tau x < -(snap : Int))).getLast?

/-- The later bracket end t1: the oldest sample after τ + T_snap (R93). -/
def laterEnd (tau : Time) (snap : Nat) (view : List Sample) : Option Sample :=
  view.find? (fun x => (snap : Int) < offset tau x)

/-- The interpolation weight w of offset `x` in span `d` (R94). -/
def weight (x d : Int) : Int := (x * 65536 + d / 2) / d

/-- Linear interpolation with weight `w` (R95). -/
def interpolate (v0 v1 w : Int) : Int := v0 + ((v1 - v0) * w + 32768) / 65536

/-- The average frequency deviation f_avg of a bracket (R96). -/
def averageFreq (a b : Sample) : Int :=
  match a.invalid, b.invalid with
  | false, false => (a.freq + b.freq) / 2
  | false, true => a.freq
  | true, false => b.freq
  | true, true => 0

/-- The predicted rotation d_pred over span `d` (R97). -/
def predictedRotation (favg d : Int) : Int := favg * d * 65536 / 6000000000

/-- The raw difference of two angles (R98). -/
def rawDifference (a0 a1 : Nat) : Int := ((a1 : Int) - a0) % 65536

/-- The unwrapped difference nearest the prediction (R98). -/
def unwrapped (dpred : Int) (a0 a1 : Nat) : Int :=
  let raw := rawDifference a0 a1
  raw + 65536 * ((dpred - raw + 32768) / 65536)

/-- The interpolated angle (R99). -/
def interpolateAngle (dpred w : Int) (a0 a1 : Nat) : Nat :=
  (((a0 : Int) + (unwrapped dpred a0 a1 * w + 32768) / 65536) % 65536).toNat

/-- The interpolated phasor of two endpoint phasors (R95, R99). -/
def interpolatePhasor (dpred w : Int) (p0 p1 : Phasor) : Phasor :=
  ⟨(interpolate p0.mag p1.mag w).toNat, interpolateAngle dpred w p0.ang p1.ang⟩

/-- The values of an INTERPOLATED cell from its bracket (R94 to R100). -/
def interpolateValues (tau : Time) (a b : Sample) : CellValues :=
  let d := b.t.diff a.t
  let w := weight (tau.diff a.t) d
  let dpred := predictedRotation (averageFreq a b) d
  { phasors := List.zipWith (interpolatePhasor dpred w) a.phasors b.phasors
    freq := interpolate a.freq b.freq w
    rocof := interpolate a.rocof b.rocof w
    digital := if w < 32768 then a.digital else b.digital }

/-- A cell with its role fields clear (R91). -/
def roleClearCell (code : Nat) (q : Quality) (invalid suspect : Bool) (v : Option CellValues) : Cell :=
  { code := code, quality := q, invalid := invalid, suspect := suspect, secondary := false,
    used := false, primary := 0, values := v }

/-- A cell that copies a sample unchanged (R92, R102). -/
def copyCell (code : Nat) (q : Quality) (x : Sample) : Cell :=
  roleClearCell code q x.invalid x.suspect (some ⟨x.phasors, x.freq, x.rocof, x.digital⟩)

/-- The four cases in order (R90). -/
def resolve (c : ResolverSettings) (view : List Sample) : Cell :=
  match exactSource c.tau c.snap view with
  | some x => copyCell c.code .exact x
  | none =>
    match earlierEnd c.tau c.snap view, laterEnd c.tau c.snap view with
    | some a, some b =>
      if b.t.diff a.t ≤ 2 * c.period then
        roleClearCell c.code .interpolated (a.invalid || b.invalid) (a.suspect || b.suspect)
          (some (interpolateValues c.tau a b))
      else if c.tau.diff a.t ≤ c.hold * c.period then copyCell c.code .held a
      else roleClearCell c.code .absent false false none
    | some a, none =>
      if c.tau.diff a.t ≤ c.hold * c.period then copyCell c.code .held a
      else roleClearCell c.code .absent false false none
    | none, _ => roleClearCell c.code .absent false false none

/-- A stream's ring, as it stands, is final for τ (R72). -/
def ringFinal (tau : Time) (snap period : Nat) (ring : List Sample) : Bool :=
  (exactSource tau snap ring).isSome ||
    match earlierEnd tau snap ring, laterEnd tau snap ring with
    | some a, some b => b.t.diff a.t ≤ (period + snap : Nat)
    | _, _ => false

end Sys2Proof.Machine
end

