-- ==== Sys2Proof/Machine/Ring.lean ====
section
/-! DEFINITION. The sample rings (chapter 3): the judgement of an offered sample against horizon,
duplicates and capacity, and what an admission does to its stream. -/

namespace Sys2Proof.Machine

open Sys2Proof

/-- The directory's answers to the checker (R40). -/
inductive RingAnswer where
  | taken
  | takenLate
  | refusedLate
  | refusedDuplicate
  | refusedStale
  deriving DecidableEq, Repr

/-- P_s of a stream. -/
def Stream.period (st : Stream) : Nat := st.entry.rate.period

/-- The LATE bound, none when there is no bound (R58). -/
def Stream.lateBound (st : Stream) : Option Time :=
  match st.horizon with
  | none => none
  | some h => h.minus (Config.latePeriods * st.period)

/-- The horizon step refuses the sample (R58). -/
def Stream.tooLate (st : Stream) (x : Sample) : Bool :=
  match st.lateBound with
  | none => false
  | some b => x.t.atOrBefore b

/-- The horizon step marks the sample late (R58). -/
def Stream.marksLate (st : Stream) (x : Sample) : Bool :=
  match st.lateBound, st.horizon with
  | some _, some h => x.t.atOrBefore h
  | _, _ => false

/-- A held sample carries the same timestamp (R59). -/
def Stream.holds (st : Stream) (x : Sample) : Bool := st.ring.any (fun y => y.t == x.t)

/-- The ring is full and every held sample is newer (R60). -/
def Stream.tooStale (st : Stream) (x : Sample) : Bool :=
  Config.ringCapacity ≤ st.ring.length &&
    match st.ring with
    | [] => false
    | y :: _ => x.t.before y.t

/-- A sample placed by its timestamp (R60). -/
def ringInsert (x : Sample) : List Sample → List Sample
  | [] => [x]
  | y :: ys => if x.t.before y.t then x :: y :: ys else y :: ringInsert x ys

/-- The ring with room for one more: its oldest sample evicted when it is full (R60). -/
def makeRoom (ring : List Sample) : List Sample :=
  if Config.ringCapacity ≤ ring.length then ring.drop 1 else ring

/-- The stream after an admission: sample placed with its settled mark clear, counters, admission
age 0, and health LIVE from UNSEEN or STALLED (R52, R60, R61, R63). -/
def Stream.receive (st : Stream) (x : Sample) (late : Bool) : Stream :=
  { st with
    ring := ringInsert { x with settled := false } (makeRoom st.ring)
    age := some 0
    health := if st.health = .unseen ∨ st.health = .stalled then .live else st.health
    counters := { st.counters with
      admitted := satInc st.counters.admitted
      lateAdmitted := if late then satInc st.counters.lateAdmitted else st.counters.lateAdmitted
      evicted := if Config.ringCapacity ≤ st.ring.length then satInc st.counters.evicted
                 else st.counters.evicted } }

/-- The three steps of R56 on an offered sample: the answer and the stream after it. -/
def Stream.offer (st : Stream) (x : Sample) : RingAnswer × Stream :=
  if st.tooLate x then
    (.refusedLate, { st with counters := { st.counters with late := satInc st.counters.late } })
  else if st.holds x then
    (.refusedDuplicate,
      { st with counters := { st.counters with duplicate := satInc st.counters.duplicate } })
  else if st.tooStale x then
    (.refusedStale, { st with counters := { st.counters with stale := satInc st.counters.stale } })
  else if st.marksLate x then (.takenLate, st.receive x true)
  else (.taken, st.receive x false)

/-- The directory position of a source code (R49). -/
def positionOf (streams : List Stream) (code : Nat) : Option Nat :=
  streams.findIdx? (fun st => st.entry.code == code)

/-- The directory with the stream at a position replaced. -/
def updateStream (n : Nat) (f : Stream → Stream) (streams : List Stream) : List Stream :=
  streams.modify n f

/-- Every held sample settled (R61). -/
def settleRing (ring : List Sample) : List Sample := ring.map (fun x => { x with settled := true })

/-- The stream at the start of a close whose enable set holds it (R57, R61). -/
def Stream.closeStart (tau : Time) (st : Stream) : Stream :=
  { st with horizon := some tau, ring := settleRing st.ring }

/-- The samples a resolution sees (R88). -/
def Stream.view (st : Stream) : List Sample := st.ring.filter (·.settled)

/-- A stream at the copy of the pending set into the working set (R51, R54). -/
def Stream.copyEnable (st : Stream) : Stream :=
  if st.pending = st.working then st
  else if st.pending then
    { st with
      working := true
      health := match st.age with
        | none => .unseen
        | some a => if a < Config.stallAge then .live else .stalled }
  else { st with working := false, health := .disabled }

/-- A stream as a successful load leaves it (R47, R50, R52). -/
def Stream.load (e : Entry) : Stream :=
  { entry := e, pending := e.enabledAtStart, working := e.enabledAtStart,
    health := if e.enabledAtStart then .unseen else .disabled, age := none, ring := [],
    horizon := none, counters := .zero }

/-- The positions of the working enable set, ascending (R50, R67). -/
def workingSet (streams : List Stream) : List Nat :=
  (List.range streams.length).filter fun n =>
    match streams[n]? with
    | some st => st.working
    | none => false

/-- P_fast: the period of the fastest working stream, none when the set is empty (R70). -/
def fastestPeriod : List Stream → Option Nat
  | [] => none
  | st :: rest =>
    if st.working then
      match fastestPeriod rest with
      | none => some st.period
      | some p => some (min st.period p)
    else fastestPeriod rest

end Sys2Proof.Machine
end

