-- ==== Sys2Proof/Machine/Ops.lean ====
section
/-! DEFINITION. The operations that several commands share: judging and draining records, starting
and completing a close, opening a slot, abandonment, notices, the roster's departures, the passing
of deadlines, the second boundary and the reset of the node. -/

namespace Sys2Proof.Machine

open Sys2Proof

/-- A command's effect as an outcome: the next state, or a fault where its operands are not ones
the outside world can send. -/
def perform (i : Instr) (effect : State → State) (s : State) : Host.Outcome State Fault Refusal :=
  if i.wellFormed then .next (effect s) else .fault .illFormed

/-! ## Records of the slot table -/

/-- The record of a tag (R66). -/
def recordOf (t : Tag) (rs : List Record) : Option Record := rs.find? (fun r => r.tag == t)

/-- The oldest OPEN record (R73). -/
def oldestOpen (rs : List Record) : Option Record := rs.find? (fun r => r.state == .opened)

/-- The record in close (R73). -/
def closingRecord (rs : List Record) : Option Record := rs.find? (fun r => r.state == .closing)

/-- The table with other records. -/
def withRecords (rs : List Record) (s : State) : State := s.setTable { s.table with records := rs }

/-- The record of a tag changed, every other record as it was. -/
def updateRecord (t : Tag) (f : Record → Record) (s : State) : State :=
  withRecords (s.table.records.map (fun r => if r.tag = t then f r else r)) s

/-- The blocks an attachment holds (R139). -/
def Attachment.blocks : Attachment → List Block
  | .stored b _ => b
  | .none | .lost | .abandoned => []

/-- The blocks a record holds, attachments in ascending station index (R141). -/
def Record.blocks (r : Record) : List Block := r.attachments.toList.flatMap Attachment.blocks

/-- Blocks appended at the free-block list's tail (R141). -/
def freeBlocks (bs : List Block) (s : State) : State :=
  s.setGather { s.gather with free := s.gather.free ++ bs }

/-- The records that `gone` picks are freed, and their blocks returned in tag order (R141). -/
def freeRecords (gone : Record → Bool) (s : State) : State :=
  freeBlocks ((s.table.records.filter gone).flatMap Record.blocks)
    (withRecords (s.table.records.filter (fun r => !gone r)) s)

/-- How many records are DRAINING. -/
def drainingCount (rs : List Record) : Nat := rs.countP (fun r => r.state == .draining)

/-- A skipped slot reported to the assembler (R160). -/
def reportSkip (s : State) : State :=
  s.setAssembler { s.assembler with skipped := satInc s.assembler.skipped }

/-! ## The assembler takes a record (R156 to R165) -/

/-- The composition of a record as the node now stands (R157). -/
def compositionOf (s : State) (r : Record) : Composition :=
  composeRecord s.loader.shared.slotRate s.loader.strap s.loader.shared.stations s.clock.state
    s.clock.holdoverLong s.assembler.skipped s.gather.roster s.streams s.gather.mem r

/-- Composition: the snapshot is fixed, conflicts counted, the skipped count restarted, and MARK
raised at a marked snapshot's first byte (R157, R160, R164, R169). -/
def compose (r : Record) (s : State) : State :=
  let c := compositionOf s r
  let conflicts := recordConflicts s.loader.strap s.loader.shared.stations s.streams s.gather.mem r
  bumpTimes .codeConflict conflicts (s.setAssembler
    { state := .delivering c 0, skipped := 0,
      mark := if c.flags.marked then some 0 else s.assembler.mark })

/-- The idle assembler takes the oldest DRAINING record (R156). -/
def takeRecord (s : State) : State :=
  if s.assembler.state = .idle then
    match s.table.records.find? (fun r => r.state == .draining) with
    | some r => compose r s
    | none => s
  else s

/-! ## Gathering (R79, R80) -/

/-- A GATHERING record is complete: its deadline has passed or every expected station has an
attachment other than NONE (R79). -/
def Record.complete (r : Record) : Bool :=
  r.gatherPassed || (r.expected.getD []).all (fun i => r.attachments[i] != .none)

/-- A complete record leaves GATHERING: to DRAINING with the assembler told, or skipped when 16 are
DRAINING (R79, R80). DESIGN CHOICE: in one judgement the idle assembler composes the first record that
becomes DRAINING at once, before the later records' skips are reported, so these fall in the next
snapshot's count; R160 lets either be taken first (notes/assumptions/33.md). -/
def leaveGathering (r : Record) (s : State) : State :=
  if drainingCount s.table.records < Config.maxDraining then
    takeRecord (updateRecord r.tag (fun r => { r with state := .draining }) s)
  else reportSkip (bump .skipped (freeRecords (fun q => q.tag == r.tag) s))

/-- The record whose turn it is to leave GATHERING: the oldest not DRAINING, if it is GATHERING and
complete (R79). -/
def nextToLeave (rs : List Record) : Option Record :=
  match rs.find? (fun r => r.state != .draining) with
  | some r => if r.state = .gathering ∧ r.complete = true then some r else none
  | none => none

/-- Judgement of the GATHERING records in tag order, at most `n` of them leaving (R79). -/
def judgeUpTo : Nat → State → State
  | 0, s => s
  | n + 1, s =>
    match nextToLeave s.table.records with
    | some r => judgeUpTo n (leaveGathering r s)
    | none => s

/-- Judgement of all GATHERING records in tag order (R79). -/
def judge (s : State) : State := judgeUpTo s.table.records.length s

/-! ## The roster's departures (R136, R138) -/

/-- A roster entry changed. -/
def updatePeer (i : Station) (f : Peer → Peer) (s : State) : State :=
  s.setGather { s.gather with roster := s.gather.roster.set i (f s.gather.roster[i]) }

/-- A station removed from the expected set of every GATHERING record (R138). -/
def unexpect (i : Station) (s : State) : State :=
  withRecords (s.table.records.map (fun r =>
    if r.state = .gathering then { r with expected := r.expected.map (·.filter (· ≠ i)) } else r)) s

/-- An entry leaves PRESENT, before any judgement: counted, and removed from the expected sets (R138). -/
def leavePresent (i : Station) (next : PeerState) (s : State) : State :=
  if s.gather.roster[i].state = .present then
    unexpect i (bump .peerSilent (updatePeer i (fun p => { p with state := next }) s))
  else updatePeer i (fun p => { p with state := next }) s

/-- An entry enters PRESENT with its miss count 0 (R138). -/
def enterPresent (i : Station) (s : State) : State :=
  updatePeer i (fun p => { p with state := .present, misses := 0 }) s

/-- A gathering deadline missed by a station; the fourth in a row makes it SILENT (R136). -/
def countMiss (s : State) (i : Station) : State :=
  let s' := updatePeer i (fun p => { p with misses := min (p.misses + 1) Config.missLimit }) s
  if Config.missLimit ≤ s'.gather.roster[i].misses ∧ s'.gather.roster[i].state = .present then
    leavePresent i .silent s'
  else s'

/-! ## The share queue (R109, R120) -/

/-- The tag of the share in transmission. -/
def Link.sharesOut (l : Link) : Option Tag :=
  match l.tx with
  | some ⟨.share f, _⟩ => some f.tag
  | _ => none

/-- The queue with one more share, the oldest not in transmission displaced when it is full (R109). -/
def enqueueShare (q : QueuedShare) (s : State) : State :=
  if s.link.queue.length < Config.maxQueue then
    s.setLink { s.link with queue := s.link.queue ++ [q] }
  else
    bump .shareDisplaced (s.setLink { s.link with
      queue := s.link.queue.eraseP (fun e => some e.tag ≠ s.link.sharesOut) ++ [q] })

/-- A share handed over at close completion; past its deadline it is withdrawn at once (R109, R120). -/
def handOver (q : QueuedShare) (s : State) : State :=
  if q.passed then bump .shareExpired s else enqueueShare q s

/-- A share withdrawn from the queue (R120). -/
def withdrawShare (t : Tag) (s : State) : State :=
  bump .shareExpired (s.setLink { s.link with queue := s.link.queue.filter (fun e => e.tag ≠ t) })

/-- A queued share's deadline passes: withdrawn unless it is in transmission (R120). -/
def passShare (t : Tag) (s : State) : State :=
  if s.link.sharesOut = some t then
    s.setLink { s.link with
      queue := s.link.queue.map (fun e => if e.tag = t then { e with passed := true } else e) }
  else withdrawShare t s

/-! ## The local close (R73 to R78) -/

/-- The streams of a record that hold its close back: LIVE and not final (R72). -/
def holdsBack (s : State) (r : Record) (n : Nat) : Bool :=
  match s.streams[n]? with
  | some st =>
    st.health == .live &&
      !ringFinal (slotTime s.loader.shared.slotRate r.tag) s.loader.shared.snapTolerance st.period st.ring
  | none => false

/-- The record is ready for early close (R72). -/
def readyToClose (s : State) (r : Record) : Bool := r.enabled.all (fun n => !holdsBack s r n)

/-- The record the sequencer may start: the oldest OPEN one, its deadline passed or ready (R73). -/
def startable (s : State) : Option Record :=
  match s.table.sequencer, oldestOpen s.table.records with
  | .idle, some r => if r.closePassed || readyToClose s r then some r else none
  | _, _ => none

/-- A monitor forgets the watched positions outside a record's enable set (R181). -/
def Monitor.forget (enabled : List Nat) (m : Monitor) : Monitor :=
  if m.settings.mode = .off then m
  else { m with levels := m.levels.mapIdx (fun n l =>
    if n ∈ m.watch ∧ n ∉ enabled then .unknown else l) }

/-- The start of a close, one action: the record and the sequencer CLOSING, horizons set, rings
settled, monitors forgetting; an early one counted (R57, R61, R73, R75, R181). -/
def startClose (r : Record) (s : State) : State :=
  let tau := slotTime s.loader.shared.slotRate r.tag
  let s1 := updateRecord r.tag (fun r => { r with state := .closing, cells := some [] }) s
  let s2 := s1.setTable { s1.table with sequencer := .closing }
  let s3 := s2.setStreams (s2.streams.mapIdx (fun n st =>
    if n ∈ r.enabled then st.closeStart tau else st))
  let s4 := s3.setMonitors (s3.monitors.map (Monitor.forget r.enabled))
  if r.closePassed then s4 else bump .earlyClose s4

/-- A monitor's countdown at a close's completion (R180). -/
def Monitor.countDown (m : Monitor) : Monitor :=
  { m with countdown := if m.fired then m.countdown else m.countdown - 1, fired := false }

/-- The configured peers PRESENT now, ascending (R147). -/
def presentPeers (s : State) : List Station :=
  s.loader.shared.stations.filter (fun i => s.gather.roster[i].state == .present)

/-- The share of a record as it is handed over (R76, R78). -/
def outgoingShare (s : State) (r : Record) : QueuedShare :=
  { tag := r.tag, cells := outgoingCells s.streams s.gather.mem r, marks := r.marks,
    deadline := r.gatherDeadline, passed := r.gatherPassed }

/-- A close completes, all but the examination that follows: countdowns, expected set, hand-over,
GATHERING and its judgement, sequencer IDLE (R78, R147, R180). DESIGN CHOICE: the SECONDARY cells are
included by the attachments as they stand here, at the completion, not by those at the end of the last
resolution (R76, R150, R151; notes/assumptions/29.md). -/
def finishClose (r : Record) (s : State) : State :=
  let s1 := s.setMonitors (s.monitors.map Monitor.countDown)
  let s2 := updateRecord r.tag (fun q => { q with expected := some (presentPeers s1) }) s1
  let s3 := handOver (outgoingShare s2 r) s2
  let s4 := judge (updateRecord r.tag (fun q => { q with state := .gathering }) s3)
  s4.setTable { s4.table with sequencer := .idle }

/-- Examination, at most `n` closes starting: a close with an empty enable set completes at once and
the next oldest OPEN record is examined (R74, R76). -/
def examineUpTo : Nat → State → State
  | 0, s => s
  | n + 1, s =>
    match startable s with
    | none => s
    | some r =>
      let s1 := startClose r s
      if r.enabled = [] then examineUpTo n (finishClose { r with state := .closing, cells := some [] } s1)
      else s1

/-- The sequencer examines the oldest OPEN record (R74). -/
def examine (s : State) : State := examineUpTo s.table.records.length s

/-- An examination for a stream of the oldest OPEN record's enable set, and for no other (R74). -/
def examineFor (n : Nat) (s : State) : State :=
  match oldestOpen s.table.records with
  | some r => if n ∈ r.enabled then examine s else s
  | none => s

/-! ## Opening a slot (R21, R22, R67, R68) -/

/-- The record an opening creates (R67). -/
def newRecord (s : State) (t : Tag) : Record :=
  let tau := slotTime s.loader.shared.slotRate t
  let close := tau.plus s.table.effectiveWait
  let gather := tau.plus (s.table.effectiveWait + s.table.effectiveGrace)
  { tag := t, state := .opened, closeDeadline := close, gatherDeadline := gather
    closePassed := close.atOrBefore s.clock.now, gatherPassed := gather.atOrBefore s.clock.now
    enabled := workingSet s.streams, cells := none, marks := [], expected := none
    attachments := Vector.replicate 16 .none, afterStep := s.table.afterStep }

/-- The cadence opens a tag (R22, R67, R68). -/
def openTag (t : Tag) (s : State) : State :=
  let s1 := s.setClock { s.clock with newest := some t }
  if s1.table.records.length < Config.maxRecords then
    let s2 := s1.setTable { s1.table with
      records := s1.table.records ++ [newRecord s1 t], afterStep := false }
    if (oldestOpen s1.table.records).isNone then examine s2 else s2
  else reportSkip (bump .tableFull s1)

/-- A tag is newer than the newest tag opened (R21). -/
def newerThanOpened (newest : Option Tag) (t : Tag) : Bool :=
  match newest with
  | none => true
  | some n => n.older t

/-- The cadence evaluates the current tag (R21). -/
def evaluate (s : State) : State :=
  let t := currentTag s.loader.shared.slotRate s.clock.now
  if s.running && cadenceRuns s.clock.state && newerThanOpened s.clock.newest t then openTag t s else s

/-! ## Abandonment, notices and the stop (R15, R17, R82, R110) -/

/-- The tag of the newest OPEN record (R82). -/
def newestOpenTag (rs : List Record) : Option Tag :=
  ((rs.filter (fun r => r.state == .opened)).getLast?).map (·.tag)

/-- Every OPEN record abandoned: freed, counted, the after-step mark set (R82). -/
def abandonOpen (s : State) : State :=
  let n := s.table.records.countP (fun r => r.state == .opened)
  let s1 := bumpTimes .recordsAbandoned n (freeRecords (fun r => r.state == .opened) s)
  s1.setTable { s1.table with afterStep := true }

/-- A notice placed in the notice buffer (R110). -/
def placeNotice (n : Notice) (s : State) : State := s.setLink { s.link with notice := some n }

/-- Entry into STOPPED (R17). -/
def enterStopped (s : State) : State :=
  let s1 := raise .clockStopped (placeNotice ⟨.stopping, ⟨0, 0⟩⟩ (abandonOpen s))
  s1.setClock { s1.clock with state := .stopped, holdoverAge := 0, holdoverLong := false }

/-! ## Deadlines (R71, R136) -/

/-- A record's close deadline passes: marked, and for the oldest OPEN record examined (R71, R74). -/
def passClose (t : Tag) (s : State) : State :=
  let s1 := updateRecord t (fun r => { r with closePassed := true }) s
  match oldestOpen s1.table.records with
  | some r => if r.tag = t then examine s1 else s1
  | none => s1

/-- The stations a record still waits for (R136). -/
def Record.missing (r : Record) : List Station :=
  (r.expected.getD []).filter (fun i => r.attachments[i] == .none)

/-- A record's gathering deadline passes: marked, and for a GATHERING record the misses are counted
and the records judged (R71, R136, R149). -/
def passGather (t : Tag) (s : State) : State :=
  let s1 := updateRecord t (fun r => { r with gatherPassed := true }) s
  match recordOf t s1.table.records with
  | some r => if r.state = .gathering then judge (r.missing.foldl countMiss s1) else s1
  | none => s1

/-- The close deadline of a tag's record passes if the count has reached it (R71). -/
def passCloseIfReached (t : Tag) (s : State) : State :=
  match recordOf t s.table.records with
  | some r => if !r.closePassed && r.closeDeadline.atOrBefore s.clock.now then passClose t s else s
  | none => s

/-- The gathering deadline of a tag's record passes if the count has reached it (R71). -/
def passGatherIfReached (t : Tag) (s : State) : State :=
  match recordOf t s.table.records with
  | some r => if !r.gatherPassed && r.gatherDeadline.atOrBefore s.clock.now then passGather t s else s
  | none => s

/-- A queued share's deadline passes if the count has reached it (R120). -/
def passShareIfReached (t : Tag) (s : State) : State :=
  match s.link.queue.find? (fun e => e.tag == t) with
  | some e => if !e.passed && e.deadline.atOrBefore s.clock.now then passShare t s else s
  | none => s

/-- Every passing that a set of the count brings, records in tag order, oldest first, then the
queued shares (R71, R120). DESIGN CHOICE: of one record the close deadline passes before the gathering
deadline (R71, R136), and the records' deadlines pass before those of the queued shares (R120 gives no
order between them). So a close of an empty enable set that the same set starts can hand its share to a
full queue and displace a share whose own deadline that set has reached (SHARE_DISPLACED), where the other
order would have withdrawn it first (SHARE_EXPIRED; notes/assumptions/11.md). -/
def passReached (s : State) : State :=
  let s1 := (s.table.records.map (·.tag)).foldl
    (fun s t => passGatherIfReached t (passCloseIfReached t s)) s
  (s1.link.queue.map (·.tag)).foldl (fun s t => passShareIfReached t s) s1

/-! ## The local second boundary (R2) -/

/-- G_eff in fu (R70). -/
def graceOf (grace pOut : Nat) : Nat := min (grace * Config.fuPerMs) (Config.spanPeriods * pOut)

/-- W_eff in fu from the request, G_eff, P_out and P_fast if there is one (R70). -/
def waitOf (request gEff pOut : Nat) (pFast : Option Nat) : Nat :=
  let w := min (request * Config.fuPerMs) (Config.spanPeriods * pOut - gEff)
  match pFast with
  | none => w
  | some p => min w (Config.ringPeriods * p)

/-- The effective wait and grace computed anew (R70). -/
def recomputeWait (s : State) : State :=
  let g := graceOf s.loader.shared.grace s.outPeriod
  s.setTable { s.table with
    effectiveGrace := g
    effectiveWait := waitOf s.table.requestedWait g s.outPeriod (fastestPeriod s.streams) }

/-- The pending enable set copied into the working set, with the health changes (R51, R54). -/
def copyEnableSets (s : State) : State := s.setStreams (s.streams.map Stream.copyEnable)

/-- A stream goes from LIVE to another health at the copy (R54, R74). -/
def losesLive (st : Stream) : Bool := st.health == .live && st.copyEnable.health != .live

/-- The positions of the streams that go from LIVE to another health at the copy. -/
def losingLive (streams : List Stream) : List Nat :=
  (List.range streams.length).filter fun n =>
    match streams[n]? with
    | some st => losesLive st
    | none => false

/-- An examination if a stream of the oldest OPEN record's enable set is among these (R74). -/
def examineForAny (ns : List Nat) (s : State) : State :=
  match oldestOpen s.table.records with
  | some r => if r.enabled.any (fun n => ns.contains n) then examine s else s
  | none => s

/-- A beacon queued for the second now entered (R111). -/
def queueBeacon (s : State) : State :=
  s.setLink { s.link with
    beacon := some ⟨s.clock.now.sec, decide (s.clock.state ≠ .acquiring)⟩ }

/-- The second boundary delivered: STEPPING ends, the directory copies, the table recomputes, a
beacon is queued, health changes are examined, and a clock that enters LOCKED evaluates
(R2, R18, R21, R51, R54, R70, R74, R111). DESIGN CHOICE: that evaluation belongs to the boundary, so a
set of the count that raises it evaluates before the deadlines the new count has reached pass
(notes/assumptions/11.md). -/
def deliverBoundary (s : State) : State :=
  let stepping := decide (s.clock.state = .stepping)
  let s1 := if stepping then s.setClock { s.clock with state := .locked } else s
  let s2 := queueBeacon (recomputeWait (copyEnableSets s1))
  let s3 := examineForAny (losingLive s.streams) s2
  if stepping then evaluate s3 else s3

/-! ## Resets (R189) -/

/-- Every block in its reset state. What survives: the lines, the strap index until it is sampled
again, the reset cause record, the memories' bytes, and the waiting commands. -/
def resetBlocks (s : State) : State :=
  { s with
    loader := { s.loader with
      state := .loading, report := .empty, shared := .blank, reloadMet := false }
    clock := .reset
    intake := .reset s.intake.mem
    streams := []
    table := .reset
    link := .reset
    gather := .reset s.gather.mem
    assembler := .reset
    monitors := Monitor.resetAll
    port := .reset
    counters := zeroCounters }

/-- The strap pins sampled as the station index (R189). -/
def sampleStraps (straps : Station) (s : State) : State :=
  s.setLoader { s.loader with strap := straps }

end Sys2Proof.Machine
end

