-- ==== Sys2Proof/Machine/Clock.lean ====
section
/-! DEFINITION. The station clock's commands (chapter 1): the PPS edge, the time-of-day message, the
second boundary, the slot time and the two holdover events. -/

namespace Sys2Proof.Machine

open Sys2Proof

/-! ## The boundary and the slot time (R2, R21) -/

/-- The boundary now due is delivered (R2). -/
def reachBoundary (s : State) : State :=
  deliverBoundary (s.setClock { s.clock with boundaryDue := false })

/-- The slot time now reached is evaluated by the cadence (R21). -/
def reachSlot (s : State) : State := evaluate (s.setClock { s.clock with slotDue := false })

/-- When a slot time comes by advancing: not while a boundary waits to be delivered first, and not
before a wrap that comes first (R2, R21). -/
def slotReachedIn (s : State) : Option Nat :=
  if s.clock.boundaryDue then none
  else if s.clock.slotDue then some 0
  else if s.outPeriod - s.clock.now.fu % s.outPeriod < Config.fuPerSecond - s.clock.now.fu then
    some (s.outPeriod - s.clock.now.fu % s.outPeriod)
  else none

/-- LOCAL_SECOND_BOUNDARY (R2). -/
def execLocalSecondBoundary (s : State) : Host.Outcome State Fault Refusal :=
  perform .localSecondBoundary (atMoment (fun s => some (boundaryIn s)) reachBoundary) s

/-- SLOT_TIME_REACHED (R21). -/
def execSlotTimeReached (s : State) : Host.Outcome State Fault Refusal :=
  perform .slotTimeReached (atMoment slotReachedIn reachSlot) s

/-! ## Holdover (R13, R14) -/

/-- LOCKED becomes HOLDOVER, the holdover age starting at 0 (R13). -/
def enterHoldover (s : State) : State :=
  s.setClock { s.clock with state := .holdover, holdoverAge := 0 }

/-- The holdover limit expires (R14). -/
def expireHoldover (s : State) : State :=
  if s.loader.shared.stopOnExpiry then enterStopped s
  else s.setClock { s.clock with holdoverLong := true }

/-- HOLDOVER_ENTRY (R13). -/
def execHoldoverEntry (s : State) : Host.Outcome State Fault Refusal :=
  perform .holdoverEntry (atMoment holdoverEntryIn enterHoldover) s

/-- HOLDOVER_LIMIT_EXPIRY (R14). -/
def execHoldoverLimitExpiry (s : State) : Host.Outcome State Fault Refusal :=
  perform .holdoverLimitExpiry (atMoment holdoverLimitIn expireHoldover) s

/-! ## The time-of-day message (R6) -/

/-- A message that ends is checked: a good one becomes the pending message, a bad one is counted and
clears it (R6). -/
def takeTod (bytes : List Byte) (s : State) : State :=
  match checkTod bytes with
  | some m => s.setClock { s.clock with pendingTod := some m }
  | none => bump .todBad (s.setClock { s.clock with pendingTod := none })

/-- The clock has taken a character: it began after the load ended (R23, R215). -/
def Clock.hears (c : Clock) (x : TodChar) : Bool :=
  match c.loadAge with
  | some k => x.age < k
  | none => false

/-- The bytes of the message in progress: those of the characters that began after the load ended
(R215). DESIGN CHOICE: a missing stop bit is no ground of the check by itself. Its character gives the
byte received, R215 lets such a message fail by its length or its CRC-16, and a message whose bytes pass
all four cases of the check becomes the pending message, though a stop bit was missing
(notes/assumptions/37.md). -/
def messageBytes (c : Clock) (chars : List TodChar) : List Byte :=
  (chars.filter c.hears).map todByte

/-- The quiet that ends a message: the message is checked, if the clock has taken a character of it
(R6, R23, R215). -/
def endTod (chars : List TodChar) (s : State) : State :=
  if s.running && !(messageBytes s.clock chars).isEmpty then takeTod (messageBytes s.clock chars) s
  else s

/-- TIME_OF_DAY_MESSAGE (R6, R215). -/
def execTimeOfDayMessage (chars : List TodChar) (s : State) : Host.Outcome State Fault Refusal :=
  perform (.timeOfDayMessage chars) (endTod chars) s

/-! ## The PPS edge (R3 to R12, R15, R16) -/

/-- The edge select makes the transition a candidate (R3). -/
def isCandidate : EdgeSelect → Transition → Bool
  | .rising, .rise => true
  | .falling, .fall => true
  | .rising, .fall => false
  | .falling, .rise => false
  | .off, _ => false

/-- The candidate lies within the blanking interval (R4). -/
def isBlanked (s : State) : Bool :=
  match s.clock.edgeAge with
  | some a => a < s.loader.shared.blanking * Config.fuPerMs
  | none => false

/-- The nearest boundary's second E and the phase error e of an edge (R5). -/
def phaseOf (now : Time) (c : Nat) : Nat × Int :=
  let r : Int := (now.fu : Int) - c
  if 3000000 ≤ r then (nextSecond now.sec, r - 6000000) else (now.sec, r)

/-- The band of a phase error (R5). -/
inductive Band where
  | small | middle | large
  deriving DecidableEq, Repr

/-- The band a phase error selects under a lock tolerance and a step limit (R5). -/
def bandOf (tolerance limit : Nat) (e : Int) : Band :=
  if e.natAbs ≤ tolerance then .small else if e.natAbs ≤ limit then .middle else .large

/-- How R8 decides the second of an edge. -/
inductive Decided where
  | agreed
  | leap
  | disagreement
  deriving DecidableEq, Repr

/-- The second of an accepted edge and how it was decided (R8). DESIGN CHOICE at the ends of the seconds
field: the leap tests M = E - 1 and M = E + 1 compare the numbers as they are, without the wrap of 32 bits,
so that with E = 0 no message meets the first, and with E = 4,294,967,295 no message that passed its check
meets the second; such an edge is a disagreement (notes/assumptions/39.md). -/
def decideSecond (expected : Nat) (m : Option TodMessage) (announced : Option LeapKind) :
    Nat × Decided :=
  match m with
  | none => (expected, .agreed)
  | some m =>
    if m.second = expected then (expected, .agreed)
    else if announced = some .insertSecond ∧ m.second + 1 = expected then (m.second, .leap)
    else if announced = some .deleteSecond ∧ m.second = expected + 1 then (m.second, .leap)
    else (m.second, .disagreement)

/-- A step is escalated: already STEPPING, or the step age is under 16 s (R16). -/
def escalates (c : Clock) : Bool :=
  c.state == .stepping ||
    match c.stepAge with
    | some a => a < Config.stepWindow
    | none => false

/-- What the passage of time has brought but not yet delivered, taken before the count is set: the
boundary, the slot time and the passings of deadlines. DESIGN CHOICE: so at an edge whose count has
reached the oldest OPEN record's close deadline the close starts before a step abandons (R71, R83;
notes/assumptions/11.md). -/
def settleDue (s : State) : State :=
  let s1 := if s.clock.boundaryDue then reachBoundary s else s
  let s2 := if s1.clock.slotDue then reachSlot s1 else s1
  passReached s2

/-- What follows a phase set or a leap set: the boundary when the second changed, the deadlines the
count has reached, and the cadence's evaluation when the count moved or the clock locked
(R2, R21, R71). DESIGN CHOICE: in this order (notes/assumptions/11.md). -/
def afterSet (before : Time) (entersLocked : Bool) (s : State) : State :=
  let s1 := if s.clock.now.sec ≠ before.sec then deliverBoundary s else s
  let s2 := passReached s1
  if entersLocked ∨ s.clock.now ≠ before then evaluate s2 else s2

/-- The edge consumes the pending message, and the announcement becomes that message's (R7). -/
def consumeTod (c : Clock) : Clock :=
  { c with
    pendingTod := none
    announcement := match c.pendingTod with
      | some m => m.leap
      | none => none }

/-- An accepted edge in ACQUIRING (R9). -/
def edgeAcquiring (s : State) : State :=
  let c := s.loader.shared.delayComp
  let before := s.clock.now
  let (expected, e) := phaseOf before c
  match bandOf s.loader.shared.lockTolerance s.loader.shared.stepLimit e, s.clock.pendingTod with
  | .small, some m =>
    afterSet before true
      (s.setClock { consumeTod s.clock with now := ⟨m.second, c⟩, state := .locked })
  | _, _ => afterSet before false (s.setClock { consumeTod s.clock with now := ⟨expected, c⟩ })

/-- A step, or its escalation, to a second (R15, R16). In the escalation the count is set before the OPEN
records are abandoned, and the deadlines it reaches pass last (R83 leaves an order open;
notes/assumptions/23.md). -/
def stepTo (second : Nat) (s : State) : State :=
  let set : Time := ⟨second, s.loader.shared.delayComp⟩
  if escalates s.clock then
    passReached (enterStopped (s.setClock { s.clock with now := set, stepAge := some 0 }))
  else
    let newest := newestOpenTag s.table.records
    let s1 := abandonOpen s
    let s2 := match newest with
      | some t => placeNotice ⟨.stepped, t⟩ s1
      | none => s1
    passReached (s2.setClock { s2.clock with
      now := set, stepAge := some 0, holdoverAge := 0, holdoverLong := false, state := .stepping })

/-- A phase set or a leap set to a second outside ACQUIRING (R10, R11). -/
def phaseSet (second : Nat) (s : State) : State :=
  let before := s.clock.now
  let set : Time := ⟨second, s.loader.shared.delayComp⟩
  if s.clock.state = .stepping then afterSet before false (s.setClock { s.clock with now := set })
  else afterSet before (decide (s.clock.state ≠ .locked)) (s.setClock { s.clock with
    now := set, state := .locked, holdoverAge := 0, holdoverLong := false })

/-- An accepted edge in LOCKED, HOLDOVER or STEPPING (R8, R10, R11). -/
def edgeDisciplined (s : State) : State :=
  let (expected, e) := phaseOf s.clock.now s.loader.shared.delayComp
  let (second, decided) := decideSecond expected s.clock.pendingTod s.clock.announcement
  let s1 := s.setClock (consumeTod s.clock)
  let s2 := if decided = .leap then bump .leap s1 else s1
  match decided, bandOf s.loader.shared.lockTolerance s.loader.shared.stepLimit e with
  | .disagreement, _ => stepTo second s2
  | _, .large => stepTo second s2
  | _, .middle => phaseSet second (bump .phaseHit s2)
  | _, .small => phaseSet second s2

/-- An accepted edge (R4, R9 to R12). -/
def acceptEdge (s : State) : State :=
  let s1 := settleDue s
  let s2 := s1.setClock { s1.clock with edgeAge := some 0 }
  match s2.clock.state with
  | .acquiring => edgeAcquiring s2
  | .stopped => s2.setClock (consumeTod s2.clock)
  | .locked => edgeDisciplined s2
  | .holdover => edgeDisciplined s2
  | .stepping => edgeDisciplined s2

/-- A transition of the PPS line (R3, R4, R23). -/
def takeEdge (t : Transition) (s : State) : State :=
  if s.running && isCandidate s.loader.shared.edgeSelect t then
    if isBlanked s then bump .ppsSpurious s else acceptEdge s
  else s

/-- PPS_EDGE (R4). -/
def execPpsEdge (edge : Transition) (s : State) : Host.Outcome State Fault Refusal :=
  perform (.ppsEdge edge) (takeEdge edge) s

end Sys2Proof.Machine
end

