-- ==== Sys2Proof/Machine/Egress.lean ====
section
/-! DEFINITION. The snapshot port's commands (chapter 8): a byte taken, the end of a delivery and the
end of the MARK pulse. -/

namespace Sys2Proof.Machine

open Sys2Proof

/-- The presented byte is taken, and the next one is presented (R155). -/
def takeSnapshotByte (s : State) : State :=
  match s.assembler.state with
  | .delivering c taken =>
    if taken < c.length then s.setAssembler { s.assembler with state := .delivering c (taken + 1) }
    else s
  | .closed => s
  | .idle => s

/-- SNAPSHOT_BYTE_TAKEN (R155). -/
def execSnapshotByteTaken (s : State) : Host.Outcome State Fault Refusal :=
  perform .snapshotByteTaken takeSnapshotByte s

/-- A delivery ends: counted, the record freed with its blocks, the records judged, and the assembler
IDLE and looking for a record (R81, R156, R168). R156 lets the judgement and the return to IDLE be in either
order; the model judges first (notes/assumptions/16.md). -/
def finishDelivery (c : Composition) (s : State) : State :=
  let s1 := judge (freeRecords (fun r => r.tag == c.tag) (bump .snapshotsDelivered s))
  takeRecord (s1.setAssembler { s1.assembler with state := .idle })

/-- The last trailer byte is taken (R168). -/
def endDelivery (s : State) : State :=
  match s.assembler.state with
  | .delivering c taken => if c.length ≤ taken + 1 then finishDelivery c s else s
  | .closed => s
  | .idle => s

/-- DELIVERY_END (R168). -/
def execDeliveryEnd (s : State) : Host.Outcome State Fault Refusal :=
  perform .deliveryEnd endDelivery s

/-- The MARK line falls (R169). -/
def lowerMark (s : State) : State := s.setAssembler { s.assembler with mark := none }

/-- MARK_PULSE_END (R169). -/
def execMarkPulseEnd (s : State) : Host.Outcome State Fault Refusal :=
  perform .markPulseEnd (atMoment markIn lowerMark) s

end Sys2Proof.Machine
end

