-- ==== Sys2Proof/Machine/Intake.lean ====
section
/-! DEFINITION. The intake unit's commands (chapter 2): the three port events of the writer and the
judgement of a frame by the checker. -/

namespace Sys2Proof.Machine

open Sys2Proof

/-- The reception size (R27). -/
def Intake.received (i : Intake) : Nat := (i.writeCur - i.writeHead).toNat

/-- The free size (R27). -/
def Intake.free (i : Intake) : Nat := Config.bufferSize - i.held - i.received

/-- The 9 bytes of a stamp entry: second, fu, known-second mark, byte count (R31). -/
def stampEntry (st : Stamp) (count : Nat) : List Byte :=
  timeBytes st.at_ ++ beBytes 1 (if st.known then 1 else 0) ++ beBytes 1 count

/-- The arrival stamp of a stamp entry (R31). -/
def entryStamp (e : List Byte) : Stamp :=
  ⟨⟨field e 0 4, field e 4 3⟩, (e.getD 7 0).getLsbD 0⟩

/-- The byte count of a stamp entry (R31). -/
def entryCount (e : List Byte) : Nat := field e 8 1

/-- The counter of a drop reason (R44). -/
def DropReason.counter : DropReason → Option Counter
  | .none => Option.none
  | .bufferFull => some .bufferFull
  | .oversize => some .oversize
  | .runt => some .runt
  | .badMarker => some .badMarker
  | .format => some .format
  | .badCrc => some .badCrc
  | .unknownSource => some .unknownSource
  | .disabledSource => some .disabledSource
  | .early => some .early
  | .late => some .late
  | .duplicate => some .duplicate
  | .stale => some .stale

/-- A drop or a refusal: its reason counted and the last-drop record written (R42, R43). -/
def recordDrop (code : Nat) (reason : DropReason) (stamp : Time) (s : State) : State :=
  let s1 := match reason.counter with
    | some c => bump c s
    | none => s
  s1.setIntake { s1.intake with lastDrop := ⟨code, reason, stamp⟩ }

/-! ## The writer (R25 to R31, R45) -/

/-- The arrival stamp taken now (R28). -/
def stampNow (s : State) : Stamp := ⟨s.clock.now, decide (s.clock.state ≠ .acquiring)⟩

/-- Frame start in IDLE (R28). -/
def beginFrame (s : State) : State :=
  let stamp := stampNow s
  let s1 := bump .framesReceived (s.setIntake { s.intake with frameStamp := stamp, frameBytes := 0 })
  if Config.stampSize ≤ s1.intake.free then
    s1.setIntake { s1.intake with writer := .receiving, writeCur := s1.intake.writeHead + 9 }
  else
    let s2 := recordDrop 0 .bufferFull stamp.at_ s1
    s2.setIntake { s2.intake with writer := .discarding }

/-- The strobe is asserted: the writer's frame start, by its state (R25, R26, R28, R45). -/
def takeFrameStart (s : State) : State :=
  if s.pins.strobe then s
  else
    let s1 := s.setPins { s.pins with strobe := true }
    match s1.intake.writer with
    | .idle => beginFrame s1
    | .ignoring => bump .framesIgnored s1
    | .closed => s1
    | .receiving => s1
    | .discarding => s1

/-- A frame dropped in the middle of reception, undone whole (R30). -/
def undoFrame (reason : DropReason) (s : State) : State :=
  let s1 := recordDrop 0 reason s.intake.frameStamp.at_ s
  s1.setIntake { s1.intake with
    writer := .discarding, writeCur := s1.intake.writeHead, frameBytes := 0 }

/-- A byte stored for the frame in reception (R29). -/
def storeByte (b : Byte) (s : State) : State :=
  s.setIntake { s.intake with
    mem := memWrite s.intake.mem s.intake.writeCur.toNat b
    writeCur := s.intake.writeCur + 1
    frameBytes := s.intake.frameBytes + 1 }

/-- A byte presented while the strobe is asserted, by the writer's state (R29, R45). -/
def takeByte (b : Byte) (s : State) : State :=
  if s.pins.strobe then
    match s.intake.writer with
    | .receiving =>
      if Config.maxFrame ≤ s.intake.frameBytes then undoFrame .oversize s
      else if s.intake.free = 0 then undoFrame .bufferFull s
      else storeByte b s
    | .closed => s
    | .idle => s
    | .discarding => s
    | .ignoring => s
  else s

/-- The checker takes the oldest complete frame if it is IDLE and one is held (R33). -/
def checkerTake (s : State) : State :=
  if s.intake.checker = .idle ∧ s.intake.held ≠ 0 then
    s.setIntake { s.intake with checker := .checking }
  else s

/-- Frame end in RECEIVING: the stamp entry filled in and the frame complete (R31). -/
def completeFrame (s : State) : State :=
  checkerTake (s.setIntake { s.intake with
    mem := bufferWrite s.intake.mem s.intake.writeHead
      (stampEntry s.intake.frameStamp s.intake.frameBytes)
    writeHead := s.intake.writeCur
    held := s.intake.held + Config.stampSize + s.intake.frameBytes
    frameBytes := 0
    writer := .idle })

/-- The strobe is deasserted: the writer's frame end, by its state (R25, R26, R31, R45). -/
def takeFrameEnd (s : State) : State :=
  if s.pins.strobe then
    let s1 := s.setPins { s.pins with strobe := false }
    match s1.intake.writer with
    | .receiving => completeFrame s1
    | .discarding => s1.setIntake { s1.intake with writer := .idle }
    | .closed => s1
    | .idle => s1
    | .ignoring => s1
  else s

/-- FRAME_START (R28). -/
def execFrameStart (s : State) : Host.Outcome State Fault Refusal :=
  perform .frameStart takeFrameStart s

/-- BYTE_EVENT (R29). -/
def execByteEvent (value : Byte) (s : State) : Host.Outcome State Fault Refusal :=
  perform (.byteEvent value) (takeByte value) s

/-- FRAME_END (R31). -/
def execFrameEnd (s : State) : Host.Outcome State Fault Refusal :=
  perform .frameEnd takeFrameEnd s

/-! ## The checker (R33 to R42) -/

/-- What checks 1 to 8 make of a frame. -/
inductive Verdict where
  /-- Refused, with the source code recorded. -/
  | refused (code : Nat) (reason : DropReason)
  /-- Passed on to the ring of the stream at a position. -/
  | offered (position : Nat) (code : Nat) (x : Sample)
  deriving DecidableEq, Repr

/-- Checks 1 to 4, on the frame's bytes alone (R34, R35). -/
def byteCheck (f : List Byte) : Option DropReason :=
  if f.length < Config.minFrame then some .runt
  else if field f 0 1 ≠ 0xA7 ∨ field f 1 1 ≠ 1 then some .badMarker
  else if field f 2 2 ≠ f.length then some .format
  else if !frameCrcGood f then some .badCrc
  else none

/-- Check 8: the sample lies beyond its arrival by more than the early limit (R39). -/
def isEarly (clock : ClockState) (earlyLimit : Nat) (x : Sample) : Bool :=
  clock != .acquiring && x.stamp.known &&
    (x.stamp.at_.plus (earlyLimit * Config.fuPerUs)).before x.t

/-- Checks 1 to 8 in order (R34 to R39). -/
def judgeFrame (s : State) (f : List Byte) (stamp : Stamp) : Verdict :=
  match byteCheck f with
  | some r => .refused 0 r
  | none =>
    let code := frameCode f
    match positionOf s.streams code with
    | none => .refused code .unknownSource
    | some n =>
      match s.streams[n]? with
      | none => .refused code .unknownSource
      | some st =>
        if !st.working then .refused code .disabledSource
        else if framePhasors f ≠ st.entry.phasors ∨ f.length ≠ 25 + 5 * framePhasors f
            ∨ 1000000 ≤ frameFraction f then .refused code .format
        else
          let x := frameSample f s.loader.shared.accuracyLimit stamp
          if isEarly s.clock.state s.loader.shared.earlyLimit x then .refused code .early
          else .offered n code x

/-- The reason of a refusal by the ring (R40). -/
def RingAnswer.reason : RingAnswer → Option DropReason
  | .taken => none
  | .takenLate => none
  | .refusedLate => some .late
  | .refusedDuplicate => some .duplicate
  | .refusedStale => some .stale

/-- Check 9: the ring judges the sample; an admission is counted and the sequencer noticed (R40, R62). -/
def offerSample (n code : Nat) (x : Sample) (s : State) : State :=
  match s.streams[n]? with
  | none => s
  | some st =>
    let (answer, st') := st.offer x
    let s1 := s.setStreams (updateStream n (fun _ => st') s.streams)
    match answer.reason with
    | some r => recordDrop code r x.stamp.at_ s1
    | none => examineFor n (bump .samplesAdmitted s1)

/-- The frame the checker holds: its stamp and its bytes (R33). -/
def heldFrame (i : Intake) : Stamp × List Byte :=
  let entry := bufferRead i.mem i.readPtr Config.stampSize
  (entryStamp entry, bufferRead i.mem (i.readPtr + 9) (entryCount entry))

/-- The end of the checker's work: the frame's space is released and the next frame is taken (R33). -/
def releaseFrame (size : Nat) (s : State) : State :=
  checkerTake (s.setIntake { s.intake with
    checker := .idle
    readPtr := s.intake.readPtr + BitVec.ofNat 15 size
    held := s.intake.held - size })

/-- The checker's work on a frame ends (R33, R34, R41, R42). -/
def judgeHeld (s : State) : State :=
  if s.intake.checker = .checking then
    let (stamp, f) := heldFrame s.intake
    let s1 := match judgeFrame s f stamp with
      | .refused code reason => recordDrop code reason stamp.at_ s
      | .offered n code x => offerSample n code x s
    releaseFrame (Config.stampSize + f.length) s1
  else s

/-- FRAME_JUDGEMENT (R41). -/
def execFrameJudgement (s : State) : Host.Outcome State Fault Refusal :=
  perform .frameJudgement judgeHeld s

end Sys2Proof.Machine
end

