-- ==== Sys2Proof/Machine/Line.lean ====
section
/-! DEFINITION. The line of the peer link bit by bit (chapter 6, section 6.1): its two levels, what
several drivers make of it, the form of a claim, a character and a transmission, and what a station
drives after the bits it has read back. -/

namespace Sys2Proof.Machine

open Sys2Proof

/-- A level of the line in one bit time (R107). -/
inductive LineLevel where
  | dominant
  | recessive
  deriving DecidableEq, Repr

/-- The level a bit is sent as: a 0 dominant, a 1 recessive (R107). -/
def LineLevel.ofBit (b : Bool) : LineLevel := if b then .recessive else .dominant

/-- The bit a level carries (R107). -/
def LineLevel.bit : LineLevel → Nat
  | .dominant => 0
  | .recessive => 1

/-- The line under what each station drives in one bit time: dominant overrides recessive (R107). -/
def lineLevel (drivers : List LineLevel) : LineLevel :=
  if drivers.contains .dominant then .dominant else .recessive

/-- The six bits of a claim key, most significant first (R107). -/
def keyLevels (k : ClaimKey) : List LineLevel :=
  [k[5], k[4], k[3], k[2], k[1], k[0]].map LineLevel.ofBit

/-- A claim: the dominant start bit and the key (R107). -/
def claimLevels (k : ClaimKey) : List LineLevel := .dominant :: keyLevels k

/-- The eight bits of a byte, from the most significant down (R107). -/
def byteLevels (b : Byte) : List LineLevel :=
  [b[7], b[6], b[5], b[4], b[3], b[2], b[1], b[0]].map LineLevel.ofBit

/-- A character: a dominant start bit, the byte, a recessive stop bit (R107). -/
def characterLevels (b : Byte) : List LineLevel := .dominant :: (byteLevels b ++ [.recessive])

/-- A transmission: the claim, then the frame's bytes as characters in order (R107, R117). -/
def transmissionLevels (k : ClaimKey) (bytes : List Byte) : List LineLevel :=
  claimLevels k ++ bytes.flatMap characterLevels

/-! ## Driving and reading back -/

/-- The number of the first bit where the line differs from what was driven (R114, R118). -/
def firstDifference : List LineLevel → List LineLevel → Option Nat
  | d :: ds, l :: ls => if d = l then (firstDifference ds ls).map (· + 1) else some 0
  | _, _ => none

/-- The bit before which a station stops driving once bit `m` read differently: the next one in the
claim, the end of the character in a character (R114, R118). -/
def stopsAt (m : Nat) : Nat := if m < 7 then m + 1 else 7 + 10 * ((m - 7) / 10 + 1)

/-- The level a station drives after it has read some bits of the line: the next of its own levels, and
recessive once a difference has made it stop, and past their end (R107, R114, R118). -/
def drivenAfter (levels read : List LineLevel) : LineLevel :=
  match firstDifference levels read with
  | none => levels.getD read.length .recessive
  | some m => if read.length < stopsAt m then levels.getD read.length .recessive else .recessive

/-- The line of a claim phase bit by bit, its stations each driving what their key and the bits read so
far make them drive (R107, R114). -/
def claimLine (keys : List ClaimKey) : Nat → List LineLevel
  | 0 => []
  | n + 1 =>
    let read := claimLine keys n
    read ++ [lineLevel (keys.map (fun k => drivenAfter (claimLevels k) read))]

/-! ## Reading -/

/-- The number that levels carry, most significant first. -/
def levelsNat (levels : List LineLevel) : Nat := levels.foldl (fun n l => 2 * n + l.bit) 0

/-- The bytes that characters carry; none where the levels are not whole characters of their form
(R107). -/
def readCharacters : List LineLevel → Option (List Byte)
  | [] => some []
  | start :: b7 :: b6 :: b5 :: b4 :: b3 :: b2 :: b1 :: b0 :: stop :: rest =>
    if start = .dominant ∧ stop = .recessive then
      (readCharacters rest).map
        (BitVec.ofNat 8 (levelsNat [b7, b6, b5, b4, b3, b2, b1, b0]) :: ·)
    else none
  | _ => none

/-- The claim key and the bytes that a transmission carries; none where the levels are not a claim and
whole characters (R107, R121). -/
def readTransmission : List LineLevel → Option (ClaimKey × List Byte)
  | start :: k5 :: k4 :: k3 :: k2 :: k1 :: k0 :: rest =>
    if start = .dominant then
      (readCharacters rest).map (fun bytes =>
        (BitVec.ofNat 6 (levelsNat [k5, k4, k3, k2, k1, k0]), bytes))
    else none
  | _ => none

end Sys2Proof.Machine
end

