-- ==== Sys2Proof/Machine/LinkPort.lean ====
section
/-! DEFINITION. The transmitter's commands on the peer link (chapter 6, sections 6.2 to 6.4): the
claim, the transmission, the collision, the defer flag and the line judged idle. -/

namespace Sys2Proof.Machine

open Sys2Proof

/-! ## The offered frame (R111, R112, R117, R130) -/

/-- The slot rate as its frame byte (R212). -/
def slotRateByte (s : State) : Byte := BitVec.ofNat 8 s.loader.shared.slotRate.perSecond

/-- The beacon frame of a recorded second, its other fields read now (R111). -/
def beaconNow (s : State) (b : BeaconSecond) : BeaconFrame :=
  { clock := s.clock.state, slotRate := slotRateByte s, digest := s.loader.shared.digest
    wait := BitVec.ofNat 32 s.table.effectiveWait, grace := BitVec.ofNat 32 s.table.effectiveGrace
    second := b }

/-- The share frame of a queued share, its clock state read now (R117, R130). -/
def shareNow (s : State) (q : QueuedShare) : ShareFrame :=
  { tag := q.tag, slotRate := slotRateByte s, digest := s.loader.shared.digest
    clock := s.clock.state, cells := q.cells, marks := q.marks }

/-- The frame a claim offers: the notice, else the oldest queued share, else the beacon (R112). -/
def offeredFrame (s : State) : Option OutFrame :=
  match s.link.notice, s.link.queue, s.link.beacon with
  | some n, _, _ => some (.notice n)
  | none, q :: _, _ => some (.share (shareNow s q))
  | none, [], some b => some (.beacon (beaconNow s b))
  | none, [], none => none

/-- The buffers with the offered frame in transmission: a notice or a beacon leaves its pending
place, a share stays in the queue (R112). -/
def Link.offer (f : OutFrame) (l : Link) : Link :=
  { l with
    notice := match f with
      | .notice _ => none
      | .share _ => l.notice
      | .beacon _ => l.notice
    beacon := match f with
      | .beacon _ => none
      | .share _ => l.beacon
      | .notice _ => l.beacon }

/-- A frame leaves transmission without completing: a notice or a beacon returns to its pending place
unless a newer one stands there (R112). DESIGN CHOICE: the newer beacon is the one placed later. A set of
the count back into an earlier second, while a beacon is in transmission, raises a boundary whose second is
the lower number; its beacon stays pending all the same and the returning one is discarded
(notes/assumptions/38.md). -/
def Link.giveBack (f : OutFrame) (l : Link) : Link :=
  { l with
    tx := none
    notice := match f, l.notice with
      | .notice n, none => some n
      | _, p => p
    beacon := match f, l.beacon with
      | .beacon b, none => some b.second
      | _, p => p }

/-- The returned frame is a share whose deadline passed in transmission: withdrawn now (R120). -/
def expireReturned (f : OutFrame) (s : State) : State :=
  match f with
  | .share x =>
    match s.link.queue.find? (fun e => e.tag == x.tag) with
    | some e => if e.passed then withdrawShare x.tag s else s
    | none => s
  | .notice _ => s
  | .beacon _ => s

/-- The frame in transmission returned, the line taken as given (R112, R114, R118, R120). -/
def returnFrame (f : OutFrame) (medium : Medium) (s : State) : State :=
  expireReturned f (s.setLink { s.link.giveBack f with medium := medium })

/-! ## The claim (R113 to R116) -/

/-- The station may open or join a claim (R113). -/
def mayClaim (l : Link) : Bool :=
  l.state == .active && !l.deferFlag && l.medium == .idle && l.tx.isNone

/-- A claim is opened or joined with the frame now offered (R112, R113). -/
def startClaim (s : State) : State :=
  if mayClaim s.link then
    match offeredFrame s with
    | some f => s.setLink { s.link.offer f with tx := some ⟨f, .claiming⟩, medium := .own }
    | none => s
  else s

/-- CLAIM_START (R113). -/
def execClaimStart (s : State) : Host.Outcome State Fault Refusal :=
  perform .claimStart startClaim s

/-- How a claim ends for a station that drove a key and read the line (R114). -/
inductive ClaimEnd where
  | won
  | lost
  /-- A dominant bit read recessive. -/
  | lineFault
  deriving DecidableEq, Repr

/-- The outcome of a claim: the first bit where the line differs from what was driven decides
(R107, R114). -/
def claimEnd (driven read : List LineLevel) : ClaimEnd :=
  match firstDifference driven read with
  | none => .won
  | some m => if driven[m]? = some .recessive then .lost else .lineFault

/-- A transmission ends as a collision (R118, R119, R120). -/
def collide (f : OutFrame) (medium : Medium) (s : State) : State :=
  let run := min (s.link.collisionRun + 1) Config.collisionLimit
  let s1 := bump .collision (s.setLink { s.link with collisionRun := run, deferFlag := true })
  let s2 := returnFrame f medium s1
  if Config.collisionLimit ≤ run then raise .indexClash (s2.setLink { s2.link with state := .muted })
  else s2

/-- The six key bits end with the line as read (R114). -/
def resolveClaim (line : ClaimKey) (s : State) : State :=
  match s.link.tx with
  | some ⟨f, .claiming⟩ =>
    match claimEnd (keyLevels (f.key s.loader.strap)) (keyLevels line) with
    | .won => s.setLink { s.link with tx := some ⟨f, .transmitting⟩ }
    | .lost => returnFrame f .foreign s
    | .lineFault => collide f .foreign s
  | some ⟨_, .transmitting⟩ => s
  | none => s

/-- CLAIM_RESOLVED (R114). -/
def execClaimResolved (line : ClaimKey) (s : State) : Host.Outcome State Fault Refusal :=
  perform (.claimResolved line) (resolveClaim line) s

/-- The receiver takes frames: a load has ended (R108, R127). -/
def State.listens (s : State) : Bool := s.loader.state != .loading

/-- A claim phase resolves without this station: the defer flag clears, and the frame that follows is
taken once a load has ended (R108, R115, R121). -/
def foreignClaim (s : State) : State :=
  if s.link.tx.isNone && (s.link.medium == .idle || s.link.medium == .own) then
    s.setLink { s.link with
      deferFlag := false, medium := if s.listens then .foreign else .unsynced }
  else s

/-- FOREIGN_CLAIM_RESOLVED (R115). -/
def execForeignClaimResolved (s : State) : Host.Outcome State Fault Refusal :=
  perform .foreignClaimResolved foreignClaim s

/-- The link stays idle 64 further bit times: the defer flag clears (R115). -/
def deferIdle (s : State) : State :=
  if s.link.tx.isNone && (s.link.medium == .idle || s.link.medium == .own) then
    s.setLink { s.link with deferFlag := false, medium := .idle }
  else s

/-- DEFER_IDLE_EXPIRY (R115). -/
def execDeferIdleExpiry (s : State) : Host.Outcome State Fault Refusal :=
  perform .deferIdleExpiry deferIdle s

/-! ## What the station drives (R107, R114, R117, R118) -/

/-- The level the station drives next, after it has read the bits of the line from the start bit of its
claim on: the claim, and once it is won the frame's characters. A claim lost at a bit, or a mismatch,
makes it stop; it leaves the line recessive then, past its last bit, and while it is not transmitting
(R107, R114, R117, R118). -/
def State.drives (s : State) (read : List LineLevel) : LineLevel :=
  match s.link.tx with
  | some ⟨f, .claiming⟩ => drivenAfter (claimLevels (f.key s.loader.strap)) read
  | some ⟨f, .transmitting⟩ =>
    drivenAfter (transmissionLevels (f.key s.loader.strap) (f.bytes s.loader.strap)) read
  | none => .recessive

/-! ## Transmission (R117 to R119) -/

/-- A completed share leaves the queue (R117). -/
def sentQueue (f : OutFrame) (queue : List QueuedShare) : List QueuedShare :=
  match f with
  | .share x => queue.filter (fun e => e.tag ≠ x.tag)
  | .notice _ => queue
  | .beacon _ => queue

/-- The transmission completes (R117). -/
def completeSend (s : State) : State :=
  match s.link.tx with
  | some ⟨f, .transmitting⟩ =>
    bump .linkFramesSent (s.setLink { s.link with
      tx := none, collisionRun := 0, deferFlag := true, queue := sentQueue f s.link.queue })
  | some ⟨_, .claiming⟩ => s
  | none => s

/-- TRANSMISSION_COMPLETE (R117). -/
def execTransmissionComplete (s : State) : Host.Outcome State Fault Refusal :=
  perform .transmissionComplete completeSend s

/-- The readback finds a mismatch, in a character or in the claim (R118). -/
def findMismatch (s : State) : State :=
  match s.link.tx with
  | some ⟨f, .transmitting⟩ => collide f .own s
  | some ⟨f, .claiming⟩ => collide f .foreign s
  | none => s

/-- COLLISION (R118). -/
def execCollision (s : State) : Host.Outcome State Fault Refusal :=
  perform .collision findMismatch s

/-- The receiver has seen 64 recessive bit times and judges the link idle (R107, R129). -/
def judgeIdle (s : State) : State :=
  if !s.pins.resetAsserted && s.link.tx.isNone
      && (s.link.medium == .unsynced || s.link.medium == .own) then
    s.setLink { s.link with medium := .idle }
  else s

/-- LINK_IDLE_JUDGED (R107). -/
def execLinkIdleJudged (s : State) : Host.Outcome State Fault Refusal :=
  perform .linkIdleJudged judgeIdle s

end Sys2Proof.Machine
end

