-- ==== Sys2Proof/Machine/Reception.lean ====
section
/-! DEFINITION. The receiver's commands (chapter 6, section 6.6, and chapter 7): a share header handed
to the gatherer, and the end of a link frame with its five checks, the roster and the matching. -/

namespace Sys2Proof.Machine

open Sys2Proof

/-! ## The share header (R121, R140) -/

/-- A slot rate byte and a digest equal the local ones (R132, R133, R140). -/
def agrees (s : State) (slotRate : Byte) (digest : BitVec 32) : Bool :=
  slotRate == slotRateByte s && digest == s.loader.shared.digest

/-- The blocks a share of a length takes (R140). -/
def blocksFor (length : Nat) : Nat := (length + (Config.blockSize - 1)) / Config.blockSize

/-- The sender a frame names, if it is a configured peer (R65, R140). -/
def configuredPeer (s : State) (index : Nat) : Option Station :=
  if h : index < 16 then
    let i : Station := ⟨index, h⟩
    if i ∈ s.loader.shared.stations ∧ i ≠ s.loader.strap then some i else none
  else none

/-- The first three conditions of R140 on a share header. -/
def headerWanted (s : State) (header : List Byte) : Bool :=
  match configuredPeer s (frameSender header) with
  | none => false
  | some i =>
    s.gather.roster[i].state != .mismatched
      && agrees s (header.getD 9 0) (BitVec.ofNat 32 (field header 10 4))

/-- The gatherer takes a share header: blocks allocated, or the reception short of room, or neither;
the header's bytes go into the blocks (R121, R140). -/
def handHeader (header : List Byte) (s : State) : State :=
  let b := blocksFor (frameLength header)
  let blocks := s.gather.free.take b
  if headerWanted s header then
    if blocks.length = b then
      s.setGather { s.gather with
        free := s.gather.free.drop b
        reception := some ⟨header, blocks, false⟩
        mem := storeWrite s.gather.mem blocks header }
    else s.setGather { s.gather with reception := some ⟨header, [], true⟩ }
  else s.setGather { s.gather with reception := some ⟨header, [], false⟩ }

/-- An idle line that turns out to carry a frame has seen its claim resolve (R107, R115). -/
def impliedClaim (s : State) : State :=
  if s.link.medium = .idle then foreignClaim s else s

/-- The 17th byte of a frame has been taken: a share's header is handed over in LOADED (R121, R127). -/
def takeHeader (bytes : List Byte) (s : State) : State :=
  let s1 := impliedClaim s
  match shareHeaderOf bytes with
  | some header =>
    if s1.running && s1.link.medium == .foreign && s1.gather.reception.isNone then
      handHeader header s1
    else s
  | none => s

/-- SHARE_HEADER (R140). -/
def execShareHeader (bytes : List Byte) (s : State) : Host.Outcome State Fault Refusal :=
  perform (.shareHeader bytes) (takeHeader bytes) s

/-! ## Checks 1 to 5 (R122 to R125) -/

/-- Checks 1 to 3 in order: the frame read, or the counter of the check that fails (R122 to R124). -/
def checkForm (key : ClaimKey) (b : List Byte) : Except Counter LinkFrame :=
  if b.length < Config.minLinkFrame ∨ Config.maxLinkFrame < b.length ∨ frameLength b ≠ b.length then
    .error .linkBadLength
  else if crc32 (b.take (b.length - 4)) ≠ BitVec.ofNat 32 (field b (b.length - 4) 4) then
    .error .linkBadCrc
  else match parseLinkFrame key b with
    | none => .error .linkBadKind
    | some f => .ok f

/-- The station a claim key names (R112). -/
def keyStation (key : ClaimKey) : Station := ⟨key.toNat % 16, Nat.mod_lt _ (by decide)⟩

/-! ## The roster (R132 to R134, R137, R138) -/

/-- The reception's blocks returned, if it holds any (R141). -/
def dropReception (s : State) : State :=
  match s.gather.reception with
  | none => s
  | some r => freeBlocks r.blocks (s.setGather { s.gather with reception := none })

/-- A valid frame of a peer restarts its silence age and gives its clock state (R132 to R134). -/
def heard (i : Station) (c : ClockState) (s : State) : State :=
  updatePeer i (fun p => { p with silence := some 0, lastClock := some c }) s

/-- A beacon or share that differs in slot rate or digest (R137). -/
def mismatch (i : Station) (s : State) : State :=
  judge (leavePresent i .mismatched (bump .mismatch s))

/-- The beacon's clock state lets its sender be PRESENT (R132). -/
def qualifies : ClockState → Bool
  | .locked | .holdover | .stepping => true
  | .acquiring | .stopped => false

/-- A valid beacon at the roster (R132). -/
def takeBeacon (i : Station) (f : BeaconFrame) (s : State) : State :=
  let s1 := updatePeer i (fun p => { p with
    lastEffective := some (f.wait.toNat, f.grace.toNat), lastBeacon := some f.second })
    (heard i f.clock s)
  if !agrees s f.slotRate f.digest then mismatch i s1
  else match qualifies f.clock, s1.gather.roster[i].state with
    | true, .unheard => enterPresent i s1
    | true, .silent => enterPresent i s1
    | true, .mismatched => enterPresent i s1
    | false, .present => judge (leavePresent i .silent s1)
    | _, _ => s1

/-- A record's attachment from a peer given up by its STEPPED notice (R148). -/
def abandonAttachment (i : Station) (x : Tag) (r : Record) : Record :=
  if r.state ≠ .draining ∧ r.tag.atOrOlder x = true ∧ r.attachments[i] = .none then
    { r with attachments := r.attachments.set i .abandoned
             expected := r.expected.map (·.filter (· ≠ i)) }
  else r

/-- A valid notice at the roster (R134, R148). -/
def takeNotice (i : Station) (n : Notice) (s : State) : State :=
  if s.gather.roster[i].state = .mismatched then
    updatePeer i (fun p => { p with silence := some 0 }) s
  else match n.kind with
    | .stopping =>
      let s1 := heard i .stopped s
      if s1.gather.roster[i].state = .present then judge (leavePresent i .silent s1) else s1
    | .stepped =>
      let s1 := heard i .stepping s
      judge (withRecords (s1.table.records.map (abandonAttachment i n.tag)) s1)

/-! ## A share at its frame end (R133, R142 to R144) -/

/-- What the matching of a share's tag decides (R142). -/
inductive Match where
  | ahead | late | duplicate | orphan
  | accepted
  deriving DecidableEq, Repr

/-- The tests of R142 in order. -/
def matchShare (s : State) (i : Station) (t : Tag) : Match :=
  if newerThanOpened s.clock.newest t then .ahead
  else match recordOf t s.table.records with
    | some r =>
      if r.state = .draining then .late
      else if r.attachments[i] ≠ .none then .duplicate
      else .accepted
    | none =>
      match s.table.records with
      | r :: _ => if t.older r.tag then .late else .orphan
      | [] => .orphan

/-- A share refused by the gatherer: its reason counted, its blocks returned (R144). -/
def refuseShare (c : Counter) (s : State) : State := dropReception (bump c s)

/-- The blocks of the reception (R140). -/
def receivedBlocks (s : State) : List Block :=
  match s.gather.reception with
  | some r => r.blocks
  | none => []

/-- An accepted share: STORED with the reception's blocks, or LOST without (R143). -/
def acceptShare (i : Station) (t : Tag) (length : Nat) (s : State) : State :=
  let blocks := receivedBlocks s
  let a : Attachment := if blocks = [] then .lost else .stored blocks length
  let s1 := bump (if blocks = [] then .shareLost else .sharesStored)
    (s.setGather { s.gather with reception := none })
  let s2 := updatePeer i (fun p => { p with misses := 0 })
    (updateRecord t (fun r => { r with attachments := r.attachments.set i a }) s1)
  match recordOf t s2.table.records with
  | some r => if r.state = .gathering then judge s2 else s2
  | none => s2

/-- A matched share accepted or refused (R142). -/
def settleMatch (i : Station) (t : Tag) (length : Nat) (s : State) : State :=
  match matchShare s i t with
  | .ahead => refuseShare .aheadShare s
  | .late => refuseShare .lateShare s
  | .duplicate => refuseShare .duplicateShare s
  | .orphan => refuseShare .orphanShare s
  | .accepted => acceptShare i t length s

/-- A valid share at its frame end (R133, R137, R142). DESIGN CHOICE: R141 orders the blocks of one event
among the records it frees, and gives no order between those records' blocks and the blocks of the
reception refused at the same frame end. Where a share differs and R138's judgement skips a record, the
skipped records' blocks join the free list first and the reception's after them
(notes/assumptions/36.md). -/
def takeShare (i : Station) (f : ShareFrame) (length : Nat) (s : State) : State :=
  let s1 := heard i f.clock s
  if !agrees s f.slotRate f.digest then dropReception (mismatch i s1)
  else match s1.gather.roster[i].state with
    | .mismatched => refuseShare .mismatchedShare s1
    | .unheard => settleMatch i f.tag length (enterPresent i s1)
    | .silent => settleMatch i f.tag length (enterPresent i s1)
    | .present => settleMatch i f.tag length s1
    | .unconfigured => dropReception s1
    | .local_ => dropReception s1

/-! ## The frame end (R121, R126, R127) -/

/-- A valid frame counted and handed on by its kind (R126). -/
def handOn (i : Station) (f : LinkFrame) (length : Nat) (s : State) : State :=
  let s1 := bump .linkFramesReceived s
  match f with
  | .notice n => takeNotice i n s1
  | .beacon b => takeBeacon i b s1
  | .share x => takeShare i x length s1

/-- The checks on a whole frame in LOADED (R122 to R126). -/
def receiveFrame (key : ClaimKey) (b : List Byte) (s : State) : State :=
  match checkForm key b with
  | .error c => dropReception (bump c s)
  | .ok f =>
    let i := keyStation key
    if i ∉ s.loader.shared.stations then dropReception (bump .stranger s)
    else if i = s.loader.strap then dropReception (raise .indexClash (bump .indexClash s))
    else handOn i f b.length s

/-- The checks on a whole frame in CONFIG_FAULT (R127). -/
def countFrame (key : ClaimKey) (b : List Byte) (s : State) : State :=
  match checkForm key b with
  | .error c => bump c s
  | .ok _ => bump .linkFramesReceived s

/-- The frame's bytes in the reception's blocks; where the header was not handed before, it is handed
at the same moment (R121, R140). None when the frame is not the one whose header was handed. -/
def gatherBytes (b : List Byte) (s : State) : Option State :=
  match s.gather.reception with
  | some r =>
    if some r.header = shareHeaderOf b then
      some (s.setGather { s.gather with mem := storeWrite s.gather.mem r.blocks b })
    else none
  | none =>
    match shareHeaderOf b with
    | none => some s
    | some header =>
      let s1 := handHeader header s
      some (s1.setGather { s1.gather with mem := storeWrite s1.gather.mem (receivedBlocks s1) b })

/-- The link becomes idle after a frame this station takes (R121, R127). -/
def takeFrame (key : ClaimKey) (b : List Byte) (s : State) : State :=
  let quiet (s : State) : State := s.setLink { s.link with medium := .idle }
  match s.loader.state with
  | .loaded =>
    match gatherBytes b s with
    | some s1 => quiet (receiveFrame key b s1)
    | none => s
  | .fault => quiet (countFrame key b s)
  | .loading => s

/-- A frame ends on the line: taken, or only followed to the idle after it (R107, R108, R121). -/
def endLinkFrame (key : ClaimKey) (b : List Byte) (s : State) : State :=
  let s1 := impliedClaim s
  match s1.link.medium with
  | .foreign => takeFrame key b s1
  | .unsynced => judgeIdle s1
  | .own => judgeIdle s1
  | .idle => s

/-- LINK_FRAME_END (R121). -/
def execLinkFrameEnd (key : ClaimKey) (bytes : List Byte) (s : State) :
    Host.Outcome State Fault Refusal :=
  perform (.linkFrameEnd key bytes) (endLinkFrame key bytes) s

end Sys2Proof.Machine
end

