-- ==== Sys2Proof/Machine/Loader.lean ====
section
/-! DEFINITION. The configuration loader (chapter 10): an image to either a working configuration
or the first fault, with the load report as far as the load came. -/

namespace Sys2Proof.Machine

open Sys2Proof

/-- What a load that ends in LOADED hands to the blocks (R198). -/
structure Working where
  shared : Shared
  entries : List Entry
  monitors : List MonitorSettings
  deriving DecidableEq, Repr

/-- How a load ends: its report, and the working configuration when every check has passed (R191). -/
structure LoadEnd where
  report : LoadReport
  working : Option Working
  deriving DecidableEq, Repr

/-- The byte of the image at an offset: a flash that is absent or blank reads as all ones (chapter 10,
section 10.2). DESIGN CHOICE: so does every byte past the end of a flash that is shorter than the image
it holds; the spec gives those bytes no value (notes/assumptions/34.md). -/
def imageByte (image : List Byte) (i : Nat) : Byte := image.getD i 0xFF#8

/-- `n` bytes of the image from an offset, past the flash's end as `imageByte` reads them
(notes/assumptions/34.md). -/
def imageBytes (image : List Byte) (off n : Nat) : List Byte :=
  let have_ := (image.drop off).take n
  have_ ++ List.replicate (n - have_.length) 0xFF#8

/-- An unsigned big-endian field of the image (R218). -/
def imageField (image : List Byte) (off len : Nat) : Nat := beNat (imageBytes image off len)

/-- The three checks on the image as a whole, in order (R192, R218). -/
def imageFault (image : List Byte) : Option FaultReason :=
  let length := imageField image 3 4
  if imageField image 0 2 ≠ 0xC16A ∨ imageField image 2 1 ≠ 1 then some .markerFault
  else if length < Config.minImage ∨ Config.maxImage < length then some .lengthFault
  else if crc32 (imageBytes image 0 (length - 4)) ≠ BitVec.ofNat 32 (imageField image (length - 4) 4) then
    some .crcFault
  else none

/-- The PPS edge select a byte encodes (R218). -/
def edgeSelectOf (n : Nat) : Option EdgeSelect :=
  if n = 0 then some .off else if n = 1 then some .rising else if n = 2 then some .falling else none

/-- The stations a 16-bit station set names, ascending (R218). -/
def stationsOf (v : Nat) : List Station := allStations.filter (fun i => v.testBit i.val)

/-- The shared digest: the CRC-32 over the slot-rate field and the station-set field (R193, R213). -/
def sharedDigest (image : List Byte) : BitVec 32 := crc32 (imageBytes image 7 3)

/-- A setting brought into its range (R194). -/
def clamp (lo hi v : Nat) : Nat := if v < lo then lo else if hi < v then hi else v

/-- A setting lies outside its range (R194). -/
def clamps (lo hi v : Nat) : Bool := v < lo || hi < v

/-- The shared section with every setting clamped (R194, R218). -/
def readShared (image : List Byte) (rate : Rate) (edge : EdgeSelect) : Shared :=
  let tol := clamp 0 600 (imageField image 24 2)
  { slotRate := rate
    stations := stationsOf (imageField image 8 2)
    defaultWait := clamp 0 2000 (imageField image 10 2)
    grace := clamp 0 500 (imageField image 12 2)
    silenceLimit := clamp 20 2000 (imageField image 14 2)
    holdoverLimit := clamp 1 3600 (imageField image 16 2)
    stopOnExpiry := (imageByte image 18).getLsbD 0
    edgeSelect := edge
    delayComp := imageField image 20 2
    blanking := clamp 100 990 (imageField image 22 2)
    lockTolerance := tol
    stepLimit := clamp (tol + 1) 30000 (imageField image 26 2)
    snapTolerance := clamp 0 600 (imageField image 28 2)
    holdLimit := clamp 0 3 (imageField image 30 1)
    earlyLimit := clamp 0 10000 (imageField image 31 2)
    accuracyLimit := clamp 0 15 (imageField image 33 1)
    digest := sharedDigest image }

/-- The settings that the load clamped (R194). -/
def readClamps (image : List Byte) : Clamps :=
  let tol := clamp 0 600 (imageField image 24 2)
  { defaultWait := clamps 0 2000 (imageField image 10 2)
    grace := clamps 0 500 (imageField image 12 2)
    silenceLimit := clamps 20 2000 (imageField image 14 2)
    holdoverLimit := clamps 1 3600 (imageField image 16 2)
    blanking := clamps 100 990 (imageField image 22 2)
    lockTolerance := clamps 0 600 (imageField image 24 2)
    stepLimit := clamps (tol + 1) 30000 (imageField image 26 2)
    snapTolerance := clamps 0 600 (imageField image 28 2)
    holdLimit := clamps 0 3 (imageField image 30 1)
    earlyLimit := clamps 0 10000 (imageField image 31 2)
    accuracyLimit := clamps 0 15 (imageField image 33 1) }

/-- Where the section of the strap index begins, passing over the `n` sections before it from
`start` at index `i`; a section that would end past `last` is the fault place (R195, R218). DESIGN
CHOICE: the own section's end is judged here, before its directory count (R196;
notes/assumptions/30.md). -/
def findSection (image : List Byte) (last : Nat) : Nat → Nat → Nat → Except FaultPlace Nat
  | 0, i, start =>
    if last < start + imageField image start 2 then .error ⟨i, .none⟩ else .ok start
  | n + 1, i, start =>
    let next := start + imageField image start 2
    if last < next then .error ⟨i, .none⟩ else findSection image last n (i + 1) next

/-- The role a directory entry's two role bytes give (R196, R218). -/
def roleOf (strap : Station) (stations : List Station) (role index : Nat) : Except FaultReason Role :=
  if role = 0 then .ok .primary
  else if role = 1 then
    if h : index < 16 then
      let p : Station := ⟨index, h⟩
      if p = strap ∨ p ∉ stations then .error .primaryFault else .ok (.secondary p)
    else .error .primaryFault
  else .error .encodingFault

/-- One directory entry at an offset, judged in the order of R196 against the codes before it. -/
def readEntry (image : List Byte) (strap : Station) (stations : List Station) (codes : List Nat)
    (off : Nat) : Except FaultReason Entry :=
  let code := imageField image off 2
  let phasors := imageField image (off + 3) 1
  match rateOfNat (imageField image (off + 2) 1) with
  | none => .error .streamRateFault
  | some rate =>
    if phasors = 0 ∨ 12 < phasors then .error .phasorFault
    else if code = 0 ∨ code = 65535 then .error .codeFault
    else if code ∈ codes then .error .duplicateCodeFault
    else match roleOf strap stations (imageField image (off + 4) 1) (imageField image (off + 5) 1) with
      | .error r => .error r
      | .ok role =>
        .ok { code := code, rate := rate, phasors := phasors, role := role,
              enabledAtStart := (imageByte image (off + 6)).getLsbD 0 }

/-- `n` entries from position `pos` at an offset, in position order (R196). -/
def readEntries (image : List Byte) (strap : Station) (stations : List Station) :
    Nat → Nat → Nat → List Entry → Except (FaultReason × FaultItem) (List Entry)
  | 0, _, _, done => .ok done
  | n + 1, pos, off, done =>
    match readEntry image strap stations (done.map (·.code)) off with
    | .error r => .error (r, .position pos)
    | .ok e => readEntries image strap stations n (pos + 1) (off + 7) (done ++ [e])

/-- The quantity a byte encodes (R218). -/
def quantityOf (n : Nat) : Option Quantity :=
  if n = 0 then some .freq else if n = 1 then some .rocof else if n = 2 then some .mag0 else none

/-- The edge mode a byte encodes (R218). -/
def edgeModeOf (n : Nat) : Option EdgeMode :=
  if n = 0 then some .off else if n = 1 then some .rising else if n = 2 then some .falling
  else if n = 3 then some .both else none

/-- `n` monitors from number `i` at an offset, in number order (R197, R218). -/
def readMonitors (image : List Byte) :
    Nat → Nat → Nat → List MonitorSettings → Except (FaultReason × FaultItem) (List MonitorSettings)
  | 0, _, _, done => .ok done
  | n + 1, i, off, done =>
    match quantityOf (imageField image off 1), edgeModeOf (imageField image (off + 9) 1) with
    | some q, some mode =>
      readMonitors image n (i + 1) (off + 11) (done ++
        [{ quantity := q, threshold := signed32 (imageField image (off + 1) 4),
           base := BitVec.ofNat 16 (imageField image (off + 5) 2),
           mask := BitVec.ofNat 16 (imageField image (off + 7) 2),
           mode := mode, blanking := imageField image (off + 10) 1 }])
    | _, _ => .error (.encodingFault, .monitor i)

/-- The length of a station section of `c` entries (R218). -/
def sectionLength (c : Nat) : Nat := 91 + 7 * c

/-- This station's own section from its start: count, length, entries, monitors (R196, R197). -/
def readSection (image : List Byte) (strap : Station) (stations : List Station) (start : Nat) :
    Except (FaultReason × FaultItem) (List Entry × List MonitorSettings) :=
  let count := imageField image (start + 2) 1
  if Config.maxStreams < count then .error (.countFault, .none)
  else if imageField image start 2 ≠ sectionLength count then .error (.lengthFault, .none)
  else match readEntries image strap stations count 0 (start + 3) [] with
    | .error e => .error e
    | .ok entries =>
      match readMonitors image Config.monitorCount 0 (start + 3 + 7 * count) [] with
      | .error e => .error e
      | .ok monitors => .ok (entries, monitors)

/-- A whole load under a strap index: every check in the order of R192 to R197, stopping at the
first that fails. -/
def load (strap : Station) (image : List Byte) : LoadEnd :=
  match imageFault image with
  | some r => ⟨⟨r, none, .none, none⟩, none⟩
  | none =>
    match rateOfNat (imageField image 7 1) with
    | none => ⟨⟨.slotRateFault, none, .none, none⟩, none⟩
    | some rate =>
      match edgeSelectOf (imageField image 19 1) with
      | none => ⟨⟨.encodingFault, none, .none, none⟩, none⟩
      | some edge =>
        let shared := readShared image rate edge
        if strap ∉ shared.stations then ⟨⟨.stationFault, none, .none, none⟩, none⟩
        else
          let clamped := readClamps image
          let digest := some shared.digest
          match findSection image (imageField image 3 4 - 4) strap.val 0 Config.firstSection with
          | .error place => ⟨⟨.lengthFault, some place, clamped, digest⟩, none⟩
          | .ok start =>
            match readSection image strap shared.stations start with
            | .error (r, item) => ⟨⟨r, some ⟨strap.val, item⟩, clamped, digest⟩, none⟩
            | .ok (entries, monitors) =>
              ⟨⟨.none, none, clamped, digest⟩, some ⟨shared, entries, monitors⟩⟩

end Sys2Proof.Machine
end

