-- ==== Sys2Proof/Machine/Resets.lean ====
section
/-! DEFINITION. Resets and the ends of a configuration load (chapter 10). -/

namespace Sys2Proof.Machine

open Sys2Proof

/-! ## Resets (R189, R190) -/

/-- The reset cause record replaced. -/
def setCause (c : ResetCause) (s : State) : State := s.setLoader { s.loader with cause := c }

/-- Power-on (R189, R190). -/
def powerUp (straps : Station) (s : State) : State :=
  sampleStraps straps (resetBlocks (setCause ⟨true, false, false, false⟩ s))

/-- POWER_ON (R189). -/
def execPowerOn (straps : Station) (s : State) : Host.Outcome State Fault Refusal :=
  perform (.powerOn straps) (powerUp straps) s

/-- An accepted RELOAD waits for chip select to be deasserted (R208). -/
def State.reloadWaits (s : State) : Bool :=
  s.pins.chipSelect && s.port.phase == .response && s.port.reloadPending

/-- The reset pin is asserted (R189, R190). A RELOAD that waits for its deassertion is discarded with
the port's state (R208, R211), but for a deassertion at the same moment, which still adds RELOAD (R190;
notes/assumptions/32.md). -/
def assertReset (s : State) : State :=
  if s.pins.resetAsserted then s
  else
    let s1 := resetBlocks (setCause { s.loader.cause with pin := true } s)
    (s1.setPins { s1.pins with resetAsserted := true }).setLoader
      { s1.loader with reloadMet := s.reloadWaits }

/-- RESET_PIN_ASSERT (R189). -/
def execResetPinAssert (s : State) : Host.Outcome State Fault Refusal :=
  perform .resetPinAssert assertReset s

/-- The reset pin is released: the straps are sampled and the load begins (R189). -/
def releaseReset (straps : Station) (s : State) : State :=
  if s.pins.resetAsserted then
    sampleStraps straps ((s.setPins { s.pins with resetAsserted := false }).setLoader
      { s.loader with reloadMet := false })
  else s

/-- RESET_PIN_RELEASE (R189). -/
def execResetPinRelease (straps : Station) (s : State) : Host.Outcome State Fault Refusal :=
  perform (.resetPinRelease straps) (releaseReset straps) s

/-! ## A load ends in LOADED (R198) -/

/-- The directory positions a monitor watches (R174). -/
def watchSet (m : MonitorSettings) (entries : List Entry) : List Nat :=
  (List.range entries.length).filter fun n =>
    match entries[n]? with
    | some e => BitVec.ofNat 16 e.code &&& m.mask == m.base &&& m.mask
    | none => false

/-- A monitor as a successful load leaves it (R173 to R175). -/
def Monitor.load (entries : List Entry) (m : MonitorSettings) : Monitor :=
  { Monitor.reset with settings := m, watch := watchSet m entries }

/-- The roster as a successful load leaves it (R131). -/
def loadedRoster (strap : Station) (stations : List Station) : Vector Peer 16 :=
  Vector.ofFn fun i => Peer.fresh
    (if i = strap then .local_ else if i ∈ stations then .unheard else .unconfigured)

/-- The eight monitors as a successful load leaves them (R173). -/
def loadedMonitors (w : Working) : Vector Monitor 8 :=
  Vector.ofFn fun i => Monitor.load w.entries (w.monitors.getD i.val Monitor.reset.settings)

/-- The working configuration is handed to every block (R23, R26, R50, R69, R70, R108, R131, R154,
R173, R198). -/
def takeConfiguration (report : LoadReport) (w : Working) (s : State) : State :=
  recomputeWait
    { s with
      loader := { s.loader with state := .loaded, report := report, shared := w.shared }
      clock := { s.clock with loadAge := some 0 }
      intake := { s.intake with writer := if s.pins.strobe then .discarding else .idle }
      streams := w.entries.map Stream.load
      table := { s.table with requestedWait := w.shared.defaultWait }
      link := { s.link with
        state := .active
        medium := if s.link.medium = .idle then .idle else .unsynced }
      gather := { s.gather with roster := loadedRoster s.loader.strap w.shared.stations }
      assembler := { s.assembler with state := .idle }
      monitors := loadedMonitors w }

/-- A load is in progress and the node is not held in reset (R189, R191). -/
def State.loadRuns (s : State) : Bool := s.loader.state == .loading && !s.pins.resetAsserted

/-- The load of an image ends in LOADED, if that is how this image's load ends (R192 to R198). -/
def completeLoad (image : List Byte) (s : State) : State :=
  match s.loadRuns, load s.loader.strap image with
  | true, ⟨report, some w⟩ => takeConfiguration report w s
  | _, _ => s

/-- LOAD_COMPLETE (R198). -/
def execLoadComplete (image : List Byte) (s : State) : Host.Outcome State Fault Refusal :=
  perform (.loadComplete image) (completeLoad image) s

/-! ## A load ends in FAULT (R199) -/

/-- The station enters CONFIG_FAULT: nothing is handed to the blocks (R26, R190, R199, R209). -/
def enterFault (report : LoadReport) (s : State) : State :=
  raise .configFault
    ((s.setLoader { s.loader with
        state := .fault, report := report, cause := { s.loader.cause with configFault := true } }).setIntake
      { s.intake with writer := .ignoring })

/-- The load of an image ends in FAULT, if that is how this image's load ends (R192 to R197, R199). -/
def faultLoad (image : List Byte) (s : State) : State :=
  match s.loadRuns, load s.loader.strap image with
  | true, ⟨report, none⟩ => enterFault report s
  | _, _ => s

/-- LOAD_FAULT (R199). -/
def execLoadFault (image : List Byte) (s : State) : Host.Outcome State Fault Refusal :=
  perform (.loadFault image) (faultLoad image) s

end Sys2Proof.Machine
end

