-- ==== Sys2Proof/Machine/Service.lean ====
section
/-! DEFINITION. The service port's commands (chapter 11) with the byte layout of every response
(R219). -/

namespace Sys2Proof.Machine

open Sys2Proof

/-! ## Chip select (R201, R208) -/

/-- Chip select is asserted: a transaction opens from WAITING, which DROPPING has reached once the
line was seen deasserted (R201). -/
def assertSelect (s : State) : State :=
  if s.pins.chipSelect then s
  else
    let s1 := s.setPins { s.pins with chipSelect := true }
    if s.pins.resetAsserted then s1
    else s1.setPort { s1.port with phase := .command, command := none, args := [], response := [] }

/-- CHIP_SELECT_ASSERT (R201). -/
def execChipSelectAssert (s : State) : Host.Outcome State Fault Refusal :=
  perform .chipSelectAssert assertSelect s

/-- The port back in WAITING. -/
def closeTransaction (s : State) : State :=
  s.setPort { s.port with phase := .waiting, command := none, args := [], response := [] }

/-- A transaction cut short in COMMAND or ARGUMENTS (R201). -/
def cutShort (s : State) : State :=
  closeTransaction (if s.loader.state = .loading then s else bump .commandsRefused s)

/-- The reset of an accepted RELOAD (R189, R190, R208). -/
def reloadReset (straps : Station) (s : State) : State :=
  sampleStraps straps (resetBlocks (setCause { s.loader.cause with reload := true } s))

/-- Chip select is deasserted at the moment of a pin reset that found a RELOAD waiting: the cause record
gains RELOAD too, and the one load begins at the pin's release (R190; notes/assumptions/32.md). -/
def meetReload (s : State) : State :=
  if s.loader.reloadMet then
    s.setLoader { s.loader with cause := { s.loader.cause with reload := true }, reloadMet := false }
  else s

/-- Chip select is deasserted (R201, R208). While the reset pin is asserted the port stays in the phase of
its reset (R189; notes/assumptions/19.md). -/
def deassertSelect (straps : Station) (s : State) : State :=
  if s.pins.chipSelect then
    let s1 := s.setPins { s.pins with chipSelect := false }
    if s.pins.resetAsserted then meetReload s1
    else match s1.port.phase with
      | .command => cutShort s1
      | .arguments => cutShort s1
      | .response => if s1.port.reloadPending then reloadReset straps s1 else closeTransaction s1
      | .dropping => closeTransaction s1
      | .waiting => closeTransaction s1
  else s

/-- CHIP_SELECT_DEASSERT (R201). -/
def execChipSelectDeassert (straps : Station) (s : State) : Host.Outcome State Fault Refusal :=
  perform (.chipSelectDeassert straps) (deassertSelect straps) s

/-! ## Taking a command (R202) -/

/-- The response code OK. -/
def codeOk : Byte := 0x01
/-- The response code NOT_READY. -/
def codeNotReady : Byte := 0x02
/-- The response code NOT_STOPPED. -/
def codeNotStopped : Byte := 0x03
/-- The response code NO_STREAM. -/
def codeNoStream : Byte := 0x04
/-- The response code UNKNOWN_COMMAND. -/
def codeUnknown : Byte := 0x05

/-- The whole response fixed, its shifting out begun (R202). -/
def answer (response : List Byte) (s : State) : State :=
  s.setPort { s.port with phase := .response, command := none, args := [], response := response }

/-- The byte the node shifts out during a byte of the transaction: in RESPONSE, at `k` bytes after the
taking, the response's byte, and 0x00 past its end; in every other phase 0x00 (R202). -/
def Port.shiftedOut (p : Port) (k : Nat) : Byte :=
  match p.phase with
  | .response => p.response.getD k 0
  | .waiting => 0
  | .command => 0
  | .arguments => 0
  | .dropping => 0

/-- A command refused: answered with a code alone and counted (R202). -/
def refuseCommand (code : Byte) (s : State) : State := answer [code] (bump .commandsRefused s)

/-- A command is taken: NOT_READY while the loader is LOADING, carried out otherwise (R191, R202). -/
def takeCommand (carryOut : State → State) (s : State) : State :=
  if s.loader.state = .loading then answer [codeNotReady] s else carryOut s

/-- A command without arguments, its byte the command byte of the open transaction (R201, R202). -/
def plainCommand (carryOut : State → State) (s : State) : State :=
  if s.port.phase = .command then takeCommand carryOut s else s

/-- A command with argument bytes: the bytes shifted in are gathered, and with the last of them that its
code asks for the command is taken (R201, R202). -/
def argumentCommand (code : Byte) (bytes : List Byte)
    (carryOut : List Byte → State → State) (s : State) : State :=
  let gathered : Option (List Byte) :=
    match s.port.phase with
    | .command => some bytes
    | .arguments => if s.port.command = some code then some (s.port.args ++ bytes) else none
    | .waiting => none
    | .response => none
    | .dropping => none
  match gathered with
  | none => s
  | some args =>
    if argumentCount code ≤ args.length then
      takeCommand (carryOut (args.take (argumentCount code))) s
    else s.setPort { s.port with phase := .arguments, command := some code, args := args }

/-! ## Reads (R203 to R206, R219) -/

/-- A bit set in one byte (R212). -/
def flagByte (flags : List Bool) : List Byte := beBytes 1 (bitsNat flags)

/-- A duration in fu as whole milliseconds, at most 65,535 (R219). -/
def msBytes (fu : Nat) : List Byte := beBytes 2 (min (fu / Config.fuPerMs) 65535)

/-- A time that may be none, 0 where it is (R219). -/
def timeOrZero : Option Time → List Byte
  | some t => timeBytes t
  | none => List.replicate 7 0

/-- A tag that may be none, 0 where it is (R219). -/
def tagOrZero : Option Tag → List Byte
  | some t => tagBytes t
  | none => List.replicate 5 0

/-- The encoding of a fault reason (R219). -/
def faultCode : FaultReason → Nat
  | .none => 0 | .markerFault => 1 | .lengthFault => 2 | .crcFault => 3 | .slotRateFault => 4
  | .encodingFault => 5 | .stationFault => 6 | .countFault => 7 | .streamRateFault => 8
  | .phasorFault => 9 | .codeFault => 10 | .duplicateCodeFault => 11 | .primaryFault => 12

/-- The encoding of a fault place: section, then item (R219). -/
def placeBytes : Option FaultPlace → List Byte
  | none => [255, 255]
  | some p => beBytes 1 p.station ++ match p.item with
    | .none => [255]
    | .position n => beBytes 1 n
    | .monitor n => beBytes 1 (128 + n)

/-- The encoding of a loader state (R219). -/
def loaderCode : LoaderState → Nat
  | .loading => 0 | .loaded => 1 | .fault => 2

/-- The encoding of a writer state (R219). -/
def writerCode : WriterState → Nat
  | .closed => 0 | .idle => 1 | .receiving => 2 | .discarding => 3 | .ignoring => 4

/-- The encoding of a checker state (R219). -/
def checkerCode : CheckerState → Nat
  | .idle => 0 | .checking => 1

/-- The encoding of a link state (R219). -/
def linkCode : LinkState → Nat
  | .listening => 0 | .active => 1 | .muted => 2

/-- The encoding of an assembler state (R219). -/
def assemblerCode : AssemblerState → Nat
  | .closed => 0 | .idle => 1 | .delivering _ _ => 2

/-- The tag in delivery, or none (R154). -/
def tagInDelivery : AssemblerState → Option Tag
  | .delivering c _ => some c.tag
  | .closed => none
  | .idle => none

/-- Bytes taken of the record in delivery (R154). -/
def bytesTaken : AssemblerState → Nat
  | .delivering _ taken => taken
  | .closed => 0
  | .idle => 0

/-- How many records are in a state (R85). -/
def countState (st : RecordState) (rs : List Record) : Nat := rs.countP (fun r => r.state == st)

/-- The oldest record's tag (R66). -/
def oldestTag (rs : List Record) : Option Tag := rs.head?.map (·.tag)

/-- The status image, 73 bytes (R203, R219). -/
def statusImage (s : State) : List Byte :=
  let c := s.clock
  let oldest := oldestTag s.table.records
  let delivery := tagInDelivery s.assembler.state
  beBytes 1 s.loader.strap.val
  ++ flagByte [s.loader.report.clamped.any, c.holdoverLong, c.state != .acquiring,
      s.link.notice.isSome, s.link.beacon.isSome]
  ++ flagByte [s.loader.report.digest.isSome, c.newest.isSome, oldest.isSome, delivery.isSome]
  ++ beBytes 1 (loaderCode s.loader.state) ++ beBytes 1 (faultCode s.loader.report.reason)
  ++ placeBytes s.loader.report.place ++ beBytes 2 s.loader.report.clamped.toNat
  ++ beBytes 4 ((s.loader.report.digest.getD 0).toNat)
  ++ beBytes 1 (clockCode c.state) ++ timeBytes c.now ++ tagOrZero c.newest
  ++ beBytes 1 (writerCode s.intake.writer) ++ beBytes 1 (checkerCode s.intake.checker)
  ++ beBytes 2 s.intake.readPtr.toNat ++ beBytes 2 s.intake.writeHead.toNat
  ++ beBytes 2 s.intake.writeCur.toNat ++ beBytes 2 s.intake.held ++ beBytes 2 s.intake.free
  ++ beBytes 1 (countState .opened s.table.records) ++ beBytes 1 (countState .closing s.table.records)
  ++ beBytes 1 (countState .gathering s.table.records)
  ++ beBytes 1 (countState .draining s.table.records)
  ++ tagOrZero oldest ++ beBytes 2 s.table.requestedWait ++ beBytes 4 s.table.effectiveWait
  ++ beBytes 4 s.table.effectiveGrace
  ++ beBytes 1 (linkCode s.link.state) ++ beBytes 1 s.link.collisionRun
  ++ beBytes 1 s.link.queue.length ++ beBytes 2 s.gather.free.length
  ++ beBytes 1 (assemblerCode s.assembler.state) ++ tagOrZero delivery
  ++ beBytes 2 (bytesTaken s.assembler.state) ++ beBytes 2 s.assembler.skipped
  ++ beBytes 1 s.port.causes.toNat

/-- The encoding of a roster state (R219). -/
def peerCode : PeerState → Nat
  | .unconfigured => 0 | .unheard => 1 | .present => 2 | .silent => 3 | .mismatched => 4 | .local_ => 5

/-- A roster entry as it is read: the LOCAL one reports the node's own values (R131, R204). -/
def readPeer (s : State) (p : Peer) : Peer :=
  if p.state = .local_ then
    { p with lastClock := some s.clock.state
             lastEffective := some (s.table.effectiveWait, s.table.effectiveGrace) }
  else p

/-- A roster entry in 18 bytes (R219). -/
def peerBytes (p : Peer) : List Byte :=
  let (wait, grace) := p.lastEffective.getD (0, 0)
  beBytes 1 (peerCode p.state)
  ++ flagByte [p.lastEffective.isSome, p.lastBeacon.isSome, (p.lastBeacon.map (·.known)).getD false,
      p.silence.isSome]
  ++ beBytes 1 (clockCodeOr7 p.lastClock) ++ beBytes 4 wait ++ beBytes 4 grace
  ++ beBytes 4 ((p.lastBeacon.map (·.second)).getD 0) ++ beBytes 1 p.misses
  ++ msBytes (p.silence.getD 0)

/-- The sixteen roster entries, 288 bytes (R204, R219). -/
def rosterImage (s : State) : List Byte :=
  s.gather.roster.toList.flatMap (fun p => peerBytes (readPeer s p))

/-- The encoding of a health (R219). -/
def healthCode : Health → Nat
  | .unseen => 0 | .live => 1 | .stalled => 2 | .disabled => 3

/-- A role in its two bytes (R218, R219). -/
def roleBytes : Role → List Byte
  | .primary => [0, 0]
  | .secondary p => [1, BitVec.ofNat 8 p.val]

/-- A directory entry in its image form, 7 bytes (R218, R219). -/
def entryBytes (e : Entry) : List Byte :=
  beBytes 2 e.code ++ beBytes 1 e.rate.perSecond ++ beBytes 1 e.phasors ++ roleBytes e.role
  ++ flagByte [e.enabledAtStart]

/-- The stream report, 43 bytes (R204, R219). -/
def streamReport (st : Stream) : List Byte :=
  entryBytes st.entry
  ++ flagByte [st.pending, st.working, !st.ring.isEmpty, st.horizon.isSome]
  ++ beBytes 1 (healthCode st.health) ++ beBytes 1 st.ring.length
  ++ timeOrZero (st.ring.head?.map (·.t)) ++ timeOrZero (st.ring.getLast?.map (·.t))
  ++ timeOrZero st.horizon
  ++ beBytes 2 st.counters.admitted ++ beBytes 2 st.counters.lateAdmitted
  ++ beBytes 2 st.counters.evicted ++ beBytes 2 st.counters.late
  ++ beBytes 2 st.counters.duplicate ++ beBytes 2 st.counters.stale

/-- The 48 counters, 96 bytes (R206, R219). -/
def counterImage (s : State) : List Byte := s.counters.toList.flatMap (beBytes 2)

/-- The encoding of a drop reason (R219). -/
def dropCode : DropReason → Nat
  | .none => 0 | .bufferFull => 1 | .oversize => 2 | .runt => 3 | .badMarker => 4 | .format => 5
  | .badCrc => 6 | .unknownSource => 7 | .disabledSource => 8 | .early => 9 | .late => 10
  | .duplicate => 11 | .stale => 12

/-- The last-drop record, 10 bytes (R205, R219). -/
def lastDropBytes (d : LastDrop) : List Byte :=
  beBytes 2 d.code ++ beBytes 1 (dropCode d.reason) ++ timeBytes d.stamp

/-- READ_STATUS (R203). -/
def execReadStatus (s : State) : Host.Outcome State Fault Refusal :=
  perform .readStatus (plainCommand fun s => answer (codeOk :: statusImage s) s) s

/-- READ_ROSTER (R204). -/
def execReadRoster (s : State) : Host.Outcome State Fault Refusal :=
  perform .readRoster (plainCommand fun s => answer (codeOk :: rosterImage s) s) s

/-- The stream an argument byte names (R49). -/
def namedStream (args : List Byte) (s : State) : Option Stream := s.streams[(args.getD 0 0).toNat]?

/-- The stream report of a position, or NO_STREAM (R204). -/
def reportStream (args : List Byte) (s : State) : State :=
  match namedStream args s with
  | some st => answer (codeOk :: streamReport st) s
  | none => refuseCommand codeNoStream s

/-- READ_STREAM (R204). -/
def execReadStream (args : List Byte) (s : State) : Host.Outcome State Fault Refusal :=
  perform (.readStream args) (argumentCommand 0x12 args reportStream) s

/-- READ_COUNTERS (R206). -/
def execReadCounters (s : State) : Host.Outcome State Fault Refusal :=
  perform .readCounters (plainCommand fun s => answer (codeOk :: counterImage s) s) s

/-- READ_LAST_DROP (R205). -/
def execReadLastDrop (s : State) : Host.Outcome State Fault Refusal :=
  perform .readLastDrop (plainCommand fun s => answer (codeOk :: lastDropBytes s.intake.lastDrop) s) s

/-- The reset cause record answered and then emptied (R205). -/
def reportCause (s : State) : State :=
  answer (codeOk :: beBytes 1 s.loader.cause.toNat) (setCause ⟨false, false, false, false⟩ s)

/-- READ_RESET_CAUSE (R205). -/
def execReadResetCause (s : State) : Host.Outcome State Fault Refusal :=
  perform .readResetCause (plainCommand reportCause) s

/-! ## Commands that change the node (R206 to R209) -/

/-- Every station counter and per-stream counter set to 0 (R206). -/
def clearCounters (s : State) : State :=
  answer [codeOk] ((s.setCounters zeroCounters).setStreams
    (s.streams.map (fun st => { st with counters := .zero })))

/-- CLEAR_COUNTERS (R206). -/
def execClearCounters (s : State) : Host.Outcome State Fault Refusal :=
  perform .clearCounters (plainCommand clearCounters) s

/-- The request stored, 2,000 ms at most, and answered (R69, R207). -/
def storeWait (args : List Byte) (s : State) : State :=
  let ms := min (beNat args) Config.maxWait
  answer (codeOk :: beBytes 2 ms) (s.setTable { s.table with requestedWait := ms })

/-- SET_WAIT (R207). -/
def execSetWait (args : List Byte) (s : State) : Host.Outcome State Fault Refusal :=
  perform (.setWait args) (argumentCommand 0x21 args storeWait) s

/-- A position put into the pending enable set or taken out, or NO_STREAM (R50, R207). -/
def setPendingMember (member : Bool) (args : List Byte) (s : State) : State :=
  match namedStream args s with
  | some _ => answer [codeOk] (s.setStreams
      (updateStream (args.getD 0 0).toNat (fun st => { st with pending := member }) s.streams))
  | none => refuseCommand codeNoStream s

/-- ENABLE_STREAM (R207). -/
def execEnableStream (args : List Byte) (s : State) : Host.Outcome State Fault Refusal :=
  perform (.enableStream args) (argumentCommand 0x22 args (setPendingMember true)) s

/-- DISABLE_STREAM (R207). -/
def execDisableStream (args : List Byte) (s : State) : Host.Outcome State Fault Refusal :=
  perform (.disableStream args) (argumentCommand 0x23 args (setPendingMember false)) s

/-- STOPPED becomes ACQUIRING, or NOT_STOPPED (R19, R208). -/
def resumeClock (s : State) : State :=
  if s.clock.state = .stopped then
    answer [codeOk] (s.setClock { s.clock with
      state := .acquiring, pendingTod := none, announcement := none })
  else refuseCommand codeNotStopped s

/-- RESUME_CLOCK (R208). -/
def execResumeClock (s : State) : Host.Outcome State Fault Refusal :=
  perform .resumeClock (plainCommand resumeClock) s

/-- The named causes removed, those left answered (R209). -/
def acknowledge (args : List Byte) (s : State) : State :=
  let left := s.port.causes.without (args.getD 0 0)
  answer (codeOk :: beBytes 1 left.toNat) (s.setPort { s.port with causes := left })

/-- ACK_ATTENTION (R209). -/
def execAckAttention (args : List Byte) (s : State) : Host.Outcome State Fault Refusal :=
  perform (.ackAttention args) (argumentCommand 0x25 args acknowledge) s

/-- A reset armed for the next deassertion (R208). -/
def armReload (s : State) : State :=
  answer [codeOk] (s.setPort { s.port with reloadPending := true })

/-- RELOAD (R208). -/
def execReload (s : State) : Host.Outcome State Fault Refusal :=
  perform .reload (plainCommand armReload) s

/-- UNKNOWN_COMMAND (R202). -/
def execUnknownCommand (code : Byte) (s : State) : Host.Outcome State Fault Refusal :=
  perform (.unknownCommand code) (plainCommand (refuseCommand codeUnknown)) s

end Sys2Proof.Machine
end

