-- ==== Sys2Proof/Machine/Slots.lean ====
section
/-! DEFINITION. The commands of the directory, the slot table and its local close (chapters 3, 4, 5
and 9): stall expiry, the deadlines, stream resolution with the monitors, close completion, and the
expiry of shares and of a peer's silence age. -/

namespace Sys2Proof.Machine

open Sys2Proof

/-! ## Time-driven events -/

/-- A LIVE stream becomes STALLED, and the oldest OPEN record is examined for it (R53, R74). -/
def stallStream (n : Nat) (s : State) : State :=
  examineFor n (s.setStreams (updateStream n (fun st => { st with health := .stalled }) s.streams))

/-- When the stream at a position stalls (R53). -/
def streamStallIn (n : Nat) (s : State) : Option Nat :=
  match s.streams[n]? with
  | some st => stallIn st
  | none => none

/-- When the close deadline of a tag's record passes (R71). -/
def closeIn (t : Tag) (s : State) : Option Nat :=
  match recordOf t s.table.records with
  | some r => deadlineIn s.clock.now r.closeDeadline r.closePassed
  | none => none

/-- When the gathering deadline of a tag's record passes (R71). -/
def gatherIn (t : Tag) (s : State) : Option Nat :=
  match recordOf t s.table.records with
  | some r => deadlineIn s.clock.now r.gatherDeadline r.gatherPassed
  | none => none

/-- When the deadline of a queued share passes (R120). -/
def shareIn (t : Tag) (s : State) : Option Nat :=
  match s.link.queue.find? (fun e => e.tag == t) with
  | some e => deadlineIn s.clock.now e.deadline e.passed
  | none => none

/-- When a peer's silence age reaches the limit (R135). -/
def peerSilenceIn (i : Station) (s : State) : Option Nat :=
  silenceIn s.silenceLimit s.gather.roster[i]

/-- A PRESENT peer falls silent: it leaves PRESENT and the records are judged (R135, R138). -/
def silencePeer (i : Station) (s : State) : State := judge (leavePresent i .silent s)

/-- STALL_EXPIRY (R53). -/
def execStallExpiry (n : Nat) (s : State) : Host.Outcome State Fault Refusal :=
  perform (.stallExpiry n) (atMoment (streamStallIn n) (stallStream n)) s

/-- CLOSE_DEADLINE (R71). -/
def execCloseDeadline (tag : Tag) (s : State) : Host.Outcome State Fault Refusal :=
  perform (.closeDeadline tag) (atMoment (closeIn tag) (passClose tag)) s

/-- GATHERING_DEADLINE (R71). -/
def execGatheringDeadline (tag : Tag) (s : State) : Host.Outcome State Fault Refusal :=
  perform (.gatheringDeadline tag) (atMoment (gatherIn tag) (passGather tag)) s

/-- SHARE_EXPIRY (R120). -/
def execShareExpiry (tag : Tag) (s : State) : Host.Outcome State Fault Refusal :=
  perform (.shareExpiry tag) (atMoment (shareIn tag) (passShare tag)) s

/-- SILENCE_EXPIRY (R135). -/
def execSilenceExpiry (peer : Station) (s : State) : Host.Outcome State Fault Refusal :=
  perform (.silenceExpiry peer) (atMoment (peerSilenceIn peer) (silencePeer peer)) s

/-! ## The monitors judge a cell (R176 to R179) -/

/-- The eight monitor numbers in order. -/
def monitorNumbers : List (Fin 8) := [0, 1, 2, 3, 4, 5, 6, 7]

/-- The value of a monitor's quantity in a cell's values (R177). -/
def Quantity.read (q : Quantity) (v : CellValues) : Int :=
  match q with
  | .freq => v.freq
  | .rocof => v.rocof
  | .mag0 => match v.phasors with
    | p :: _ => p.mag
    | [] => 0

/-- The cell's level for a monitor, none when it is ABSENT (R177). -/
def cellLevel (m : MonitorSettings) (c : Cell) : Option Level :=
  match c.values with
  | none => none
  | some v => some (if m.threshold < m.quantity.read v then .above else .below)

/-- The direction of the change from a stored level to a cell's level (R178). -/
def changeOf : Level → Level → Option Direction
  | .below, .above => some .rising
  | .above, .below => some .falling
  | .unknown, _ => none
  | .above, .above => none
  | .below, .below => none
  | .above, .unknown => none
  | .below, .unknown => none

/-- The edge mode selects the change (R178). -/
def EdgeMode.selects : EdgeMode → Direction → Bool
  | .both, _ => true
  | .rising, .rising => true
  | .falling, .falling => true
  | .rising, .falling => false
  | .falling, .rising => false
  | .off, _ => false

/-- A monitor changed. -/
def updateMonitor (i : Fin 8) (f : Monitor → Monitor) (s : State) : State :=
  s.setMonitors (s.monitors.set i (f s.monitors[i]))

/-- A mark offered to a record's list: appended, or refused when it holds 8 (R179). -/
def offerMark (t : Tag) (m : Mark) (s : State) : State :=
  match recordOf t s.table.records with
  | none => s
  | some r =>
    if r.marks.length < Config.maxMarks then
      bump .marksAppended (updateRecord t (fun r => { r with marks := r.marks ++ [m] }) s)
    else bump .markOverflow s

/-- A monitor fires: the mark offered, the countdown loaded, the firing noted (R179). -/
def fire (i : Fin 8) (code : Nat) (d : Direction) (t : Tag) (s : State) : State :=
  updateMonitor i (fun m => { m with countdown := m.settings.blanking, fired := true })
    (offerMark t ⟨i.val, code, d⟩ s)

/-- One monitor judges one stored cell (R176 to R178). -/
def judgeCell (pos : Nat) (c : Cell) (t : Tag) (s : State) (i : Fin 8) : State :=
  let m := s.monitors[i]
  if m.settings.mode = .off ∨ pos ∉ m.watch then s
  else match cellLevel m.settings c with
    | none => s
    | some level =>
      let s1 := updateMonitor i (fun m => { m with levels := m.levels.set pos level }) s
      match changeOf (m.levels.getD pos .unknown) level with
      | none => s1
      | some d =>
        if !m.settings.mode.selects d then s1
        else if m.countdown = 0 then fire i c.code d t s1
        else bump .marksBlanked s1

/-- The monitors evaluate a stored cell in number order (R176). -/
def evaluateCell (pos : Nat) (c : Cell) (t : Tag) (s : State) : State :=
  monitorNumbers.foldl (judgeCell pos c t) s

/-! ## The local close runs (R76, R78, R87) -/

/-- The cell of a stream at a record's slot time (R87). -/
def cellOf (s : State) (r : Record) (st : Stream) : Cell :=
  resolve
    { tau := slotTime s.loader.shared.slotRate r.tag, period := st.period
      snap := s.loader.shared.snapTolerance, hold := s.loader.shared.holdLimit
      code := st.entry.code } st.view

/-- The record in close with its cells so far and the next position to resolve (R76). -/
def nextResolution (s : State) : Option (Record × List Cell × Nat) :=
  match closingRecord s.table.records with
  | none => none
  | some r =>
    match r.cells, r.enabled[(r.cells.getD []).length]? with
    | some cs, some pos => some (r, cs, pos)
    | _, _ => none

/-- One resolution ends: the cell is stored and the monitors evaluate it (R76, R87, R176). -/
def resolveNext (s : State) : State :=
  match nextResolution s with
  | none => s
  | some (r, cs, pos) =>
    match s.streams[pos]? with
    | none => s
    | some st =>
      let c := cellOf s r st
      evaluateCell pos c r.tag (updateRecord r.tag (fun r => { r with cells := some (cs ++ [c]) }) s)

/-- STREAM_RESOLUTION (R87). -/
def execStreamResolution (s : State) : Host.Outcome State Fault Refusal :=
  perform .streamResolution resolveNext s

/-- The record in close when every stream of its enable set has its cell (R78). -/
def completable (s : State) : Option Record :=
  match closingRecord s.table.records with
  | none => none
  | some r => if (r.cells.getD []).length = r.enabled.length then some r else none

/-- The close completes, and the oldest OPEN record is examined (R78). -/
def completeClose (s : State) : State :=
  match completable s with
  | none => s
  | some r => examine (finishClose r s)

/-- CLOSE_COMPLETION (R78). -/
def execCloseCompletion (s : State) : Host.Outcome State Fault Refusal :=
  perform .closeCompletion completeClose s

end Sys2Proof.Machine
end

