-- ==== Sys2Proof/Machine/Dispatch.lean ====
section
/-! DEFINITION. One arm for each command, each a direct call of its meaning. -/

namespace Sys2Proof.Machine

open Sys2Proof

/-- A command's effect on everything but the queue. -/
def exec (i : Instr) (s : State) : Host.Outcome State Fault Refusal :=
  match i with
  | .powerOn straps => Sys2Proof.Machine.execPowerOn straps s
  | .resetPinAssert => Sys2Proof.Machine.execResetPinAssert s
  | .resetPinRelease straps => Sys2Proof.Machine.execResetPinRelease straps s
  | .loadComplete image => Sys2Proof.Machine.execLoadComplete image s
  | .loadFault image => Sys2Proof.Machine.execLoadFault image s
  | .ppsEdge edge => Sys2Proof.Machine.execPpsEdge edge s
  | .timeOfDayMessage chars => Sys2Proof.Machine.execTimeOfDayMessage chars s
  | .localSecondBoundary => Sys2Proof.Machine.execLocalSecondBoundary s
  | .slotTimeReached => Sys2Proof.Machine.execSlotTimeReached s
  | .holdoverEntry => Sys2Proof.Machine.execHoldoverEntry s
  | .holdoverLimitExpiry => Sys2Proof.Machine.execHoldoverLimitExpiry s
  | .frameStart => Sys2Proof.Machine.execFrameStart s
  | .byteEvent value => Sys2Proof.Machine.execByteEvent value s
  | .frameEnd => Sys2Proof.Machine.execFrameEnd s
  | .frameJudgement => Sys2Proof.Machine.execFrameJudgement s
  | .stallExpiry n => Sys2Proof.Machine.execStallExpiry n s
  | .closeDeadline tag => Sys2Proof.Machine.execCloseDeadline tag s
  | .streamResolution => Sys2Proof.Machine.execStreamResolution s
  | .closeCompletion => Sys2Proof.Machine.execCloseCompletion s
  | .gatheringDeadline tag => Sys2Proof.Machine.execGatheringDeadline tag s
  | .shareExpiry tag => Sys2Proof.Machine.execShareExpiry tag s
  | .snapshotByteTaken => Sys2Proof.Machine.execSnapshotByteTaken s
  | .deliveryEnd => Sys2Proof.Machine.execDeliveryEnd s
  | .markPulseEnd => Sys2Proof.Machine.execMarkPulseEnd s
  | .claimStart => Sys2Proof.Machine.execClaimStart s
  | .claimResolved line => Sys2Proof.Machine.execClaimResolved line s
  | .foreignClaimResolved => Sys2Proof.Machine.execForeignClaimResolved s
  | .deferIdleExpiry => Sys2Proof.Machine.execDeferIdleExpiry s
  | .transmissionComplete => Sys2Proof.Machine.execTransmissionComplete s
  | .collision => Sys2Proof.Machine.execCollision s
  | .shareHeader bytes => Sys2Proof.Machine.execShareHeader bytes s
  | .linkFrameEnd key bytes => Sys2Proof.Machine.execLinkFrameEnd key bytes s
  | .silenceExpiry peer => Sys2Proof.Machine.execSilenceExpiry peer s
  | .chipSelectAssert => Sys2Proof.Machine.execChipSelectAssert s
  | .chipSelectDeassert straps => Sys2Proof.Machine.execChipSelectDeassert straps s
  | .readStatus => Sys2Proof.Machine.execReadStatus s
  | .readRoster => Sys2Proof.Machine.execReadRoster s
  | .readStream args => Sys2Proof.Machine.execReadStream args s
  | .readCounters => Sys2Proof.Machine.execReadCounters s
  | .readLastDrop => Sys2Proof.Machine.execReadLastDrop s
  | .readResetCause => Sys2Proof.Machine.execReadResetCause s
  | .clearCounters => Sys2Proof.Machine.execClearCounters s
  | .setWait args => Sys2Proof.Machine.execSetWait args s
  | .enableStream args => Sys2Proof.Machine.execEnableStream args s
  | .disableStream args => Sys2Proof.Machine.execDisableStream args s
  | .resumeClock => Sys2Proof.Machine.execResumeClock s
  | .ackAttention args => Sys2Proof.Machine.execAckAttention args s
  | .reload => Sys2Proof.Machine.execReload s
  | .unknownCommand code => Sys2Proof.Machine.execUnknownCommand code s
  | .linkIdleJudged => Sys2Proof.Machine.execLinkIdleJudged s

end Sys2Proof.Machine
end

