-- ==== Sys2Proof/Machine/Tick.lean ====
section
/-! DEFINITION. What the node does when no command waits: the first event now due takes place, or one
fu of oscillator time passes (R1; notes/assumptions/1.md). DESIGN CHOICE. -/

namespace Sys2Proof.Machine

open Sys2Proof

/-- The first stream whose stall is due, by position (R53). -/
def dueStall (s : State) : Option Nat := s.streams.findIdx? (fun st => stallIn st == some 0)

/-- The oldest record whose close deadline is reached and not marked (R71). -/
def dueClose (s : State) : Option Record :=
  s.table.records.find? (fun r => deadlineIn s.clock.now r.closeDeadline r.closePassed == some 0)

/-- The oldest record whose gathering deadline is reached and not marked (R71). -/
def dueGather (s : State) : Option Record :=
  s.table.records.find? (fun r => deadlineIn s.clock.now r.gatherDeadline r.gatherPassed == some 0)

/-- The oldest queued share whose deadline is reached and not marked (R120). -/
def dueShare (s : State) : Option QueuedShare :=
  s.link.queue.find? (fun e => deadlineIn s.clock.now e.deadline e.passed == some 0)

/-- The first peer whose silence age has reached the limit (R135). -/
def dueSilence (s : State) : Option Station :=
  allStations.find? (fun i => peerSilenceIn i s == some 0)

/-- The streams, deadlines, shares and peers in turn; one fu passes when none is due. -/
def tickLater (s : State) : State :=
  match dueStall s with
  | some n => stallStream n s
  | none => match dueClose s with
    | some r => passClose r.tag s
    | none => match dueGather s with
      | some r => passGather r.tag s
      | none => match dueShare s with
        | some e => passShare e.tag s
        | none => match dueSilence s with
          | some i => silencePeer i s
          | none => elapse 1 s

/-- Time passes in a node whose count does not advance: a RELOAD that a pin reset met is no longer at
that reset's moment, and so is discarded (R190, R208; notes/assumptions/32.md). -/
def endMoment (s : State) : State := s.setLoader { s.loader with reloadMet := false }

/-- The node with no command waiting: a running node takes the first event now due, the boundary
first, or lets one fu pass; in any other node the moment passes (R1, R2, R23). -/
def tick (s : State) : State :=
  if !s.running then endMoment s
  else if s.clock.boundaryDue then reachBoundary s
  else if cadenceRuns s.clock.state && s.clock.slotDue then reachSlot s
  else if markIn s = some 0 then lowerMark s
  else if deliveryEndIn s = some 0 then endDelivery s
  else if holdoverEntryIn s = some 0 then enterHoldover s
  else if holdoverLimitIn s = some 0 then expireHoldover s
  else tickLater s

end Sys2Proof.Machine
end

