-- ==== Sys2Proof/Safety.lean ====
section
/-! DEFINITION. The terms the claims use: the parts of the node a command may change, the moment a
time-driven command takes place at, and the laws of the device as properties of a state. -/

namespace Sys2Proof.Machine

open Sys2Proof

/-! ## Parts of the node -/

/-- The parts of the node, finer than the blocks where one command changes only a part of a block. -/
inductive Part where
  | pins | loader | clock
  /-- The intake unit less its buffer memory. -/
  | intake
  | intakeMem | streams | table | link | roster | freeList | reception | storeMem | assembler
  | monitors
  /-- The service port less its attention causes. -/
  | transaction
  | causes | counters | pending
  deriving DecidableEq, Repr

/-- Two states agree on a part. -/
def Same (p : Part) (s t : State) : Prop :=
  match p with
  | .pins => t.pins = s.pins
  | .loader => t.loader = s.loader
  | .clock => t.clock = s.clock
  | .intake => { t.intake with mem := [] } = { s.intake with mem := [] }
  | .intakeMem => t.intake.mem = s.intake.mem
  | .streams => t.streams = s.streams
  | .table => t.table = s.table
  | .link => t.link = s.link
  | .roster => t.gather.roster = s.gather.roster
  | .freeList => t.gather.free = s.gather.free
  | .reception => t.gather.reception = s.gather.reception
  | .storeMem => t.gather.mem = s.gather.mem
  | .assembler => t.assembler = s.assembler
  | .monitors => t.monitors = s.monitors
  | .transaction => { t.port with causes := .none } = { s.port with causes := .none }
  | .causes => t.port.causes = s.port.causes
  | .counters => t.counters = s.counters
  | .pending => t.pending = s.pending

/-- From one state to another, only the listed parts differ. -/
def ChangesOnly (ps : List Part) (s t : State) : Prop := ∀ p, p ∉ ps → Same p s t

/-- The parts oscillator time changes. -/
def timeParts : List Part := [.clock, .streams, .roster, .assembler]

/-- The parts a judgement of GATHERING records can change. -/
def judgeParts : List Part := [.table, .freeList, .assembler, .counters, .causes]

/-- The parts an examination by the close sequencer can change. -/
def examineParts : List Part :=
  [.streams, .monitors, .link, .table, .freeList, .assembler, .counters, .causes]

/-- The parts a command may change; every other part it leaves as it is. -/
def mayChange : Instr → List Part
  | .powerOn _ => [.loader, .clock, .intake, .streams, .table, .link, .roster, .freeList, .reception,
      .assembler, .monitors, .transaction, .causes, .counters]
  | .resetPinAssert => [.pins, .loader, .clock, .intake, .streams, .table, .link, .roster, .freeList,
      .reception, .assembler, .monitors, .transaction, .causes, .counters]
  | .resetPinRelease _ => [.pins, .loader]
  | .loadComplete _ =>
      [.loader, .clock, .intake, .streams, .table, .link, .roster, .assembler, .monitors]
  | .loadFault _ => [.loader, .intake, .causes]
  | .ppsEdge _ => [.clock, .streams, .monitors, .link, .table, .roster, .freeList, .assembler,
      .counters, .causes]
  | .timeOfDayMessage _ => [.clock, .counters, .causes]
  | .localSecondBoundary => [.clock, .streams, .monitors, .link, .table, .roster, .freeList,
      .assembler, .counters, .causes]
  | .slotTimeReached => [.clock, .streams, .monitors, .link, .table, .roster, .freeList,
      .assembler, .counters, .causes]
  | .holdoverEntry => timeParts
  | .holdoverLimitExpiry => timeParts ++ [.table, .link, .freeList, .counters, .causes]
  | .frameStart => [.pins, .intake, .counters, .causes]
  | .byteEvent _ => [.intake, .intakeMem, .counters, .causes]
  | .frameEnd => [.pins, .intake, .intakeMem]
  | .frameJudgement => .intake :: examineParts
  | .stallExpiry _ => timeParts ++ examineParts
  | .closeDeadline _ => timeParts ++ examineParts
  | .streamResolution => [.table, .monitors, .counters, .causes]
  | .closeCompletion => examineParts
  | .gatheringDeadline _ => timeParts ++ judgeParts
  | .shareExpiry _ => timeParts ++ [.link, .counters, .causes]
  | .snapshotByteTaken => [.assembler]
  | .deliveryEnd => judgeParts
  | .markPulseEnd => timeParts
  | .claimStart => [.link]
  | .claimResolved _ => [.link, .counters, .causes]
  | .foreignClaimResolved => [.link]
  | .deferIdleExpiry => [.link]
  | .transmissionComplete => [.link, .counters]
  | .collision => [.link, .counters, .causes]
  | .shareHeader _ => [.link, .freeList, .reception, .storeMem]
  | .linkFrameEnd _ _ =>
      [.link, .roster, .freeList, .reception, .storeMem, .table, .assembler, .counters, .causes]
  | .silenceExpiry _ => timeParts ++ judgeParts
  | .chipSelectAssert => [.pins, .transaction]
  | .chipSelectDeassert _ => [.pins, .loader, .clock, .intake, .streams, .table, .link, .roster,
      .freeList, .reception, .assembler, .monitors, .transaction, .causes, .counters]
  | .readStatus => [.transaction]
  | .readRoster => [.transaction]
  | .readStream _ => [.transaction, .counters]
  | .readCounters => [.transaction]
  | .readLastDrop => [.transaction]
  | .readResetCause => [.transaction, .loader]
  | .clearCounters => [.transaction, .counters, .streams]
  | .setWait _ => [.transaction, .table]
  | .enableStream _ => [.transaction, .streams, .counters]
  | .disableStream _ => [.transaction, .streams, .counters]
  | .resumeClock => [.transaction, .clock, .counters]
  | .ackAttention _ => [.transaction, .causes]
  | .reload => [.transaction]
  | .unknownCommand _ => [.transaction, .counters]
  | .linkIdleJudged => [.link]

/-! ## The moment of a time-driven command (notes/assumptions/1.md) -/

/-- The node `d` fu on. -/
def momentOf (d : Nat) (s : State) : State := if d = 0 then s else elapse d s

/-- A running node can come to an event `d` fu on: it is due, or no other event falls due before it. -/
def CanArrive (d : Nat) (s : State) : Prop := s.running = true ∧ (d = 0 ∨ d ≤ timeToNext s)

/-! ## The laws of the device -/

/-- The place of a record's state in the order records pass through them, last first (R79). -/
def RecordState.rank : RecordState → Nat
  | .draining => 0
  | .gathering => 1
  | .closing => 2
  | .opened => 3

/-- The records stand in tag order, no newer one ahead of an older one (R65, R79). -/
def inOrder : List Record → Bool
  | [] => true
  | r :: rs => rs.all (fun q => r.tag.older q.tag && decide (r.state.rank ≤ q.state.rank)) && inOrder rs

/-- The slot table's law: at most 64 records, at most 16 of them DRAINING, in order, none newer than
the newest tag opened, one CLOSING exactly while the sequencer is CLOSING, and the record in delivery
the oldest one and DRAINING (R22, R65, R79, R85, R154, R156). -/
def TableLaw (s : State) : Prop :=
  s.table.records.length ≤ Config.maxRecords ∧
  drainingCount s.table.records ≤ Config.maxDraining ∧
  inOrder s.table.records = true ∧
  (∀ r ∈ s.table.records, newerThanOpened s.clock.newest r.tag = false) ∧
  s.table.records.countP (fun r => r.state == .closing)
    = (if s.table.sequencer = .closing then 1 else 0) ∧
  (∀ t ∈ tagInDelivery s.assembler.state,
    s.table.records.head?.map (fun r => (r.tag, r.state)) = some (t, RecordState.draining))

/-- The samples stand in strictly increasing order of timestamp (R55). -/
def ringOrdered : List Sample → Bool
  | [] => true
  | x :: xs => xs.all (fun y => x.t.before y.t) && ringOrdered xs

/-- Every ring holds at most 32 samples in strictly increasing timestamp order (R55). -/
def RingLaw (s : State) : Prop :=
  ∀ st ∈ s.streams, st.ring.length ≤ Config.ringCapacity ∧ ringOrdered st.ring = true

/-- The blocks the reception in progress holds (R139). -/
def receptionBlocks (s : State) : List Block :=
  match s.gather.reception with
  | some r => r.blocks
  | none => []

/-- Every block of the share store, wherever it is (R139). -/
def blocksInPlace (s : State) : List Block :=
  s.gather.free ++ receptionBlocks s ++ s.table.records.flatMap Record.blocks

/-- The share store's law: the free blocks and the held blocks are the 16,384 blocks, each once (R139). -/
def StoreLaw (s : State) : Prop := (blocksInPlace s).Perm allBlocks

/-- Every counter is within 16 bits, the per-stream counters and the skipped count too (chapter 11,
section 11.3; R63, R160). -/
def CounterLaw (s : State) : Prop :=
  (∀ c : Counter, s.count c ≤ Config.counterMax) ∧ s.assembler.skipped ≤ Config.counterMax ∧
  ∀ st ∈ s.streams, st.counters.admitted ≤ Config.counterMax ∧
    st.counters.lateAdmitted ≤ Config.counterMax ∧ st.counters.evicted ≤ Config.counterMax ∧
    st.counters.late ≤ Config.counterMax ∧ st.counters.duplicate ≤ Config.counterMax ∧
    st.counters.stale ≤ Config.counterMax

/-- Whole frames of these byte counts stand in the buffer one after another from a position on: each is a
stamp entry, whose last byte counts the bytes that follow it, and at most 85 bytes (R27, R29, R31). -/
def FramesFrom (mem : List Host.Cell) : Pos → List Nat → Prop
  | _, [] => True
  | p, n :: ns => n ≤ Config.maxFrame ∧ (memRead mem (p + 8).toNat).toNat = n ∧
      FramesFrom mem (p + BitVec.ofNat 15 (Config.stampSize + n)) ns

/-- The buffer's regions fit: the three sizes make 32,768; the complete region runs from the read pointer
to the write head and holds whole frames; the reception region runs on from there to the write-current
pointer, all modulo 32,768, and is the stamp reservation and the bytes taken in RECEIVING and empty
otherwise; the checker holds a frame only where the complete region does; and the writer takes frames only
in LOADED (R26, R27, R29, R33). That the byte count stands last in a stamp entry is the model's
(notes/assumptions/9.md). -/
def BufferLaw (s : State) : Prop :=
  s.intake.writeHead = s.intake.readPtr + BitVec.ofNat 15 s.intake.held ∧
  s.intake.writeCur = s.intake.writeHead + BitVec.ofNat 15
    (if s.intake.writer = .receiving then Config.stampSize + s.intake.frameBytes else 0) ∧
  (∃ sizes, FramesFrom s.intake.mem s.intake.readPtr sizes ∧
    s.intake.held = (sizes.map (Config.stampSize + ·)).sum) ∧
  (s.intake.checker = .checking → s.intake.held ≠ 0) ∧
  s.intake.held + s.intake.received ≤ Config.bufferSize ∧
  s.intake.received =
    (if s.intake.writer = .receiving then Config.stampSize + s.intake.frameBytes else 0) ∧
  s.intake.frameBytes ≤ Config.maxFrame ∧
  (s.loader.state = .loading → s.intake.writer = .closed) ∧
  (s.loader.state = .fault → s.intake.writer = .ignoring)

/-- The wait's law: W_eff + G_eff ≤ 47 × P_out, and W_eff ≤ 28 × P_fast while a stream is in the
working enable set (R70). -/
def WaitLaw (s : State) : Prop :=
  s.table.effectiveWait + s.table.effectiveGrace ≤ Config.spanPeriods * s.outPeriod ∧
  ∀ st ∈ s.streams, st.working = true → s.table.effectiveWait ≤ Config.ringPeriods * st.period

/-- The link's law: a collision run of at most 3, MUTED exactly when the run has reached 3, LISTENING
exactly until a load has ended in LOADED, and nothing in transmission outside ACTIVE
(R108, R112, R119). -/
def LinkLaw (s : State) : Prop :=
  s.link.collisionRun ≤ Config.collisionLimit ∧
  (s.link.state = .muted ↔ s.link.collisionRun = Config.collisionLimit) ∧
  (s.link.state = .listening ↔ s.running = false) ∧
  (s.link.state ≠ .active → s.link.tx = none)

/-- The share queue's law: at most 64 shares in strict tag order, each at or before the newest tag
opened and before every record whose close has not completed (R109). -/
def QueueLaw (s : State) : Prop :=
  s.link.queue.length ≤ Config.maxQueue ∧
  s.link.queue.Pairwise (fun a b => a.tag.older b.tag = true) ∧
  (∀ q ∈ s.link.queue, newerThanOpened s.clock.newest q.tag = false) ∧
  (∀ q ∈ s.link.queue, ∀ r ∈ s.table.records, 2 ≤ r.state.rank → q.tag.older r.tag = true)

/-- The count's law: the time lies within a second, the seconds fields are 32 bits wide, the delay
compensation is 16 bits wide, and HOLDOVER_LONG is set only in HOLDOVER (R1, R3, R6, R14). -/
def ClockLaw (s : State) : Prop :=
  s.clock.now.fu < Config.fuPerSecond ∧ s.clock.now.sec ≤ Config.lastSecond ∧
  s.loader.shared.delayComp ≤ 65535 ∧
  (∀ m ∈ s.clock.pendingTod, m.second ≤ Config.lastSecond) ∧
  (s.clock.holdoverLong = true → s.clock.state = .holdover)

/-- Both memories are in canonical form. -/
def MemoryLaw (s : State) : Prop := memWf s.intake.mem = true ∧ memWf s.gather.mem = true

/-! ## How records move -/

/-- What a held record keeps while the node works on: its tag's deadlines, enable set and flag; its
place in the states; a passing once made; an attachment once made; its cells and marks once its close
has completed, from when its expected set gains no member; and everything of it once it is DRAINING
(R67, R71, R79, R106, R138, R146). -/
def Record.movesTo (r q : Record) : Prop :=
  q.closeDeadline = r.closeDeadline ∧ q.gatherDeadline = r.gatherDeadline ∧
  q.enabled = r.enabled ∧ q.afterStep = r.afterStep ∧ q.state.rank ≤ r.state.rank ∧
  (r.closePassed = true → q.closePassed = true) ∧ (r.gatherPassed = true → q.gatherPassed = true) ∧
  (∀ i : Station, r.attachments[i] ≠ .none → q.attachments[i] = r.attachments[i]) ∧
  (r.state.rank ≤ 1 → q.cells = r.cells ∧ q.marks = r.marks ∧
    ∀ i ∈ q.expected.getD [], i ∈ r.expected.getD []) ∧
  (r.state = .draining → q.attachments = r.attachments ∧ q.expected = r.expected)

/-- A tag whose turn is over: not newer than the newest tag opened, and older than every held record
(R22, R156). -/
def Gone (x : Tag) (s : State) : Prop :=
  newerThanOpened s.clock.newest x = false ∧ ∀ r ∈ s.table.records, x.older r.tag = true

/-! ## The close sequencer (R72 to R78) -/

/-- An examination starts the close of a record: the sequencer is IDLE, the record is the oldest OPEN one,
and its close deadline has passed or it is ready for early close (R72, R73). -/
def MayStart (s : State) (r : Record) : Prop :=
  s.table.sequencer = .idle ∧ s.table.records.find? (fun q => q.state == .opened) = some r ∧
  (r.closePassed = true ∨ readyToClose s r = true)

/-- From one state to the next the close of a record starts, as one action: the record and the sequencer
CLOSING, the horizons set and the samples settled in its enable set, the monitors' levels forgotten
outside it, and an early close counted (R57, R61, R73, R75, R181). -/
def CloseStarts (r : Record) (s t : State) : Prop :=
  ∀ u, u = { s with
    table := { s.table with
      sequencer := .closing
      records := s.table.records.map (fun q =>
        if q.tag = r.tag then { q with state := .closing, cells := some [] } else q) }
    streams := s.streams.mapIdx (fun n st => if n ∈ r.enabled then
      { st with horizon := some (slotTime s.loader.shared.slotRate r.tag)
                ring := st.ring.map (fun x => { x with settled := true }) } else st)
    monitors := s.monitors.map (fun m => if m.settings.mode = .off then m else
      { m with levels := m.levels.mapIdx (fun n l =>
        if n ∈ m.watch ∧ n ∉ r.enabled then .unknown else l) }) } →
    t = if r.closePassed = true then u else bump .earlyClose u

/-- From one state to the next the close of a record completes, all but the examination that follows it:
the share handed over, the countdowns adjusted, the expected set captured, the record GATHERING, DRAINING
or skipped, and the sequencer IDLE, with the OPEN records, the streams, the clock and the roster as they
were (R78 steps 1 to 4, R79, R80, R109, R120, R147, R180). That the share's SECONDARY cells are chosen
here is the model's (notes/assumptions/29.md). -/
def CloseCompletes (r : Record) (s t : State) : Prop :=
  TableLaw s → QueueLaw s → ∀ share : QueuedShare,
    share = ⟨r.tag, outgoingCells s.streams s.gather.mem r, r.marks, r.gatherDeadline, false⟩ →
    TableLaw t ∧ QueueLaw t ∧ t.table.sequencer = .idle ∧
    t.table.records.filter (fun q => q.state == .opened)
      = s.table.records.filter (fun q => q.state == .opened) ∧
    t.streams = s.streams ∧ t.clock = s.clock ∧ t.loader = s.loader ∧
    t.gather.roster = s.gather.roster ∧ t.gather.mem = s.gather.mem ∧
    t.monitors = s.monitors.map (fun m => { m with
      countdown := if m.fired then m.countdown else m.countdown - 1, fired := false }) ∧
    t.count .earlyClose = s.count .earlyClose ∧
    (r.gatherPassed = true → t.link.queue = s.link.queue ∧
      t.count .shareExpired = min (s.count .shareExpired + 1) 65535) ∧
    (r.gatherPassed = false → s.link.queue.length < 64 →
      t.link.queue = s.link.queue ++ [share] ∧ t.count .shareDisplaced = s.count .shareDisplaced) ∧
    (∀ e rest, r.gatherPassed = false → s.link.queue = e :: rest → rest.length = 63 →
      t.count .shareDisplaced = min (s.count .shareDisplaced + 1) 65535 ∧
      ((∀ f phase, s.link.tx = some ⟨.share f, phase⟩ → f.tag ≠ e.tag) →
        t.link.queue = rest ++ [share]) ∧
      (∀ f phase, s.link.tx = some ⟨.share f, phase⟩ → f.tag = e.tag →
        t.link.queue = e :: rest.tail ++ [share])) ∧
    ((r.gatherPassed = false ∧ ∃ i ∈ s.loader.shared.stations,
        s.gather.roster[i].state = .present ∧ r.attachments[i] = .none) ∨
        (∃ q ∈ s.table.records, q.state = .gathering ∧ q.complete = false) →
      ∃ q ∈ t.table.records, q.tag = r.tag ∧ q.state = .gathering ∧
        q.expected = some (s.loader.shared.stations.filter
          (fun i => s.gather.roster[i].state == .present)) ∧
        q.cells = r.cells ∧ q.marks = r.marks ∧ q.attachments = r.attachments) ∧
    (s.table.records.find? (fun q => q.state != .draining) = some r →
      (r.gatherPassed = true ∨ ∀ i ∈ s.loader.shared.stations,
        s.gather.roster[i].state = .present → r.attachments[i] ≠ .none) →
      (drainingCount s.table.records < 16 → ∃ q ∈ t.table.records, q.tag = r.tag ∧
        q.state = .draining ∧ q.cells = r.cells ∧ q.marks = r.marks ∧
        q.attachments = r.attachments) ∧
      (drainingCount s.table.records = 16 → (∀ q ∈ t.table.records, q.tag ≠ r.tag) ∧
        (∀ b ∈ r.blocks, b ∈ t.gather.free) ∧
        t.count .skipped = min (s.count .skipped + 1) 65535 ∧
        t.assembler.skipped = min (s.assembler.skipped + 1) 65535))

/-- From one state to the next the sequencer examines the oldest OPEN record: it starts its close where it
may, and nothing otherwise; a close with an empty enable set completes at once, and the completion brings
the next examination (R73, R74, R76, R78). -/
inductive Examination : State → State → Prop where
  | nothing (s : State) : (∀ r, ¬MayStart s r) → Examination s s
  | starts (s t : State) (r : Record) : MayStart s r → r.enabled ≠ [] → CloseStarts r s t →
      Examination s t
  | completes (s u v t : State) (r : Record) : MayStart s r → r.enabled = [] → CloseStarts r s u →
      CloseCompletes { r with state := .closing, cells := some [] } u v → Examination v t →
      Examination s t

/-! ## The cadence (R20 to R22, R67, R68) -/

/-- From one state to the next the cadence opens a tag: the record with its deadlines, enable set and flag
stands last in the table and is examined exactly when no older one is OPEN; at 64 records the opening is
refused and the skipped slot reported (R22, R67, R68, R74). That a deadline at or before the count has
passed is the model's reading (notes/assumptions/26.md). -/
def SlotOpens (tag : Tag) (s t : State) : Prop :=
  (64 ≤ s.table.records.length → t = { bump .tableFull s with
    clock := { s.clock with newest := some tag }
    assembler := { s.assembler with skipped := min (s.assembler.skipped + 1) 65535 } }) ∧
  (s.table.records.length < 64 → ∀ (tau : Time) (u : State),
    tau = slotTime s.loader.shared.slotRate tag →
    u = { s with
      clock := { s.clock with newest := some tag }
      table := { s.table with
        afterStep := false
        records := s.table.records ++ [{
          tag := tag, state := .opened
          closeDeadline := tau.plus s.table.effectiveWait
          gatherDeadline := tau.plus (s.table.effectiveWait + s.table.effectiveGrace)
          closePassed := (tau.plus s.table.effectiveWait).atOrBefore s.clock.now
          gatherPassed :=
            (tau.plus (s.table.effectiveWait + s.table.effectiveGrace)).atOrBefore s.clock.now
          enabled := workingSet s.streams, cells := none, marks := [], expected := none
          attachments := Vector.replicate 16 .none, afterStep := s.table.afterStep }] } } →
    ((∀ q ∈ s.table.records, q.state ≠ .opened) → Examination u t) ∧
    ((∃ q ∈ s.table.records, q.state = .opened) → t = u))

/-- From one state to the next the cadence evaluates the current tag: it opens it in LOCKED and HOLDOVER
where it is newer than the newest tag opened, and does nothing otherwise (R20, R21). -/
def CadenceEvaluates (s t : State) : Prop :=
  ∀ tag : Tag, tag = ⟨s.clock.now.sec, s.clock.now.fu / s.outPeriod⟩ →
    ((s.clock.state = .locked ∨ s.clock.state = .holdover) →
      newerThanOpened s.clock.newest tag = true → SlotOpens tag s t) ∧
    ((s.clock.state ≠ .locked ∧ s.clock.state ≠ .holdover) ∨
      newerThanOpened s.clock.newest tag = false → t = s)

/-! ## Judgement of the GATHERING records (R79, R80) -/

/-- The record whose turn it is to leave GATHERING: the oldest one not DRAINING, if it is GATHERING and
complete (R79). -/
def MayLeave (s : State) (r : Record) : Prop :=
  s.table.records.find? (fun q => q.state != .draining) = some r ∧ r.state = .gathering ∧
  (r.gatherPassed = true ∨ ∀ i ∈ r.expected.getD [], r.attachments[i] ≠ .none)

/-- From one state to the next a complete record leaves GATHERING: it is DRAINING and the assembler looks
for a record, or, when 16 are DRAINING, it is skipped: counted, freed with its blocks, and reported
(R79, R80, R156, R160). What the assembler takes stands in the statement on composition. That it takes
the record at once, before the skips of the same judgement are reported, is the model's: R160 lets either
be first (notes/assumptions/33.md). -/
def LeavesGathering (r : Record) (s t : State) : Prop :=
  (drainingCount s.table.records < 16 → t = takeRecord { s with table := { s.table with
    records := s.table.records.map (fun q =>
      if q.tag = r.tag then { q with state := .draining } else q) } }) ∧
  (16 ≤ drainingCount s.table.records → t = { bump .skipped s with
    table := { s.table with records := s.table.records.filter (fun q => decide (q.tag ≠ r.tag)) }
    gather := { s.gather with free := s.gather.free ++
      (s.table.records.filter (fun q => decide (q.tag = r.tag))).flatMap Record.blocks }
    assembler := { s.assembler with skipped := min (s.assembler.skipped + 1) 65535 } })

/-- From one state to the next the slot table judges its GATHERING records in tag order: every record
whose turn it is leaves, until none may (R79). The order of a composition and the skips of one judgement
is the model's (notes/assumptions/33.md). -/
inductive Judgement : State → State → Prop where
  | nothing (s : State) : (∀ r, ¬MayLeave s r) → Judgement s s
  | leaves (s u t : State) (r : Record) : MayLeave s r → LeavesGathering r s u → Judgement u t →
      Judgement s t

/-! ## The roster's departures (R136, R138) -/

/-- From one state to the next a PRESENT entry leaves PRESENT, before any judgement: it has its next
state, PEER_SILENT is counted, and no GATHERING record expects the station (R138). -/
def LeavesPresent (i : Station) (next : PeerState) (s t : State) : Prop :=
  t = bump .peerSilent { s with
    gather := { s.gather with
      roster := s.gather.roster.set i { s.gather.roster[i] with state := next } }
    table := { s.table with records := s.table.records.map (fun r =>
      if r.state = .gathering then { r with expected := r.expected.map (·.filter (· ≠ i)) } else r) } }

/-- From one state to the next a station misses a gathering deadline: its miss count grows to 4 at most,
and at 4 a PRESENT entry becomes SILENT (R136, R138). -/
def MissCounted (i : Station) (s t : State) : Prop :=
  ∀ u, u = { s with gather := { s.gather with
      roster := s.gather.roster.set i
        { s.gather.roster[i] with misses := min (s.gather.roster[i].misses + 1) 4 } } } →
    (3 ≤ s.gather.roster[i].misses ∧ s.gather.roster[i].state = .present →
      LeavesPresent i .silent u t) ∧
    (¬(3 ≤ s.gather.roster[i].misses ∧ s.gather.roster[i].state = .present) → t = u)

/-! ## Deadlines (R71, R120, R136) -/

/-- The events of a list, taken one after the other, lead from one state to another. -/
def InTurn {α : Type} (event : α → State → State → Prop) : List α → State → State → Prop
  | [], s, t => t = s
  | x :: xs, s, t => ∃ u, event x s u ∧ InTurn event xs u t

/-- From one state to the next the close deadline of a tag's record passes: it is marked, and examined
where it is the oldest OPEN one (R71, R74). -/
def ClosePasses (tag : Tag) (s t : State) : Prop :=
  ∀ u, u = { s with table := { s.table with records := s.table.records.map (fun q =>
      if q.tag = tag then { q with closePassed := true } else q) } } →
    ((s.table.records.find? (fun q => q.state == .opened)).map (·.tag) = some tag →
      Examination u t) ∧
    ((s.table.records.find? (fun q => q.state == .opened)).map (·.tag) ≠ some tag → t = u)

/-- From one state to the next the gathering deadline of a tag's record passes: it is marked, and for a
GATHERING record the misses of the stations it waits for are counted and the records judged
(R71, R77, R136, R149). -/
def GatherPasses (tag : Tag) (s t : State) : Prop :=
  ∀ r, recordOf tag s.table.records = some r →
    ∀ u, u = { s with table := { s.table with records := s.table.records.map (fun q =>
        if q.tag = tag then { q with gatherPassed := true } else q) } } →
      (r.state ≠ .gathering → t = u) ∧
      (r.state = .gathering → ∃ v, InTurn MissCounted r.missing u v ∧ Judgement v t)

/-- From one state to the next the deadline of a tag's queued share passes: the share is withdrawn and
counted, or only marked while it is in transmission (R120). -/
def SharePasses (tag : Tag) (s t : State) : Prop :=
  ((∀ f phase, s.link.tx = some ⟨.share f, phase⟩ → f.tag ≠ tag) →
    t = bump .shareExpired { s with link := { s.link with
      queue := s.link.queue.filter (fun e => decide (e.tag ≠ tag)) } }) ∧
  (∀ f phase, s.link.tx = some ⟨.share f, phase⟩ → f.tag = tag →
    t = { s with link := { s.link with
      queue := s.link.queue.map (fun e => if e.tag = tag then { e with passed := true } else e) } })

/-- From one state to the next a deadline passes if the count has reached it and it has not passed yet;
otherwise nothing happens (R71, R120). The deadline, where there is one, stands with its mark. -/
def IfReached (deadline : Option (Time × Bool)) (passes : State → State → Prop) (s t : State) : Prop :=
  ((∃ d, deadline = some (d, false) ∧ d.atOrBefore s.clock.now = true) → passes s t) ∧
  (¬(∃ d, deadline = some (d, false) ∧ d.atOrBefore s.clock.now = true) → t = s)

/-- From one state to the next the deadlines of a tag's record that the count has reached pass, the close
deadline first (R71, R136; notes/assumptions/11.md). -/
def RecordReached (tag : Tag) (s t : State) : Prop :=
  ∃ u, IfReached ((recordOf tag s.table.records).map (fun r => (r.closeDeadline, r.closePassed)))
      (ClosePasses tag) s u ∧
    IfReached ((recordOf tag u.table.records).map (fun r => (r.gatherDeadline, r.gatherPassed)))
      (GatherPasses tag) u t

/-- From one state to the next the deadline of a tag's queued share passes if it is reached (R120). -/
def ShareReached (tag : Tag) (s t : State) : Prop :=
  IfReached ((s.link.queue.find? (fun e => e.tag == tag)).map (fun e => (e.deadline, e.passed)))
    (SharePasses tag) s t

/-- From one state to the next every deadline the count has reached passes: those of the records in tag
order, then those of the queued shares in queue order (R71, R120, R136; notes/assumptions/11.md). -/
def DeadlinesPass (s t : State) : Prop :=
  ∃ u, InTurn RecordReached (s.table.records.map (·.tag)) s u ∧
    InTurn ShareReached (u.link.queue.map (·.tag)) u t

/-! ## The second boundary and the set of the count (R2, R21) -/

/-- From one state, its count in the second entered, to the next the second boundary is delivered: the
pending enable set copied with its health changes, the effective wait and grace anew, a beacon queued and
STEPPING ended; then the oldest OPEN record is examined if the copy takes a stream of its enable set out
of LIVE, and a boundary that ends STEPPING evaluates the current tag
(R2, R18, R21, R51, R54, R70, R74, R111). -/
def BoundaryDelivers (s t : State) : Prop :=
  ∀ (u : State) (grace wait : Nat) (leaves : Prop),
    grace = min (s.loader.shared.grace * 6000) (47 * s.outPeriod) →
    wait = ((s.streams.filter (·.pending)).map (·.period)).foldl (fun w p => min w (28 * p))
      (min (s.table.requestedWait * 6000) (47 * s.outPeriod - grace)) →
    u = { s with
      clock := { s.clock with
        state := if s.clock.state = .stepping then .locked else s.clock.state }
      streams := s.streams.map (fun st => { st with
        working := st.pending
        health :=
          if st.pending = st.working then st.health
          else if st.pending = false then .disabled
          else match st.age with
            | none => .unseen
            | some a => if a < 12000000 then .live else .stalled })
      table := { s.table with effectiveGrace := grace, effectiveWait := wait }
      link := { s.link with
        beacon := some ⟨s.clock.now.sec, decide (s.clock.state ≠ .acquiring)⟩ } } →
    (leaves ↔ ∃ r ∈ s.table.records.find? (fun q => q.state == .opened),
      ∃ n ∈ r.enabled, ∃ st ∈ s.streams[n]?, ∃ st' ∈ u.streams[n]?,
        st.health = .live ∧ st'.health ≠ .live) →
    ∃ v, (leaves → Examination u v) ∧ (¬leaves → v = u) ∧
      (s.clock.state = .stepping → CadenceEvaluates v t) ∧
      (s.clock.state ≠ .stepping → t = v)

/-- From one state to the next what the passage of time has already made due takes place, before an edge
sets the count: the boundary, the slot time, the deadlines reached (R2, R21, R71;
notes/assumptions/11.md). -/
def DueSettles (s t : State) : Prop :=
  ∃ u v,
    (s.clock.boundaryDue = true →
      BoundaryDelivers { s with clock := { s.clock with boundaryDue := false } } u) ∧
    (s.clock.boundaryDue = false → u = s) ∧
    (u.clock.slotDue = true →
      CadenceEvaluates { u with clock := { u.clock with slotDue := false } } v) ∧
    (u.clock.slotDue = false → v = u) ∧
    DeadlinesPass v t

/-- From one state, its count just set, to the next what a phase set or a leap set brings: the boundary
when the second changed, then the deadlines the count has reached, then the cadence's evaluation when the
count moved or the clock enters LOCKED (R2, R21, R71, R120, R136; the order is the model's,
notes/assumptions/11.md). -/
def SetFollows (before : Time) (entersLocked : Prop) (s t : State) : Prop :=
  ∃ u v,
    (s.clock.now.sec ≠ before.sec → BoundaryDelivers s u) ∧
    (s.clock.now.sec = before.sec → u = s) ∧
    DeadlinesPass u v ∧
    (entersLocked ∨ s.clock.now ≠ before → CadenceEvaluates v t) ∧
    (¬(entersLocked ∨ s.clock.now ≠ before) → t = v)

/-- From one state to the next every OPEN record is abandoned: freed with its blocks, counted, and the
after-step mark set (R82, R141). -/
def Abandons (s t : State) : Prop :=
  ∀ gone, gone = s.table.records.filter (fun r => decide (r.state = .opened)) →
    t = { bumpTimes .recordsAbandoned gone.length s with
      table := { s.table with
        records := s.table.records.filter (fun r => decide (r.state ≠ .opened)), afterStep := true }
      gather := { s.gather with free := s.gather.free ++ gone.flatMap Record.blocks } }

/-! ## What is due (notes/assumptions/12.md) -/

/-- The events that can be due, each with whether it is, in the order in which steps without a command
take them (R2, R13, R14, R21, R53, R71, R120, R135, R168, R169; notes/assumptions/12.md). -/
def eventsDue (s : State) : List (Bool × Instr) :=
  [(s.clock.boundaryDue, .localSecondBoundary),
    ((s.clock.state == .locked || s.clock.state == .holdover) && s.clock.slotDue, .slotTimeReached),
    (s.assembler.mark.any (60 ≤ ·), .markPulseEnd),
    (match s.assembler.state with
      | .delivering c taken => decide (c.length ≤ taken)
      | .closed => false
      | .idle => false, .deliveryEnd),
    (s.clock.state == .locked && s.clock.edgeAge.any (9000000 ≤ ·), .holdoverEntry),
    (s.clock.state == .holdover && !s.clock.holdoverLong &&
      decide (s.loader.shared.holdoverLimit * 6000000 ≤ s.clock.holdoverAge), .holdoverLimitExpiry)]
  ++ s.streams.mapIdx (fun n st =>
    (st.health == .live && st.age.any (12000000 ≤ ·), .stallExpiry n))
  ++ s.table.records.map (fun r =>
    (!r.closePassed && decide (r.closeDeadline.diff s.clock.now ≤ 0), .closeDeadline r.tag))
  ++ s.table.records.map (fun r =>
    (!r.gatherPassed && decide (r.gatherDeadline.diff s.clock.now ≤ 0), .gatheringDeadline r.tag))
  ++ s.link.queue.map (fun q =>
    (!q.passed && decide (q.deadline.diff s.clock.now ≤ 0), .shareExpiry q.tag))
  ++ allStations.map (fun i => (s.gather.roster[i].state == .present &&
    s.gather.roster[i].silence.any (s.loader.shared.silenceLimit * 6000 ≤ ·), .silenceExpiry i))

/-! ## Runs of commands -/

/-- Commands taken one after the other lead from one state to another. -/
def Runs : List Instr → State → State → Prop
  | [], s, t => t = s
  | c :: cs, s, t => ∃ u, exec c s = .next u ∧ Runs cs u t

/-! ## The merge (R164, R165) -/

/-- The cell at a place in snapshot order is a primary one with values for a code (R164). -/
def PrimaryAt (all : List Cell) (code j : Nat) : Prop :=
  ∃ d, all[j]? = some d ∧ d.secondary = false ∧ d.quality ≠ .absent ∧ d.code = code

/-- The cell at place `i` is the chosen secondary one of its code: no primary value, and no other
secondary value of a better quality, or of an equal one earlier in snapshot order (R165). -/
def ChosenAt (all : List Cell) (c : Cell) (i : Nat) : Prop :=
  c.quality ≠ .absent ∧ (∀ j, ¬PrimaryAt all c.code j) ∧
  ∀ j d, all[j]? = some d → d.secondary = true → d.quality ≠ .absent → d.code = c.code →
    (j < i → qualityCode c.quality < qualityCode d.quality) ∧
    (i < j → qualityCode c.quality ≤ qualityCode d.quality)

/-- What the merge does with every cell of a snapshot's segments, by its place in snapshot order:
the cell as written, or none where it is omitted (R164, R165). -/
def MergeRule (all : List Cell) (keep : Nat → Option Cell) : Prop :=
  ∀ i c, all[i]? = some c →
    (c.secondary = false →
      ((c.quality ≠ .absent ∧ ∃ j, j < i ∧ PrimaryAt all c.code j) → keep i = none) ∧
      (¬(c.quality ≠ .absent ∧ ∃ j, j < i ∧ PrimaryAt all c.code j) →
        keep i = some { c with used := false })) ∧
    (c.secondary = true →
      (ChosenAt all c i → keep i = some { c with used := true }) ∧
      (¬ChosenAt all c i → keep i = none))

/-! ## Images (R192 to R197, R218) -/

/-- The image passes the checks of R192 and of R193, so that the loader reads its sections. -/
def ImagePasses (strap : Station) (image : List Byte) : Prop :=
  imageField image 0 2 = 0xC16A ∧ imageField image 2 1 = 1 ∧
  1494 ≤ imageField image 3 4 ∧ imageField image 3 4 ≤ 6870 ∧
  crc32 (imageBytes image 0 (imageField image 3 4 - 4)) =
    BitVec.ofNat 32 (imageField image (imageField image 3 4 - 4) 4) ∧
  imageField image 7 1 ∈ [10, 25, 30, 50, 60, 100, 120] ∧ imageField image 19 1 ≤ 2 ∧
  (imageField image 8 2).testBit strap.val = true

/-- Where the section of an index begins, by the length fields before it (R218). -/
def sectionStart (image : List Byte) : Nat → Nat
  | 0 => 34
  | i + 1 => sectionStart image i + imageField image (sectionStart image i) 2

/-- Where the directory entry of a position begins, in the section of an index (R218). -/
def entryStart (image : List Byte) (strap : Station) (k : Nat) : Nat :=
  sectionStart image strap.val + 3 + 7 * k

/-- The table of R196: the reasons in order, each with what fails it at a position. -/
def entryChecks (image : List Byte) (strap : Station) (k : Nat) : List (FaultReason × Prop) :=
  let at_ := entryStart image strap k
  let role := imageField image (at_ + 4) 1
  let primary := imageField image (at_ + 5) 1
  [(.streamRateFault, imageField image (at_ + 2) 1 ∉ [10, 25, 30, 50, 60, 100, 120]),
    (.phasorFault, imageField image (at_ + 3) 1 = 0 ∨ 12 < imageField image (at_ + 3) 1),
    (.codeFault, imageField image at_ 2 = 0 ∨ imageField image at_ 2 = 65535),
    (.duplicateCodeFault,
      ∃ j, j < k ∧ imageField image (entryStart image strap j) 2 = imageField image at_ 2),
    (.encodingFault, 1 < role),
    (.primaryFault, role = 1 ∧ (primary = strap.val ∨ (imageField image 8 2).testBit primary = false))]

/-- Every check passes. -/
def AllPass (checks : List (FaultReason × Prop)) : Prop := ∀ c ∈ checks, ¬c.2

/-- The first check that fails is the one of a reason. -/
def FirstFails (checks : List (FaultReason × Prop)) (reason : FaultReason) : Prop :=
  ∃ n p, checks[n]? = some (reason, p) ∧ p ∧ AllPass (checks.take n)

/-- A monitor's quantity and edge mode are listed values (R197). -/
def monitorListed (image : List Byte) (at_ : Nat) : Prop :=
  imageField image at_ 1 ≤ 2 ∧ imageField image (at_ + 9) 1 ≤ 3

/-! ## Link frames (R124, R216) -/

/-- The length of the cell at an offset, by its phasor count: 6 bytes for a count of 0, and 12 + 5n bytes
for a count of n (R216). -/
def cellSize (b : List Byte) (at_ : Nat) : Nat :=
  if field b (at_ + 5) 1 = 0 then 6 else 12 + 5 * field b (at_ + 5) 1

/-- Where cell `k` of a share begins: the first one at offset 17, the next where it ends (R216). -/
def cellStart (b : List Byte) : Nat → Nat
  | 0 => 17
  | k + 1 => cellStart b k + cellSize b (cellStart b k)

/-- The cell at an offset has a form check 3 lets pass: one of the four qualities, at most 12 phasors, and
none exactly with quality ABSENT, which is 3 (R124, R212). -/
def CellForm (b : List Byte) (at_ : Nat) : Prop :=
  field b (at_ + 2) 1 ≤ 3 ∧ field b (at_ + 5) 1 ≤ 12 ∧
  (field b (at_ + 5) 1 = 0 ↔ field b (at_ + 2) 1 = 3)

/-- The forms that check 3 refuses (R124, R216): another format number; no kind of the three; a claim key
of another class or index; a notice or beacon of another length, a notice kind or a clock state that is
none; and a share with too many cells or marks, a clock state, a quality or a direction that is none, more
than 12 phasors, a phasor count at odds with the quality, or a length other than its counts give. -/
def BadForm (key : ClaimKey) (b : List Byte) : Prop :=
  field b 0 1 / 16 ≠ 1 ∨ 2 < field b 0 1 % 16 ∨
  key.toNat / 16 ≠ field b 0 1 % 16 ∨ key.toNat % 16 ≠ field b 1 1 ∨
  (field b 0 1 % 16 = 0 ∧ (b.length ≠ 14 ∨ (field b 4 1 ≠ 1 ∧ field b 4 1 ≠ 2))) ∨
  (field b 0 1 % 16 = 2 ∧ (b.length ≠ 26 ∨ 4 < field b 4 1 % 8)) ∨
  (field b 0 1 % 16 = 1 ∧ (48 < field b 15 1 ∨ 8 < field b 16 1 ∨ 4 < field b 14 1 ∨
    (∃ k < field b 15 1, ¬CellForm b (cellStart b k)) ∨
    (∃ k < field b 16 1, field b (cellStart b (field b 15 1) + 4 * k + 3) 1 ≠ 1 ∧
      field b (cellStart b (field b 15 1) + 4 * k + 3) 1 ≠ 2) ∨
    b.length ≠ cellStart b (field b 15 1) + 4 * field b 16 1 + 4))

/-- A cell is what the bytes from an offset say (R212, R216). -/
def CellReads (b : List Byte) (at_ : Nat) (c : Cell) : Prop :=
  c.code = field b at_ 2 ∧ qualityCode c.quality = field b (at_ + 2) 1 ∧
  [c.invalid, c.suspect, c.secondary, c.used]
    = (List.range 4).map (fun i => (field b (at_ + 3) 1).testBit i) ∧
  c.primary = field b (at_ + 4) 1 ∧ (c.values = none ↔ c.quality = .absent) ∧
  ∀ v ∈ c.values, v.phasors.length = field b (at_ + 5) 1 ∧
    (∀ (i : Nat) (q : Phasor), v.phasors[i]? = some q →
      q = ⟨field b (at_ + 6 + 5 * i) 3, field b (at_ + 9 + 5 * i) 2⟩) ∧
    ∀ tail, tail = at_ + 6 + 5 * v.phasors.length →
      v.freq = (field b tail 2 : Int) - (if field b tail 2 < 32768 then 0 else 65536) ∧
      v.rocof = (field b (tail + 2) 2 : Int) - (if field b (tail + 2) 2 < 32768 then 0 else 65536) ∧
      v.digital = BitVec.ofNat 16 (field b (tail + 4) 2)

/-- A frame is what its bytes say, each field at its offset (R212, R216). -/
def FrameReads (b : List Byte) : LinkFrame → Prop
  | .notice n => field b 0 1 % 16 = 0 ∧ noticeCode n.kind = field b 4 1 ∧
      n.tag = ⟨field b 5 4, field b 9 1⟩
  | .beacon f => field b 0 1 % 16 = 2 ∧ clockCode f.clock = field b 4 1 % 8 ∧
      f.second = ⟨field b 18 4, (field b 4 1).testBit 7⟩ ∧ f.slotRate.toNat = field b 5 1 ∧
      f.digest.toNat = field b 6 4 ∧ f.wait.toNat = field b 10 4 ∧ f.grace.toNat = field b 14 4
  | .share f => field b 0 1 % 16 = 1 ∧ f.tag = ⟨field b 4 4, field b 8 1⟩ ∧
      f.slotRate.toNat = field b 9 1 ∧ f.digest.toNat = field b 10 4 ∧
      clockCode f.clock = field b 14 1 ∧ f.cells.length = field b 15 1 ∧
      f.marks.length = field b 16 1 ∧
      (∀ k c, f.cells[k]? = some c → CellReads b (cellStart b k) c) ∧
      ∀ k m, f.marks[k]? = some m → ∀ at_, at_ = cellStart b (field b 15 1) + 4 * k →
        m.monitor = field b at_ 1 ∧ m.code = field b (at_ + 1) 2 ∧
        directionCode m.direction = field b (at_ + 3) 1

/-! ## Resets and commands of the service port -/

/-- The node right after a reset, its load begun: the values of R23, R46, R64, R86, R129, R153, R171,
R188 and R211, with what a reset leaves: the lines, both memories' bytes and the waiting commands. -/
def resetState (s : State) (strap : Station) (cause : ResetCause) : State :=
  { State.reset with
    pins := s.pins
    loader := { State.reset.loader with strap := strap, cause := cause }
    intake := .reset s.intake.mem
    gather := .reset s.gather.mem
    pending := s.pending }

/-- Every command of the service port with its argument bytes complete (R202). -/
def wholeCommands (a b : Byte) : List Instr :=
  [.readStatus, .readRoster, .readStream [a], .readCounters, .readLastDrop, .readResetCause,
    .clearCounters, .setWait [a, b], .enableStream [a], .disableStream [a], .resumeClock,
    .ackAttention [a], .reload]

/-- The argument bytes a command of a code has had so far: none in COMMAND, and in ARGUMENTS those
shifted in after its own byte (R201). -/
def Port.shifted (p : Port) (code : Byte) (args : List Byte) : Prop :=
  (p.phase = .command ∧ args = []) ∨
    (p.phase = .arguments ∧ p.command = some code ∧ p.args = args)

/-- The port with a response being shifted out (R202). -/
def Port.answering (p : Port) (response : List Byte) : Port :=
  { p with phase := .response, command := none, args := [], response := response }

/-! ## Frames a station can send -/

/-- A phasor within the ranges of 00_scope.md section 6.4. -/
def Phasor.fits (p : Phasor) : Bool := p.mag < 16777216 && p.ang < 65536

/-- Cell values within the ranges of R105. -/
def CellValues.fits (v : CellValues) : Bool :=
  1 ≤ v.phasors.length && v.phasors.length ≤ 12 && v.phasors.all Phasor.fits
    && -32768 ≤ v.freq && v.freq ≤ 32767 && -32768 ≤ v.rocof && v.rocof ≤ 32767

/-- A cell within the ranges of R91: no values exactly when it is ABSENT. -/
def Cell.fits (c : Cell) : Bool :=
  c.code < 65536 && c.primary < 16 &&
    match c.values with
    | none => c.quality == .absent
    | some v => c.quality != .absent && v.fits

/-- A mark within the ranges of R183. -/
def Mark.fits (m : Mark) : Bool := m.monitor < 8 && m.code < 65536

/-- A frame within the ranges of chapter 6, section 6.2. -/
def OutFrame.fits : OutFrame → Bool
  | .notice n => n.tag.wellFormed
  | .beacon f => f.second.second ≤ Config.lastSecond
  | .share f => f.tag.wellFormed && f.cells.length ≤ 48 && f.marks.length ≤ 8
      && f.cells.all Cell.fits && f.marks.all Mark.fits

/-- The frame as a receiver reads it. -/
def OutFrame.received : OutFrame → LinkFrame
  | .notice n => .notice n
  | .beacon f => .beacon f
  | .share f => .share f

end Sys2Proof.Machine
end

