-- ==== Sys2Proof/Certificates/Slice0/Obligations.lean ====
section
/-! DEFINITION. The statements for the provers: what a step is, what every command may change, the
laws every step keeps, and what each command of the table does. A statement that rests on a choice of
the model names its log entry. -/

open Sys2Proof Sys2Proof.Machine

/-! ## The step -/

/-- The command at the front of the queue is carried out on the node with the rest of the queue. -/
def Obligations.StepTakesTheFrontCommand : Prop :=
  ∀ (s : State) (c : Instr) (rest : List Instr), s.pending = c :: rest →
    step s = exec c { s with pending := rest }

/-- With no command waiting, a node that is not LOADED stays as it is, but that the moment of a pin reset
is over, and a running node whose next event lies ahead lets one fu pass and changes nothing else: the
count advances by one, with the natural wrap (R1), which makes a boundary due (R2); a slot time it reaches
in LOCKED or HOLDOVER is due (R21); and the ages grow: of the edge, of the load, of the last step (R16),
of the stay in HOLDOVER (R14), of the streams' admissions (R52), of the peers' silence (R135) and of the
MARK pulse (R169). Where an event is due now no time passes, and the step has the effect of the command of
the first event due. That a step without a command is one fu or one due event, their order, and what a
moment is, are the model's choices (notes/assumptions/1.md, 12.md, 16.md and 32.md; 3.md for the second
after the last, and 31.md for the age of the load). -/
def Obligations.IdleStepLetsOneFuPass : Prop :=
  ∀ s : State, s.pending = [] →
    (s.running = false → step s = .next { s with loader := { s.loader with reloadMet := false } }) ∧
    (ClockLaw s → (timeToNext s = 0 ↔ ∃ e ∈ eventsDue s, e.1 = true)) ∧
    (∀ c, s.running = true → ClockLaw s → TableLaw s → QueueLaw s →
      (eventsDue s).find? (·.1) = some (true, c) → c.wellFormed = true → step s = exec c s) ∧
    (s.running = true → 0 < timeToNext s →
      step s = .next (elapse 1 s) ∧
      elapse 1 s = { s with
        clock := { s.clock with
          now := (elapse 1 s).clock.now
          edgeAge := s.clock.edgeAge.map (· + 1)
          stepAge := s.clock.stepAge.map (· + 1)
          loadAge := s.clock.loadAge.map (· + 1)
          holdoverAge :=
            if s.clock.state = .holdover then s.clock.holdoverAge + 1 else s.clock.holdoverAge
          boundaryDue := decide (s.clock.now.fu = 5999999)
          slotDue := s.clock.slotDue ||
            ((s.clock.state == .locked || s.clock.state == .holdover) &&
              decide ((s.clock.now.fu + 1) % s.outPeriod = 0)) }
        streams := s.streams.map (fun st => { st with age := st.age.map (· + 1) })
        gather := { s.gather with
          roster := s.gather.roster.map (fun p => { p with silence := p.silence.map (· + 1) }) }
        assembler := { s.assembler with mark := s.assembler.mark.map (· + 1) } } ∧
      (elapse 1 s).clock.now =
        (if s.clock.now.fu < 5999999 then ⟨s.clock.now.sec, s.clock.now.fu + 1⟩
         else ⟨nextSecond s.clock.now.sec, 0⟩) ∧
      (elapse 1 s).clock.edgeAge = s.clock.edgeAge.map (· + 1) ∧
      (elapse 1 s).clock.loadAge = s.clock.loadAge.map (· + 1) ∧
      (elapse 1 s).streams.map (·.age) = s.streams.map (fun st => st.age.map (· + 1)))

/-- The model never stops on ordinary data: with operands the outside world can send every command answers
some next state, and with others it stops with the one fault. Which operands those are is the model's
reading (notes/assumptions/4.md), and so is that a command whose event cannot occur in the state still
answers (notes/assumptions/2.md). What the next state holds stands in the statements on each command. -/
def Obligations.CommandsCompleteOnWellFormedOperands : Prop :=
  ∀ (c : Instr) (s : State),
    (c.wellFormed = true → ∃ t, exec c s = .next t) ∧
    (c.wellFormed = false → exec c s = .fault .illFormed)

/-- The frame of every command: only the parts that Safety.lean lists for it change. The list never
holds the waiting queue. A link frame that ends writes only the blocks of its reception, or, where its
header is handed at the same moment, the free list's first ones (notes/assumptions/15.md). -/
def Obligations.CommandsChangeOnlyTheirParts : Prop :=
  ∀ (c : Instr) (s t : State), exec c s = .next t →
    ChangesOnly (mayChange c) s t ∧ t.pending = s.pending ∧
    (MemoryLaw s → ∀ key b, c = .linkFrameEnd key b → ∀ a,
      (∀ q ∈ receptionBlocks s ++ s.gather.free.take ((field b 2 2 + 63) / 64), a / 64 ≠ q.toNat) →
      memRead t.gather.mem a = memRead s.gather.mem a)

/-! ## The laws of the device -/

/-- Every law holds right after a reset. Where a law reads a value that no rule gives after a reset, the
value is the model's (notes/assumptions/5.md, 6.md, 7.md). -/
def Obligations.ResetMeetsTheLaws : Prop :=
  TableLaw .reset ∧ RingLaw .reset ∧ StoreLaw .reset ∧ QueueLaw .reset ∧ LinkLaw .reset ∧
  BufferLaw .reset ∧ ClockLaw .reset ∧ CounterLaw .reset ∧ WaitLaw .reset ∧ MemoryLaw .reset

/-- At most 64 records and 16 DRAINING, in tag and state order, one in close (R65, R79, R85). -/
def Obligations.StepKeepsTheTableLaw : Prop :=
  ∀ s t : State, TableLaw s → step s = .next t → TableLaw t

/-- Every ring holds at most 32 samples in strictly increasing order of timestamp (R55); the buffer's
three regions make 32,768 bytes and lie between its pointers, the write head the held count ahead of the
read pointer and the write-current pointer ahead of it by the frame in progress, modulo 32,768, the held
region whole frames; the checker holds a frame only where one is held, and the writer's state follows the
loader's (R26, R27, R33), as long as the memory stands in its canonical form (notes/assumptions/7.md; the
stamp entry's layout is 9.md); and no counter passes 65,535 (chapter 11, section 11.3). -/
def Obligations.StepKeepsTheRingBufferAndCounterLaws : Prop :=
  (∀ s t : State, RingLaw s → step s = .next t → RingLaw t) ∧
  (∀ s t : State, MemoryLaw s → BufferLaw s → step s = .next t → BufferLaw t) ∧
  (∀ s t : State, CounterLaw s → step s = .next t → CounterLaw t)

/-- The free blocks and the held blocks are always the 16,384 blocks, each once (R139). -/
def Obligations.StepKeepsTheStoreLaw : Prop :=
  ∀ s t : State, TableLaw s → StoreLaw s → step s = .next t → StoreLaw t

/-- The share queue holds at most 64 shares in tag order, no two of one tag (R109). -/
def Obligations.StepKeepsTheQueueLaw : Prop :=
  ∀ s t : State, TableLaw s → QueueLaw s → step s = .next t → QueueLaw t

/-- The count stays within a second and 32-bit seconds (R1), with the open value of
notes/assumptions/3.md covered at every value; W_eff + G_eff stays at or below 47 output periods, and
W_eff at or below 28 periods of every stream of the working enable set (R70); and the link is MUTED
exactly at a collision run of 3 and drives only in ACTIVE (R108, R119). -/
def Obligations.StepKeepsTheClockWaitAndLinkLaws : Prop :=
  (∀ s t : State, ClockLaw s → step s = .next t → ClockLaw t) ∧
  (∀ s t : State, WaitLaw s → step s = .next t → WaitLaw t) ∧
  (∀ s t : State, LinkLaw s → step s = .next t → LinkLaw t)

/-- The memory of the intake buffer (R27) and that of the share store (R139) keep the canonical form in
which the model holds them; the form, and what a byte that nothing has written reads as, are the model's
choice (notes/assumptions/7.md). -/
def Obligations.StepKeepsTheMemoryLaw : Prop :=
  ∀ s t : State, MemoryLaw s → step s = .next t → MemoryLaw t

/-- A held record only moves forward: its deadlines, enable set and flag stay; its state never goes
back; a passed deadline stays passed; a made attachment stays; after its close its cells and marks
stay and its expected set never gains a member (R71, R79, R106, R138, R146). -/
def Obligations.RecordsOnlyMoveForward : Prop :=
  ∀ s t : State, TableLaw s → step s = .next t →
    ∀ r ∈ s.table.records, ∀ q ∈ t.table.records, q.tag = r.tag → r.movesTo q

/-- A record that appears carries a tag newer than the newest opened before, and the newest tag opened
only moves forward, but for a reset, which leaves the loader LOADING (R21, R22). -/
def Obligations.OpenedTagsOnlyMoveForward : Prop :=
  ∀ s t : State, step s = .next t →
    (∀ q ∈ t.table.records, (∃ r ∈ s.table.records, r.tag = q.tag) ∨
      newerThanOpened s.clock.newest q.tag = true) ∧
    (t.clock.newest = s.clock.newest ∨
      (t.clock.newest = none ∧ t.loader.state = .loading) ∨
      ∃ n, t.clock.newest = some n ∧ newerThanOpened s.clock.newest n = true)

/-- Snapshots leave in strictly increasing tag order until a reset (R22, R156, R157). While one is in
delivery its composition is fixed and its bytes are taken in order; the next one at the port is newer;
when a delivery ends, its tag is older than every held record; and such a tag stays so, and is older than
every snapshot in delivery, whatever the node does in between. A reset leaves the loader LOADING. -/
def Obligations.SnapshotsLeaveInTagOrder : Prop :=
  ∀ s t : State, TableLaw s → step s = .next t →
    (∀ c n d k, s.assembler.state = .delivering c n → t.assembler.state = .delivering d k →
      (d = c ∧ (k = n ∨ k = n + 1)) ∨ (c.tag.older d.tag = true ∧ k = 0)) ∧
    (s.loader.state ≠ .loading → t.loader.state ≠ .loading →
      ∀ c n, s.assembler.state = .delivering c n →
        (∀ d k, t.assembler.state = .delivering d k → d.tag ≠ c.tag) → Gone c.tag t) ∧
    (t.loader.state ≠ .loading → ∀ x, Gone x s →
      Gone x t ∧ ∀ d k, t.assembler.state = .delivering d k → x.older d.tag = true)

/-! ## Cell resolution (chapter 5) -/

/-- The weight and the linear interpolation of R94 and R95, whole: the formulas with floors, their
ranges, when the weight reaches its ends, and the one weight for every quantity of a bracket. -/
def Obligations.InterpolationStaysBetweenItsEndpoints : Prop :=
  (∀ x d : Int, 0 < x → x < d →
    weight x d = (x * 65536 + d.fdiv 2).fdiv d ∧ 0 ≤ weight x d ∧ weight x d ≤ 65536 ∧
    (weight x d = 0 ↔ x * 65536 < d - d.fdiv 2) ∧
    (weight x d = 65536 ↔ 65536 * (d - x) ≤ d.fdiv 2) ∧
    (d ≤ 1200000 → weight x d = 0 → x ≤ 9) ∧ (d ≤ 1200000 → weight x d = 65536 → d - x ≤ 9)) ∧
  (∀ v0 v1 w : Int, 0 ≤ w → w ≤ 65536 →
    interpolate v0 v1 w = v0 + ((v1 - v0) * w + 32768).fdiv 65536 ∧
    min v0 v1 ≤ interpolate v0 v1 w ∧ interpolate v0 v1 w ≤ max v0 v1) ∧
  (∀ (c : ResolverSettings) (view : List Sample) (v : CellValues),
    (resolve c view).quality = .interpolated → (resolve c view).values = some v →
    ∃ a b, earlierEnd c.tau c.snap view = some a ∧ laterEnd c.tau c.snap view = some b ∧
      0 < c.tau.diff a.t ∧ c.tau.diff a.t < b.t.diff a.t ∧
      v.freq = interpolate a.freq b.freq (weight (c.tau.diff a.t) (b.t.diff a.t)) ∧
      v.rocof = interpolate a.rocof b.rocof (weight (c.tau.diff a.t) (b.t.diff a.t)) ∧
      v.phasors.map (fun p => (p.mag : Int)) = List.zipWith
        (fun p q => interpolate p.mag q.mag (weight (c.tau.diff a.t) (b.t.diff a.t)))
        a.phasors b.phasors)

/-- The average frequency deviation, the predicted rotation, the unwrapped difference and the interpolated
angle of R96 to R99, whole: formulas with floors, the INVALID endpoints, ranges, the one prediction
for every phasor of a bracket, and the bracket's own frequency deviation still interpolated as carried. -/
def Obligations.AngleTurnsNearestThePrediction : Prop :=
  (∀ a b : Sample,
    (a.invalid = false → b.invalid = false → averageFreq a b = (a.freq + b.freq).fdiv 2) ∧
    (a.invalid = true → b.invalid = false → averageFreq a b = b.freq) ∧
    (a.invalid = false → b.invalid = true → averageFreq a b = a.freq) ∧
    (a.invalid = true → b.invalid = true → averageFreq a b = 0) ∧
    (-32768 ≤ a.freq → a.freq ≤ 32767 → -32768 ≤ b.freq → b.freq ≤ 32767 →
      -32768 ≤ averageFreq a b ∧ averageFreq a b ≤ 32767)) ∧
  (∀ f d : Int, -32768 ≤ f → f ≤ 32767 → 0 ≤ d → d ≤ 1200000 →
    predictedRotation f d = (f * d * 65536).fdiv 6000000000 ∧
    (f * d * 65536).natAbs ≤ 2576980377600000 ∧
    -429497 ≤ predictedRotation f d ∧ predictedRotation f d ≤ 429483) ∧
  (∀ (p : Int) (a0 a1 : Nat), a0 < 65536 → a1 < 65536 →
    ∃ n : Int, n = (p - ((a1 : Int) - a0).fmod 65536 + 32768).fdiv 65536 ∧
      unwrapped p a0 a1 = ((a1 : Int) - a0).fmod 65536 + 65536 * n ∧
      p - 32767 ≤ unwrapped p a0 a1 ∧ unwrapped p a0 a1 ≤ p + 32768 ∧
      (-429497 ≤ p → p ≤ 429483 → -8 ≤ n ∧ n ≤ 7 ∧
        -462264 ≤ unwrapped p a0 a1 ∧ unwrapped p a0 a1 ≤ 462251)) ∧
  (∀ (p w : Int) (a0 a1 : Nat), a0 < 65536 → a1 < 65536 → 0 ≤ w → w ≤ 65536 →
    (interpolateAngle p w a0 a1 : Int)
      = ((a0 : Int) + (unwrapped p a0 a1 * w + 32768).fdiv 65536).fmod 65536 ∧
    min 0 (unwrapped p a0 a1) ≤ (unwrapped p a0 a1 * w + 32768).fdiv 65536 ∧
    (unwrapped p a0 a1 * w + 32768).fdiv 65536 ≤ max 0 (unwrapped p a0 a1) ∧
    interpolateAngle p w a0 a1 < 65536 ∧
    (w = 0 → interpolateAngle p w a0 a1 = a0) ∧ (w = 65536 → interpolateAngle p w a0 a1 = a1)) ∧
  (∀ (c : ResolverSettings) (view : List Sample) (v : CellValues),
    (resolve c view).quality = .interpolated → (resolve c view).values = some v →
    ∃ a b, earlierEnd c.tau c.snap view = some a ∧ laterEnd c.tau c.snap view = some b ∧
      v.freq = interpolate a.freq b.freq (weight (c.tau.diff a.t) (b.t.diff a.t)) ∧
      v.phasors.map (·.ang) = List.zipWith
        (fun p q => interpolateAngle (predictedRotation (averageFreq a b) (b.t.diff a.t))
          (weight (c.tau.diff a.t) (b.t.diff a.t)) p.ang q.ang)
        a.phasors b.phasors)

/-- The digital word and the flags of an INTERPOLATED cell (R100, R101, whole). -/
def Obligations.InterpolatedCellTakesWordAndFlags : Prop :=
  ∀ (c : ResolverSettings) (view : List Sample), (resolve c view).quality = .interpolated →
    ∃ a b v, earlierEnd c.tau c.snap view = some a ∧ laterEnd c.tau c.snap view = some b ∧
      (resolve c view).values = some v ∧
      (weight (c.tau.diff a.t) (b.t.diff a.t) < 32768 → v.digital = a.digital) ∧
      (32768 ≤ weight (c.tau.diff a.t) (b.t.diff a.t) → v.digital = b.digital) ∧
      ((resolve c view).invalid = true ↔ a.invalid = true ∨ b.invalid = true) ∧
      ((resolve c view).suspect = true ↔ a.suspect = true ∨ b.suspect = true)

/-- The first of the four cases that applies gives the cell: the nearest sample in the snap window, the
earlier of two equally near; a bracket of at most two periods; the newest earlier sample within the
hold limit; ABSENT (R90 to R93, R102, R103). -/
def Obligations.ResolverTakesTheFirstCase : Prop :=
  ∀ (c : ResolverSettings) (view : List Sample), ringOrdered view = true →
    (∀ x ∈ view, (offset c.tau x).natAbs ≤ c.snap →
      (∀ y ∈ view, (offset c.tau x).natAbs < (offset c.tau y).natAbs ∨
        (offset c.tau x).natAbs = (offset c.tau y).natAbs ∧ y.t.before x.t = false) →
      resolve c view = ⟨c.code, .exact, x.invalid, x.suspect, false, false, 0,
        some ⟨x.phasors, x.freq, x.rocof, x.digital⟩⟩) ∧
    ((∀ y ∈ view, c.snap < (offset c.tau y).natAbs) →
      (∀ a ∈ view, offset c.tau a < 0 →
        (∀ y ∈ view, offset c.tau y < 0 → a.t.before y.t = false) →
        (∀ b ∈ view, 0 < offset c.tau b →
          (∀ y ∈ view, 0 < offset c.tau y → y.t.before b.t = false) →
          b.t.diff a.t ≤ 2 * c.period →
          resolve c view = ⟨c.code, .interpolated, a.invalid || b.invalid, a.suspect || b.suspect,
            false, false, 0, some (interpolateValues c.tau a b)⟩) ∧
        ((∀ b ∈ view, 0 < offset c.tau b → 2 * c.period < b.t.diff a.t) →
          (c.tau.diff a.t ≤ c.hold * c.period →
            resolve c view = ⟨c.code, .held, a.invalid, a.suspect, false, false, 0,
              some ⟨a.phasors, a.freq, a.rocof, a.digital⟩⟩) ∧
          (c.hold * c.period < c.tau.diff a.t →
            resolve c view = ⟨c.code, .absent, false, false, false, false, 0, none⟩))) ∧
      ((∀ y ∈ view, 0 < offset c.tau y) →
        resolve c view = ⟨c.code, .absent, false, false, false, false, 0, none⟩))

/-! ## Rings (chapter 3) -/

/-- The ring's judgement of an offered sample in three steps, and what an admission does: the sample
placed by its timestamp with its mark clear, the oldest evicted from a full ring and EVICTED counted, a
late one counted LATE_ADMITTED, every admission counted ADMITTED and no other counter changed, the age 0,
a stream not seen or stalled made LIVE, and the rest of the stream as it was. The LATE bound is the
horizon less three stream periods, borrowing from the second; without a horizon, or where it would lie
before second 0, there is none (R52, R56, R58 to R60, R63). -/
def Obligations.RingJudgesTheOfferedSample : Prop :=
  (∀ st : Stream, (st.horizon = none → st.lateBound = none) ∧
    ∀ h ∈ st.horizon,
      (h.sec * 6000000 + h.fu < 3 * st.entry.rate.period → st.lateBound = none) ∧
      (3 * st.entry.rate.period ≤ h.sec * 6000000 + h.fu → ∃ b, st.lateBound = some b ∧
        b.fu < 6000000 ∧
        b.sec * 6000000 + b.fu + 3 * st.entry.rate.period = h.sec * 6000000 + h.fu)) ∧
  ∀ (st : Stream) (x : Sample), st.ring.length ≤ 32 → ringOrdered st.ring = true →
    ((∃ b ∈ st.lateBound, x.t.atOrBefore b = true) →
      st.offer x = (.refusedLate,
        { st with counters := { st.counters with late := min (st.counters.late + 1) 65535 } })) ∧
    ((∀ b ∈ st.lateBound, x.t.atOrBefore b = false) →
      ((∃ y ∈ st.ring, y.t = x.t) →
        st.offer x = (.refusedDuplicate,
          { st with counters := { st.counters with duplicate := min (st.counters.duplicate + 1) 65535 } })) ∧
      ((∀ y ∈ st.ring, y.t ≠ x.t) →
        (st.ring.length = 32 → (∀ y ∈ st.ring, x.t.before y.t = true) →
          st.offer x = (.refusedStale,
            { st with counters := { st.counters with stale := min (st.counters.stale + 1) 65535 } })) ∧
        ((st.ring.length < 32 ∨ ∃ y ∈ st.ring, y.t.before x.t = true) →
          ((st.offer x).1 = if ∃ h ∈ st.horizon, st.lateBound ≠ none ∧ x.t.atOrBefore h = true
            then .takenLate else .taken) ∧
          (st.offer x).2.ring.Perm ({ x with settled := false } ::
            (if st.ring.length = 32 then st.ring.tail else st.ring)) ∧
          ringOrdered (st.offer x).2.ring = true ∧
          (st.offer x).2 = { st with
            ring := (st.offer x).2.ring
            age := some 0
            health := if st.health = .unseen ∨ st.health = .stalled then .live else st.health
            counters := { st.counters with
              admitted := min (st.counters.admitted + 1) 65535
              lateAdmitted := if (st.offer x).1 = .takenLate
                then min (st.counters.lateAdmitted + 1) 65535 else st.counters.lateAdmitted
              evicted := if st.ring.length = 32
                then min (st.counters.evicted + 1) 65535 else st.counters.evicted } })))

/-! ## Station clock (chapter 1) -/

/-- The nearest boundary's second, the phase error and the band of an edge (R5), under the open value of
notes/assumptions/3.md past the last second; and the second it decides (R8): the expected one without
a message or with one that names it, a leap that the announcement explains, and a disagreement
otherwise. That the leap tests compare the numbers without the wrap of the seconds field is the model's
(notes/assumptions/39.md). -/
def Obligations.PhaseErrorAndSecondOfAnEdge : Prop :=
  ((∀ (now : Time) (c : Nat), now.fu < 6000000 → c ≤ 65535 →
     (3000000 ≤ (now.fu : Int) - c →
       phaseOf now c = (nextSecond now.sec, (now.fu : Int) - c - 6000000)) ∧
     ((now.fu : Int) - c < 3000000 → phaseOf now c = (now.sec, (now.fu : Int) - c)) ∧
     -3000000 ≤ (phaseOf now c).2 ∧ (phaseOf now c).2 ≤ 2999999 ∧
     (now.sec < 4294967295 → nextSecond now.sec = now.sec + 1)) ∧
   (∀ (tolerance limit : Nat) (e : Int), tolerance < limit →
     (bandOf tolerance limit e = .small ↔ e.natAbs ≤ tolerance) ∧
     (bandOf tolerance limit e = .middle ↔ tolerance < e.natAbs ∧ e.natAbs ≤ limit) ∧
     (bandOf tolerance limit e = .large ↔ limit < e.natAbs))) ∧
  (∀ (e : Nat) (m : Option TodMessage) (a : Option LeapKind),
     ((m = none ∨ m.map (·.second) = some e) → decideSecond e m a = (e, .agreed)) ∧
     (∀ w ∈ m, w.second ≠ e →
       ((a = some .insertSecond ∧ w.second + 1 = e ∨ a = some .deleteSecond ∧ w.second = e + 1) →
         decideSecond e m a = (w.second, .leap)) ∧
       (¬(a = some .insertSecond ∧ w.second + 1 = e ∨ a = some .deleteSecond ∧ w.second = e + 1) →
         decideSecond e m a = (w.second, .disagreement))))

/-- Transitions the edge select does not choose, and every transition outside LOADED, do nothing; a
candidate within the blanking interval is only counted (R3, R4, R23). An accepted edge in ACQUIRING sets
the time within the second, and locks the clock with a message in the small band (R9); a set that enters
another second raises its boundary: the enable set copied, a beacon queued for it (R2). Then the close,
gathering and share deadlines that the set has reached pass (R71, R120, R136), and the cadence evaluates
the current tag when the count moved or the clock enters LOCKED, so that a locking edge may open its tag
late (R21). In STOPPED an edge sets nothing (R12). The model's choices here: that what is already due is
delivered before the edge, and the order of what follows the set (notes/assumptions/11.md); that in one
judgement a composition comes before the skips of later records (33.md); that a deadline at or before the
count of a late opening has passed (26.md); when a close chooses its SECONDARY cells (29.md); and the open
value of the second after the last (3.md). -/
def Obligations.EdgesThatDoNotDiscipline : Prop :=
  (∀ (s : State) (edge : Transition),
     (s.running = false → exec (.ppsEdge edge) s = .next s) ∧
     (s.loader.shared.edgeSelect = .off ∨
       s.loader.shared.edgeSelect = .rising ∧ edge = .fall ∨
       s.loader.shared.edgeSelect = .falling ∧ edge = .rise →
       exec (.ppsEdge edge) s = .next s) ∧
     (∀ a ∈ s.clock.edgeAge, s.running = true →
       s.loader.shared.edgeSelect = .rising ∧ edge = .rise ∨
         s.loader.shared.edgeSelect = .falling ∧ edge = .fall →
       a < s.loader.shared.blanking * 6000 →
       exec (.ppsEdge edge) s = .next (bump .ppsSpurious s))) ∧
  (∀ (s : State) (edge : Transition) (expected : Nat) (e : Int),
     s.running = true →
     (s.loader.shared.edgeSelect = .rising ∧ edge = .rise ∨
       s.loader.shared.edgeSelect = .falling ∧ edge = .fall) →
     (∀ a ∈ s.clock.edgeAge, s.loader.shared.blanking * 6000 ≤ a) →
     (expected, e) = phaseOf s.clock.now s.loader.shared.delayComp →
     (s.clock.state = .acquiring → ∃ u t, DueSettles s u ∧ exec (.ppsEdge edge) s = .next t ∧
       (∀ m ∈ s.clock.pendingTod, e.natAbs ≤ s.loader.shared.lockTolerance →
         SetFollows s.clock.now True { u with clock := { u.clock with
           edgeAge := some 0, pendingTod := none, announcement := m.leap, state := .locked
           now := ⟨m.second, s.loader.shared.delayComp⟩ } } t) ∧
       (s.clock.pendingTod = none ∨ s.loader.shared.lockTolerance < e.natAbs →
         SetFollows s.clock.now False { u with clock := { u.clock with
           edgeAge := some 0, pendingTod := none
           announcement := s.clock.pendingTod.bind (·.leap)
           now := ⟨expected, s.loader.shared.delayComp⟩ } } t) ∧
       t.clock.edgeAge = some 0 ∧ t.clock.pendingTod = none ∧
       t.clock.announcement = s.clock.pendingTod.bind (·.leap) ∧
       t.clock.stepAge = s.clock.stepAge ∧ t.count .phaseHit = s.count .phaseHit ∧
       (∀ m ∈ s.clock.pendingTod, e.natAbs ≤ s.loader.shared.lockTolerance →
         t.clock.state = .locked ∧ t.clock.now = ⟨m.second, s.loader.shared.delayComp⟩) ∧
       (s.clock.pendingTod = none ∨ s.loader.shared.lockTolerance < e.natAbs →
         t.clock.state = .acquiring ∧ t.clock.now = ⟨expected, s.loader.shared.delayComp⟩) ∧
       (t.clock.now.sec ≠ s.clock.now.sec →
         t.link.beacon = some ⟨t.clock.now.sec, decide (t.clock.state ≠ .acquiring)⟩ ∧
         t.streams.map (·.working) = s.streams.map (·.pending)) ∧
       (t.clock.now.sec = s.clock.now.sec → s.clock.boundaryDue = false →
         t.link.beacon = s.link.beacon ∧
         t.streams.map (·.working) = s.streams.map (·.working))) ∧
     (s.clock.state = .stopped → ∃ u t, DueSettles s u ∧ exec (.ppsEdge edge) s = .next t ∧
       t = { u with clock := { u.clock with
         edgeAge := some 0, pendingTod := none
         announcement := s.clock.pendingTod.bind (·.leap) } } ∧
       t.clock.state = .stopped ∧ t.clock.now = s.clock.now ∧ t.clock.edgeAge = some 0 ∧
       t.clock.pendingTod = none ∧ t.clock.announcement = s.clock.pendingTod.bind (·.leap) ∧
       t.clock.stepAge = s.clock.stepAge ∧ t.count .phaseHit = s.count .phaseHit))

/-- An accepted edge in LOCKED, HOLDOVER or STEPPING (R4, R7, R8, R10, R11, R15, R16): the count set to
the decided second and the delay compensation. The small and middle bands end in LOCKED, or leave STEPPING
standing; a set that enters another second raises its boundary, which ends STEPPING, copies the enable set
and queues a beacon (R2); then the close, gathering and share deadlines that the set has reached pass
(R71, R120, R136), and the cadence evaluates the current tag when the set moved the count or the clock
enters LOCKED (R21). A step abandons and counts every OPEN record (R82), raises no boundary and brings no
evaluation, and the deadlines it has reached pass; it ends in STEPPING with a STEPPED notice of the newest
abandoned tag, or, in STEPPING already or within 16 s of another, in STOPPED. The model's choices here:
that LEAP is counted whatever the band (notes/assumptions/10.md); that what is due is delivered before the
edge, and the order of what follows the set (11.md); that an escalated step sets the count before it
abandons the OPEN records, and that the deadlines it has reached pass after that, where R83 lets an
abandonment and the start of a close be taken in either order (23.md); that in one judgement a composition
comes before the skips of later records (33.md); that a deadline at or before the count of a late opening
has passed (26.md); when a close chooses its SECONDARY cells (29.md); the open value of the second after
the last (3.md); and the leap tests at the ends of the seconds field (39.md). -/
def Obligations.AcceptedEdgeSetsTheCount : Prop :=
  ∀ (s : State) (edge : Transition) (expected second : Nat) (e : Int) (how : Decided) (band : Band)
      (st : ClockState),
    s.running = true →
    (s.loader.shared.edgeSelect = .rising ∧ edge = .rise ∨
      s.loader.shared.edgeSelect = .falling ∧ edge = .fall) →
    (∀ a ∈ s.clock.edgeAge, s.loader.shared.blanking * 6000 ≤ a) →
    st = (if s.clock.state = .stepping ∧ s.clock.boundaryDue = true then .locked else s.clock.state) →
    (st = .locked ∨ st = .holdover ∨ st = .stepping) →
    (expected, e) = phaseOf s.clock.now s.loader.shared.delayComp →
    (second, how) = decideSecond expected s.clock.pendingTod s.clock.announcement →
    band = bandOf s.loader.shared.lockTolerance s.loader.shared.stepLimit e →
    ∃ u t, DueSettles s u ∧ exec (.ppsEdge edge) s = .next t ∧
      (∀ b c d, b = { u with clock := { u.clock with
          edgeAge := some 0, pendingTod := none, announcement := s.clock.pendingTod.bind (·.leap)
          now := ⟨second, s.loader.shared.delayComp⟩ } } →
        c = (if how = .leap then bump .leap b else b) →
        d = (if band = .middle then bump .phaseHit c else c) →
        (how ≠ .disagreement → band ≠ .large →
          (st = .stepping → SetFollows s.clock.now False d t) ∧
          (st ≠ .stepping → SetFollows s.clock.now (st = .holdover) { d with clock := { d.clock with
            state := .locked, holdoverAge := 0, holdoverLong := false } } t)) ∧
        (how = .disagreement ∨ band = .large → ∃ v w, Abandons c v ∧ DeadlinesPass w t ∧
          ((st = .stepping ∨ ∃ a ∈ s.clock.stepAge, a < 96000000) → w = { v with
            clock := { v.clock with
              stepAge := some 0, holdoverAge := 0, holdoverLong := false, state := .stopped }
            link := { v.link with notice := some ⟨.stopping, ⟨0, 0⟩⟩ }
            port := { v.port with causes := { v.port.causes with clockStopped := true } } }) ∧
          (st ≠ .stepping → (∀ a ∈ s.clock.stepAge, 96000000 ≤ a) → w = { v with
            clock := { v.clock with
              stepAge := some 0, holdoverAge := 0, holdoverLong := false, state := .stepping }
            link := { v.link with notice :=
              match (u.table.records.filter (fun q => decide (q.state = .opened))).getLast? with
              | some r => some ⟨.stepped, r.tag⟩
              | none => v.link.notice } }))) ∧
      t.clock.now = ⟨second, s.loader.shared.delayComp⟩ ∧
      t.clock.edgeAge = some 0 ∧ t.clock.pendingTod = none ∧
      t.clock.announcement = s.clock.pendingTod.bind (·.leap) ∧
      t.count .leap = (if how = .leap then min (s.count .leap + 1) 65535 else s.count .leap) ∧
      t.count .phaseHit = (if how ≠ .disagreement ∧ band = .middle
        then min (s.count .phaseHit + 1) 65535 else s.count .phaseHit) ∧
      (how ≠ .disagreement → band ≠ .large →
        t.clock.stepAge = s.clock.stepAge ∧ t.link.notice = s.link.notice ∧
        t.clock.state = (if st = .stepping ∧ second = s.clock.now.sec then .stepping else .locked) ∧
        (st ≠ .stepping → t.clock.holdoverLong = false ∧ t.clock.holdoverAge = 0) ∧
        (second ≠ s.clock.now.sec → t.link.beacon = some ⟨second, true⟩ ∧
          t.streams.map (·.working) = s.streams.map (·.pending)) ∧
        (second = s.clock.now.sec → s.clock.boundaryDue = false → t.link.beacon = s.link.beacon ∧
          t.streams.map (·.working) = s.streams.map (·.working))) ∧
      (how = .disagreement ∨ band = .large →
        t.clock.stepAge = some 0 ∧ t.table.afterStep = true ∧
        t.clock.holdoverLong = false ∧ t.clock.holdoverAge = 0 ∧
        (s.clock.boundaryDue = false → t.link.beacon = s.link.beacon ∧
          t.streams.map (·.working) = s.streams.map (·.working)) ∧
        (∀ r ∈ t.table.records, r.state ≠ .opened) ∧
        (∀ k, k = u.table.records.countP (fun r => decide (r.state = .opened)) →
          (0 < k → t.count .recordsAbandoned = min (s.count .recordsAbandoned + k) 65535) ∧
          (k = 0 → t.count .recordsAbandoned = s.count .recordsAbandoned)) ∧
        ((st = .stepping ∨ ∃ a ∈ s.clock.stepAge, a < 96000000) →
          t.clock.state = .stopped ∧ t.link.notice = some ⟨.stopping, ⟨0, 0⟩⟩ ∧
          t.port.causes.clockStopped = true) ∧
        (st ≠ .stepping → (∀ a ∈ s.clock.stepAge, 96000000 ≤ a) →
          t.clock.state = .stepping ∧
          (∀ r, (u.table.records.filter (fun q => decide (q.state = .opened))).getLast? = some r →
            t.link.notice = some ⟨.stepped, r.tag⟩) ∧
          ((∀ r ∈ u.table.records, r.state ≠ .opened) → t.link.notice = s.link.notice)))

/-- A time-of-day message that ends becomes the pending message exactly when its length, marker, CRC-16
and leap flags pass, and is counted and clears it otherwise (R6, R215). Its bytes are those of the
characters that began after the load ended; outside LOADED, or when none did, nothing is done (R23).
A character is a start bit, eight data bits least significant first, and a stop bit; one whose stop bit is
missing still gives its byte. That the characters come with the message's end, each with its age, that the
start bit is a 0 and the stop bit a 1, and that a missing stop bit alone does not fail the check, are the
model's (notes/assumptions/31.md, 35.md and 37.md). -/
def Obligations.TimeOfDayMessageIsChecked : Prop :=
  (∀ (c : TodChar) (age : Nat) (b0 b1 b2 b3 b4 b5 b6 b7 stop : Bool),
    (∀ i : Fin 8, (todByte c).getLsbD i = c.data[i]) ∧
    readTodChar c.age (todBits c) = some c ∧
    (readTodChar age [false, b0, b1, b2, b3, b4, b5, b6, b7, stop]).map
      (fun c => (todByte c, c.stop, c.age)) =
      some (BitVec.ofBool b7 ++ BitVec.ofBool b6 ++ BitVec.ofBool b5 ++ BitVec.ofBool b4 ++
        BitVec.ofBool b3 ++ BitVec.ofBool b2 ++ BitVec.ofBool b1 ++ BitVec.ofBool b0, stop, age) ∧
    readTodChar age [true, b0, b1, b2, b3, b4, b5, b6, b7, stop] = none) ∧
  ∀ (s : State) (chars : List TodChar), oneMessage chars = true →
    (s.running = false → exec (.timeOfDayMessage chars) s = .next s) ∧
    (∀ (k : Nat) (bytes : List Byte), s.running = true → s.clock.loadAge = some k →
      bytes = (chars.filter (fun c => decide (c.age < k))).map todByte →
      (bytes = [] → exec (.timeOfDayMessage chars) s = .next s) ∧
      (∀ (b1 b2 b3 b4 b5 b6 b7 : Byte), bytes = [0x5C#8, b1, b2, b3, b4, b5, b6, b7] →
        crc16 [0x5C#8, b1, b2, b3, b4, b5] = b6 ++ b7 →
        (b1.getLsbD 0 = false →
          exec (.timeOfDayMessage chars) s = .next { s with clock := { s.clock with
            pendingTod := some ⟨(b2 ++ b3 ++ b4 ++ b5).toNat, none⟩ } }) ∧
        (b1.getLsbD 0 = true → b1.getLsbD 1 ≠ b1.getLsbD 2 →
          exec (.timeOfDayMessage chars) s = .next { s with clock := { s.clock with
            pendingTod := some ⟨(b2 ++ b3 ++ b4 ++ b5).toNat,
              some (if b1.getLsbD 1 then .insertSecond else .deleteSecond)⟩ } })) ∧
      (bytes ≠ [] →
        (bytes.length ≠ 8 ∨ bytes.head? ≠ some 0x5C#8 ∨
          (∃ b6 b7 : Byte, bytes.drop 6 = [b6, b7] ∧ crc16 (bytes.take 6) ≠ b6 ++ b7) ∨
          (∃ b1 ∈ bytes[1]?, b1.getLsbD 0 = true ∧ b1.getLsbD 1 = b1.getLsbD 2)) →
        exec (.timeOfDayMessage chars) s = .next (bump .todBad
          { s with clock := { s.clock with pendingTod := none } })))

/-- A local second boundary (R2, R18, R51, R54, R70, R111): the count at fu 0 of the next second, the
pending enable set copied with its health changes, the effective wait and grace anew, a beacon
queued, and STEPPING ended. A copy that takes a stream of the oldest OPEN record's enable set out of LIVE
examines that record (R74), and a boundary that ends STEPPING evaluates the current tag (R21); nothing
else changes. When the boundary comes is the model's (notes/assumptions/1.md; 3.md for the second after
the last), and so are that the evaluation belongs to the boundary (11.md), that a deadline at or before
the count of an opening has passed (26.md), and when a close chooses its SECONDARY cells (29.md). -/
def Obligations.SecondBoundaryIsDelivered : Prop :=
  (∀ s m : State, CanArrive (boundaryIn s) s → m = momentOf (boundaryIn s) s →
    ∃ t, exec .localSecondBoundary s = .next t ∧
      BoundaryDelivers { m with clock := { m.clock with boundaryDue := false } } t) ∧
  ∀ s m : State, CanArrive (boundaryIn s) s → m = momentOf (boundaryIn s) s →
    ∃ t, exec .localSecondBoundary s = .next t ∧
      t.clock.now = m.clock.now ∧ t.clock.boundaryDue = false ∧
      (s.clock.boundaryDue = false → s.clock.now.fu < 6000000 →
        t.clock.now = ⟨nextSecond s.clock.now.sec, 0⟩) ∧
      t.clock.state = (if s.clock.state = .stepping then .locked else s.clock.state) ∧
      t.streams.map (fun st => (st.entry, st.pending, st.working, st.age)) =
        m.streams.map (fun st => (st.entry, st.pending, st.pending, st.age)) ∧
      t.streams.map (·.health) = m.streams.map (fun st =>
        if st.pending = st.working then st.health
        else if st.pending = false then .disabled
        else match st.age with
          | none => .unseen
          | some a => if a < 12000000 then .live else .stalled) ∧
      t.link.beacon = some ⟨m.clock.now.sec, decide (s.clock.state ≠ .acquiring)⟩ ∧
      t.table.effectiveGrace = min (s.loader.shared.grace * 6000) (47 * s.outPeriod) ∧
      t.table.effectiveWait = ((m.streams.filter (·.pending)).map (·.period)).foldl
        (fun w p => min w (28 * p))
        (min (s.table.requestedWait * 6000) (47 * s.outPeriod - t.table.effectiveGrace))

/-- The count reaches a slot time (R20 to R22, R67, R68): nothing opens outside LOCKED and HOLDOVER or at
a tag not newer than the newest; a full table refuses the opening and reports the skipped slot; and
otherwise the record is created with its deadlines, enable set and flag. It is examined exactly when it is
the oldest OPEN record: its close starts where it may, one with an empty enable set then completes at
once, and it stays OPEN otherwise (R72 to R74, R76). When the slot time comes is the model's
(notes/assumptions/1.md; 3.md for a deadline past the last second), and so are that a deadline at or
before the count has passed (26.md) and when a close chooses its SECONDARY cells (29.md). -/
def Obligations.SlotTimeOpensTheCurrentTag : Prop :=
  ∀ (s m : State) (d : Nat) (tag : Tag), slotReachedIn s = some d → CanArrive d s →
    m = momentOf d s → tag = ⟨m.clock.now.sec, m.clock.now.fu / s.outPeriod⟩ →
    ((m.clock.state ≠ .locked ∧ m.clock.state ≠ .holdover) ∨
        newerThanOpened m.clock.newest tag = false →
      exec .slotTimeReached s = .next { m with clock := { m.clock with slotDue := false } }) ∧
    (m.clock.state = .locked ∨ m.clock.state = .holdover →
      newerThanOpened m.clock.newest tag = true →
      (64 ≤ m.table.records.length → ∃ t, exec .slotTimeReached s = .next t ∧
        t.clock.newest = some tag ∧ t.table = m.table ∧
        t.count .tableFull = min (s.count .tableFull + 1) 65535 ∧
        t.assembler.skipped = min (s.assembler.skipped + 1) 65535) ∧
      (∃ t, exec .slotTimeReached s = .next t ∧
        SlotOpens tag { m with clock := { m.clock with slotDue := false } } t) ∧
      (m.table.records.length < 64 → (∃ st ∈ m.streams, st.working = true) →
        ∃ t, exec .slotTimeReached s = .next t ∧
          t.clock.newest = some tag ∧ t.table.afterStep = false ∧
          t.table.records.length = m.table.records.length + 1 ∧
          ∃ r ∈ t.table.records, r.tag = tag ∧
            r.state = (if (∀ q ∈ m.table.records, q.state ≠ .opened) ∧
              m.table.sequencer = .idle ∧ (r.closePassed = true ∨ readyToClose m r = true)
              then .closing else .opened) ∧
            r.closeDeadline = (slotTime s.loader.shared.slotRate tag).plus m.table.effectiveWait ∧
            r.gatherDeadline = (slotTime s.loader.shared.slotRate tag).plus
              (m.table.effectiveWait + m.table.effectiveGrace) ∧
            r.enabled = workingSet m.streams ∧ r.marks = [] ∧ r.expected = none ∧
            r.attachments = Vector.replicate 16 .none ∧ r.afterStep = m.table.afterStep))

/-- Holdover entry at an edge age of 9,000,000 fu (R13), and holdover limit expiry: HOLDOVER_LONG, or
STOPPED with every OPEN record gone, the STOPPING notice placed and CLOCK_STOPPED set (R14, R17). That
the command itself lets time run to the event is the model's (notes/assumptions/1.md). -/
def Obligations.HoldoverEntryAndLimit : Prop :=
  ∀ s : State,
    (∀ a ∈ s.clock.edgeAge, s.clock.state = .locked → CanArrive (9000000 - a) s →
      ∀ m, m = momentOf (9000000 - a) s →
      exec .holdoverEntry s = .next { m with clock := { m.clock with
        state := .holdover, holdoverAge := 0 } }) ∧
    (∀ d, d = s.loader.shared.holdoverLimit * 6000000 - s.clock.holdoverAge →
      s.clock.state = .holdover → s.clock.holdoverLong = false → CanArrive d s →
      ∀ m, m = momentOf d s →
      (s.loader.shared.stopOnExpiry = false →
        exec .holdoverLimitExpiry s = .next { m with clock := { m.clock with
          holdoverLong := true } }) ∧
      (s.loader.shared.stopOnExpiry = true → ∃ t, exec .holdoverLimitExpiry s = .next t ∧
        t.clock = { m.clock with state := .stopped, holdoverAge := 0, holdoverLong := false } ∧
        t.table.records = m.table.records.filter (fun r => decide (r.state ≠ .opened)) ∧
        t.table.afterStep = true ∧
        (∀ k, k = m.table.records.countP (fun r => decide (r.state = .opened)) → 0 < k →
          t.count .recordsAbandoned = min (s.count .recordsAbandoned + k) 65535) ∧
        t.link.notice = some ⟨.stopping, ⟨0, 0⟩⟩ ∧ t.port.causes.clockStopped = true))

/-! ## Intake (chapter 2) -/

/-- A counter incremented: by one up to 65,535, every other counter as it was, and COUNT_WATCH added
exactly when an error-group counter goes from 127 to 128 (chapter 11, section 11.3; R209, R210). The error
group is the 32 counters that the tables of R44, R84, R128, R152, R172 and R187 mark, with R210's three of
the clock's; the other 16 are outside it (R24). -/
def Obligations.CounterIncrementsAndWatches : Prop :=
  (∀ c : Counter,
    (c.inErrorGroup = true ↔ c ∈ [Counter.ppsSpurious, .phaseHit, .todBad, .bufferFull, .oversize, .runt,
      .badMarker, .format, .badCrc, .unknownSource, .early, .late, .stale, .recordsAbandoned, .skipped,
      .tableFull, .linkBadLength, .linkBadCrc, .linkBadKind, .stranger, .indexClash, .collision,
      .shareExpired, .shareDisplaced, .shareLost, .duplicateShare, .lateShare, .aheadShare, .mismatch,
      .peerSilent, .codeConflict, .markOverflow]) ∧
    (c.inErrorGroup = false ↔ c ∈ [Counter.leap, .framesReceived, .samplesAdmitted, .disabledSource,
      .duplicate, .framesIgnored, .earlyClose, .linkFramesSent, .linkFramesReceived, .sharesStored,
      .orphanShare, .mismatchedShare, .snapshotsDelivered, .marksAppended, .marksBlanked,
      .commandsRefused])) ∧
  ∀ (c : Counter) (s : State),
    (bump c s).count c = min (s.count c + 1) 65535 ∧
    (∀ k, k ≠ c → (bump c s).count k = s.count k) ∧
    bump c s = { s with
      counters := (bump c s).counters
      port := { s.port with causes := { s.port.causes with
        countWatch := s.port.causes.countWatch || (c.inErrorGroup && s.count c == 127) } } }

/-- Frame start (R26, R28, R45): in IDLE the arrival stamp taken, the frame counted and 9 bytes
reserved, or the frame dropped as BUFFER_FULL when fewer are free; in IGNORING only counted; in CLOSED
ignored. -/
def Obligations.FrameStartReservesTheStampEntry : Prop :=
  ∀ (s : State) (stamp : Stamp), s.pins.strobe = false →
    stamp = ⟨s.clock.now, decide (s.clock.state ≠ .acquiring)⟩ →
    (s.intake.writer = .idle → 9 ≤ s.intake.free →
      exec .frameStart s = .next { bump .framesReceived s with
        pins := { s.pins with strobe := true }
        intake := { s.intake with frameStamp := stamp, frameBytes := 0, writer := .receiving,
                                  writeCur := s.intake.writeHead + 9 } }) ∧
    (s.intake.writer = .idle → s.intake.free < 9 →
      exec .frameStart s = .next { bump .bufferFull (bump .framesReceived s) with
        pins := { s.pins with strobe := true }
        intake := { s.intake with frameStamp := stamp, frameBytes := 0, writer := .discarding,
                                  lastDrop := ⟨0, .bufferFull, s.clock.now⟩ } }) ∧
    (s.intake.writer = .ignoring →
      exec .frameStart s = .next { bump .framesIgnored s with pins := { s.pins with strobe := true } }) ∧
    (s.intake.writer = .closed →
      exec .frameStart s = .next { s with pins := { s.pins with strobe := true } })

/-- A byte in RECEIVING (R29, R30): stored at the write-current pointer with every other byte of the
buffer as it was, or the frame undone whole as OVERSIZE or BUFFER_FULL; in DISCARDING and IGNORING thrown
away (R45); in CLOSED ignored (R26). That the count of the frame's bytes stands at 0 outside RECEIVING is
the model's (notes/assumptions/21.md). -/
def Obligations.ByteIsStoredOrTheFrameUndone : Prop :=
  ∀ (s : State) (b : Byte), MemoryLaw s → s.pins.strobe = true →
    (s.intake.writer = .receiving → 85 ≤ s.intake.frameBytes →
      exec (.byteEvent b) s = .next { bump .oversize s with
        intake := { s.intake with writer := .discarding, writeCur := s.intake.writeHead, frameBytes := 0,
                                  lastDrop := ⟨0, .oversize, s.intake.frameStamp.at_⟩ } }) ∧
    (s.intake.writer = .receiving → s.intake.frameBytes < 85 → s.intake.free = 0 →
      exec (.byteEvent b) s = .next { bump .bufferFull s with
        intake := { s.intake with writer := .discarding, writeCur := s.intake.writeHead, frameBytes := 0,
                                  lastDrop := ⟨0, .bufferFull, s.intake.frameStamp.at_⟩ } }) ∧
    (s.intake.writer = .receiving → s.intake.frameBytes < 85 → s.intake.free ≠ 0 →
      ∃ mem, exec (.byteEvent b) s = .next { s with
          intake := { s.intake with mem := mem, writeCur := s.intake.writeCur + 1,
                                    frameBytes := s.intake.frameBytes + 1 } } ∧
        memRead mem s.intake.writeCur.toNat = b ∧
        ∀ a, a ≠ s.intake.writeCur.toNat → memRead mem a = memRead s.intake.mem a) ∧
    (s.intake.writer = .discarding ∨ s.intake.writer = .ignoring ∨ s.intake.writer = .closed →
      exec (.byteEvent b) s = .next s)

/-- Frame end (R31, R33): in RECEIVING the stamp entry's 9 bytes filled in with every other byte of the
buffer as it was, the frame added to the complete region and the checker CHECKING; in DISCARDING the
writer IDLE; in CLOSED ignored and in IGNORING thrown away, only the strobe changed (R26, R45). The layout
of the entry, and that the count of the frame's bytes stands at 0 outside RECEIVING, are the model's
(notes/assumptions/9.md, 21.md). -/
def Obligations.FrameEndCompletesTheFrame : Prop :=
  ∀ s : State, MemoryLaw s → s.pins.strobe = true →
    (s.intake.writer = .receiving →
      ∃ mem, exec .frameEnd s = .next { s with
          pins := { s.pins with strobe := false }
          intake := { s.intake with
            mem := mem, writeHead := s.intake.writeCur, writer := .idle, frameBytes := 0
            held := s.intake.held + 9 + s.intake.frameBytes, checker := .checking } } ∧
        (∀ i : Fin 9, memRead mem (s.intake.writeHead + BitVec.ofNat 15 i).toNat =
          (stampEntry s.intake.frameStamp s.intake.frameBytes).getD i 0) ∧
        ∀ a, (∀ i : Fin 9, a ≠ (s.intake.writeHead + BitVec.ofNat 15 i).toNat) →
          memRead mem a = memRead s.intake.mem a) ∧
    (s.intake.writer = .discarding →
      exec .frameEnd s = .next { s with
        pins := { s.pins with strobe := false }, intake := { s.intake with writer := .idle } }) ∧
    (s.intake.writer = .closed ∨ s.intake.writer = .ignoring →
      exec .frameEnd s = .next { s with pins := { s.pins with strobe := false } })

/-- The checks before the ring, in the order of R34, with the source code each refusal records (R35 to
R39): the first that fails refuses the frame, and a frame that passes them yields the sample of R38, every
value of it from its field; the source code, the phasor count and the fraction are those at offsets 4, 16
and 10 (R214). The early limit past the last second falls under the open value of notes/assumptions/3.md. -/
def Obligations.FrameChecksRefuseInOrder : Prop :=
  ∀ (s : State) (f : List Byte) (stamp : Stamp),
    (frameCode f = field f 4 2 ∧ framePhasors f = field f 16 1 ∧ frameFraction f = field f 10 3) ∧
    (f.length < 30 → judgeFrame s f stamp = .refused 0 .runt) ∧
    (30 ≤ f.length → (f.getD 0 0 ≠ 0xA7#8 ∨ f.getD 1 0 ≠ 1#8) →
      judgeFrame s f stamp = .refused 0 .badMarker) ∧
    (30 ≤ f.length → f.getD 0 0 = 0xA7#8 → f.getD 1 0 = 1#8 →
      (field f 2 2 ≠ f.length → judgeFrame s f stamp = .refused 0 .format) ∧
      (field f 2 2 = f.length →
        (crc16 (f.take (f.length - 2)) ≠ BitVec.ofNat 16 (field f (f.length - 2) 2) →
          judgeFrame s f stamp = .refused 0 .badCrc) ∧
        (crc16 (f.take (f.length - 2)) = BitVec.ofNat 16 (field f (f.length - 2) 2) →
          ((∀ st ∈ s.streams, st.entry.code ≠ frameCode f) →
            judgeFrame s f stamp = .refused (frameCode f) .unknownSource) ∧
          (∀ (n : Nat) (st : Stream), s.streams[n]? = some st → st.entry.code = frameCode f →
            (∀ k, k < n → ∀ u ∈ s.streams[k]?, u.entry.code ≠ frameCode f) →
            (st.working = false → judgeFrame s f stamp = .refused (frameCode f) .disabledSource) ∧
            (st.working = true →
              (framePhasors f ≠ st.entry.phasors ∨ f.length ≠ 25 + 5 * framePhasors f ∨
                  1000000 ≤ frameFraction f →
                judgeFrame s f stamp = .refused (frameCode f) .format) ∧
              (framePhasors f = st.entry.phasors → f.length = 25 + 5 * framePhasors f →
                frameFraction f < 1000000 →
                (s.clock.state ≠ .acquiring ∧ stamp.known = true ∧
                    (stamp.at_.plus (s.loader.shared.earlyLimit * 6)).before
                      ⟨field f 6 4, frameFraction f * 6⟩ = true →
                  judgeFrame s f stamp = .refused (frameCode f) .early) ∧
                (s.clock.state = .acquiring ∨ stamp.known = false ∨
                    (stamp.at_.plus (s.loader.shared.earlyLimit * 6)).before
                      ⟨field f 6 4, frameFraction f * 6⟩ = false →
                  ∃ x, judgeFrame s f stamp = .offered n (frameCode f) x ∧
                    x.t = ⟨field f 6 4, frameFraction f * 6⟩ ∧ x.stamp = stamp ∧
                    x.settled = false ∧ x.phasors.length = framePhasors f ∧
                    (∀ i < framePhasors f,
                      x.phasors[i]? = some ⟨field f (17 + 5 * i) 3, field f (20 + 5 * i) 2⟩) ∧
                    (∀ tail, tail = 17 + 5 * framePhasors f →
                      x.freq = (field f tail 2 : Int) -
                        (if field f tail 2 < 32768 then 0 else 65536) ∧
                      x.rocof = (field f (tail + 2) 2 : Int) -
                        (if field f (tail + 2) 2 < 32768 then 0 else 65536) ∧
                      x.digital = BitVec.ofNat 16 (field f (tail + 4) 2)) ∧
                    (x.invalid = true ↔ (field f 14 2).testBit 15 = true) ∧
                    (x.suspect = true ↔ (field f 13 1).testBit 7 = true ∨
                      s.loader.shared.accuracyLimit < field f 13 1 % 16))))))))

/-- The judgement of the frame the checker holds (R33, R40 to R44, R52, R62): a refused frame is counted
by its reason, whether a check or the ring refuses it, and written to the last-drop record, with every
other station counter as it was; a frame no check refuses changes its stream as the ring answers; and
either way the frame's space is released. The held frame is what the buffer holds from the read pointer on,
past 32,767 to 0: the stamp entry and as many bytes as it counts. A frame start in IDLE, the frame's bytes
and its frame end, with room for them, leave the arrival stamp and those bytes to be read there, whatever
position they begin at, and every other byte as it was (R28, R29, R31). The entry's layout is the model's
(notes/assumptions/9.md). -/
def Obligations.FrameJudgementRecordsItsOutcome : Prop :=
  (∀ (i : Intake) (stamp : Stamp) (f : List Byte), f.length ≤ 85 → stamp.at_.sec ≤ 4294967295 →
    stamp.at_.fu < 6000000 →
    (∀ k < 9 + f.length, memRead i.mem (i.readPtr + BitVec.ofNat 15 k).toNat =
      (stampEntry stamp f.length ++ f).getD k 0) →
    heldFrame i = (stamp, f)) ∧
  (∀ (s : State) (f : List Byte) (stamp : Stamp) (inFrame : Nat → Prop), MemoryLaw s → ClockLaw s →
    s.pins.strobe = false → s.intake.writer = .idle → f.length ≤ 85 → 9 + f.length ≤ s.intake.free →
    stamp = ⟨s.clock.now, decide (s.clock.state ≠ .acquiring)⟩ →
    (∀ a, inFrame a ↔ ∃ k < 9 + f.length, a = (s.intake.writeHead + BitVec.ofNat 15 k).toNat) →
    ∃ t, Runs (.frameStart :: f.map .byteEvent ++ [.frameEnd]) s t ∧
      t.intake.writer = .idle ∧ t.intake.checker = .checking ∧
      t.intake.held = s.intake.held + 9 + f.length ∧ t.intake.readPtr = s.intake.readPtr ∧
      t.intake.writeHead = s.intake.writeHead + BitVec.ofNat 15 (9 + f.length) ∧
      heldFrame { t.intake with readPtr := s.intake.writeHead } = (stamp, f) ∧
      ∀ a, ¬inFrame a → memRead t.intake.mem a = memRead s.intake.mem a) ∧
  ∀ (s : State) (stamp : Stamp) (f : List Byte), s.intake.checker = .checking →
    heldFrame s.intake = (stamp, f) →
    ∃ t, exec .frameJudgement s = .next t ∧
      t.intake.held = s.intake.held - (9 + f.length) ∧
      t.intake.readPtr = s.intake.readPtr + BitVec.ofNat 15 (9 + f.length) ∧
      (t.intake.checker = .checking ↔ t.intake.held ≠ 0) ∧ t.intake.mem = s.intake.mem ∧
      (∀ code reason, judgeFrame s f stamp = .refused code reason →
        t.streams = s.streams ∧ t.table = s.table ∧ t.intake.lastDrop = ⟨code, reason, stamp.at_⟩ ∧
        ∀ k ∈ reason.counter, t.count k = min (s.count k + 1) 65535 ∧
          ∀ j, j ≠ k → t.count j = s.count j) ∧
      (∀ n code x st, judgeFrame s f stamp = .offered n code x → s.streams[n]? = some st →
        (∀ reason, (st.offer x).1.reason = some reason →
          t.streams = s.streams.set n (st.offer x).2 ∧ t.table = s.table ∧
          t.intake.lastDrop = ⟨code, reason, stamp.at_⟩ ∧
          ∀ k ∈ reason.counter, t.count k = min (s.count k + 1) 65535 ∧
            ∀ j, j ≠ k → t.count j = s.count j) ∧
        ((st.offer x).1.reason = none →
          t.intake.lastDrop = s.intake.lastDrop ∧
          t.count .samplesAdmitted = min (s.count .samplesAdmitted + 1) 65535 ∧
          ∃ u, t.streams[n]? = some u ∧ u.ring.map (·.t) = (st.offer x).2.ring.map (·.t) ∧
            u.age = some 0 ∧ u.health = (st.offer x).2.health ∧
            u.counters = (st.offer x).2.counters))

/-! ## Streams, records and the local close (chapters 3, 4, 5 and 9) -/

/-- The three expiries. A LIVE stream whose admission age reaches 12,000,000 fu becomes STALLED, and no
other stream's health changes (R53). A queued share whose deadline passes is withdrawn and counted, or
only marked while it is in transmission (R120). A PRESENT peer whose silence age reaches the limit
becomes SILENT, is counted, and is waited for by no GATHERING record any more, and the GATHERING records
are judged (R135, R138). That each command itself lets time run to its event is the model's
(notes/assumptions/1.md), and so is that in one judgement a composition comes before the skips of later
records (33.md). -/
def Obligations.StreamsSharesAndPeersExpire : Prop :=
  (∀ (s : State) (n a : Nat) (st : Stream), n < 48 → s.streams[n]? = some st → st.health = .live →
     st.age = some a → CanArrive (12000000 - a) s →
     ∃ t, exec (.stallExpiry n) s = .next t ∧
       (t.streams[n]?).map (·.health) = some .stalled ∧
       ∀ k, k ≠ n → (t.streams[k]?).map (·.health) = (s.streams[k]?).map (·.health)) ∧
  (∀ (s m : State) (tag : Tag) (q : QueuedShare), tag.wellFormed = true →
     s.link.queue.find? (fun e => e.tag == tag) = some q → q.passed = false →
     CanArrive (s.clock.now.until_ q.deadline) s → m = momentOf (s.clock.now.until_ q.deadline) s →
     (∃ t, exec (.shareExpiry tag) s = .next t ∧ SharePasses tag m t) ∧
     ((∀ f phase, s.link.tx = some ⟨.share f, phase⟩ → f.tag ≠ tag) →
       exec (.shareExpiry tag) s = .next (bump .shareExpired { m with link := { m.link with
         queue := s.link.queue.filter (fun e => decide (e.tag ≠ tag)) } })) ∧
     (∀ f phase, s.link.tx = some ⟨.share f, phase⟩ → f.tag = tag →
       exec (.shareExpiry tag) s = .next { m with link := { m.link with
         queue := s.link.queue.map (fun e => if e.tag = tag then { e with passed := true } else e) } })) ∧
  (∀ (s m : State) (i : Station) (a : Nat), s.gather.roster[i].state = .present →
     s.gather.roster[i].silence = some a →
     CanArrive (s.loader.shared.silenceLimit * 6000 - a) s →
     m = momentOf (s.loader.shared.silenceLimit * 6000 - a) s →
     ∃ u t, exec (.silenceExpiry i) s = .next t ∧ LeavesPresent i .silent m u ∧ Judgement u t ∧ t.gather.roster[i].state = .silent ∧
       t.count .peerSilent = min (s.count .peerSilent + 1) 65535 ∧
       (∀ q ∈ t.table.records, q.state = .gathering → i ∉ q.expected.getD []) ∧
       ∀ j, j ≠ i → t.gather.roster[j].state = s.gather.roster[j].state)

/-- When a close starts (R71 to R76). The close deadline of the oldest OPEN record starts its close with
the sequencer IDLE: record and sequencer CLOSING, horizons set and samples settled, the monitors' levels
forgotten outside its enable set, no early close counted (R57, R61, R181); with an empty enable set the
close completes at once (R76, R78), and the completion examines the next oldest OPEN record (R74). For any
other record, or in CLOSING, only the passing is marked. What makes a ring final and a record ready is
R72. A stall or an admission that leaves the oldest OPEN record ready starts its close early, counted
EARLY_CLOSE, and otherwise starts nothing; in CLOSING neither starts anything. That the commands let time
run to the event is the model's (notes/assumptions/1.md), and so is when a close chooses its SECONDARY
cells (29.md). -/
def Obligations.CloseDeadlineStartsTheClose : Prop :=
  (∀ (s m : State) (tag : Tag) (r : Record), tag.wellFormed = true →
    recordOf tag s.table.records = some r → r.closePassed = false →
    CanArrive (s.clock.now.until_ r.closeDeadline) s →
    m = momentOf (s.clock.now.until_ r.closeDeadline) s →
    (oldestOpen s.table.records = some r → s.table.sequencer = .idle → r.enabled ≠ [] →
      ∃ t, exec (.closeDeadline tag) s = .next t ∧
        t.table.sequencer = .closing ∧
        (∃ q ∈ t.table.records, q.tag = tag ∧ q.state = .closing ∧ q.closePassed = true ∧
          q.cells = some []) ∧
        t.streams = m.streams.mapIdx (fun n st => if n ∈ r.enabled then
          { st with horizon := some (slotTime s.loader.shared.slotRate tag)
                    ring := st.ring.map (fun x => { x with settled := true }) } else st) ∧
        t.monitors = s.monitors.map (fun mon => if mon.settings.mode = .off then mon else
          { mon with levels := mon.levels.mapIdx (fun n l =>
            if n ∈ mon.watch ∧ n ∉ r.enabled then .unknown else l) }) ∧
        t.count .earlyClose = s.count .earlyClose) ∧
    (TableLaw s → oldestOpen s.table.records = some r → s.table.sequencer = .idle → r.enabled = [] →
      (∀ q ∈ s.table.records, q.state = .opened → q.tag = tag) → r.gatherPassed = false →
      (∃ i ∈ s.loader.shared.stations, s.gather.roster[i].state = .present ∧ r.attachments[i] = .none) →
      s.link.queue.length < 64 →
      ∃ t, exec (.closeDeadline tag) s = .next t ∧
        t.table.sequencer = .idle ∧ t.count .earlyClose = s.count .earlyClose ∧
        (∃ q ∈ t.table.records, q.tag = tag ∧ q.state = .gathering ∧ q.cells = some [] ∧
          q.expected = some (s.loader.shared.stations.filter
            (fun i => s.gather.roster[i].state == .present))) ∧
        t.link.queue = s.link.queue ++ [⟨tag, [], r.marks, r.gatherDeadline, false⟩]) ∧
    (∃ t, exec (.closeDeadline tag) s = .next t ∧ ClosePasses tag m t) ∧
    ((∀ q ∈ oldestOpen s.table.records, q.tag ≠ tag) ∨ s.table.sequencer = .closing →
      exec (.closeDeadline tag) s = .next { m with table := { m.table with
        records := s.table.records.map (fun q =>
          if q.tag = tag then { q with closePassed := true } else q) } })) ∧
  (∀ (tau : Time) (snap period : Nat) (ring : List Sample), ringOrdered ring = true →
    (ringFinal tau snap period ring = true ↔
      (∃ x ∈ ring, (x.t.diff tau).natAbs ≤ snap) ∨
      ∃ a ∈ ring, ∃ b ∈ ring, a.t.diff tau < -(snap : Int) ∧ (snap : Int) < b.t.diff tau ∧
        (∀ y ∈ ring, y.t.diff tau < -(snap : Int) → a.t.before y.t = false) ∧
        (∀ y ∈ ring, (snap : Int) < y.t.diff tau → y.t.before b.t = false) ∧
        b.t.diff a.t ≤ period + snap)) ∧
  (∀ (s : State) (r : Record), readyToClose s r = true ↔
    ∀ n ∈ r.enabled, ∀ st ∈ s.streams[n]?, st.health = .live →
      ringFinal (slotTime s.loader.shared.slotRate r.tag) s.loader.shared.snapTolerance
        st.entry.rate.period st.ring = true) ∧
  (∀ (s m u : State) (n a : Nat) (st : Stream) (r : Record), n < 48 → s.streams[n]? = some st →
    st.health = .live → st.age = some a → CanArrive (12000000 - a) s →
    m = momentOf (12000000 - a) s →
    u = { m with streams := m.streams.modify n (fun st => { st with health := .stalled }) } →
    s.table.records.find? (fun q => q.state == .opened) = some r →
    (n ∉ r.enabled → exec (.stallExpiry n) s = .next u) ∧
    (n ∈ r.enabled → ∃ t, exec (.stallExpiry n) s = .next t ∧ Examination u t)) ∧
  (∀ (s m u : State) (n a : Nat) (st : Stream) (r : Record), n < 48 → s.streams[n]? = some st →
    st.health = .live → st.age = some a → CanArrive (12000000 - a) s →
    m = momentOf (12000000 - a) s →
    u = { m with streams := m.streams.modify n (fun st => { st with health := .stalled }) } →
    oldestOpen s.table.records = some r → s.table.sequencer = .idle → r.closePassed = false →
    r.enabled ≠ [] →
    (n ∉ r.enabled ∨ readyToClose u r = false → exec (.stallExpiry n) s = .next u) ∧
    (n ∈ r.enabled → readyToClose u r = true → ∃ t, exec (.stallExpiry n) s = .next t ∧
      t.table.sequencer = .closing ∧
      (∃ q ∈ t.table.records, q.tag = r.tag ∧ q.state = .closing ∧ q.cells = some []) ∧
      t.count .earlyClose = min (s.count .earlyClose + 1) 65535)) ∧
  (∀ (s u : State) (stamp : Stamp) (f : List Byte) (n code : Nat) (x : Sample) (st : Stream)
      (r : Record), s.intake.checker = .checking → heldFrame s.intake = (stamp, f) →
    judgeFrame s f stamp = .offered n code x → s.streams[n]? = some st →
    (st.offer x).1.reason = none → u = { s with streams := s.streams.set n (st.offer x).2 } →
    s.table.records.find? (fun q => q.state == .opened) = some r →
    ∃ t v, exec .frameJudgement s = .next t ∧ { t with intake := s.intake } = v ∧
      (n ∉ r.enabled → v = bump .samplesAdmitted u) ∧
      (n ∈ r.enabled → Examination (bump .samplesAdmitted u) v)) ∧
  (∀ (s u : State) (stamp : Stamp) (f : List Byte) (n code : Nat) (x : Sample) (st : Stream)
      (r : Record), s.intake.checker = .checking → heldFrame s.intake = (stamp, f) →
    judgeFrame s f stamp = .offered n code x → s.streams[n]? = some st →
    (st.offer x).1.reason = none → u = { s with streams := s.streams.set n (st.offer x).2 } →
    oldestOpen s.table.records = some r → s.table.sequencer = .idle → r.closePassed = false →
    r.enabled ≠ [] →
    ∃ t, exec .frameJudgement s = .next t ∧
      (n ∉ r.enabled ∨ readyToClose u r = false →
        t.table = s.table ∧ t.streams = u.streams ∧ t.count .earlyClose = s.count .earlyClose) ∧
      (n ∈ r.enabled → readyToClose u r = true →
        t.table.sequencer = .closing ∧
        (∃ q ∈ t.table.records, q.tag = r.tag ∧ q.state = .closing ∧ q.cells = some []) ∧
        t.count .earlyClose = min (s.count .earlyClose + 1) 65535))

/-- A resolution makes the cell of the next stream of the record in close from its settled samples at the
record's slot time, stores it, and has the eight monitors judge it in number order; it leaves every stream
as it was, and the record's state, enable set and earlier marks too (R76, R87, R88, R176). -/
def Obligations.ResolutionStoresTheCell : Prop :=
  ∀ (s : State) (r : Record) (cs : List Cell) (pos : Nat) (st : Stream) (c : Cell),
    closingRecord s.table.records = some r → r.cells = some cs → r.enabled[cs.length]? = some pos →
    s.streams[pos]? = some st →
    c = resolve
      { tau := slotTime s.loader.shared.slotRate r.tag, period := st.entry.rate.period
        snap := s.loader.shared.snapTolerance, hold := s.loader.shared.holdLimit
        code := st.entry.code } (st.ring.filter (·.settled)) →
    ∃ t, exec .streamResolution s = .next t ∧
      t = ([0, 1, 2, 3, 4, 5, 6, 7] : List (Fin 8)).foldl (judgeCell pos c r.tag)
        { s with table := { s.table with records := s.table.records.map (fun q =>
          if q.tag = r.tag then { q with cells := some (cs ++ [c]) } else q) } } ∧
      t.streams = s.streams ∧
      ∃ q ∈ t.table.records, q.tag = r.tag ∧ q.state = .closing ∧ q.enabled = r.enabled ∧
        q.cells = some (cs ++ [c]) ∧ ∃ more, q.marks = r.marks ++ more

/-- One monitor on one stored cell, by the table of R178: the level stored; a selected change fires
with the countdown at 0 and is counted as blanked otherwise; a firing offers a mark, loads the
countdown and is noted; an ABSENT cell, an OFF monitor and an unwatched position change nothing
(R176 to R179). The value compared is the frequency deviation for FREQ, the ROCOF for ROCOF and the
magnitude of phasor 0 for MAG0 (R173, R177). The statement on STREAM_RESOLUTION says that all eight judge the stored cell so. -/
def Obligations.MonitorActsByTheTable : Prop :=
  (∀ v : CellValues, Quantity.read .freq v = v.freq ∧ Quantity.read .rocof v = v.rocof ∧
    ∀ p rest, v.phasors = p :: rest → Quantity.read .mag0 v = (p.mag : Int)) ∧
  ∀ (s : State) (i : Fin 8) (pos : Nat) (c : Cell) (t : Tag),
    ((s.monitors[i].settings.mode = .off ∨ pos ∉ s.monitors[i].watch ∨ c.values = none) →
      judgeCell pos c t s i = s) ∧
    (∀ (v : CellValues) (old new : Level), c.values = some v → s.monitors[i].settings.mode ≠ .off →
      pos ∈ s.monitors[i].watch → s.monitors[i].levels[pos]? = some old →
      new = (if s.monitors[i].settings.threshold < s.monitors[i].settings.quantity.read v
        then .above else .below) →
      (judgeCell pos c t s i).monitors[i].levels = s.monitors[i].levels.set pos new ∧
      (∀ j, j ≠ i → (judgeCell pos c t s i).monitors[j] = s.monitors[j]) ∧
      (old = .unknown ∨ old = new ∨
          (new = .above ∧ s.monitors[i].settings.mode = .falling) ∨
          (new = .below ∧ s.monitors[i].settings.mode = .rising) →
        (judgeCell pos c t s i).monitors[i].countdown = s.monitors[i].countdown ∧
        (judgeCell pos c t s i).table = s.table ∧ (judgeCell pos c t s i).counters = s.counters) ∧
      (∀ d : Direction, d = (if new = .above then .rising else .falling) → old ≠ .unknown → old ≠ new →
        s.monitors[i].settings.mode = .both ∨
          (s.monitors[i].settings.mode = .rising ∧ d = .rising) ∨
          (s.monitors[i].settings.mode = .falling ∧ d = .falling) →
        (s.monitors[i].countdown ≠ 0 →
          (judgeCell pos c t s i).monitors[i].countdown = s.monitors[i].countdown ∧
          (judgeCell pos c t s i).table = s.table ∧
          (judgeCell pos c t s i).count .marksBlanked = min (s.count .marksBlanked + 1) 65535) ∧
        (s.monitors[i].countdown = 0 → ∀ r, recordOf t s.table.records = some r →
          (judgeCell pos c t s i).monitors[i].countdown = s.monitors[i].settings.blanking ∧
          (judgeCell pos c t s i).monitors[i].fired = true ∧
          (r.marks.length < 8 →
            (recordOf t (judgeCell pos c t s i).table.records).map (·.marks)
              = some (r.marks ++ [⟨i.val, c.code, d⟩]) ∧
            (judgeCell pos c t s i).count .marksAppended = min (s.count .marksAppended + 1) 65535) ∧
          (8 ≤ r.marks.length → (judgeCell pos c t s i).table = s.table ∧
            (judgeCell pos c t s i).count .markOverflow = min (s.count .markOverflow + 1) 65535))))

/-- A close completes (R76, R78, R147, R180), as CloseCompletes of Safety.lean says it: the expected set
captured, the share handed over, each monitor's countdown adjusted and the sequencer IDLE. The share is
queued last, the oldest one not in transmission displaced from a full queue, or withdrawn at once when its
deadline has passed (R109, R120). The record is GATHERING with its cells and marks kept, waiting for a
station or behind an older record; a record complete at once is DRAINING, or skipped and freed when 16 are
(R79, R80). Then the sequencer examines the oldest OPEN record, and starts its close when its deadline has
passed or it is ready (R73, R74, R78 step 4); where none is OPEN, or it may not start, nothing more
happens. That the cells are chosen here and not at the end of the last resolution is the model's
(notes/assumptions/29.md). -/
def Obligations.CloseCompletionHandsOver : Prop :=
  ∀ (s : State) (r : Record), TableLaw s → QueueLaw s →
    closingRecord s.table.records = some r → (r.cells.getD []).length = r.enabled.length →
    ∃ u t, exec .closeCompletion s = .next t ∧ CloseCompletes r s u ∧ Examination u t ∧
      (∀ q, s.table.records.find? (fun q => q.state == .opened) = some q →
        (q.closePassed = false → readyToClose s q = false → t = u) ∧
        ((q.closePassed = true ∨ readyToClose s q = true) → q.enabled ≠ [] →
          t.table.sequencer = .closing ∧
          (∃ p ∈ t.table.records, p.tag = q.tag ∧ p.state = .closing ∧ p.cells = some []) ∧
          t.count .earlyClose = (if q.closePassed = true then s.count .earlyClose
            else min (s.count .earlyClose + 1) 65535))) ∧
      (s.table.records.find? (fun q => q.state == .opened) = none → t = u)

/-- The cells of an outgoing share (R150): every cell of a PRIMARY stream, and a SECONDARY stream's cell
unless its primary's stored share has a value for the code, each with its role on it. -/
def Obligations.OutgoingShareLeavesOutCoveredCells : Prop :=
  ∀ (streams : List Stream) (mem : List Host.Cell) (r : Record) (cs : List Cell),
    r.cells = some cs →
    ∀ (k pos : Nat) (c : Cell) (st : Stream), r.enabled[k]? = some pos → cs[k]? = some c →
      streams[pos]? = some st →
      (st.entry.role = .primary →
        { c with secondary := false, primary := 0 } ∈ outgoingCells streams mem r) ∧
      (∀ p, st.entry.role = .secondary p →
        ((∀ f, storedShare mem r.attachments[p] = some f →
            ∀ d ∈ f.cells, d.code = c.code → d.quality = .absent) →
          { c with secondary := true, primary := p.val } ∈ outgoingCells streams mem r) ∧
        ((∃ f, storedShare mem r.attachments[p] = some f ∧
            ∃ d ∈ f.cells, d.code = c.code ∧ d.quality ≠ .absent) →
          (cs.map (·.code)).Nodup → ∀ d ∈ outgoingCells streams mem r, d.code ≠ c.code)) ∧
      ((outgoingCells streams mem r).map (·.code)).Sublist (cs.map (·.code))

/-- The gathering deadline of a GATHERING record passes (R71, R136): each station still waited for counts
a miss, and the fourth makes it SILENT, counted PEER_SILENT and waited for by no GATHERING record any more
(R138); then the GATHERING records are judged. The oldest record not yet DRAINING then becomes DRAINING, or is
freed when 16 are (R79, R80); one behind an older GATHERING record that still waits stays, marked. The
deadline of an OPEN, CLOSING or DRAINING record is only marked: no miss is counted and nothing is judged
(R77, R149). That the command lets time run to the deadline is the model's (notes/assumptions/1.md), and
so is that in one judgement a composition comes before the skips of later records (33.md). -/
def Obligations.GatheringDeadlineCountsMisses : Prop :=
  (∀ (s m : State) (tag : Tag) (r : Record), tag.wellFormed = true →
    recordOf tag s.table.records = some r → r.state ≠ .gathering → r.gatherPassed = false →
    CanArrive (s.clock.now.until_ r.gatherDeadline) s →
    m = momentOf (s.clock.now.until_ r.gatherDeadline) s →
    exec (.gatheringDeadline tag) s = .next { m with table := { m.table with
      records := s.table.records.map (fun q =>
        if q.tag = tag then { q with gatherPassed := true } else q) } }) ∧
  ∀ (s m : State) (tag : Tag) (r : Record), tag.wellFormed = true → TableLaw s →
    recordOf tag s.table.records = some r → r.state = .gathering → r.gatherPassed = false →
    r.missing.Nodup →
    CanArrive (s.clock.now.until_ r.gatherDeadline) s →
    m = momentOf (s.clock.now.until_ r.gatherDeadline) s →
    ∃ t, exec (.gatheringDeadline tag) s = .next t ∧ GatherPasses tag m t ∧
      (∀ gone, gone = r.missing.filter (fun i => decide (3 ≤ s.gather.roster[i].misses ∧
          s.gather.roster[i].state = .present)) →
        (gone = [] → t.count .peerSilent = s.count .peerSilent) ∧
        (gone ≠ [] → t.count .peerSilent = min (s.count .peerSilent + gone.length) 65535) ∧
        ∀ i ∈ gone, ∀ q ∈ t.table.records, q.state = .gathering → i ∉ q.expected.getD []) ∧
      (∀ i ∈ r.missing,
        t.gather.roster[i].misses = min (s.gather.roster[i].misses + 1) 4 ∧
        t.gather.roster[i].state =
          (if 3 ≤ s.gather.roster[i].misses ∧ s.gather.roster[i].state = .present then .silent
           else s.gather.roster[i].state)) ∧
      (∀ i : Station, i ∉ r.missing →
        t.gather.roster[i].misses = s.gather.roster[i].misses ∧
        t.gather.roster[i].state = s.gather.roster[i].state) ∧
      (s.table.records.find? (fun q => q.state != .draining) = some r →
        (drainingCount s.table.records < 16 →
          ∃ q ∈ t.table.records, q.tag = tag ∧ q.state = .draining) ∧
        (drainingCount s.table.records = 16 → (∀ q ∈ t.table.records, q.tag ≠ tag) ∧
          ∀ b ∈ r.blocks, b ∈ t.gather.free)) ∧
      ((∃ q ∈ s.table.records, q.state = .gathering ∧ q.tag.older tag = true ∧
          q.gatherPassed = false ∧ ∃ i ∈ q.missing, i ∉ r.missing ∨ s.gather.roster[i].misses < 3) →
        ∃ q ∈ t.table.records, q.tag = tag ∧ q.state = .gathering ∧ q.gatherPassed = true ∧
          q.attachments = r.attachments)

/-! ## Snapshots (chapter 8) -/

/-- A byte taken moves the delivery on by one byte, and the last one ends it: counted, the record freed
with its blocks, the GATHERING records judged for the place it leaves (R79, R80), and the assembler IDLE
or on the oldest DRAINING record, whose composition is begun (R81, R155 to R157, R168); and the MARK line
falls 60 fu after the latest marked beginning (R169). Three things here are the model's: that the
judgement comes before the return to IDLE, so that the composition is made of the node as the judgement
leaves it, where R156 lets the two be taken in either order, and R160 a skip report and a composition
(notes/assumptions/16.md); that DELIVERY_END may itself take the last byte (16.md too); and that the
pulse's end lets time run to it (1.md). -/
def Obligations.DeliveryAndMarkPulseEnd : Prop :=
  (∀ (s : State) (c : Composition) (taken : Nat), s.assembler.state = .delivering c taken →
     (c.length ≤ taken + 1 → ∀ u, u = { bump .snapshotsDelivered s with
         table := { s.table with
           records := s.table.records.filter (fun q => decide (q.tag ≠ c.tag)) }
         gather := { s.gather with free := s.gather.free ++
           (s.table.records.filter (fun q => decide (q.tag = c.tag))).flatMap Record.blocks } } →
       ∃ v, Judgement u v ∧ v.assembler = { s.assembler with skipped := v.assembler.skipped } ∧
         (∀ q, v.table.records.find? (fun q => q.state == .draining) = some q →
           ∃ t, exec .deliveryEnd s = .next t ∧ t.assembler.state = .delivering (compositionOf v q) 0 ∧
             t.table = v.table) ∧
         exec .deliveryEnd s = .next
           (takeRecord { v with assembler := { v.assembler with state := .idle } })) ∧
     (taken < c.length → exec .snapshotByteTaken s = .next { s with
       assembler := { s.assembler with state := .delivering c (taken + 1) } }) ∧
     (c.length ≤ taken + 1 → ∃ t, exec .deliveryEnd s = .next t ∧
       t.count .snapshotsDelivered = min (s.count .snapshotsDelivered + 1) 65535 ∧
       (∀ q ∈ t.table.records, q.tag ≠ c.tag) ∧
       (∀ r ∈ s.table.records, r.tag = c.tag → ∀ b ∈ r.blocks, b ∈ t.gather.free) ∧
       (∀ q, t.table.records.find? (fun q => q.state == .draining) = some q →
         ∃ d, t.assembler.state = .delivering d 0 ∧ d.tag = q.tag ∧ t.assembler.skipped = 0 ∧
           ((∀ r ∈ s.table.records, r.state ≠ .gathering) → d = compositionOf s q)) ∧
       (t.table.records.find? (fun q => q.state == .draining) = none → t.assembler.state = .idle))) ∧
  (∀ (s m : State) (a : Nat), s.assembler.mark = some a → CanArrive (60 - a) s →
     m = momentOf (60 - a) s →
     exec .markPulseEnd s = .next { m with assembler := { m.assembler with mark := none } } ∧
     { m with assembler := { m.assembler with mark := none } }.markHigh = false)

/-- The merge whole (R164, R165): of the cells that the LOCAL and RECEIVED segments bring, in snapshot
order, each segment holds the written ones in their order: a primary cell unless an earlier primary one
has values for its code, an ABSENT primary one always, and of the secondary ones of a code without a
primary value the best and earliest, with USED set. So no two cells of a snapshot have values for one
source code, and the primary cells left out are the conflicts that are counted. The better quality is the
one with the lower code: EXACT 0, INTERPOLATED 1, HELD 2 (R212). -/
def Obligations.SnapshotHasOneValuePerCode : Prop :=
  ([Quality.exact, .interpolated, .held, .absent].map qualityCode = [0, 1, 2, 3]) ∧
  (∀ (segs : List (List Cell)) (keep : Nat → Option Cell), MergeRule segs.flatten keep →
    (∀ k seg, segs[k]? = some seg → (mergeAll [] segs)[k]? = some ((List.range seg.length).filterMap
      (fun i => keep ((segs.take k).flatten.length + i)))) ∧
    (mergeAll [] segs).length = segs.length ∧
    conflictCount [] segs.flatten = (List.range segs.flatten.length).countP (fun i =>
      (keep i).isNone && (segs.flatten[i]?).any (fun c => !c.secondary))) ∧
  (∀ (s : State) (r : Record),
    (compositionOf s r).segments.map (·.cells) = mergeAll [] (s.loader.shared.stations.map
      (segmentCells s.loader.strap s.streams s.gather.mem r)) ∧
    ((compositionOf s r).segments.flatMap (·.cells)).Pairwise
      (fun a b => a.quality ≠ .absent → b.quality ≠ .absent → a.code ≠ b.code))

/-- Composition (R157 to R163): one segment for each configured station in ascending order with the status
that the attachment and the expected set decide; the cells each brings to the merge, a peer's those of the
share that its stored bytes are, and none for any other attachment (R143, R162); the mark list; the
flags (R159). The record length is the number of its bytes (R158, R167), which stand where R217 puts them
and are presented in order (R155). At the composition CODE_CONFLICT counts the cells left out, the skipped
count restarts, and a marked snapshot raises MARK (R160, R164, R169). -/
def Obligations.CompositionFixesTheSnapshot : Prop :=
  (∀ (s : State) (r : Record),
     (compositionOf s r).tag = r.tag ∧ (compositionOf s r).emitter = s.loader.strap ∧
     (compositionOf s r).slotRate = s.loader.shared.slotRate ∧
     (compositionOf s r).clock = s.clock.state ∧
     (compositionOf s r).skipped = s.assembler.skipped ∧
     (compositionOf s r).segments.map (·.station) = s.loader.shared.stations ∧
     (∀ g ∈ (compositionOf s r).segments,
       (g.station = s.loader.strap → g.status = .local_ ∧ g.clock = some s.clock.state) ∧
       (g.station ≠ s.loader.strap → g.clock = s.gather.roster[g.station].lastClock ∧
         (∀ b n, r.attachments[g.station] = .stored b n → g.status = .received) ∧
         (r.attachments[g.station] = .lost → g.status = .lost ∧ g.cells = []) ∧
         (r.attachments[g.station] = .abandoned → g.status = .abandoned ∧ g.cells = []) ∧
         (r.attachments[g.station] = .none → g.cells = [] ∧
           g.status = if g.station ∈ r.expected.getD [] then .missing else .excluded))) ∧
     (compositionOf s r).marks = s.loader.shared.stations.flatMap (fun i =>
       if i = s.loader.strap then r.marks.map (fun m => (i, m))
       else ((storedShare s.gather.mem r.attachments[i]).map
         (fun f => f.marks.map (fun m => (i, m)))).getD []) ∧
     ((compositionOf s r).flags.gap = true ↔ 1 ≤ s.assembler.skipped) ∧
     (compositionOf s r).flags.afterStep = r.afterStep ∧
     (compositionOf s r).flags.holdoverLong = s.clock.holdoverLong ∧
     ((compositionOf s r).flags.marked = true ↔ (compositionOf s r).marks ≠ []) ∧
     ((compositionOf s r).flags.partial_ = true ↔ ∃ g ∈ (compositionOf s r).segments,
       g.status = .missing ∨ g.status = .lost ∨ g.status = .abandoned) ∧
     (compositionOf s r).bytes.length = (compositionOf s r).length) ∧
  (∀ (mem : List Host.Cell) (blocks : List Block) (n : Nat) (key : ClaimKey) (f : ShareFrame),
     (checkForm key (storeRead mem blocks n) = .ok (.share f) →
       storedShare mem (.stored blocks n) = some f) ∧
     storedShare mem .none = none ∧ storedShare mem .lost = none ∧
     storedShare mem .abandoned = none) ∧
  (∀ (streams : List Stream) (mem : List Host.Cell) (r : Record) (own i : Station),
     (i ≠ own → segmentCells own streams mem r i =
       ((storedShare mem r.attachments[i]).map (·.cells)).getD []) ∧
     ∀ (cs : List Cell) (k pos : Nat) (c : Cell) (st : Stream), r.cells = some cs →
       r.enabled[k]? = some pos → cs[k]? = some c → streams[pos]? = some st →
       (st.entry.role = .primary → (segmentCells own streams mem r own)[k]? =
         some { c with secondary := false, primary := 0 }) ∧
       (∀ p, st.entry.role = .secondary p → (segmentCells own streams mem r own)[k]? =
         some { c with secondary := true, primary := p.val })) ∧
  (∀ (s t : State) (r : Record) (n : Nat), s.assembler.state = .idle →
     s.table.records.find? (fun q => q.state == .draining) = some r → t = takeRecord s →
     n = conflictCount [] (s.loader.shared.stations.map
       (segmentCells s.loader.strap s.streams s.gather.mem r)).flatten →
     t.assembler = ⟨.delivering (compositionOf s r) 0, 0,
       if (compositionOf s r).marks ≠ [] then some 0 else s.assembler.mark⟩ ∧
     (0 < n → t.count .codeConflict = min (s.count .codeConflict + n) 65535) ∧
     (n = 0 → t.count .codeConflict = s.count .codeConflict) ∧ t.table = s.table) ∧
  (∀ s : State, s.assembler.state ≠ .idle ∨
     s.table.records.find? (fun q => q.state == .draining) = none → takeRecord s = s) ∧
  (∀ (c : Composition) (a : Assembler),
     (c.bytes.drop 0).take 4 = beBytes 4 c.length ∧ (c.bytes.drop 4).take 5 = tagBytes c.tag ∧
     (c.bytes.drop 9).take 4 = beBytes 1 c.slotRate.perSecond ++ beBytes 1 c.emitter.val ++
       beBytes 1 (clockCode c.clock) ++ beBytes 1 c.flags.toNat ∧
     (c.bytes.drop 13).take 4 = beBytes 2 c.skipped ++ beBytes 1 c.segments.length ++
       beBytes 1 c.marks.length ∧
     (c.bytes.drop 17).take (5 * c.marks.length) = c.marks.flatMap (fun e =>
       beBytes 1 e.1.val ++ beBytes 1 e.2.monitor ++ beBytes 2 e.2.code ++
         beBytes 1 (directionCode e.2.direction)) ∧
     (∃ body, c.bytes = body ++ beBytes 4 (crc32 body).toNat ∧
       body.drop (17 + 5 * c.marks.length) = c.segments.flatMap (fun g =>
         beBytes 1 g.station.val ++ beBytes 1 (statusCode g.status) ++
           beBytes 1 (clockCodeOr7 g.clock) ++ beBytes 1 g.cells.length ++
           g.cells.flatMap cellBytes)) ∧
     (∀ taken, a.state = .delivering c taken →
       a.presented = c.bytes[taken]?.map (fun b => (b, decide (taken = 0)))) ∧
     ((a.state = .closed ∨ a.state = .idle) → a.presented = none))

/-! ## Peer link (chapter 6) -/

/-- A claim offers the notice, else the oldest queued share, else the beacon, its fields read at the
start bit; a station that may not claim, or has nothing pending, joins none (R111 to R113, R130). -/
def Obligations.ClaimOffersByPriority : Prop :=
  ∀ (s : State) (beacon : BeaconSecond → OutFrame) (share : QueuedShare → OutFrame),
    (∀ b, beacon b = .beacon
      { clock := s.clock.state, slotRate := BitVec.ofNat 8 s.loader.shared.slotRate.perSecond
        digest := s.loader.shared.digest, wait := BitVec.ofNat 32 s.table.effectiveWait
        grace := BitVec.ofNat 32 s.table.effectiveGrace, second := b }) →
    (∀ q, share q = .share
      { tag := q.tag, slotRate := BitVec.ofNat 8 s.loader.shared.slotRate.perSecond
        digest := s.loader.shared.digest, clock := s.clock.state, cells := q.cells, marks := q.marks }) →
    (s.link.state ≠ .active ∨ s.link.deferFlag = true ∨ s.link.medium ≠ .idle ∨ s.link.tx ≠ none ∨
        (s.link.notice = none ∧ s.link.queue = [] ∧ s.link.beacon = none) →
      exec .claimStart s = .next s) ∧
    (s.link.state = .active → s.link.deferFlag = false → s.link.medium = .idle → s.link.tx = none →
      (∀ n, s.link.notice = some n → exec .claimStart s = .next { s with link := { s.link with
        notice := none, medium := .own, tx := some ⟨.notice n, .claiming⟩ } }) ∧
      (∀ q rest, s.link.notice = none → s.link.queue = q :: rest →
        exec .claimStart s = .next { s with link := { s.link with
          medium := .own, tx := some ⟨share q, .claiming⟩ } }) ∧
      (∀ b, s.link.notice = none → s.link.queue = [] → s.link.beacon = some b →
        exec .claimStart s = .next { s with link := { s.link with
          beacon := none, medium := .own, tx := some ⟨beacon b, .claiming⟩ } }))

/-- A claim resolves (R112, R114): the key read back whole wins, a lower one on the line loses and the
frame returns to its place, a newer notice or beacon standing, and a higher one is a line fault, which
counts as a collision. A share whose deadline passed meanwhile is withdrawn (R120). Among stations that
each stop driving from the bit after the one that they lose at, the line is the claim of the lowest key.
That the frame after a line fault is taken, and that the beacon placed later is the newer one though a set
back gave it a lower second, are the model's (notes/assumptions/14.md and 38.md). -/
def Obligations.ClaimResolvesByTheLowestKey : Prop :=
  (∀ (keys : List ClaimKey) (key : ClaimKey), key ∈ keys → (∀ k ∈ keys, key ≤ k) →
    claimLine keys 7 = claimLevels key ∧
    ∀ k ∈ keys, claimEnd (keyLevels k) ((claimLine keys 7).drop 1) =
      if k = key then .won else .lost) ∧
  ∀ (s : State) (f : OutFrame) (line key : ClaimKey), s.link.tx = some ⟨f, .claiming⟩ →
    key = BitVec.ofNat 6 (16 * f.frameClass + s.loader.strap.val) →
    (line = key → exec (.claimResolved line) s = .next { s with link := { s.link with
      tx := some ⟨f, .transmitting⟩ } }) ∧
    (line < key →
      (∀ n, f = .notice n → exec (.claimResolved line) s = .next { s with link := { s.link with
        tx := none, medium := .foreign, notice := some (s.link.notice.getD n) } }) ∧
      (∀ b, f = .beacon b → exec (.claimResolved line) s = .next { s with link := { s.link with
        tx := none, medium := .foreign, beacon := some (s.link.beacon.getD b.second) } }) ∧
      (∀ x, f = .share x →
        (∀ q, s.link.queue.find? (fun e => e.tag == x.tag) = some q → q.passed = false) →
        exec (.claimResolved line) s = .next { s with link := { s.link with
          tx := none, medium := .foreign } }) ∧
      (∀ x q, f = .share x → s.link.queue.find? (fun e => e.tag == x.tag) = some q →
        q.passed = true →
        exec (.claimResolved line) s = .next (bump .shareExpired { s with link := { s.link with
          tx := none, medium := .foreign
          queue := s.link.queue.filter (fun e => decide (e.tag ≠ x.tag)) } }))) ∧
    (key < line → exec (.claimResolved line) s = exec .collision s ∧
      ∃ t, exec (.claimResolved line) s = .next t ∧ t.link.tx = none ∧ t.link.deferFlag = true ∧ t.count .collision = min (s.count .collision + 1) 65535)

/-- A transmission completes: counted, the collision run 0, the defer flag set and a share gone from the
queue (R115, R117). Or it collides, in a character or in the claim: counted, the run one more, the defer
flag set and the frame kept, but for a share whose deadline passed in transmission, which is withdrawn and
counted SHARE_EXPIRED (R120); at a run of 3 the link is MUTED and INDEX_CLASH is set (R118, R119). That the
frame after a mismatch in the claim is taken, and that the beacon placed later is the newer one though a
set back gave it a lower second, are the model's (notes/assumptions/14.md and 38.md). -/
def Obligations.TransmissionsCompleteOrCollide : Prop :=
  (∀ (s : State) (f : OutFrame), s.link.tx = some ⟨f, .transmitting⟩ →
     (∀ x, f = .share x → exec .transmissionComplete s = .next (bump .linkFramesSent
       { s with link := { s.link with
         tx := none, collisionRun := 0, deferFlag := true
         queue := s.link.queue.filter (fun e => decide (e.tag ≠ x.tag)) } })) ∧
     ((∀ x, f ≠ .share x) → exec .transmissionComplete s = .next (bump .linkFramesSent
       { s with link := { s.link with tx := none, collisionRun := 0, deferFlag := true } }))) ∧
  (∀ (s : State) (f : OutFrame) (phase : TxPhase), s.link.tx = some ⟨f, phase⟩ →
     s.link.collisionRun < 3 →
     ∃ t, exec .collision s = .next t ∧ t.table = s.table ∧
       t.link.medium = (match phase with
         | .claiming => .foreign
         | .transmitting => .own) ∧
       t.count .collision = min (s.count .collision + 1) 65535 ∧
       t.link.collisionRun = s.link.collisionRun + 1 ∧ t.link.deferFlag = true ∧ t.link.tx = none ∧
       (∀ n, f = .notice n → t.link.notice = some (s.link.notice.getD n) ∧
         t.link.queue = s.link.queue ∧ t.link.beacon = s.link.beacon) ∧
       (∀ b, f = .beacon b → t.link.beacon = some (s.link.beacon.getD b.second) ∧
         t.link.queue = s.link.queue ∧ t.link.notice = s.link.notice) ∧
       (∀ x, f = .share x → t.link.notice = s.link.notice ∧ t.link.beacon = s.link.beacon ∧
         ((∀ q, s.link.queue.find? (fun e => e.tag == x.tag) = some q → q.passed = false) →
           t.link.queue = s.link.queue ∧ t.count .shareExpired = s.count .shareExpired) ∧
         (∀ q, s.link.queue.find? (fun e => e.tag == x.tag) = some q → q.passed = true →
           t.link.queue = s.link.queue.filter (fun e => decide (e.tag ≠ x.tag)) ∧
           t.count .shareExpired = min (s.count .shareExpired + 1) 65535)) ∧
       ((∀ x, f ≠ .share x) → t.count .shareExpired = s.count .shareExpired) ∧
       (s.link.collisionRun < 2 → t.link.state = s.link.state) ∧
       (s.link.collisionRun = 2 → t.link.state = .muted ∧ t.port.causes.indexClash = true ∧
         t.attn = true))

/-- The line's events for a station that drives nothing (R107, R115, R129): a foreign claim and 64
further idle bit times clear the defer flag, and 64 recessive bit times make a busy link idle. What
the receiver makes of the line is the model's (notes/assumptions/13.md). -/
def Obligations.LineEventsClearTheDeferFlag : Prop :=
  ∀ s : State, s.link.tx = none →
    (s.link.medium = .idle ∨ s.link.medium = .own →
      exec .foreignClaimResolved s = .next { s with link := { s.link with
        deferFlag := false
        medium := if s.loader.state = .loading then .unsynced else .foreign } } ∧
      exec .deferIdleExpiry s = .next { s with link := { s.link with
        deferFlag := false, medium := .idle } }) ∧
    (s.link.medium = .unsynced ∨ s.link.medium = .own → s.pins.resetAsserted = false →
      exec .linkIdleJudged s = .next { s with link := { s.link with medium := .idle } })

/-- Every link frame a station can send is read back by a receiver, at its key, as the frame it is: its
length, its CRC-32 and every field of its kind (R112, R117, R122 to R124, R213, R216). On the line a frame
of n bytes is 7 + 10 × n bits, never recessive for more than 9 in a row, which carry its key and its bytes
and nothing else: a dominant start bit and the key, then each byte as a dominant start bit, its bits from
the most significant down with a 0 dominant, and a recessive stop bit. A station drives these bits while
its frame is in the claim or past it and reads them back; from a bit in the claim that reads differently
it stops at the next one, from one in a character at that character's end (R114, R118), and otherwise it
leaves the line recessive; the line is dominant when any station drives it so (R107). The fields of a
notice, a beacon, a share, a cell and a mark stand at their offsets, with the kinds NOTICE 0, SHARE 1 and
BEACON 2 and the format number 1, and the CRC-32 last (R213, R216). That how far a frame has been driven
is no state, so that the bits read since the start bit stand beside it, is the model's
(notes/assumptions/25.md). -/
def Obligations.LinkFramesAreReadAsSent : Prop :=
  (∀ (sender : Station) (f : OutFrame), f.fits = true →
    checkForm (f.key sender) (f.bytes sender) = .ok f.received ∧ keyStation (f.key sender) = sender ∧
    readTransmission (transmissionLevels (f.key sender) (f.bytes sender)) =
      some (f.key sender, f.bytes sender)) ∧
  (∀ (key : ClaimKey) (bytes : List Byte) (levels : List LineLevel),
    levels = transmissionLevels key bytes →
    levels.length = 7 + 10 * bytes.length ∧ readTransmission levels = some (key, bytes) ∧
    (∀ other, readTransmission other = some (key, bytes) → other = levels) ∧
    (∀ i, i + 10 ≤ levels.length → ∃ j < 10, levels[i + j]? = some .dominant) ∧
    levels[0]? = some .dominant ∧
    (∀ i < 6, levels[1 + i]? = some (if key.getLsbD (5 - i) then .recessive else .dominant)) ∧
    (∀ n b, bytes[n]? = some b →
      levels[7 + 10 * n]? = some .dominant ∧ levels[16 + 10 * n]? = some .recessive ∧
      ∀ i < 8, levels[8 + 10 * n + i]? =
        some (if b.getLsbD (7 - i) then .recessive else .dominant))) ∧
  (∀ (s : State) (read own : List LineLevel) (f : OutFrame) (phase : TxPhase),
    (s.link.tx = none → s.drives read = .recessive) ∧
    (s.link.tx = some ⟨f, phase⟩ →
      own = transmissionLevels (f.key s.loader.strap)
        (match phase with
          | .claiming => []
          | .transmitting => f.bytes s.loader.strap) →
      ((∀ k, k < read.length → k < own.length → read[k]? = own[k]?) →
        s.drives read = own.getD read.length .recessive) ∧
      (∀ m, m < read.length → m < own.length → read[m]? ≠ own[m]? →
        (∀ k < m, read[k]? = own[k]?) →
        (m < 7 → s.drives read = .recessive) ∧
        (∀ c i, m = 7 + 10 * c + i → i < 10 →
          (read.length < 7 + 10 * (c + 1) → s.drives read = own.getD read.length .recessive) ∧
          (7 + 10 * (c + 1) ≤ read.length → s.drives read = .recessive))))) ∧
  (∀ drivers : List LineLevel,
    (lineLevel drivers = .dominant ↔ .dominant ∈ drivers) ∧
    (lineLevel drivers = .recessive ↔ ∀ l ∈ drivers, l = .recessive)) ∧
  (∀ (sender : Station) (n : Notice) (b : List Byte), b = (OutFrame.notice n).bytes sender →
    b.length = 14 ∧ b.take 4 = [0x10#8, BitVec.ofNat 8 sender.val, 0, 14] ∧
    (b.drop 4).take 1 = (match n.kind with
      | .stepped => [1]
      | .stopping => [2]) ∧
    (b.drop 5).take 5 = beBytes 4 n.tag.sec ++ beBytes 1 n.tag.k ∧
    b.drop 10 = beBytes 4 (crc32 (b.take 10)).toNat) ∧
  (∀ (sender : Station) (f : BeaconFrame) (b : List Byte), b = (OutFrame.beacon f).bytes sender →
    b.length = 26 ∧ b.take 4 = [0x12#8, BitVec.ofNat 8 sender.val, 0, 26] ∧
    (∀ x ∈ b[4]?, x.toNat % 128 = clockCode f.clock ∧ x.getLsbD 7 = f.second.known) ∧
    (b.drop 5).take 1 = [f.slotRate] ∧ (b.drop 6).take 4 = beBytes 4 f.digest.toNat ∧
    (b.drop 10).take 4 = beBytes 4 f.wait.toNat ∧ (b.drop 14).take 4 = beBytes 4 f.grace.toNat ∧
    (b.drop 18).take 4 = beBytes 4 f.second.second ∧
    b.drop 22 = beBytes 4 (crc32 (b.take 22)).toNat) ∧
  (∀ (sender : Station) (f : ShareFrame) (b : List Byte), b = (OutFrame.share f).bytes sender →
    b.take 2 = [0x11#8, BitVec.ofNat 8 sender.val] ∧ (b.drop 2).take 2 = beBytes 2 b.length ∧
    (b.drop 4).take 5 = beBytes 4 f.tag.sec ++ beBytes 1 f.tag.k ∧
    (b.drop 9).take 1 = [f.slotRate] ∧ (b.drop 10).take 4 = beBytes 4 f.digest.toNat ∧
    (b.drop 14).take 3 = beBytes 1 (clockCode f.clock) ++ beBytes 1 f.cells.length ++
      beBytes 1 f.marks.length ∧
    (b.take (b.length - 4)).drop 17 = f.cells.flatMap cellBytes ++ f.marks.flatMap markBytes ∧
    b.drop (b.length - 4) = beBytes 4 (crc32 (b.take (b.length - 4))).toNat) ∧
  (∀ (c : Cell) (b : List Byte), b = cellBytes c →
    b.take 2 = beBytes 2 c.code ∧ (b.drop 2).take 1 = beBytes 1 (qualityCode c.quality) ∧
    (b.drop 3).take 1 = beBytes 1 c.flags ∧ (b.drop 4).take 1 = beBytes 1 c.primary ∧
    (c.values = none → b.drop 5 = [0]) ∧
    (∀ v ∈ c.values, (b.drop 5).take 1 = beBytes 1 v.phasors.length ∧
      (∀ i p, v.phasors[i]? = some p →
        (b.drop (6 + 5 * i)).take 5 = beBytes 3 p.mag ++ beBytes 2 p.ang) ∧
      b.drop (6 + 5 * v.phasors.length) = beBytes 2 (v.freq.emod 65536).toNat ++
        beBytes 2 (v.rocof.emod 65536).toNat ++ beBytes 2 v.digital.toNat)) ∧
  (∀ m : Mark, markBytes m = beBytes 1 m.monitor ++ beBytes 2 m.code ++
    (match m.direction with
      | .rising => [1]
      | .falling => [2])) ∧
  ((∀ n, (OutFrame.notice n).frameClass = 0) ∧ (∀ f, (OutFrame.share f).frameClass = 1) ∧
    (∀ f, (OutFrame.beacon f).frameClass = 2) ∧
    crc32 [0x31, 0x32, 0x33, 0x34, 0x35, 0x36, 0x37, 0x38, 0x39] = 0xCBF43926#32 ∧
    crc16 [0x31, 0x32, 0x33, 0x34, 0x35, 0x36, 0x37, 0x38, 0x39] = 0x29B1#16 ∧
    (∀ b x, ~~~ crc32 (b ++ [x]) = (fun r : BitVec 32 =>
      if r.getLsbD 0 then (r >>> 1) ^^^ 0xEDB88320#32 else r >>> 1)^[8]
        (~~~ crc32 b ^^^ x.setWidth 32)) ∧
    (∀ b x, crc16 (b ++ [x]) = (fun r : BitVec 16 =>
      if r.getLsbD 15 then (r <<< 1) ^^^ 0x1021#16 else r <<< 1)^[8]
        (crc16 b ^^^ (x.setWidth 16 <<< 8))))

/-- A frame that ends is judged by its length, its CRC-32, its kind and form, and its sender, in that
order, and counted by the first that fails, the roster and the records untouched (R122 to R125); a share
that fails any of the five has its reception's blocks returned (R141). In CONFIG_FAULT only the first
three apply, to a share too, and nothing is handed on (R127). The third check refuses exactly the forms that
R124 and R216 list, BadForm of Safety.lean, each with LINK_BAD_KIND, and a frame of no such form is read as
what it says, every field from its offset; a beacon's clock bits 6..3 and a cell's flag bits above the four
are not looked at (R216). -/
def Obligations.BadLinkFramesAreCounted : Prop :=
  (∀ (key : ClaimKey) (b : List Byte), (parseLinkFrame key b = none ↔ BadForm key b) ∧
    (∀ f, parseLinkFrame key b = some f → FrameReads b f) ∧
    (14 ≤ b.length → b.length ≤ 3509 → field b 2 2 = b.length →
      (crc32 (b.take (b.length - 4)) ≠ BitVec.ofNat 32 (field b (b.length - 4) 4) →
        checkForm key b = .error .linkBadCrc) ∧
      (crc32 (b.take (b.length - 4)) = BitVec.ofNat 32 (field b (b.length - 4) 4) →
        (BadForm key b → checkForm key b = .error .linkBadKind) ∧
        (¬BadForm key b → ∃ f, checkForm key b = .ok f ∧ FrameReads b f))) ∧
    (b.length < 14 ∨ 3509 < b.length ∨ field b 2 2 ≠ b.length →
      checkForm key b = .error .linkBadLength)) ∧
  (∀ (s : State) (key : ClaimKey) (b : List Byte), s.link.medium = .foreign →
     s.gather.reception = none → shareHeaderOf b = none → s.loader.state = .loaded →
     (b.length < 14 ∨ 3509 < b.length ∨ field b 2 2 ≠ b.length →
       exec (.linkFrameEnd key b) s = .next { bump .linkBadLength s with
         link := { s.link with medium := .idle } }) ∧
     (14 ≤ b.length → b.length ≤ 3509 → field b 2 2 = b.length →
       (crc32 (b.take (b.length - 4)) ≠ BitVec.ofNat 32 (field b (b.length - 4) 4) →
         exec (.linkFrameEnd key b) s = .next { bump .linkBadCrc s with
           link := { s.link with medium := .idle } }) ∧
       (crc32 (b.take (b.length - 4)) = BitVec.ofNat 32 (field b (b.length - 4) 4) →
         (BadForm key b →
           exec (.linkFrameEnd key b) s = .next { bump .linkBadKind s with
             link := { s.link with medium := .idle } }) ∧
         (¬BadForm key b →
           (keyStation key ∉ s.loader.shared.stations →
             exec (.linkFrameEnd key b) s = .next { bump .stranger s with
               link := { s.link with medium := .idle } }) ∧
           (keyStation key ∈ s.loader.shared.stations →
             keyStation key = s.loader.strap → ∃ t, exec (.linkFrameEnd key b) s = .next t ∧
               t.count .indexClash = min (s.count .indexClash + 1) 65535 ∧
               t.port.causes.indexClash = true ∧ t.link = { s.link with medium := .idle } ∧
               t.gather = s.gather ∧ t.table = s.table))))) ∧
  (∀ (s : State) (key : ClaimKey) (b : List Byte) (c : Counter), s.link.medium = .foreign →
     s.loader.state = .fault →
     c = (if b.length < 14 ∨ 3509 < b.length ∨ field b 2 2 ≠ b.length then .linkBadLength
       else if crc32 (b.take (b.length - 4)) ≠ BitVec.ofNat 32 (field b (b.length - 4) 4) then
         .linkBadCrc
       else if parseLinkFrame key b = none then .linkBadKind else .linkFramesReceived) →
     exec (.linkFrameEnd key b) s = .next { bump c s with
       link := { s.link with medium := .idle } }) ∧
  (∀ (s : State) (key : ClaimKey) (b : List Byte) (rec : Reception) (c : Counter),
    s.loader.state = .loaded → s.link.medium = .foreign → s.gather.reception = some rec →
    shareHeaderOf b = some rec.header →
    (checkForm key b = .error c ∨
      ∃ f, checkForm key b = .ok f ∧
        (keyStation key ∉ s.loader.shared.stations ∧ c = .stranger ∨
          keyStation key ∈ s.loader.shared.stations ∧ keyStation key = s.loader.strap ∧
            c = .indexClash)) →
    ∃ t, exec (.linkFrameEnd key b) s = .next t ∧ t.count c = min (s.count c + 1) 65535 ∧
      (c = .indexClash → t.port.causes.indexClash = true) ∧
      t.gather.free = s.gather.free ++ rec.blocks ∧ t.gather.reception = none ∧
      t.gather.roster = s.gather.roster ∧ t.table = s.table)

/-! ## Roster and shares (chapter 7) -/

/-- A share header (R121, R140): blocks taken from the free list's head and the header written into the
first of them with every other byte of the store as it was, when the sender is a configured peer not
MISMATCHED whose slot rate and digest agree and enough blocks are free; the reception short of room when
too few are; nothing taken otherwise. That the header's bytes are written when it is handed, where R121
and R140 write each byte as it is taken, is the model's (notes/assumptions/15.md). -/
def Obligations.ShareHeaderTakesBlocks : Prop :=
  ∀ (s : State) (h : List Byte) (b : Nat) (wanted : Prop), MemoryLaw s → s.running = true →
    s.link.medium = .foreign → s.gather.reception = none → h.length = 17 →
    field h 0 1 = 17 → 21 ≤ field h 2 2 → field h 2 2 ≤ 3509 → b = (field h 2 2 + 63) / 64 →
    (wanted ↔ ∃ i : Station, field h 1 1 = i.val ∧ i ∈ s.loader.shared.stations ∧
      i ≠ s.loader.strap ∧ s.gather.roster[i].state ≠ .mismatched ∧
      field h 9 1 = s.loader.shared.slotRate.perSecond ∧
      BitVec.ofNat 32 (field h 10 4) = s.loader.shared.digest) →
    (wanted → b ≤ s.gather.free.length → ∃ mem first, s.gather.free.head? = some first ∧
      exec (.shareHeader h) s = .next { s with gather := { s.gather with
        free := s.gather.free.drop b, mem := mem
        reception := some ⟨h, s.gather.free.take b, false⟩ } } ∧
      (∀ k < 17, memRead mem (64 * first.toNat + k) = h.getD k 0) ∧
      ∀ a, (∀ k < 17, a ≠ 64 * first.toNat + k) → memRead mem a = memRead s.gather.mem a) ∧
    (wanted → s.gather.free.length < b → exec (.shareHeader h) s = .next { s with
      gather := { s.gather with reception := some ⟨h, [], true⟩ } }) ∧
    (¬wanted → exec (.shareHeader h) s = .next { s with
      gather := { s.gather with reception := some ⟨h, [], false⟩ } })

/-- A valid share that matches a held record not DRAINING becomes STORED with its blocks, which hold its
bytes, from which the very share is read again, with every other byte of the store as it was, or LOST when
the reception holds none; its sender's entry is brought up to date (R121, R133, R136, R142, R143). In an
OPEN or CLOSING record nothing is judged. A GATHERING record that still waits, or stands behind one that
does, stays; the oldest one not DRAINING that it completes becomes DRAINING, or is skipped and freed when
16 are (R79, R80). That the share's bytes are written at its frame's end, and that a reception which wants
no blocks counts as LOST there, are the model's (notes/assumptions/15.md, 17.md). -/
def Obligations.AcceptedShareIsStored : Prop :=
  ∀ (s : State) (key : ClaimKey) (b : List Byte) (i : Station) (f : ShareFrame) (rec : Reception)
      (r : Record) (a : Attachment), TableLaw s → MemoryLaw s → s.loader.state = .loaded →
    s.link.medium = .foreign →
    s.gather.reception = some rec → shareHeaderOf b = some rec.header →
    checkForm key b = .ok (.share f) → i = keyStation key → i ∈ s.loader.shared.stations →
    i ≠ s.loader.strap → f.slotRate.toNat = s.loader.shared.slotRate.perSecond →
    f.digest = s.loader.shared.digest →
    (s.gather.roster[i].state = .present ∨ s.gather.roster[i].state = .unheard ∨
      s.gather.roster[i].state = .silent) →
    newerThanOpened s.clock.newest f.tag = false → recordOf f.tag s.table.records = some r →
    r.state ≠ .draining → r.attachments[i] = .none →
    a = (if rec.blocks = [] then .lost else .stored rec.blocks b.length) →
    ∃ t, exec (.linkFrameEnd key b) s = .next t ∧
      t.gather.reception = none ∧ t.link.medium = .idle ∧
      t.gather.roster[i].state = .present ∧ t.gather.roster[i].misses = 0 ∧
      t.gather.roster[i].silence = some 0 ∧ t.gather.roster[i].lastClock = some f.clock ∧
      t.count .linkFramesReceived = min (s.count .linkFramesReceived + 1) 65535 ∧
      (∀ a, (∀ q ∈ rec.blocks, a / 64 ≠ q.toNat) →
        memRead t.gather.mem a = memRead s.gather.mem a) ∧
      (rec.blocks ≠ [] →
        t.count .sharesStored = min (s.count .sharesStored + 1) 65535 ∧
        (rec.blocks.Nodup → b.length ≤ 64 * rec.blocks.length →
          storeRead t.gather.mem rec.blocks b.length = b ∧
          storedShare t.gather.mem (.stored rec.blocks b.length) = some f)) ∧
      (rec.blocks = [] → t.count .shareLost = min (s.count .shareLost + 1) 65535) ∧
      (r.state = .opened ∨ r.state = .closing →
        t.gather.free = s.gather.free ∧
        ∃ q ∈ t.table.records, q.tag = f.tag ∧ q.state = r.state ∧
          q.attachments = r.attachments.set i a) ∧
      (r.state = .gathering →
        ((r.gatherPassed = false ∧ ∃ j ∈ r.expected.getD [], j ≠ i ∧ r.attachments[j] = .none) ∨
            (∃ q ∈ s.table.records, q.state = .gathering ∧ q.tag.older f.tag = true ∧
              q.complete = false) →
          ∃ q ∈ t.table.records, q.tag = f.tag ∧ q.state = .gathering ∧
            q.attachments = r.attachments.set i a) ∧
        (s.table.records.find? (fun q => q.state != .draining) = some r →
          (r.gatherPassed = true ∨
            ∀ j ∈ r.expected.getD [], j ≠ i → r.attachments[j] ≠ .none) →
          (drainingCount s.table.records < 16 → ∃ q ∈ t.table.records, q.tag = f.tag ∧
            q.state = .draining ∧ q.attachments = r.attachments.set i a) ∧
          (drainingCount s.table.records = 16 → (∀ q ∈ t.table.records, q.tag ≠ f.tag) ∧
            (∀ k ∈ r.blocks ++ rec.blocks, k ∈ t.gather.free) ∧
            ((∀ q ∈ s.table.records, q.tag ≠ f.tag → q.state = .gathering → q.complete = false) →
              t.count .skipped = min (s.count .skipped + 1) 65535))))

/-- The tests of R142 in order, and what a refused share leaves: its reason counted, its blocks returned
and its sender heard, an UNHEARD or SILENT one made PRESENT all the same with its miss count 0
(R133, R138, R142, R144). A share that differs in slot rate or digest is counted MISMATCH
and not MISMATCHED_SHARE, is not matched, and makes its sender MISMATCHED, awaited by no GATHERING record
any more (R137, R138). -/
def Obligations.ShareTagsAreMatchedInOrder : Prop :=
  (∀ (s : State) (i : Station) (t : Tag),
     ((s.clock.newest = none ∨ ∃ n ∈ s.clock.newest, n.older t = true) → matchShare s i t = .ahead) ∧
     (∀ n ∈ s.clock.newest, n.older t = false →
       (∀ r, recordOf t s.table.records = some r →
         (r.state = .draining → matchShare s i t = .late) ∧
         (r.state ≠ .draining → r.attachments[i] ≠ .none → matchShare s i t = .duplicate) ∧
         (r.state ≠ .draining → r.attachments[i] = .none → matchShare s i t = .accepted)) ∧
       (recordOf t s.table.records = none →
         (∀ r ∈ s.table.records.head?, t.older r.tag = true → matchShare s i t = .late) ∧
         ((∀ r ∈ s.table.records.head?, t.older r.tag = false) → matchShare s i t = .orphan)))) ∧
  (∀ (s : State) (key : ClaimKey) (b : List Byte) (i : Station) (f : ShareFrame) (rec : Reception)
      (c : Counter), s.loader.state = .loaded → s.link.medium = .foreign →
    s.gather.reception = some rec → shareHeaderOf b = some rec.header →
    checkForm key b = .ok (.share f) → i = keyStation key → i ∈ s.loader.shared.stations →
    i ≠ s.loader.strap → f.slotRate.toNat = s.loader.shared.slotRate.perSecond →
    f.digest = s.loader.shared.digest →
    (s.gather.roster[i].state = .mismatched ∧ c = .mismatchedShare ∨
      s.gather.roster[i].state = .present ∧
        (matchShare s i f.tag = .ahead ∧ c = .aheadShare ∨
          matchShare s i f.tag = .late ∧ c = .lateShare ∨
          matchShare s i f.tag = .duplicate ∧ c = .duplicateShare ∨
          matchShare s i f.tag = .orphan ∧ c = .orphanShare)) →
    ∃ t, exec (.linkFrameEnd key b) s = .next t ∧ t.count c = min (s.count c + 1) 65535 ∧
      t.gather.free = s.gather.free ++ rec.blocks ∧ t.gather.reception = none ∧ t.table = s.table ∧
      t.gather.roster[i] = { s.gather.roster[i] with silence := some 0, lastClock := some f.clock }) ∧
  (∀ (s : State) (key : ClaimKey) (b : List Byte) (i : Station) (f : ShareFrame) (rec : Reception)
      (c : Counter), s.loader.state = .loaded → s.link.medium = .foreign →
    s.gather.reception = some rec → shareHeaderOf b = some rec.header →
    checkForm key b = .ok (.share f) → i = keyStation key → i ∈ s.loader.shared.stations →
    i ≠ s.loader.strap → f.slotRate.toNat = s.loader.shared.slotRate.perSecond →
    f.digest = s.loader.shared.digest →
    (s.gather.roster[i].state = .unheard ∨ s.gather.roster[i].state = .silent) →
    (matchShare s i f.tag = .ahead ∧ c = .aheadShare ∨ matchShare s i f.tag = .late ∧ c = .lateShare ∨
      matchShare s i f.tag = .duplicate ∧ c = .duplicateShare ∨
      matchShare s i f.tag = .orphan ∧ c = .orphanShare) →
    ∃ t, exec (.linkFrameEnd key b) s = .next t ∧ t.count c = min (s.count c + 1) 65535 ∧
      t.gather.free = s.gather.free ++ rec.blocks ∧ t.gather.reception = none ∧ t.table = s.table ∧
      t.gather.roster[i] = { s.gather.roster[i] with
        state := .present, misses := 0, silence := some 0, lastClock := some f.clock } ∧
      ∀ j, j ≠ i → t.gather.roster[j] = s.gather.roster[j]) ∧
  (∀ (s : State) (key : ClaimKey) (b : List Byte) (i : Station) (f : ShareFrame) (rec : Reception),
    s.loader.state = .loaded → s.link.medium = .foreign →
    s.gather.reception = some rec → shareHeaderOf b = some rec.header →
    checkForm key b = .ok (.share f) → i = keyStation key → i ∈ s.loader.shared.stations →
    i ≠ s.loader.strap →
    (f.slotRate.toNat ≠ s.loader.shared.slotRate.perSecond ∨ f.digest ≠ s.loader.shared.digest) →
    ∃ t, exec (.linkFrameEnd key b) s = .next t ∧
      t.count .mismatch = min (s.count .mismatch + 1) 65535 ∧
      t.count .mismatchedShare = s.count .mismatchedShare ∧
      t.gather.roster[i] = { s.gather.roster[i] with
        state := .mismatched, silence := some 0, lastClock := some f.clock } ∧
      t.gather.reception = none ∧ (∀ k ∈ s.gather.free ++ rec.blocks, k ∈ t.gather.free) ∧
      (∀ q ∈ t.table.records, ∃ r ∈ s.table.records, r.tag = q.tag ∧
        q.attachments = r.attachments) ∧
      (s.gather.roster[i].state = .present →
        t.count .peerSilent = min (s.count .peerSilent + 1) 65535 ∧
        ∀ q ∈ t.table.records, q.state = .gathering → i ∉ q.expected.getD []))

/-- A valid beacon that agrees in slot rate and digest moves its sender's entry by the table of R132 and
gives it its values; one that differs makes it MISMATCHED (R132, R137, R138). -/
def Obligations.BeaconUpdatesTheRoster : Prop :=
  ∀ (s : State) (key : ClaimKey) (b : List Byte) (i : Station) (f : BeaconFrame),
    s.loader.state = .loaded → s.link.medium = .foreign → s.gather.reception = none →
    checkForm key b = .ok (.beacon f) → i = keyStation key → i ∈ s.loader.shared.stations →
    i ≠ s.loader.strap → s.gather.roster[i].state ≠ .unconfigured → s.gather.roster[i].state ≠ .local_ →
    ∃ t, exec (.linkFrameEnd key b) s = .next t ∧
      t.count .linkFramesReceived = min (s.count .linkFramesReceived + 1) 65535 ∧
      t.gather.roster[i].silence = some 0 ∧ t.gather.roster[i].lastClock = some f.clock ∧
      t.gather.roster[i].lastEffective = some (f.wait.toNat, f.grace.toNat) ∧
      t.gather.roster[i].lastBeacon = some f.second ∧
      (f.slotRate.toNat ≠ s.loader.shared.slotRate.perSecond ∨ f.digest ≠ s.loader.shared.digest →
        t.gather.roster[i].state = .mismatched ∧
        t.count .mismatch = min (s.count .mismatch + 1) 65535) ∧
      (f.slotRate.toNat = s.loader.shared.slotRate.perSecond → f.digest = s.loader.shared.digest →
        (f.clock = .locked ∨ f.clock = .holdover ∨ f.clock = .stepping →
          t.gather.roster[i].state = .present ∧
          (s.gather.roster[i].state ≠ .present → t.gather.roster[i].misses = 0)) ∧
        (f.clock = .acquiring ∨ f.clock = .stopped →
          t.gather.roster[i].state = (if s.gather.roster[i].state = .present then .silent
            else s.gather.roster[i].state) ∧
          (s.gather.roster[i].state = .present → ∀ q ∈ t.table.records, q.state = .gathering →
            i ∉ q.expected.getD []))) ∧
      (s.gather.roster[i].state = .present → t.gather.roster[i].state ≠ .present →
        t.count .peerSilent = min (s.count .peerSilent + 1) 65535 ∧
        ∀ q ∈ t.table.records, q.state = .gathering → i ∉ q.expected.getD []) ∧
      (s.gather.roster[i].state ≠ .present → t.count .peerSilent = s.count .peerSilent)

/-- A valid notice (R134, R148): from a MISMATCHED entry only the silence age restarts. STOPPING makes a
PRESENT entry SILENT: PEER_SILENT is counted, no GATHERING record expects the station any more, and the
GATHERING records are judged (R138); any other entry keeps its state, and no record changes. STEPPED gives
up the peer's share for every record not DRAINING at or before its tag, counts no departure, and has the
GATHERING records judged (R149). That in one judgement a composition comes before the skips of later
records is the model's (notes/assumptions/33.md). -/
def Obligations.NoticeUpdatesRosterAndRecords : Prop :=
  ∀ (s : State) (key : ClaimKey) (b : List Byte) (i : Station) (n : Notice), TableLaw s →
    s.loader.state = .loaded → s.link.medium = .foreign → s.gather.reception = none →
    checkForm key b = .ok (.notice n) → i = keyStation key → i ∈ s.loader.shared.stations →
    i ≠ s.loader.strap →
    ∃ t, exec (.linkFrameEnd key b) s = .next t ∧ t.gather.roster[i].silence = some 0 ∧
      (∀ (u : State) (p : Peer), p = { s.gather.roster[i] with
          silence := some 0
          lastClock := some (match n.kind with
            | .stopping => .stopped
            | .stepped => .stepping) } →
        u = { bump .linkFramesReceived s with
          gather := { s.gather with roster := s.gather.roster.set i p } } →
        s.gather.roster[i].state ≠ .mismatched →
        ∃ w, t = { w with link := { s.link with medium := .idle } } ∧
          (n.kind = .stopping → s.gather.roster[i].state = .present →
            ∃ v, LeavesPresent i .silent u v ∧ Judgement v w) ∧
          (n.kind = .stopping → s.gather.roster[i].state ≠ .present → w = u) ∧
          (n.kind = .stepped → Judgement { u with table := { s.table with
            records := s.table.records.map (fun r =>
              if r.state ≠ .draining ∧ n.tag.older r.tag = false ∧ r.attachments[i] = .none then
                { r with attachments := r.attachments.set i .abandoned
                         expected := r.expected.map (·.filter (· ≠ i)) }
              else r) } } w)) ∧
      (s.gather.roster[i].state = .mismatched → t.table = s.table ∧
        t.gather.roster[i] = { s.gather.roster[i] with silence := some 0 }) ∧
      (s.gather.roster[i].state ≠ .mismatched →
        (n.kind = .stopping → t.gather.roster[i].lastClock = some .stopped ∧
          t.gather.roster[i].state = (if s.gather.roster[i].state = .present then .silent
            else s.gather.roster[i].state) ∧
          (s.gather.roster[i].state = .present →
            t.count .peerSilent = min (s.count .peerSilent + 1) 65535 ∧
            ∀ q ∈ t.table.records, q.state = .gathering → i ∉ q.expected.getD []) ∧
          (s.gather.roster[i].state ≠ .present → t.table = s.table ∧
            t.count .peerSilent = s.count .peerSilent)) ∧
        (n.kind = .stepped → t.gather.roster[i].lastClock = some .stepping ∧
          t.gather.roster[i].state = s.gather.roster[i].state ∧
          t.count .peerSilent = s.count .peerSilent ∧
          ∀ r ∈ s.table.records, ∀ q ∈ t.table.records, q.tag = r.tag →
            (r.state ≠ .draining → n.tag.older r.tag = false → r.attachments[i] = .none →
              q.attachments = r.attachments.set i .abandoned ∧ i ∉ q.expected.getD []) ∧
            (r.state = .draining ∨ n.tag.older r.tag = true ∨ r.attachments[i] ≠ .none →
              q.attachments = r.attachments ∧ q.expected = r.expected)))

/-! ## Resets and loads (chapter 10) -/

/-- The three kinds of reset put every block into its reset state, with the reset cause record as R190
gives it and the straps sampled when the reset ends (R189, R190, R208): the clock (R23), the intake (R46),
the directory (R64), the slot table (R86), the link (R129), the roster and the share store (R153), the
assembler (R171), the monitors (R188) and the port (R211), each value said here, with every counter 0. A
pin reset and a RELOAD at one moment give the record both flags in either order. While the reset pin stays
asserted, a CHIP_SELECT_DEASSERT changes the line, and the RELOAD flag at such a moment, and leaves the
port as the reset put it, in DROPPING, and a POWER_ON leaves the pin's level: that is the model's reading
of R189, that the node stays in reset, where R201 sends a deassertion in any phase to WAITING
(notes/assumptions/19.md). What the lines show, the working settings after a reset, that both memories' bytes stay, the registers no
rule gives a value, how long the moment lasts, and the clock's three fields of the model's own are the
model's (notes/assumptions/6.md, 5.md, 7.md, 28.md, 32.md, 1.md and 31.md). -/
def Obligations.ResetsPutEveryBlockInItsResetState : Prop :=
  (∀ (s u : State) (strap : Station) (cause : ResetCause), u = resetState s strap cause →
    u.pins = s.pins ∧ u.pending = s.pending ∧ u.loader.state = .loading ∧ u.loader.strap = strap ∧
    u.loader.cause = cause ∧ u.loader.report = ⟨.none, none, .none, none⟩ ∧
    u.loader.shared = .blank ∧ u.loader.reloadMet = false ∧
    u.clock = { state := .acquiring, now := ⟨0, 0⟩, edgeAge := none, pendingTod := none
                announcement := none, stepAge := none, holdoverAge := 0, holdoverLong := false
                newest := none, boundaryDue := false, slotDue := false, loadAge := none } ∧
    u.intake = { writer := .closed, readPtr := 0, writeHead := 0, writeCur := 0, held := 0
                 frameBytes := 0, frameStamp := ⟨⟨0, 0⟩, false⟩, checker := .idle
                 lastDrop := ⟨0, .none, ⟨0, 0⟩⟩, mem := s.intake.mem } ∧
    u.streams = [] ∧
    u.table = { records := [], sequencer := .idle, afterStep := false, requestedWait := 0
                effectiveWait := 0, effectiveGrace := 0 } ∧
    u.link = { state := .listening, medium := .unsynced, queue := [], notice := none, beacon := none
               tx := none, deferFlag := false, collisionRun := 0 } ∧
    (∀ i : Station, u.gather.roster[i] = ⟨.unconfigured, none, none, none, 0, none⟩) ∧
    u.gather.free = (List.range 16384).map (BitVec.ofNat 14) ∧ u.gather.reception = none ∧
    u.gather.mem = s.gather.mem ∧
    u.assembler = { state := .closed, skipped := 0, mark := none } ∧
    (∀ i : Fin 8, u.monitors[i].settings.mode = .off ∧ u.monitors[i].watch = [] ∧
      u.monitors[i].levels = List.replicate 48 .unknown ∧ u.monitors[i].countdown = 0 ∧
      u.monitors[i].fired = false) ∧
    u.port = { phase := .dropping, command := none, args := [], response := []
               reloadPending := false, causes := ⟨false, false, false, false⟩ } ∧
    u.attn = false ∧ u.markHigh = false ∧ u.assembler.presented = none ∧
    (∀ c : Counter, u.count c = 0)) ∧
  (State.reset.pending = [] ∧ State.reset.intake.mem = [] ∧ State.reset.gather.mem = [] ∧
    State.reset = resetState State.reset State.reset.loader.strap ⟨true, false, false, false⟩) ∧
  ∀ (s u : State) (straps : Station),
    exec (.powerOn straps) s = .next (resetState s straps ⟨true, false, false, false⟩) ∧
    (s.pins.resetAsserted = false →
      u = resetState s s.loader.strap { s.loader.cause with pin := true } →
      exec .resetPinAssert s = .next { u with
        pins := { s.pins with resetAsserted := true }
        loader := { u.loader with reloadMet := s.pins.chipSelect &&
          s.port.phase == .response && s.port.reloadPending } }) ∧
    (s.pins.resetAsserted = true →
      exec (.resetPinRelease straps) s = .next { s with
        pins := { s.pins with resetAsserted := false }
        loader := { s.loader with strap := straps, reloadMet := false } }) ∧
    (s.pins.chipSelect = true → s.pins.resetAsserted = true →
      (s.loader.reloadMet = true →
        exec (.chipSelectDeassert straps) s = .next { s with
          pins := { s.pins with chipSelect := false }
          loader := { s.loader with
            cause := { s.loader.cause with reload := true }, reloadMet := false } }) ∧
      (s.loader.reloadMet = false →
        exec (.chipSelectDeassert straps) s = .next { s with
          pins := { s.pins with chipSelect := false } })) ∧
    (s.pins.chipSelect = true → s.pins.resetAsserted = false → s.port.phase = .response →
      s.port.reloadPending = true →
      exec (.chipSelectDeassert straps) s = .next
        { resetState s straps { s.loader.cause with reload := true }
          with pins := { s.pins with chipSelect := false } })

/-- A load that ends in LOADED hands the working configuration to every block, each taking the state of
its own chapter (R23, R26, R50, R69, R70, R108, R131, R154, R173 to R175, R198). One that ends in FAULT
hands nothing: the report is filled in, CONFIG_FAULT stands in the reset cause record and pending as an
attention cause, and the writer is IGNORING (R190, R199, R209). The age of the load, 0 at its end, is the
model's field (notes/assumptions/31.md). -/
def Obligations.LoadsEndInLoadedOrFault : Prop :=
  (∀ (s : State) (image : List Byte) (rep : LoadReport) (w : Working), s.loader.state = .loading →
     s.pins.resetAsserted = false → load s.loader.strap image = ⟨rep, some w⟩ →
     ∃ t, exec (.loadComplete image) s = .next t ∧
       t.loader = { s.loader with state := .loaded, report := rep, shared := w.shared } ∧
       t.clock = { s.clock with loadAge := some 0 } ∧ t.port = s.port ∧
       t.counters = s.counters ∧ t.pins = s.pins ∧
       t.intake = { s.intake with writer := if s.pins.strobe then .discarding else .idle } ∧
       t.streams = w.entries.map (fun e =>
         { entry := e, pending := e.enabledAtStart, working := e.enabledAtStart
           health := if e.enabledAtStart then .unseen else .disabled
           age := none, ring := [], horizon := none, counters := ⟨0, 0, 0, 0, 0, 0⟩ }) ∧
       t.table.records = s.table.records ∧ t.table.requestedWait = w.shared.defaultWait ∧
       t.table.effectiveGrace = min (w.shared.grace * 6000) (47 * w.shared.slotRate.period) ∧
       t.table.effectiveWait = ((w.entries.filter (·.enabledAtStart)).map (·.rate.period)).foldl
         (fun v p => min v (28 * p))
         (min (w.shared.defaultWait * 6000)
           (47 * w.shared.slotRate.period - t.table.effectiveGrace)) ∧
       t.link.state = .active ∧ t.link.queue = s.link.queue ∧ t.assembler.state = .idle ∧
       (∀ i : Station, t.gather.roster[i] = ⟨if i = s.loader.strap then .local_
         else if i ∈ w.shared.stations then .unheard else .unconfigured, none, none, none, 0, none⟩) ∧
       t.gather.free = s.gather.free ∧
       (∀ (i : Fin 8) (m : MonitorSettings), w.monitors[i.val]? = some m →
         t.monitors[i].settings = m ∧ t.monitors[i].countdown = 0 ∧
         t.monitors[i].levels = List.replicate 48 .unknown ∧
         ∀ n, n ∈ t.monitors[i].watch ↔ ∃ e, w.entries[n]? = some e ∧
           BitVec.ofNat 16 e.code &&& m.mask = m.base &&& m.mask)) ∧
  (∀ (s : State) (image : List Byte) (rep : LoadReport), s.loader.state = .loading →
     s.pins.resetAsserted = false → load s.loader.strap image = ⟨rep, none⟩ →
     exec (.loadFault image) s = .next { s with
       loader := { s.loader with
         state := .fault, report := rep, cause := { s.loader.cause with configFault := true } }
       intake := { s.intake with writer := .ignoring }
       port := { s.port with causes := { s.port.causes with configFault := true } } } ∧
     rep.reason ≠ .none)

/-- The image is judged in order and the first check that fails is the fault reason. The checks of R192
and R193 have no place; then a section that would pass the image's end, the own one's count, length,
entries in position order by the table of R196, and monitors in number order, each with its place (R195
to R197, R218, R219). A load that passes all hands over the entries and monitors as the image has them,
this station in its set (R47, R191). Timing settings out of range are clamped, and just those are
reported (R194). An absent flash reads as all ones. That the own section's end is judged before its count,
and that bytes past the end of a shorter flash read as ones too, are the model's
(notes/assumptions/30.md, 34.md). -/
def Obligations.LoadJudgesTheImageInOrder : Prop :=
  (∀ (strap : Station) (image : List Byte) (length : Nat), length = imageField image 3 4 →
     (imageField image 0 2 ≠ 0xC16A ∨ imageField image 2 1 ≠ 1 →
       load strap image = ⟨⟨.markerFault, none, .none, none⟩, none⟩) ∧
     (imageField image 0 2 = 0xC16A → imageField image 2 1 = 1 →
       (length < 1494 ∨ 6870 < length →
         load strap image = ⟨⟨.lengthFault, none, .none, none⟩, none⟩) ∧
       (1494 ≤ length → length ≤ 6870 →
         (crc32 (imageBytes image 0 (length - 4)) ≠
             BitVec.ofNat 32 (imageField image (length - 4) 4) →
           load strap image = ⟨⟨.crcFault, none, .none, none⟩, none⟩) ∧
         (crc32 (imageBytes image 0 (length - 4)) =
             BitVec.ofNat 32 (imageField image (length - 4) 4) →
           (imageField image 7 1 ∉ [10, 25, 30, 50, 60, 100, 120] →
             load strap image = ⟨⟨.slotRateFault, none, .none, none⟩, none⟩) ∧
           (imageField image 7 1 ∈ [10, 25, 30, 50, 60, 100, 120] →
             (2 < imageField image 19 1 →
               load strap image = ⟨⟨.encodingFault, none, .none, none⟩, none⟩) ∧
             (imageField image 19 1 ≤ 2 → (imageField image 8 2).testBit strap.val = false →
               load strap image = ⟨⟨.stationFault, none, .none, none⟩, none⟩)))))) ∧
  (∀ (strap : Station) (image : List Byte) (rep : LoadReport) (count last : Nat),
     ImagePasses strap image → rep = (load strap image).report →
     last = imageField image 3 4 - 4 →
     count = imageField image (sectionStart image strap.val + 2) 1 →
     rep.digest = some (crc32 (imageBytes image 7 3)) ∧
     (∀ i, i ≤ strap.val → (∀ j, j ≤ i → sectionStart image j ≤ last) →
       last < sectionStart image (i + 1) → rep.reason = .lengthFault ∧ rep.place = some ⟨i, .none⟩) ∧
     ((∀ i, i ≤ strap.val → sectionStart image (i + 1) ≤ last) →
       (48 < count → rep.reason = .countFault ∧ rep.place = some ⟨strap.val, .none⟩) ∧
       (count ≤ 48 → imageField image (sectionStart image strap.val) 2 ≠ 91 + 7 * count →
         rep.reason = .lengthFault ∧ rep.place = some ⟨strap.val, .none⟩) ∧
       (count ≤ 48 → imageField image (sectionStart image strap.val) 2 = 91 + 7 * count →
         (∀ k reason, k < count → (∀ j, j < k → AllPass (entryChecks image strap j)) →
           FirstFails (entryChecks image strap k) reason →
           rep.reason = reason ∧ rep.place = some ⟨strap.val, .position k⟩) ∧
         ((∀ k, k < count → AllPass (entryChecks image strap k)) →
           (∀ m, m < 8 →
             (∀ j, j < m → monitorListed image (entryStart image strap count + 11 * j)) →
             ¬monitorListed image (entryStart image strap count + 11 * m) →
             rep.reason = .encodingFault ∧ rep.place = some ⟨strap.val, .monitor m⟩) ∧
           ((∀ m, m < 8 → monitorListed image (entryStart image strap count + 11 * m)) →
             rep.reason = .none ∧ rep.place = none ∧ ∃ w, load strap image = ⟨rep, some w⟩ ∧
               w.entries.length = count ∧ w.monitors.length = 8 ∧
               (∀ k, ∀ e ∈ w.entries[k]?, ∀ at_, at_ = entryStart image strap k →
                 e.code = imageField image at_ 2 ∧ e.rate.perSecond = imageField image (at_ + 2) 1 ∧
                 e.phasors = imageField image (at_ + 3) 1 ∧
                 (e.role = .primary ↔ imageField image (at_ + 4) 1 = 0) ∧
                 (∀ p, e.role = .secondary p ↔ imageField image (at_ + 4) 1 = 1 ∧
                   imageField image (at_ + 5) 1 = p.val) ∧
                 (e.enabledAtStart = true ↔ (imageField image (at_ + 6) 1).testBit 0 = true)) ∧
               (∀ m, ∀ x ∈ w.monitors[m]?, ∀ at_, at_ = entryStart image strap count + 11 * m →
                 [Quantity.freq, .rocof, .mag0][imageField image at_ 1]? = some x.quantity ∧
                 x.threshold = (BitVec.ofNat 32 (imageField image (at_ + 1) 4)).toInt ∧
                 x.base = BitVec.ofNat 16 (imageField image (at_ + 5) 2) ∧
                 x.mask = BitVec.ofNat 16 (imageField image (at_ + 7) 2) ∧
                 [EdgeMode.off, .rising, .falling, .both][imageField image (at_ + 9) 1]? =
                   some x.mode ∧
                 x.blanking = imageField image (at_ + 10) 1)))))) ∧
  (∀ (strap : Station) (image : List Byte) (rep : LoadReport) (o : Option Working) (tol : Nat),
     load strap image = ⟨rep, o⟩ → tol = min (imageField image 24 2) 600 →
     (∀ at_ n, at_ + n ≤ image.length → imageField image at_ n = field image at_ n ∧
       imageBytes image at_ n = (image.drop at_).take n) ∧
     (∀ at_ n, image.length ≤ at_ → imageBytes image at_ n = List.replicate n 0xFF#8) ∧
     (rep.digest = none → rep.clamped = .none) ∧
     (rep.digest ≠ none →
       (rep.clamped.defaultWait = true ↔ 2000 < imageField image 10 2) ∧
       (rep.clamped.grace = true ↔ 500 < imageField image 12 2) ∧
       (rep.clamped.silenceLimit = true ↔
         imageField image 14 2 < 20 ∨ 2000 < imageField image 14 2) ∧
       (rep.clamped.holdoverLimit = true ↔
         imageField image 16 2 < 1 ∨ 3600 < imageField image 16 2) ∧
       (rep.clamped.blanking = true ↔
         imageField image 22 2 < 100 ∨ 990 < imageField image 22 2) ∧
       (rep.clamped.lockTolerance = true ↔ 600 < imageField image 24 2) ∧
       (rep.clamped.stepLimit = true ↔
         imageField image 26 2 ≤ tol ∨ 30000 < imageField image 26 2) ∧
       (rep.clamped.snapTolerance = true ↔ 600 < imageField image 28 2) ∧
       (rep.clamped.holdLimit = true ↔ 3 < imageField image 30 1) ∧
       (rep.clamped.earlyLimit = true ↔ 10000 < imageField image 31 2) ∧
       (rep.clamped.accuracyLimit = true ↔ 15 < imageField image 33 1)) ∧
     (∀ w ∈ o, w.shared.slotRate.perSecond = imageField image 7 1 ∧
       w.shared.stations.Pairwise (· < ·) ∧
       (∀ i : Station, i ∈ w.shared.stations ↔ (imageField image 8 2).testBit i.val = true) ∧
       strap ∈ w.shared.stations ∧
       w.shared.defaultWait = min (imageField image 10 2) 2000 ∧
       w.shared.grace = min (imageField image 12 2) 500 ∧
       w.shared.silenceLimit = max 20 (min (imageField image 14 2) 2000) ∧
       w.shared.holdoverLimit = max 1 (min (imageField image 16 2) 3600) ∧
       (w.shared.stopOnExpiry = true ↔ (imageField image 18 1).testBit 0 = true) ∧
       [EdgeSelect.off, .rising, .falling][imageField image 19 1]? = some w.shared.edgeSelect ∧
       w.shared.delayComp = imageField image 20 2 ∧ w.shared.delayComp ≤ 65535 ∧
       w.shared.blanking = max 100 (min (imageField image 22 2) 990) ∧
       w.shared.lockTolerance = tol ∧
       w.shared.stepLimit = max (tol + 1) (min (imageField image 26 2) 30000) ∧
       w.shared.snapTolerance = min (imageField image 28 2) 600 ∧
       w.shared.holdLimit = min (imageField image 30 1) 3 ∧
       w.shared.earlyLimit = min (imageField image 31 2) 10000 ∧
       w.shared.accuracyLimit = min (imageField image 33 1) 15 ∧
       w.shared.digest = crc32 (imageBytes image 7 3) ∧ rep.digest = some w.shared.digest ∧
       w.entries.length ≤ 48 ∧ (w.entries.map (·.code)).Nodup ∧
       (∀ e ∈ w.entries, 1 ≤ e.code ∧ e.code ≤ 65534 ∧ 1 ≤ e.phasors ∧ e.phasors ≤ 12 ∧
         ∀ p, e.role = .secondary p → p ∈ w.shared.stations ∧ p ≠ strap) ∧
       w.monitors.length = 8 ∧ ∀ m ∈ w.monitors, m.blanking ≤ 255))

/-! ## Service port (chapter 11) -/

/-- Chip select (R201): an assertion opens a transaction in COMMAND; a deassertion returns the port to
WAITING, and one that cuts a command short is counted unless the loader is LOADING. While it is, every
command with its arguments complete and every unknown code is answered NOT_READY, with no other effect and
no count (R191, R200, R202). The code table gives each code its command and its argument bytes, and a code
not in it is unknown; the node shifts out the response in RESPONSE and 0x00 at every other time (R202).
That an assertion finds DROPPING left behind, that the fields of a command are empty outside its phases,
and that the response is held whole, are the model's (notes/assumptions/18.md, 21.md, 22.md). -/
def Obligations.TransactionsOpenCloseAndWait : Prop :=
  (∀ (s : State) (straps : Station), s.pins.resetAsserted = false →
     (s.pins.chipSelect = false → exec .chipSelectAssert s = .next { s with
       pins := { s.pins with chipSelect := true }
       port := { s.port with phase := .command, command := none, args := [], response := [] } }) ∧
     (s.pins.chipSelect = true →
       (s.port.phase = .command ∨ s.port.phase = .arguments →
         (s.loader.state = .loading → exec (.chipSelectDeassert straps) s = .next { s with
           pins := { s.pins with chipSelect := false }
           port := { s.port with phase := .waiting, command := none, args := [], response := [] } }) ∧
         (s.loader.state ≠ .loading →
           exec (.chipSelectDeassert straps) s = .next { bump .commandsRefused s with
             pins := { s.pins with chipSelect := false }
             port := { s.port with phase := .waiting, command := none, args := [], response := [] } })) ∧
       (s.port.phase = .dropping ∨ s.port.phase = .waiting ∨
           (s.port.phase = .response ∧ s.port.reloadPending = false) →
         exec (.chipSelectDeassert straps) s = .next { s with
           pins := { s.pins with chipSelect := false }
           port := { s.port with phase := .waiting, command := none, args := [], response := [] } }))) ∧
  (∀ (s : State) (a b code : Byte), s.port.phase = .command → s.loader.state = .loading →
     (∀ c ∈ wholeCommands a b, exec c s = .next { s with port := s.port.answering [0x02#8] }) ∧
     (code ∉ knownCodes →
       exec (.unknownCommand code) s = .next { s with port := s.port.answering [0x02#8] })) ∧
  (∀ (a b : Byte),
     [0x10, 0x11, 0x12, 0x13, 0x14, 0x15, 0x20, 0x21, 0x22, 0x23, 0x24, 0x25, 0x2F].map
       (fun c => serviceCommand c ([a, b].take (argumentCount c))) = wholeCommands a b ∧
     [0x10, 0x11, 0x12, 0x13, 0x14, 0x15, 0x20, 0x21, 0x22, 0x23, 0x24, 0x25, 0x2F].map argumentCount
       = [0, 0, 1, 0, 0, 0, 0, 2, 1, 1, 0, 1, 0]) ∧
  (∀ (code : Byte) (args : List Byte), (code ∈ knownCodes ↔ code ∈
       [0x10, 0x11, 0x12, 0x13, 0x14, 0x15, 0x20, 0x21, 0x22, 0x23, 0x24, 0x25, 0x2F]) ∧
     (code ∉ knownCodes → serviceCommand code args = .unknownCommand code ∧
       argumentCount code = 0)) ∧
  (∀ (p : Port) (k : Nat),
     (p.phase = .response → p.shiftedOut k = p.response[k]?.getD 0x00#8) ∧
     (p.phase ≠ .response → p.shiftedOut k = 0x00#8))

/-- The reads answer OK with their data as it stands, the reset cause record is then emptied, and a stream
number without an entry is answered NO_STREAM and counted (R202 to R206). The stream number may be shifted
in with the command byte or after it, the port in ARGUMENTS until it is (R201). That a command carries the
argument bytes its event brings, and that the response is held whole, are the model's
(notes/assumptions/4.md, 22.md). -/
def Obligations.ReadsAnswerAndChangeNothingElse : Prop :=
  (∀ (s : State), s.port.phase = .command → s.loader.state ≠ .loading →
    exec .readStatus s = .next { s with port := s.port.answering (0x01#8 :: statusImage s) } ∧
    exec .readRoster s = .next { s with port := s.port.answering (0x01#8 :: rosterImage s) } ∧
    exec .readCounters s = .next { s with port := s.port.answering (0x01#8 :: counterImage s) } ∧
    exec .readLastDrop s = .next { s with
      port := s.port.answering (0x01#8 :: lastDropBytes s.intake.lastDrop) } ∧
    exec .readResetCause s = .next { s with
      loader := { s.loader with cause := ⟨false, false, false, false⟩ }
      port := s.port.answering [0x01#8, BitVec.ofNat 8 s.loader.cause.toNat] }) ∧
  (∀ (s : State) (n : Byte), s.port.shifted 0x12 [] →
    exec (.readStream []) s = .next { s with
      port := { s.port with phase := .arguments, command := some 0x12, args := [] } } ∧
    (s.loader.state = .loading →
      exec (.readStream [n]) s = .next { s with port := s.port.answering [0x02#8] }) ∧
    (s.loader.state ≠ .loading →
      (∀ st, s.streams[n.toNat]? = some st → exec (.readStream [n]) s = .next { s with
        port := s.port.answering (0x01#8 :: streamReport st) }) ∧
      (s.streams[n.toNat]? = none → exec (.readStream [n]) s = .next { bump .commandsRefused s with
        port := s.port.answering [0x04#8] })))

/-- Every response has its length, and every field of the status image, a roster entry, a stream report,
the last-drop record and the counters stands at its offset, with the listed codes, a presence flag clear
and bytes of 0 where a field is none, and bit sets in the listed order (R212, R219). The encodings that the
link frames and the snapshot share with them stand here too: cell quality and flags, mark direction,
notice kind, segment status and snapshot flags; and how a number is written in bytes and read from them,
most significant byte first (R212). -/
def Obligations.ResponsesHaveTheirLayout : Prop :=
  (∀ s : State,
    (statusImage s).length = 73 ∧
    ((statusImage s).drop 0).take 1 = beBytes 1 s.loader.strap.val ∧
    (∀ b ∈ (statusImage s)[1]?, b.toNat < 32 ∧
      (b.getLsbD 0 = true ↔ s.loader.report.clamped ≠ .none) ∧
      b.getLsbD 1 = s.clock.holdoverLong ∧ (b.getLsbD 2 = true ↔ s.clock.state ≠ .acquiring) ∧
      b.getLsbD 3 = s.link.notice.isSome ∧ b.getLsbD 4 = s.link.beacon.isSome) ∧
    (∀ b ∈ (statusImage s)[2]?, b.toNat < 16 ∧
      b.getLsbD 0 = s.loader.report.digest.isSome ∧ b.getLsbD 1 = s.clock.newest.isSome ∧
      (b.getLsbD 2 = true ↔ s.table.records ≠ []) ∧
      (b.getLsbD 3 = true ↔ ∃ c k, s.assembler.state = .delivering c k)) ∧
    ((statusImage s).drop 3).take 1 = beBytes 1 (loaderCode s.loader.state) ∧
    ((statusImage s).drop 4).take 1 = beBytes 1 (faultCode s.loader.report.reason) ∧
    (s.loader.report.place = none → ((statusImage s).drop 5).take 2 = [255, 255]) ∧
    (∀ p ∈ s.loader.report.place, ((statusImage s).drop 5).take 1 = beBytes 1 p.station ∧
      (p.item = .none → ((statusImage s).drop 6).take 1 = [255]) ∧
      (∀ n, p.item = .position n → ((statusImage s).drop 6).take 1 = beBytes 1 n) ∧
      (∀ n, p.item = .monitor n → ((statusImage s).drop 6).take 1 = beBytes 1 (128 + n))) ∧
    ((statusImage s).drop 7).take 2 = beBytes 2 s.loader.report.clamped.toNat ∧
    ((statusImage s).drop 9).take 4 = beBytes 4 ((s.loader.report.digest.getD 0).toNat) ∧
    ((statusImage s).drop 13).take 1 = beBytes 1 (clockCode s.clock.state) ∧
    ((statusImage s).drop 14).take 7 = beBytes 4 s.clock.now.sec ++ beBytes 3 s.clock.now.fu ∧
    (s.clock.newest = none → ((statusImage s).drop 21).take 5 = [0, 0, 0, 0, 0]) ∧
    (∀ n ∈ s.clock.newest, ((statusImage s).drop 21).take 5 = beBytes 4 n.sec ++ beBytes 1 n.k) ∧
    ((statusImage s).drop 26).take 1 = beBytes 1 (writerCode s.intake.writer) ∧
    ((statusImage s).drop 27).take 1 = beBytes 1 (checkerCode s.intake.checker) ∧
    ((statusImage s).drop 28).take 2 = beBytes 2 s.intake.readPtr.toNat ∧
    ((statusImage s).drop 30).take 2 = beBytes 2 s.intake.writeHead.toNat ∧
    ((statusImage s).drop 32).take 2 = beBytes 2 s.intake.writeCur.toNat ∧
    ((statusImage s).drop 34).take 2 = beBytes 2 s.intake.held ∧
    ((statusImage s).drop 36).take 2 = beBytes 2 s.intake.free ∧
    ((statusImage s).drop 38).take 4 =
      beBytes 1 (s.table.records.countP (fun r => decide (r.state = .opened))) ++
      beBytes 1 (s.table.records.countP (fun r => decide (r.state = .closing))) ++
      beBytes 1 (s.table.records.countP (fun r => decide (r.state = .gathering))) ++
      beBytes 1 (s.table.records.countP (fun r => decide (r.state = .draining))) ∧
    (s.table.records = [] → ((statusImage s).drop 42).take 5 = [0, 0, 0, 0, 0]) ∧
    (∀ r ∈ s.table.records.head?,
      ((statusImage s).drop 42).take 5 = beBytes 4 r.tag.sec ++ beBytes 1 r.tag.k) ∧
    ((statusImage s).drop 47).take 2 = beBytes 2 s.table.requestedWait ∧
    ((statusImage s).drop 49).take 4 = beBytes 4 s.table.effectiveWait ∧
    ((statusImage s).drop 53).take 4 = beBytes 4 s.table.effectiveGrace ∧
    ((statusImage s).drop 57).take 1 = beBytes 1 (linkCode s.link.state) ∧
    ((statusImage s).drop 58).take 1 = beBytes 1 s.link.collisionRun ∧
    ((statusImage s).drop 59).take 1 = beBytes 1 s.link.queue.length ∧
    ((statusImage s).drop 60).take 2 = beBytes 2 s.gather.free.length ∧
    ((statusImage s).drop 62).take 1 = beBytes 1 (assemblerCode s.assembler.state) ∧
    (∀ c k, s.assembler.state = .delivering c k → ((statusImage s).drop 63).take 7 =
      beBytes 4 c.tag.sec ++ beBytes 1 c.tag.k ++ beBytes 2 k) ∧
    ((s.assembler.state = .closed ∨ s.assembler.state = .idle) →
      ((statusImage s).drop 63).take 7 = [0, 0, 0, 0, 0, 0, 0]) ∧
    ((statusImage s).drop 70).take 2 = beBytes 2 s.assembler.skipped ∧
    ((statusImage s).drop 72).take 1 = beBytes 1 s.port.causes.toNat) ∧
  (∀ (s : State) (p : Peer) (b : Byte) (i : Station),
    (rosterImage s).length = 288 ∧
    ((rosterImage s).drop (18 * i.val)).take 18 = peerBytes (if s.gather.roster[i].state = .local_ then
      { s.gather.roster[i] with
        lastClock := some s.clock.state
        lastEffective := some (s.table.effectiveWait, s.table.effectiveGrace) }
      else s.gather.roster[i]) ∧
    (peerBytes p).length = 18 ∧ ((peerBytes p).drop 0).take 1 = beBytes 1 (peerCode p.state) ∧
    ((peerBytes p)[1]? = some b → b.toNat < 16 ∧ b.getLsbD 0 = p.lastEffective.isSome ∧
      b.getLsbD 1 = p.lastBeacon.isSome ∧ b.getLsbD 2 = (p.lastBeacon.map (·.known)).getD false ∧
      b.getLsbD 3 = p.silence.isSome) ∧
    (p.lastClock = none → ((peerBytes p).drop 2).take 1 = [7]) ∧
    (∀ c ∈ p.lastClock, ((peerBytes p).drop 2).take 1 = beBytes 1 (clockCode c)) ∧
    (p.lastEffective = none → ((peerBytes p).drop 3).take 8 = [0, 0, 0, 0, 0, 0, 0, 0]) ∧
    (∀ v ∈ p.lastEffective, ((peerBytes p).drop 3).take 4 = beBytes 4 v.1 ∧
      ((peerBytes p).drop 7).take 4 = beBytes 4 v.2) ∧
    (p.lastBeacon = none → ((peerBytes p).drop 11).take 4 = [0, 0, 0, 0]) ∧
    (∀ v ∈ p.lastBeacon, ((peerBytes p).drop 11).take 4 = beBytes 4 v.second) ∧
    ((peerBytes p).drop 15).take 1 = beBytes 1 p.misses ∧
    (p.silence = none → ((peerBytes p).drop 16).take 2 = [0, 0]) ∧
    (∀ a ∈ p.silence, ((peerBytes p).drop 16).take 2 = beBytes 2 (min (a / 6000) 65535))) ∧
  (∀ (st : Stream) (b : Byte),
    (streamReport st).length = 43 ∧
    ((streamReport st).drop 0).take 7 = beBytes 2 st.entry.code ++
      beBytes 1 st.entry.rate.perSecond ++ beBytes 1 st.entry.phasors ++
      (match st.entry.role with
        | .primary => [0, 0]
        | .secondary p => [1, BitVec.ofNat 8 p.val]) ++ [if st.entry.enabledAtStart then 1 else 0] ∧
    ((streamReport st)[7]? = some b → b.toNat < 16 ∧ b.getLsbD 0 = st.pending ∧
      b.getLsbD 1 = st.working ∧ (b.getLsbD 2 = true ↔ st.ring ≠ []) ∧
      b.getLsbD 3 = st.horizon.isSome) ∧
    ((streamReport st).drop 8).take 1 = beBytes 1 (healthCode st.health) ∧
    ((streamReport st).drop 9).take 1 = beBytes 1 st.ring.length ∧
    (st.ring = [] → ((streamReport st).drop 10).take 14 = List.replicate 14 0) ∧
    (∀ x ∈ st.ring.head?, ((streamReport st).drop 10).take 7 = beBytes 4 x.t.sec ++ beBytes 3 x.t.fu) ∧
    (∀ x ∈ st.ring.getLast?,
      ((streamReport st).drop 17).take 7 = beBytes 4 x.t.sec ++ beBytes 3 x.t.fu) ∧
    (st.horizon = none → ((streamReport st).drop 24).take 7 = List.replicate 7 0) ∧
    (∀ h ∈ st.horizon, ((streamReport st).drop 24).take 7 = beBytes 4 h.sec ++ beBytes 3 h.fu) ∧
    ((streamReport st).drop 31).take 12 = beBytes 2 st.counters.admitted ++
      beBytes 2 st.counters.lateAdmitted ++ beBytes 2 st.counters.evicted ++
      beBytes 2 st.counters.late ++ beBytes 2 st.counters.duplicate ++ beBytes 2 st.counters.stale) ∧
  (∀ (s : State) (d : LastDrop),
    lastDropBytes d = beBytes 2 d.code ++ beBytes 1 (dropCode d.reason) ++ beBytes 4 d.stamp.sec ++
      beBytes 3 d.stamp.fu ∧ (lastDropBytes d).length = 10 ∧
    (counterImage s).length = 96 ∧
    (∀ c : Counter, ((counterImage s).drop (2 * c.index.val)).take 2 = beBytes 2 (s.count c)) ∧
    [Counter.ppsSpurious, .phaseHit, .todBad, .leap, .framesReceived, .samplesAdmitted, .bufferFull,
      .oversize, .runt, .badMarker, .format, .badCrc, .unknownSource, .disabledSource, .early, .late,
      .duplicate, .stale, .framesIgnored, .earlyClose, .recordsAbandoned, .skipped, .tableFull,
      .linkFramesSent, .linkFramesReceived, .linkBadLength, .linkBadCrc, .linkBadKind, .stranger,
      .indexClash, .collision, .shareExpired, .shareDisplaced, .sharesStored, .shareLost,
      .duplicateShare, .lateShare, .aheadShare, .orphanShare, .mismatch, .mismatchedShare, .peerSilent,
      .snapshotsDelivered, .codeConflict, .marksAppended, .marksBlanked, .markOverflow,
      .commandsRefused].map (fun c => c.index.val) = List.range 48) ∧
  (loaderCode .loaded = 1 ∧ loaderCode .fault = 2 ∧
    [FaultReason.none, .markerFault, .lengthFault, .crcFault, .slotRateFault, .encodingFault,
      .stationFault, .countFault, .streamRateFault, .phasorFault, .codeFault, .duplicateCodeFault,
      .primaryFault].map faultCode = List.range 13 ∧
    [ClockState.acquiring, .locked, .holdover, .stepping, .stopped].map clockCode = List.range 5 ∧
    [WriterState.closed, .idle, .receiving, .discarding, .ignoring].map writerCode = List.range 5 ∧
    [CheckerState.idle, .checking].map checkerCode = List.range 2 ∧
    [LinkState.listening, .active, .muted].map linkCode = List.range 3 ∧
    assemblerCode .closed = 0 ∧ assemblerCode .idle = 1 ∧
    (∀ c k, assemblerCode (.delivering c k) = 2) ∧
    [PeerState.unconfigured, .unheard, .present, .silent, .mismatched, .local_].map peerCode
      = List.range 6 ∧
    [Health.unseen, .live, .stalled, .disabled].map healthCode = List.range 4 ∧
    [DropReason.none, .bufferFull, .oversize, .runt, .badMarker, .format, .badCrc, .unknownSource,
      .disabledSource, .early, .late, .duplicate, .stale].map dropCode = List.range 13 ∧
    (∀ c : Clamps, (List.range 11).map (fun i => c.toNat.testBit i) = [c.defaultWait, c.grace,
      c.silenceLimit, c.holdoverLimit, c.blanking, c.lockTolerance, c.stepLimit, c.snapTolerance,
      c.holdLimit, c.earlyLimit, c.accuracyLimit]) ∧
    (∀ c : Causes, (List.range 4).map (fun i => c.toNat.testBit i) =
      [c.configFault, c.indexClash, c.clockStopped, c.countWatch]) ∧
    (∀ c : ResetCause, (List.range 4).map (fun i => c.toNat.testBit i) =
      [c.powerOn, c.pin, c.reload, c.configFault])) ∧
  ([Quality.exact, .interpolated, .held, .absent].map qualityCode = List.range 4 ∧
    [Direction.rising, .falling].map directionCode = [1, 2] ∧
    [NoticeKind.stepped, .stopping].map noticeCode = [1, 2] ∧
    [kindNotice, kindShare, kindBeacon] = List.range 3 ∧
    [SegmentStatus.local_, .received, .missing, .lost, .abandoned, .excluded].map statusCode
      = List.range 6 ∧
    clockCodeOr7 none = 7 ∧ (∀ c, clockCodeOr7 (some c) = clockCode c) ∧
    (∀ f : SnapshotFlags, f.toNat < 32 ∧ (List.range 5).map (fun i => f.toNat.testBit i) =
      [f.gap, f.afterStep, f.holdoverLong, f.marked, f.partial_]) ∧
    (∀ c : Cell, c.flags < 16 ∧ (List.range 4).map (fun i => c.flags.testBit i) =
      [c.invalid, c.suspect, c.secondary, c.used]) ∧
    (∀ (r : Rate), r.perSecond ∈ [10, 25, 30, 50, 60, 100, 120] ∧
      r.perSecond * r.period = 6000000)) ∧
  (∀ (w n : Nat), (beBytes w n).length = w ∧
    (∀ i < w, (beBytes w n)[i]? = some (BitVec.ofNat 8 (n / 256 ^ (w - 1 - i)))) ∧
    (n < 256 ^ w → field (beBytes w n) 0 w = n)) ∧
  (∀ (b : List Byte) (off len : Nat),
    field b off 0 = 0 ∧ field b off len = field (b.drop off) 0 len ∧
    (off + len < b.length →
      field b off (len + 1) = 256 * field b off len + (b.getD (off + len) 0).toNat))

/-- The commands that change the node, taken outside LOADING: counters cleared, the request stored at
2,000 ms at most, the pending enable set changed, STOPPED left for ACQUIRING, causes removed, a reload
armed; the refusals each counted (R19, R50, R69, R202, R206 to R209). Argument bytes may come with the
command byte or after it, one or two at a time, the port in ARGUMENTS until the last (R201). That a
command carries the argument bytes its event brings, and that the response is held whole, are the model's
(notes/assumptions/4.md, 22.md). -/
def Obligations.ServiceCommandsChangeTheNode : Prop :=
  (∀ (s : State) (code : Byte), s.port.phase = .command → s.loader.state ≠ .loading →
    exec .clearCounters s = .next { s with
      counters := Vector.replicate 48 0
      streams := s.streams.map (fun st => { st with counters := ⟨0, 0, 0, 0, 0, 0⟩ })
      port := s.port.answering [0x01#8] } ∧
    (s.clock.state = .stopped → exec .resumeClock s = .next { s with
      clock := { s.clock with state := .acquiring, pendingTod := none, announcement := none }
      port := s.port.answering [0x01#8] }) ∧
    (s.clock.state ≠ .stopped → exec .resumeClock s = .next { bump .commandsRefused s with
      port := s.port.answering [0x03#8] }) ∧
    exec .reload s = .next { s with
      port := { s.port.answering [0x01#8] with reloadPending := true } } ∧
    (code ∉ knownCodes → exec (.unknownCommand code) s = .next { bump .commandsRefused s with
      port := s.port.answering [0x05#8] })) ∧
  (∀ (s : State) (done more : List Byte), s.port.shifted 0x21 done → more.length ≤ 2 →
    ((done ++ more).length < 2 → exec (.setWait more) s = .next { s with
      port := { s.port with phase := .arguments, command := some 0x21, args := done ++ more } }) ∧
    (∀ a b, done ++ more = [a, b] → s.loader.state ≠ .loading →
      exec (.setWait more) s = .next { s with
        table := { s.table with requestedWait := min (256 * a.toNat + b.toNat) 2000 }
        port := s.port.answering (0x01#8 :: beBytes 2 (min (256 * a.toNat + b.toNat) 2000)) })) ∧
  (∀ (s : State),
    (s.port.shifted 0x22 [] → exec (.enableStream []) s = .next { s with
      port := { s.port with phase := .arguments, command := some 0x22, args := [] } }) ∧
    (s.port.shifted 0x23 [] → exec (.disableStream []) s = .next { s with
      port := { s.port with phase := .arguments, command := some 0x23, args := [] } }) ∧
    (s.port.shifted 0x25 [] → exec (.ackAttention []) s = .next { s with
      port := { s.port with phase := .arguments, command := some 0x25, args := [] } })) ∧
  (∀ (s : State) (a : Byte), s.loader.state ≠ .loading →
    (∀ st, s.streams[a.toNat]? = some st →
      (s.port.shifted 0x22 [] → exec (.enableStream [a]) s = .next { s with
        streams := s.streams.set a.toNat { st with pending := true }
        port := s.port.answering [0x01#8] }) ∧
      (s.port.shifted 0x23 [] → exec (.disableStream [a]) s = .next { s with
        streams := s.streams.set a.toNat { st with pending := false }
        port := s.port.answering [0x01#8] })) ∧
    (s.streams[a.toNat]? = none →
      (s.port.shifted 0x22 [] → exec (.enableStream [a]) s = .next { bump .commandsRefused s with
        port := s.port.answering [0x04#8] }) ∧
      (s.port.shifted 0x23 [] → exec (.disableStream [a]) s = .next { bump .commandsRefused s with
        port := s.port.answering [0x04#8] })) ∧
    (s.port.shifted 0x25 [] → ∃ left : Causes, exec (.ackAttention [a]) s = .next { s with
        port := { s.port.answering [0x01#8, BitVec.ofNat 8 left.toNat] with causes := left } } ∧
      (left.configFault = true ↔ s.port.causes.configFault = true ∧ a.getLsbD 0 = false) ∧
      (left.indexClash = true ↔ s.port.causes.indexClash = true ∧ a.getLsbD 1 = false) ∧
      (left.clockStopped = true ↔ s.port.causes.clockStopped = true ∧ a.getLsbD 2 = false) ∧
      (left.countWatch = true ↔ s.port.causes.countWatch = true ∧ a.getLsbD 3 = false)))
end

