-- ==== Sys2Proof/Laws/Formats.lean ====
section
/-! SUPPORT. The big-endian fields of chapter 12: their lengths, and a value read back from the bytes
it was written in. -/

namespace Sys2Proof.Machine

open Sys2Proof

@[simp] theorem beBytes_length (w : Nat) : ∀ n, (beBytes w n).length = w := by
  induction w with
  | zero => exact fun _ => rfl
  | succ w ih => exact fun n => by simp [beBytes, ih]

theorem beNat_from (bytes : List Byte) : ∀ n,
    bytes.foldl (fun n b => n * 256 + b.toNat) n = n * 256 ^ bytes.length + beNat bytes := by
  induction bytes with
  | nil => intro n; simp [beNat]
  | cons b bs ih =>
    intro n
    simp only [beNat, List.foldl_cons, List.length_cons, Nat.zero_mul, Nat.zero_add]
    rw [ih, ih b.toNat]
    ring

/-- The value of a byte followed by others. -/
theorem beNat_cons (b : Byte) (bs : List Byte) :
    beNat (b :: bs) = b.toNat * 256 ^ bs.length + beNat bs := by
  rw [show beNat (b :: bs) = bs.foldl (fun n b => n * 256 + b.toNat) (0 * 256 + b.toNat) from rfl,
    beNat_from, Nat.zero_mul, Nat.zero_add]

/-- A value written in `w` bytes reads back modulo 256 to the `w`. -/
theorem beNat_beBytes (w : Nat) : ∀ n, beNat (beBytes w n) = n % 256 ^ w := by
  induction w with
  | zero => intro n; simp [beBytes, beNat, Nat.mod_one]
  | succ w ih =>
    intro n
    have h : n % (256 ^ w * 256) = n % 256 ^ w + 256 ^ w * (n / 256 ^ w % 256) := Nat.mod_mul
    rw [beBytes, beNat_cons, ih, beBytes_length, BitVec.toNat_ofNat, show 2 ^ 8 = 256 from rfl,
      Nat.pow_succ, h, Nat.add_comm, Nat.mul_comm]

/-- A field that reads the bytes of a value in the middle of others. -/
theorem field_append (pre post : List Byte) (w n : Nat) (hn : n < 256 ^ w) :
    field (pre ++ beBytes w n ++ post) pre.length w = n := by
  have : (beBytes w n ++ post).take w = beBytes w n := by
    rw [List.take_append_of_le_length (by simp), List.take_of_length_le (by simp)]
  rw [field, List.append_assoc, List.drop_left, this, beNat_beBytes, Nat.mod_eq_of_lt hn]

/-- A body closed by its CRC-32 passes the check. -/
theorem closeCrc32_good (body : List Byte) :
    crc32 ((closeCrc32 body).take ((closeCrc32 body).length - 4))
      = BitVec.ofNat 32 (field (closeCrc32 body) ((closeCrc32 body).length - 4) 4) := by
  have h := field_append body [] 4 (crc32 body).toNat (by
    have := (crc32 body).isLt; omega)
  rw [List.append_nil] at h
  simp only [closeCrc32, List.length_append, beBytes_length, Nat.add_sub_cancel, List.take_left] at *
  rw [h]
  simp

/-- An image of a body closed by its CRC-32 passes the check of R192. -/
theorem closeCrc32_imageGood (body : List Byte) :
    crc32 (imageBytes (closeCrc32 body) 0 body.length)
      = BitVec.ofNat 32 (imageField (closeCrc32 body) body.length 4) := by
  have h : imageField (closeCrc32 body) body.length 4 = (crc32 body).toNat := by
    have hlt := (crc32 body).isLt
    simp only [imageField, imageBytes, closeCrc32, List.drop_left]
    rw [List.take_of_length_le (by simp), beBytes_length, Nat.sub_self, List.replicate_zero,
      List.append_nil, beNat_beBytes]
    omega
  rw [h]
  simp [imageBytes, closeCrc32]

/-- A load whose every check passes (R192 to R198). -/
theorem load_passes {strap : Station} {image : List Byte} {rate : Rate} {edge : EdgeSelect}
    {start : Nat} {entries : List Entry} {monitors : List MonitorSettings}
    (h1 : imageFault image = none) (h2 : rateOfNat (imageField image 7 1) = some rate)
    (h3 : edgeSelectOf (imageField image 19 1) = some edge)
    (h4 : strap ∈ stationsOf (imageField image 8 2))
    (h5 : findSection image (imageField image 3 4 - 4) strap.val 0 Config.firstSection = .ok start)
    (h6 : readSection image strap (stationsOf (imageField image 8 2)) start
      = .ok (entries, monitors)) :
    load strap image = ⟨⟨.none, none, readClamps image, some (sharedDigest image)⟩,
      some ⟨readShared image rate edge, entries, monitors⟩⟩ := by
  have hs : (readShared image rate edge).stations = stationsOf (imageField image 8 2) := by
    rw [readShared]
  have hd : (readShared image rate edge).digest = sharedDigest image := by rw [readShared]
  simp only [load, h1, h2, h3, hs, h4, h5, h6, hd, not_true_eq_false, if_false]

end Sys2Proof.Machine
end

