-- ==== Sys2Proof/Laws/State.lean ====
section
/-! SUPPORT. What each update of a field leaves in each field of State: one lemma per field per
update, true by definition. -/

namespace Sys2Proof.Machine

@[simp] theorem State.setPins_pins (s : State) (v : Pins) : (s.setPins v).pins = v := rfl
@[simp] theorem State.setPins_loader (s : State) (v : Pins) : (s.setPins v).loader = s.loader := rfl
@[simp] theorem State.setPins_clock (s : State) (v : Pins) : (s.setPins v).clock = s.clock := rfl
@[simp] theorem State.setPins_intake (s : State) (v : Pins) : (s.setPins v).intake = s.intake := rfl
@[simp] theorem State.setPins_streams (s : State) (v : Pins) : (s.setPins v).streams = s.streams := rfl
@[simp] theorem State.setPins_table (s : State) (v : Pins) : (s.setPins v).table = s.table := rfl
@[simp] theorem State.setPins_link (s : State) (v : Pins) : (s.setPins v).link = s.link := rfl
@[simp] theorem State.setPins_gather (s : State) (v : Pins) : (s.setPins v).gather = s.gather := rfl
@[simp] theorem State.setPins_assembler (s : State) (v : Pins) : (s.setPins v).assembler = s.assembler := rfl
@[simp] theorem State.setPins_monitors (s : State) (v : Pins) : (s.setPins v).monitors = s.monitors := rfl
@[simp] theorem State.setPins_port (s : State) (v : Pins) : (s.setPins v).port = s.port := rfl
@[simp] theorem State.setPins_counters (s : State) (v : Pins) : (s.setPins v).counters = s.counters := rfl
@[simp] theorem State.setPins_pending (s : State) (v : Pins) : (s.setPins v).pending = s.pending := rfl
@[simp] theorem State.setPins_self (s : State) : s.setPins s.pins = s := rfl
@[simp] theorem State.setPins_twice (s : State) (v w : Pins) : (s.setPins v).setPins w = s.setPins w := rfl

@[simp] theorem State.setLoader_pins (s : State) (v : Loader) : (s.setLoader v).pins = s.pins := rfl
@[simp] theorem State.setLoader_loader (s : State) (v : Loader) : (s.setLoader v).loader = v := rfl
@[simp] theorem State.setLoader_clock (s : State) (v : Loader) : (s.setLoader v).clock = s.clock := rfl
@[simp] theorem State.setLoader_intake (s : State) (v : Loader) : (s.setLoader v).intake = s.intake := rfl
@[simp] theorem State.setLoader_streams (s : State) (v : Loader) : (s.setLoader v).streams = s.streams := rfl
@[simp] theorem State.setLoader_table (s : State) (v : Loader) : (s.setLoader v).table = s.table := rfl
@[simp] theorem State.setLoader_link (s : State) (v : Loader) : (s.setLoader v).link = s.link := rfl
@[simp] theorem State.setLoader_gather (s : State) (v : Loader) : (s.setLoader v).gather = s.gather := rfl
@[simp] theorem State.setLoader_assembler (s : State) (v : Loader) : (s.setLoader v).assembler = s.assembler := rfl
@[simp] theorem State.setLoader_monitors (s : State) (v : Loader) : (s.setLoader v).monitors = s.monitors := rfl
@[simp] theorem State.setLoader_port (s : State) (v : Loader) : (s.setLoader v).port = s.port := rfl
@[simp] theorem State.setLoader_counters (s : State) (v : Loader) : (s.setLoader v).counters = s.counters := rfl
@[simp] theorem State.setLoader_pending (s : State) (v : Loader) : (s.setLoader v).pending = s.pending := rfl
@[simp] theorem State.setLoader_self (s : State) : s.setLoader s.loader = s := rfl
@[simp] theorem State.setLoader_twice (s : State) (v w : Loader) : (s.setLoader v).setLoader w = s.setLoader w := rfl

@[simp] theorem State.setClock_pins (s : State) (v : Clock) : (s.setClock v).pins = s.pins := rfl
@[simp] theorem State.setClock_loader (s : State) (v : Clock) : (s.setClock v).loader = s.loader := rfl
@[simp] theorem State.setClock_clock (s : State) (v : Clock) : (s.setClock v).clock = v := rfl
@[simp] theorem State.setClock_intake (s : State) (v : Clock) : (s.setClock v).intake = s.intake := rfl
@[simp] theorem State.setClock_streams (s : State) (v : Clock) : (s.setClock v).streams = s.streams := rfl
@[simp] theorem State.setClock_table (s : State) (v : Clock) : (s.setClock v).table = s.table := rfl
@[simp] theorem State.setClock_link (s : State) (v : Clock) : (s.setClock v).link = s.link := rfl
@[simp] theorem State.setClock_gather (s : State) (v : Clock) : (s.setClock v).gather = s.gather := rfl
@[simp] theorem State.setClock_assembler (s : State) (v : Clock) : (s.setClock v).assembler = s.assembler := rfl
@[simp] theorem State.setClock_monitors (s : State) (v : Clock) : (s.setClock v).monitors = s.monitors := rfl
@[simp] theorem State.setClock_port (s : State) (v : Clock) : (s.setClock v).port = s.port := rfl
@[simp] theorem State.setClock_counters (s : State) (v : Clock) : (s.setClock v).counters = s.counters := rfl
@[simp] theorem State.setClock_pending (s : State) (v : Clock) : (s.setClock v).pending = s.pending := rfl
@[simp] theorem State.setClock_self (s : State) : s.setClock s.clock = s := rfl
@[simp] theorem State.setClock_twice (s : State) (v w : Clock) : (s.setClock v).setClock w = s.setClock w := rfl

@[simp] theorem State.setIntake_pins (s : State) (v : Intake) : (s.setIntake v).pins = s.pins := rfl
@[simp] theorem State.setIntake_loader (s : State) (v : Intake) : (s.setIntake v).loader = s.loader := rfl
@[simp] theorem State.setIntake_clock (s : State) (v : Intake) : (s.setIntake v).clock = s.clock := rfl
@[simp] theorem State.setIntake_intake (s : State) (v : Intake) : (s.setIntake v).intake = v := rfl
@[simp] theorem State.setIntake_streams (s : State) (v : Intake) : (s.setIntake v).streams = s.streams := rfl
@[simp] theorem State.setIntake_table (s : State) (v : Intake) : (s.setIntake v).table = s.table := rfl
@[simp] theorem State.setIntake_link (s : State) (v : Intake) : (s.setIntake v).link = s.link := rfl
@[simp] theorem State.setIntake_gather (s : State) (v : Intake) : (s.setIntake v).gather = s.gather := rfl
@[simp] theorem State.setIntake_assembler (s : State) (v : Intake) : (s.setIntake v).assembler = s.assembler := rfl
@[simp] theorem State.setIntake_monitors (s : State) (v : Intake) : (s.setIntake v).monitors = s.monitors := rfl
@[simp] theorem State.setIntake_port (s : State) (v : Intake) : (s.setIntake v).port = s.port := rfl
@[simp] theorem State.setIntake_counters (s : State) (v : Intake) : (s.setIntake v).counters = s.counters := rfl
@[simp] theorem State.setIntake_pending (s : State) (v : Intake) : (s.setIntake v).pending = s.pending := rfl
@[simp] theorem State.setIntake_self (s : State) : s.setIntake s.intake = s := rfl
@[simp] theorem State.setIntake_twice (s : State) (v w : Intake) : (s.setIntake v).setIntake w = s.setIntake w := rfl

@[simp] theorem State.setStreams_pins (s : State) (v : List Stream) : (s.setStreams v).pins = s.pins := rfl
@[simp] theorem State.setStreams_loader (s : State) (v : List Stream) : (s.setStreams v).loader = s.loader := rfl
@[simp] theorem State.setStreams_clock (s : State) (v : List Stream) : (s.setStreams v).clock = s.clock := rfl
@[simp] theorem State.setStreams_intake (s : State) (v : List Stream) : (s.setStreams v).intake = s.intake := rfl
@[simp] theorem State.setStreams_streams (s : State) (v : List Stream) : (s.setStreams v).streams = v := rfl
@[simp] theorem State.setStreams_table (s : State) (v : List Stream) : (s.setStreams v).table = s.table := rfl
@[simp] theorem State.setStreams_link (s : State) (v : List Stream) : (s.setStreams v).link = s.link := rfl
@[simp] theorem State.setStreams_gather (s : State) (v : List Stream) : (s.setStreams v).gather = s.gather := rfl
@[simp] theorem State.setStreams_assembler (s : State) (v : List Stream) : (s.setStreams v).assembler = s.assembler := rfl
@[simp] theorem State.setStreams_monitors (s : State) (v : List Stream) : (s.setStreams v).monitors = s.monitors := rfl
@[simp] theorem State.setStreams_port (s : State) (v : List Stream) : (s.setStreams v).port = s.port := rfl
@[simp] theorem State.setStreams_counters (s : State) (v : List Stream) : (s.setStreams v).counters = s.counters := rfl
@[simp] theorem State.setStreams_pending (s : State) (v : List Stream) : (s.setStreams v).pending = s.pending := rfl
@[simp] theorem State.setStreams_self (s : State) : s.setStreams s.streams = s := rfl
@[simp] theorem State.setStreams_twice (s : State) (v w : List Stream) : (s.setStreams v).setStreams w = s.setStreams w := rfl

@[simp] theorem State.setTable_pins (s : State) (v : Table) : (s.setTable v).pins = s.pins := rfl
@[simp] theorem State.setTable_loader (s : State) (v : Table) : (s.setTable v).loader = s.loader := rfl
@[simp] theorem State.setTable_clock (s : State) (v : Table) : (s.setTable v).clock = s.clock := rfl
@[simp] theorem State.setTable_intake (s : State) (v : Table) : (s.setTable v).intake = s.intake := rfl
@[simp] theorem State.setTable_streams (s : State) (v : Table) : (s.setTable v).streams = s.streams := rfl
@[simp] theorem State.setTable_table (s : State) (v : Table) : (s.setTable v).table = v := rfl
@[simp] theorem State.setTable_link (s : State) (v : Table) : (s.setTable v).link = s.link := rfl
@[simp] theorem State.setTable_gather (s : State) (v : Table) : (s.setTable v).gather = s.gather := rfl
@[simp] theorem State.setTable_assembler (s : State) (v : Table) : (s.setTable v).assembler = s.assembler := rfl
@[simp] theorem State.setTable_monitors (s : State) (v : Table) : (s.setTable v).monitors = s.monitors := rfl
@[simp] theorem State.setTable_port (s : State) (v : Table) : (s.setTable v).port = s.port := rfl
@[simp] theorem State.setTable_counters (s : State) (v : Table) : (s.setTable v).counters = s.counters := rfl
@[simp] theorem State.setTable_pending (s : State) (v : Table) : (s.setTable v).pending = s.pending := rfl
@[simp] theorem State.setTable_self (s : State) : s.setTable s.table = s := rfl
@[simp] theorem State.setTable_twice (s : State) (v w : Table) : (s.setTable v).setTable w = s.setTable w := rfl

@[simp] theorem State.setLink_pins (s : State) (v : Link) : (s.setLink v).pins = s.pins := rfl
@[simp] theorem State.setLink_loader (s : State) (v : Link) : (s.setLink v).loader = s.loader := rfl
@[simp] theorem State.setLink_clock (s : State) (v : Link) : (s.setLink v).clock = s.clock := rfl
@[simp] theorem State.setLink_intake (s : State) (v : Link) : (s.setLink v).intake = s.intake := rfl
@[simp] theorem State.setLink_streams (s : State) (v : Link) : (s.setLink v).streams = s.streams := rfl
@[simp] theorem State.setLink_table (s : State) (v : Link) : (s.setLink v).table = s.table := rfl
@[simp] theorem State.setLink_link (s : State) (v : Link) : (s.setLink v).link = v := rfl
@[simp] theorem State.setLink_gather (s : State) (v : Link) : (s.setLink v).gather = s.gather := rfl
@[simp] theorem State.setLink_assembler (s : State) (v : Link) : (s.setLink v).assembler = s.assembler := rfl
@[simp] theorem State.setLink_monitors (s : State) (v : Link) : (s.setLink v).monitors = s.monitors := rfl
@[simp] theorem State.setLink_port (s : State) (v : Link) : (s.setLink v).port = s.port := rfl
@[simp] theorem State.setLink_counters (s : State) (v : Link) : (s.setLink v).counters = s.counters := rfl
@[simp] theorem State.setLink_pending (s : State) (v : Link) : (s.setLink v).pending = s.pending := rfl
@[simp] theorem State.setLink_self (s : State) : s.setLink s.link = s := rfl
@[simp] theorem State.setLink_twice (s : State) (v w : Link) : (s.setLink v).setLink w = s.setLink w := rfl

@[simp] theorem State.setGather_pins (s : State) (v : Gather) : (s.setGather v).pins = s.pins := rfl
@[simp] theorem State.setGather_loader (s : State) (v : Gather) : (s.setGather v).loader = s.loader := rfl
@[simp] theorem State.setGather_clock (s : State) (v : Gather) : (s.setGather v).clock = s.clock := rfl
@[simp] theorem State.setGather_intake (s : State) (v : Gather) : (s.setGather v).intake = s.intake := rfl
@[simp] theorem State.setGather_streams (s : State) (v : Gather) : (s.setGather v).streams = s.streams := rfl
@[simp] theorem State.setGather_table (s : State) (v : Gather) : (s.setGather v).table = s.table := rfl
@[simp] theorem State.setGather_link (s : State) (v : Gather) : (s.setGather v).link = s.link := rfl
@[simp] theorem State.setGather_gather (s : State) (v : Gather) : (s.setGather v).gather = v := rfl
@[simp] theorem State.setGather_assembler (s : State) (v : Gather) : (s.setGather v).assembler = s.assembler := rfl
@[simp] theorem State.setGather_monitors (s : State) (v : Gather) : (s.setGather v).monitors = s.monitors := rfl
@[simp] theorem State.setGather_port (s : State) (v : Gather) : (s.setGather v).port = s.port := rfl
@[simp] theorem State.setGather_counters (s : State) (v : Gather) : (s.setGather v).counters = s.counters := rfl
@[simp] theorem State.setGather_pending (s : State) (v : Gather) : (s.setGather v).pending = s.pending := rfl
@[simp] theorem State.setGather_self (s : State) : s.setGather s.gather = s := rfl
@[simp] theorem State.setGather_twice (s : State) (v w : Gather) : (s.setGather v).setGather w = s.setGather w := rfl

@[simp] theorem State.setAssembler_pins (s : State) (v : Assembler) : (s.setAssembler v).pins = s.pins := rfl
@[simp] theorem State.setAssembler_loader (s : State) (v : Assembler) : (s.setAssembler v).loader = s.loader := rfl
@[simp] theorem State.setAssembler_clock (s : State) (v : Assembler) : (s.setAssembler v).clock = s.clock := rfl
@[simp] theorem State.setAssembler_intake (s : State) (v : Assembler) : (s.setAssembler v).intake = s.intake := rfl
@[simp] theorem State.setAssembler_streams (s : State) (v : Assembler) : (s.setAssembler v).streams = s.streams := rfl
@[simp] theorem State.setAssembler_table (s : State) (v : Assembler) : (s.setAssembler v).table = s.table := rfl
@[simp] theorem State.setAssembler_link (s : State) (v : Assembler) : (s.setAssembler v).link = s.link := rfl
@[simp] theorem State.setAssembler_gather (s : State) (v : Assembler) : (s.setAssembler v).gather = s.gather := rfl
@[simp] theorem State.setAssembler_assembler (s : State) (v : Assembler) : (s.setAssembler v).assembler = v := rfl
@[simp] theorem State.setAssembler_monitors (s : State) (v : Assembler) : (s.setAssembler v).monitors = s.monitors := rfl
@[simp] theorem State.setAssembler_port (s : State) (v : Assembler) : (s.setAssembler v).port = s.port := rfl
@[simp] theorem State.setAssembler_counters (s : State) (v : Assembler) : (s.setAssembler v).counters = s.counters := rfl
@[simp] theorem State.setAssembler_pending (s : State) (v : Assembler) : (s.setAssembler v).pending = s.pending := rfl
@[simp] theorem State.setAssembler_self (s : State) : s.setAssembler s.assembler = s := rfl
@[simp] theorem State.setAssembler_twice (s : State) (v w : Assembler) : (s.setAssembler v).setAssembler w = s.setAssembler w := rfl

@[simp] theorem State.setMonitors_pins (s : State) (v : Vector Monitor 8) : (s.setMonitors v).pins = s.pins := rfl
@[simp] theorem State.setMonitors_loader (s : State) (v : Vector Monitor 8) : (s.setMonitors v).loader = s.loader := rfl
@[simp] theorem State.setMonitors_clock (s : State) (v : Vector Monitor 8) : (s.setMonitors v).clock = s.clock := rfl
@[simp] theorem State.setMonitors_intake (s : State) (v : Vector Monitor 8) : (s.setMonitors v).intake = s.intake := rfl
@[simp] theorem State.setMonitors_streams (s : State) (v : Vector Monitor 8) : (s.setMonitors v).streams = s.streams := rfl
@[simp] theorem State.setMonitors_table (s : State) (v : Vector Monitor 8) : (s.setMonitors v).table = s.table := rfl
@[simp] theorem State.setMonitors_link (s : State) (v : Vector Monitor 8) : (s.setMonitors v).link = s.link := rfl
@[simp] theorem State.setMonitors_gather (s : State) (v : Vector Monitor 8) : (s.setMonitors v).gather = s.gather := rfl
@[simp] theorem State.setMonitors_assembler (s : State) (v : Vector Monitor 8) : (s.setMonitors v).assembler = s.assembler := rfl
@[simp] theorem State.setMonitors_monitors (s : State) (v : Vector Monitor 8) : (s.setMonitors v).monitors = v := rfl
@[simp] theorem State.setMonitors_port (s : State) (v : Vector Monitor 8) : (s.setMonitors v).port = s.port := rfl
@[simp] theorem State.setMonitors_counters (s : State) (v : Vector Monitor 8) : (s.setMonitors v).counters = s.counters := rfl
@[simp] theorem State.setMonitors_pending (s : State) (v : Vector Monitor 8) : (s.setMonitors v).pending = s.pending := rfl
@[simp] theorem State.setMonitors_self (s : State) : s.setMonitors s.monitors = s := rfl
@[simp] theorem State.setMonitors_twice (s : State) (v w : Vector Monitor 8) : (s.setMonitors v).setMonitors w = s.setMonitors w := rfl

@[simp] theorem State.setPort_pins (s : State) (v : Port) : (s.setPort v).pins = s.pins := rfl
@[simp] theorem State.setPort_loader (s : State) (v : Port) : (s.setPort v).loader = s.loader := rfl
@[simp] theorem State.setPort_clock (s : State) (v : Port) : (s.setPort v).clock = s.clock := rfl
@[simp] theorem State.setPort_intake (s : State) (v : Port) : (s.setPort v).intake = s.intake := rfl
@[simp] theorem State.setPort_streams (s : State) (v : Port) : (s.setPort v).streams = s.streams := rfl
@[simp] theorem State.setPort_table (s : State) (v : Port) : (s.setPort v).table = s.table := rfl
@[simp] theorem State.setPort_link (s : State) (v : Port) : (s.setPort v).link = s.link := rfl
@[simp] theorem State.setPort_gather (s : State) (v : Port) : (s.setPort v).gather = s.gather := rfl
@[simp] theorem State.setPort_assembler (s : State) (v : Port) : (s.setPort v).assembler = s.assembler := rfl
@[simp] theorem State.setPort_monitors (s : State) (v : Port) : (s.setPort v).monitors = s.monitors := rfl
@[simp] theorem State.setPort_port (s : State) (v : Port) : (s.setPort v).port = v := rfl
@[simp] theorem State.setPort_counters (s : State) (v : Port) : (s.setPort v).counters = s.counters := rfl
@[simp] theorem State.setPort_pending (s : State) (v : Port) : (s.setPort v).pending = s.pending := rfl
@[simp] theorem State.setPort_self (s : State) : s.setPort s.port = s := rfl
@[simp] theorem State.setPort_twice (s : State) (v w : Port) : (s.setPort v).setPort w = s.setPort w := rfl

@[simp] theorem State.setCounters_pins (s : State) (v : Vector Nat 48) : (s.setCounters v).pins = s.pins := rfl
@[simp] theorem State.setCounters_loader (s : State) (v : Vector Nat 48) : (s.setCounters v).loader = s.loader := rfl
@[simp] theorem State.setCounters_clock (s : State) (v : Vector Nat 48) : (s.setCounters v).clock = s.clock := rfl
@[simp] theorem State.setCounters_intake (s : State) (v : Vector Nat 48) : (s.setCounters v).intake = s.intake := rfl
@[simp] theorem State.setCounters_streams (s : State) (v : Vector Nat 48) : (s.setCounters v).streams = s.streams := rfl
@[simp] theorem State.setCounters_table (s : State) (v : Vector Nat 48) : (s.setCounters v).table = s.table := rfl
@[simp] theorem State.setCounters_link (s : State) (v : Vector Nat 48) : (s.setCounters v).link = s.link := rfl
@[simp] theorem State.setCounters_gather (s : State) (v : Vector Nat 48) : (s.setCounters v).gather = s.gather := rfl
@[simp] theorem State.setCounters_assembler (s : State) (v : Vector Nat 48) : (s.setCounters v).assembler = s.assembler := rfl
@[simp] theorem State.setCounters_monitors (s : State) (v : Vector Nat 48) : (s.setCounters v).monitors = s.monitors := rfl
@[simp] theorem State.setCounters_port (s : State) (v : Vector Nat 48) : (s.setCounters v).port = s.port := rfl
@[simp] theorem State.setCounters_counters (s : State) (v : Vector Nat 48) : (s.setCounters v).counters = v := rfl
@[simp] theorem State.setCounters_pending (s : State) (v : Vector Nat 48) : (s.setCounters v).pending = s.pending := rfl
@[simp] theorem State.setCounters_self (s : State) : s.setCounters s.counters = s := rfl
@[simp] theorem State.setCounters_twice (s : State) (v w : Vector Nat 48) : (s.setCounters v).setCounters w = s.setCounters w := rfl

@[simp] theorem State.setPending_pins (s : State) (v : List Instr) : (s.setPending v).pins = s.pins := rfl
@[simp] theorem State.setPending_loader (s : State) (v : List Instr) : (s.setPending v).loader = s.loader := rfl
@[simp] theorem State.setPending_clock (s : State) (v : List Instr) : (s.setPending v).clock = s.clock := rfl
@[simp] theorem State.setPending_intake (s : State) (v : List Instr) : (s.setPending v).intake = s.intake := rfl
@[simp] theorem State.setPending_streams (s : State) (v : List Instr) : (s.setPending v).streams = s.streams := rfl
@[simp] theorem State.setPending_table (s : State) (v : List Instr) : (s.setPending v).table = s.table := rfl
@[simp] theorem State.setPending_link (s : State) (v : List Instr) : (s.setPending v).link = s.link := rfl
@[simp] theorem State.setPending_gather (s : State) (v : List Instr) : (s.setPending v).gather = s.gather := rfl
@[simp] theorem State.setPending_assembler (s : State) (v : List Instr) : (s.setPending v).assembler = s.assembler := rfl
@[simp] theorem State.setPending_monitors (s : State) (v : List Instr) : (s.setPending v).monitors = s.monitors := rfl
@[simp] theorem State.setPending_port (s : State) (v : List Instr) : (s.setPending v).port = s.port := rfl
@[simp] theorem State.setPending_counters (s : State) (v : List Instr) : (s.setPending v).counters = s.counters := rfl
@[simp] theorem State.setPending_pending (s : State) (v : List Instr) : (s.setPending v).pending = v := rfl
@[simp] theorem State.setPending_self (s : State) : s.setPending s.pending = s := rfl
@[simp] theorem State.setPending_twice (s : State) (v w : List Instr) : (s.setPending v).setPending w = s.setPending w := rfl

end Sys2Proof.Machine
end

