-- ==== Sys2Proof/Laws/Frame.lean ====
section
/-! SUPPORT. What each shared operation leaves as it is: one frame lemma for each, in the terms of
Safety.lean. -/

namespace Sys2Proof.Machine

open Sys2Proof

variable {s t u : State} {ps qs : List Part}

theorem ChangesOnly.refl (ps : List Part) (s : State) : ChangesOnly ps s s := by
  intro p _; cases p <;> rfl

theorem Same.trans {p : Part} (h1 : Same p s t) (h2 : Same p t u) : Same p s u := by
  cases p <;> exact Eq.trans (α := _) h2 h1

theorem ChangesOnly.trans (h1 : ChangesOnly ps s t) (h2 : ChangesOnly ps t u) :
    ChangesOnly ps s u := fun p hp => (h1 p hp).trans (h2 p hp)

theorem ChangesOnly.mono (h : ChangesOnly ps s t) (hs : ∀ p ∈ ps, p ∈ qs) : ChangesOnly qs s t :=
  fun p hp => h p (fun hq => hp (hs p hq))

/-- Two stretches of work, each with its own parts, inside a wider list. -/
theorem ChangesOnly.comp {ps' : List Part} (h1 : ChangesOnly ps s t) (h2 : ChangesOnly ps' t u)
    (hs : ∀ p ∈ ps, p ∈ qs := by decide) (hs' : ∀ p ∈ ps', p ∈ qs := by decide) :
    ChangesOnly qs s u := (h1.mono hs).trans (h2.mono hs')

theorem ChangesOnly.ite {c : Prop} [Decidable c] (h1 : ChangesOnly ps s t)
    (h2 : ChangesOnly ps s u) : ChangesOnly ps s (if c then t else u) := by
  split
  · exact h1
  · exact h2

/-! ## The single updates -/

theorem changes_setPins (v : Pins) : ChangesOnly [.pins] s (s.setPins v) := by
  intro p hp; cases p <;> first | rfl | exact absurd (by decide) hp

theorem changes_setLoader (v : Loader) : ChangesOnly [.loader] s (s.setLoader v) := by
  intro p hp; cases p <;> first | rfl | exact absurd (by decide) hp

theorem changes_setClock (v : Clock) : ChangesOnly [.clock] s (s.setClock v) := by
  intro p hp; cases p <;> first | rfl | exact absurd (by decide) hp

theorem changes_setIntake (v : Intake) : ChangesOnly [.intake, .intakeMem] s (s.setIntake v) := by
  intro p hp; cases p <;> first | rfl | exact absurd (by decide) hp

theorem changes_setIntake_keep (v : Intake) (h : v.mem = s.intake.mem) :
    ChangesOnly [.intake] s (s.setIntake v) := by
  intro p hp; cases p <;> first | rfl | exact h | exact absurd (by decide) hp

theorem changes_setStreams (v : List Stream) : ChangesOnly [.streams] s (s.setStreams v) := by
  intro p hp; cases p <;> first | rfl | exact absurd (by decide) hp

theorem changes_setTable (v : Table) : ChangesOnly [.table] s (s.setTable v) := by
  intro p hp; cases p <;> first | rfl | exact absurd (by decide) hp

theorem changes_setLink (v : Link) : ChangesOnly [.link] s (s.setLink v) := by
  intro p hp; cases p <;> first | rfl | exact absurd (by decide) hp

theorem changes_setAssembler (v : Assembler) : ChangesOnly [.assembler] s (s.setAssembler v) := by
  intro p hp; cases p <;> first | rfl | exact absurd (by decide) hp

theorem changes_setMonitors (v : Vector Monitor 8) : ChangesOnly [.monitors] s (s.setMonitors v) := by
  intro p hp; cases p <;> first | rfl | exact absurd (by decide) hp

theorem changes_setCounters (v : Vector Nat 48) : ChangesOnly [.counters] s (s.setCounters v) := by
  intro p hp; cases p <;> first | rfl | exact absurd (by decide) hp

theorem changes_setRoster (v : Vector Peer 16) :
    ChangesOnly [.roster] s (s.setGather { s.gather with roster := v }) := by
  intro p hp; cases p <;> first | rfl | exact absurd (by decide) hp

theorem changes_setFree (v : List Sys2Proof.Block) :
    ChangesOnly [.freeList] s (s.setGather { s.gather with free := v }) := by
  intro p hp; cases p <;> first | rfl | exact absurd (by decide) hp

theorem changes_setReception (v : Option Reception) :
    ChangesOnly [.reception] s (s.setGather { s.gather with reception := v }) := by
  intro p hp; cases p <;> first | rfl | exact absurd (by decide) hp

theorem changes_setStore (v : Memory) :
    ChangesOnly [.storeMem] s (s.setGather { s.gather with mem := v }) := by
  intro p hp; cases p <;> first | rfl | exact absurd (by decide) hp

theorem changes_setCauses (v : Causes) :
    ChangesOnly [.causes] s (s.setPort { s.port with causes := v }) := by
  intro p hp; cases p <;> first | rfl | exact absurd (by decide) hp

theorem changes_setPort_keep (v : Port) (h : v.causes = s.port.causes) :
    ChangesOnly [.transaction] s (s.setPort v) := by
  intro p hp; cases p <;> first | rfl | exact h | exact absurd (by decide) hp

/-! ## Counters and causes -/

theorem raise_frame (c : Cause) : ChangesOnly [.causes] s (raise c s) := changes_setCauses _

/-- A counter's increment changes the counters, and the causes by COUNT_WATCH alone. -/
theorem bump_frame (c : Counter) : ChangesOnly [.counters, .causes] s (bump c s) := by
  unfold bump
  refine ChangesOnly.ite ?_ ?_
  · exact (changes_setCounters _).comp (raise_frame _)
  · exact (changes_setCounters _).mono (by decide)

/-- A counter outside the error group leaves the causes as they are. -/
theorem bump_frame_quiet (c : Counter) (h : c.inErrorGroup = false) :
    ChangesOnly [.counters] s (bump c s) := by
  unfold bump
  simp only [h, Bool.false_and, Bool.false_eq_true, if_false]
  exact changes_setCounters _

theorem bumpTimes_frame (c : Counter) (n : Nat) (s : State) :
    ChangesOnly [.counters, .causes] s (bumpTimes c n s) := by
  induction n generalizing s with
  | zero => exact ChangesOnly.refl _ _
  | succ n ih => exact (bump_frame c).trans (ih _)

/-! ## Records, judgement and the roster -/

theorem withRecords_frame (rs : List Record) : ChangesOnly [.table] s (withRecords rs s) :=
  changes_setTable _

theorem updateRecord_frame (tag : Tag) (f : Record → Record) :
    ChangesOnly [.table] s (updateRecord tag f s) := changes_setTable _

theorem freeBlocks_frame (bs : List Sys2Proof.Block) : ChangesOnly [.freeList] s (freeBlocks bs s) :=
  changes_setFree _

theorem freeRecords_frame (gone : Record → Bool) :
    ChangesOnly [.table, .freeList] s (freeRecords gone s) :=
  (withRecords_frame _).comp (freeBlocks_frame _)

theorem reportSkip_frame : ChangesOnly [.assembler] s (reportSkip s) := changes_setAssembler _

theorem compose_frame (r : Record) : ChangesOnly [.assembler, .counters, .causes] s (compose r s) :=
  (changes_setAssembler _).comp (bumpTimes_frame _ _ _)

theorem takeRecord_frame : ChangesOnly [.assembler, .counters, .causes] s (takeRecord s) := by
  unfold takeRecord
  split
  · split
    · exact compose_frame _
    · exact ChangesOnly.refl _ _
  · exact ChangesOnly.refl _ _

theorem leaveGathering_frame (r : Record) : ChangesOnly judgeParts s (leaveGathering r s) := by
  unfold leaveGathering
  split
  · exact (updateRecord_frame _ _).comp takeRecord_frame
  · exact ((freeRecords_frame _).comp (bump_frame _)).comp (qs := judgeParts)
      (ps := [.table, .freeList, .counters, .causes]) reportSkip_frame

theorem judgeUpTo_frame (n : Nat) (s : State) : ChangesOnly judgeParts s (judgeUpTo n s) := by
  induction n generalizing s with
  | zero => exact ChangesOnly.refl _ _
  | succ n ih =>
    unfold judgeUpTo
    split
    · exact (leaveGathering_frame _).trans (ih _)
    · exact ChangesOnly.refl _ _

theorem judge_frame : ChangesOnly judgeParts s (judge s) := judgeUpTo_frame _ _

theorem updatePeer_frame (i : Station) (f : Peer → Peer) :
    ChangesOnly [.roster] s (updatePeer i f s) := changes_setRoster _

theorem unexpect_frame (i : Station) : ChangesOnly [.table] s (unexpect i s) := changes_setTable _

theorem leavePresent_frame (i : Station) (st : PeerState) :
    ChangesOnly [.roster, .table, .counters, .causes] s (leavePresent i st s) := by
  unfold leavePresent
  split
  · exact ((updatePeer_frame _ _).comp (bump_frame _)
      (qs := [.roster, .counters, .causes])).comp (unexpect_frame _)
  · exact (updatePeer_frame _ _).mono (by decide)

theorem enterPresent_frame (i : Station) : ChangesOnly [.roster] s (enterPresent i s) :=
  updatePeer_frame _ _

theorem countMiss_frame (i : Station) :
    ChangesOnly [.roster, .table, .counters, .causes] s (countMiss s i) := by
  unfold countMiss
  dsimp only
  split
  · exact (updatePeer_frame _ _).comp (leavePresent_frame _ _)
  · exact (updatePeer_frame _ _).mono (by decide)

/-! ## Shares, closes and examinations -/

theorem enqueueShare_frame (q : QueuedShare) :
    ChangesOnly [.link, .counters, .causes] s (enqueueShare q s) := by
  unfold enqueueShare
  split
  · exact (changes_setLink _).mono (by decide)
  · exact (changes_setLink _).comp (bump_frame _)

theorem handOver_frame (q : QueuedShare) :
    ChangesOnly [.link, .counters, .causes] s (handOver q s) := by
  unfold handOver
  split
  · exact (bump_frame _).mono (by decide)
  · exact enqueueShare_frame _

theorem withdrawShare_frame (tag : Tag) :
    ChangesOnly [.link, .counters, .causes] s (withdrawShare tag s) :=
  (changes_setLink _).comp (bump_frame _)

theorem passShare_frame (tag : Tag) :
    ChangesOnly [.link, .counters, .causes] s (passShare tag s) := by
  unfold passShare
  split
  · exact (changes_setLink _).mono (by decide)
  · exact withdrawShare_frame _

theorem startClose_frame (r : Record) :
    ChangesOnly [.table, .streams, .monitors, .counters, .causes] s (startClose r s) := by
  unfold startClose
  dsimp only
  split
  · exact ((((updateRecord_frame _ _).comp (changes_setTable _) (qs := [.table])).comp
      (changes_setStreams _) (qs := [.table, .streams])).comp (changes_setMonitors _))
  · exact (((((updateRecord_frame _ _).comp (changes_setTable _) (qs := [.table])).comp
      (changes_setStreams _) (qs := [.table, .streams])).comp (changes_setMonitors _)
      (qs := [.table, .streams, .monitors])).comp (bump_frame _))

theorem finishClose_frame (r : Record) :
    ChangesOnly [.monitors, .link, .table, .freeList, .assembler, .counters, .causes] s
      (finishClose r s) := by
  unfold finishClose
  dsimp only
  exact (((((changes_setMonitors _).comp (updateRecord_frame _ _) (qs := [.monitors, .table])).comp
    (handOver_frame _) (qs := [.monitors, .table, .link, .counters, .causes])).comp
    (updateRecord_frame _ _) (qs := [.monitors, .table, .link, .counters, .causes])).comp judge_frame
    (qs := [.monitors, .link, .table, .freeList, .assembler, .counters, .causes])).comp
    (changes_setTable _)

theorem examineUpTo_frame (n : Nat) (s : State) : ChangesOnly examineParts s (examineUpTo n s) := by
  induction n generalizing s with
  | zero => exact ChangesOnly.refl _ _
  | succ n ih =>
    unfold examineUpTo
    split
    · exact ChangesOnly.refl _ _
    · dsimp only
      split
      · exact ((startClose_frame _).comp (finishClose_frame _) (qs := examineParts)).trans (ih _)
      · exact (startClose_frame _).mono (by decide)

theorem examine_frame : ChangesOnly examineParts s (examine s) := examineUpTo_frame _ _

theorem examineFor_frame (n : Nat) : ChangesOnly examineParts s (examineFor n s) := by
  unfold examineFor
  split
  · exact ChangesOnly.ite examine_frame (ChangesOnly.refl _ _)
  · exact ChangesOnly.refl _ _

theorem examineForAny_frame (ns : List Nat) : ChangesOnly examineParts s (examineForAny ns s) := by
  unfold examineForAny
  split
  · exact ChangesOnly.ite examine_frame (ChangesOnly.refl _ _)
  · exact ChangesOnly.refl _ _

/-! ## Openings, abandonment, deadlines and the boundary -/

theorem openTag_frame (tag : Tag) : ChangesOnly (.clock :: examineParts) s (openTag tag s) := by
  unfold openTag
  dsimp only
  split
  · split
    · exact ((changes_setClock _).comp (changes_setTable _) (qs := [.clock, .table])).comp
        examine_frame
    · exact (changes_setClock _).comp (changes_setTable _)
  · exact ((changes_setClock _).comp (bump_frame _) (qs := [.clock, .counters, .causes])).comp
      reportSkip_frame

theorem evaluate_frame : ChangesOnly (.clock :: examineParts) s (evaluate s) := by
  unfold evaluate
  dsimp only
  exact ChangesOnly.ite (openTag_frame _) (ChangesOnly.refl _ _)

theorem abandonOpen_frame :
    ChangesOnly [.table, .freeList, .counters, .causes] s (abandonOpen s) := by
  unfold abandonOpen
  dsimp only
  exact ((freeRecords_frame _).comp (bumpTimes_frame _ _ _)
    (qs := [.table, .freeList, .counters, .causes])).comp (changes_setTable _)

theorem placeNotice_frame (n : Notice) : ChangesOnly [.link] s (placeNotice n s) := changes_setLink _

theorem enterStopped_frame :
    ChangesOnly [.clock, .table, .link, .freeList, .counters, .causes] s (enterStopped s) := by
  unfold enterStopped
  dsimp only
  exact (((abandonOpen_frame.comp (placeNotice_frame _)
    (qs := [.table, .link, .freeList, .counters, .causes])).comp (raise_frame _)
    (qs := [.table, .link, .freeList, .counters, .causes])).comp (changes_setClock _))

theorem passClose_frame (tag : Tag) : ChangesOnly examineParts s (passClose tag s) := by
  unfold passClose
  dsimp only
  split
  · split
    · exact (updateRecord_frame _ _).comp examine_frame
    · exact (updateRecord_frame _ _).mono (by decide)
  · exact (updateRecord_frame _ _).mono (by decide)

theorem countMisses_frame (is : List Station) (s : State) :
    ChangesOnly [.roster, .table, .counters, .causes] s (is.foldl countMiss s) := by
  induction is generalizing s with
  | nil => exact ChangesOnly.refl _ _
  | cons i is ih => exact (countMiss_frame i).trans (ih _)

theorem passGather_frame (tag : Tag) : ChangesOnly (.roster :: judgeParts) s (passGather tag s) := by
  unfold passGather
  dsimp only
  split
  · split
    · exact ((updateRecord_frame _ _).comp (countMisses_frame _ _)
        (qs := [.roster, .table, .counters, .causes])).comp judge_frame
    · exact (updateRecord_frame _ _).mono (by decide)
  · exact (updateRecord_frame _ _).mono (by decide)

theorem passCloseIfReached_frame (tag : Tag) :
    ChangesOnly (.roster :: examineParts) s (passCloseIfReached tag s) := by
  unfold passCloseIfReached
  split
  · exact ChangesOnly.ite ((passClose_frame _).mono (by decide)) (ChangesOnly.refl _ _)
  · exact ChangesOnly.refl _ _

theorem passGatherIfReached_frame (tag : Tag) :
    ChangesOnly (.roster :: examineParts) s (passGatherIfReached tag s) := by
  unfold passGatherIfReached
  split
  · exact ChangesOnly.ite ((passGather_frame _).mono (by decide)) (ChangesOnly.refl _ _)
  · exact ChangesOnly.refl _ _

theorem passShareIfReached_frame (tag : Tag) :
    ChangesOnly (.roster :: examineParts) s (passShareIfReached tag s) := by
  unfold passShareIfReached
  split
  · exact ChangesOnly.ite ((passShare_frame _).mono (by decide)) (ChangesOnly.refl _ _)
  · exact ChangesOnly.refl _ _

/-- A fold of changes, each within the parts, is within the parts. -/
theorem ChangesOnly.foldl {α : Type} (f : State → α → State) (l : List α)
    (h : ∀ s a, ChangesOnly ps s (f s a)) (s : State) : ChangesOnly ps s (l.foldl f s) := by
  induction l generalizing s with
  | nil => exact ChangesOnly.refl _ _
  | cons a l ih => exact (h s a).trans (ih _)

theorem passReached_frame : ChangesOnly (.roster :: examineParts) s (passReached s) := by
  unfold passReached
  dsimp only
  refine ChangesOnly.trans (ChangesOnly.foldl _ _ (fun s tag => ?_) _)
    (ChangesOnly.foldl _ _ (fun s tag => ?_) _)
  · exact (passCloseIfReached_frame _).trans (passGatherIfReached_frame _)
  · exact passShareIfReached_frame _

theorem recomputeWait_frame : ChangesOnly [.table] s (recomputeWait s) := changes_setTable _

theorem copyEnableSets_frame : ChangesOnly [.streams] s (copyEnableSets s) := changes_setStreams _

theorem queueBeacon_frame : ChangesOnly [.link] s (queueBeacon s) := changes_setLink _

theorem deliverBoundary_frame : ChangesOnly (.clock :: examineParts) s (deliverBoundary s) := by
  unfold deliverBoundary
  dsimp only
  have h0 : ChangesOnly [.clock] s
      (if decide (s.clock.state = .stepping) = true then s.setClock { s.clock with state := .locked }
       else s) := ChangesOnly.ite (changes_setClock _) (ChangesOnly.refl _ _)
  have h := (((h0.comp copyEnableSets_frame (qs := [.clock, .streams])).comp recomputeWait_frame
    (qs := [.clock, .streams, .table])).comp queueBeacon_frame
    (qs := [.clock, .streams, .table, .link])).comp
    (examineForAny_frame (losingLive s.streams)) (qs := .clock :: examineParts)
  exact ChangesOnly.ite (h.trans evaluate_frame) h

/-! ## Time and resets -/

theorem elapse_frame (k : Nat) : ChangesOnly timeParts s (elapse k s) := by
  unfold elapse
  exact (((changes_setClock _).comp (changes_setStreams _) (qs := [.clock, .streams])).comp
    (changes_setRoster _) (qs := [.clock, .streams, .roster])).comp (changes_setAssembler _)

/-- A timed command changes what time changes and what its event changes. -/
theorem atMoment_frame {due : State → Option Nat} {event : State → State}
    (h : ∀ s, ChangesOnly ps s (event s)) (hs : ∀ p ∈ timeParts, p ∈ qs) (hs' : ∀ p ∈ ps, p ∈ qs) :
    ChangesOnly qs s (atMoment due event s) := by
  unfold atMoment
  split
  · split
    · rename_i s' h'
      refine ChangesOnly.comp (ps := timeParts) ?_ (h s') hs hs'
      unfold arrive at h'
      split at h'
      · exact absurd h' (by simp)
      · cases h'; exact ChangesOnly.refl _ _
      · split at h'
        · cases h'; exact elapse_frame _
        · exact absurd h' (by simp)
    · exact ChangesOnly.refl _ _
  · exact ChangesOnly.refl _ _

theorem resetBlocks_frame :
    ChangesOnly [.loader, .clock, .intake, .streams, .table, .link, .roster, .freeList, .reception,
      .assembler, .monitors, .transaction, .causes, .counters] s (resetBlocks s) := by
  intro p hp; cases p <;> first | exact absurd (by decide) hp | rfl

theorem sampleStraps_frame (straps : Station) : ChangesOnly [.loader] s (sampleStraps straps s) :=
  changes_setLoader _

end Sys2Proof.Machine
end

