-- ==== Sys2Proof/Laws/Line.lean ====
section
/-! SUPPORT. The form of the link's line: the lengths of a claim, a character and a transmission,
what several drivers make of the line, and what a station drives after what it has read. -/

namespace Sys2Proof.Machine

open Sys2Proof

@[simp] theorem claimLevels_length (k : ClaimKey) : (claimLevels k).length = 7 := rfl

@[simp] theorem characterLevels_length (b : Byte) : (characterLevels b).length = 10 := rfl

@[simp] theorem characters_length (bytes : List Byte) :
    (bytes.flatMap characterLevels).length = 10 * bytes.length := by
  induction bytes with
  | nil => rfl
  | cons b bs ih =>
    rw [List.flatMap_cons, List.length_append, ih, characterLevels_length, List.length_cons]; omega

/-- The line is dominant exactly when some station drives it dominant. -/
theorem lineLevel_dominant (drivers : List LineLevel) :
    lineLevel drivers = .dominant ↔ LineLevel.dominant ∈ drivers := by
  simp [lineLevel]

/-- A station that is not transmitting leaves the line recessive. -/
theorem drives_idle {s : State} (h : s.link.tx = none) (read : List LineLevel) :
    s.drives read = .recessive := by
  simp [State.drives, h]

/-- Where the first difference is, the line differs, and before it the two agree. -/
theorem firstDifference_some {levels read : List LineLevel} {m : Nat} :
    firstDifference levels read = some m →
    (∀ k < m, levels[k]? = read[k]?) ∧ ∃ d l, levels[m]? = some d ∧ read[m]? = some l ∧ d ≠ l := by
  induction levels generalizing read m with
  | nil => simp [firstDifference]
  | cons d ds ih =>
    cases read with
    | nil => simp [firstDifference]
    | cons l ls =>
      intro h
      simp only [firstDifference] at h
      split_ifs at h with he
      · obtain ⟨n, hn, rfl⟩ := Option.map_eq_some_iff.mp h
        obtain ⟨hk, hd⟩ := ih hn
        exact ⟨fun k hkm => by cases k with
          | zero => simp [he]
          | succ k => simpa using hk k (by omega), by simpa using hd⟩
      · cases h
        exact ⟨fun k hk => absurd hk (by omega), d, l, rfl, rfl, he⟩

/-- A station that has read what it drove drives its own next level. -/
theorem drivenAfter_none {levels read : List LineLevel} (h : firstDifference levels read = none) :
    drivenAfter levels read = levels.getD read.length .recessive := by
  simp [drivenAfter, h]

/-- A station that has read a difference drives on up to the bit where it stops. -/
theorem drivenAfter_some {levels read : List LineLevel} {m : Nat}
    (h : firstDifference levels read = some m) : drivenAfter levels read =
      if read.length < stopsAt m then levels.getD read.length .recessive else .recessive := by
  simp [drivenAfter, h]

end Sys2Proof.Machine
end

