-- ==== Sys2Proof/Laws/LinkForms.lean ====
section
/-! SUPPORT. How the cells and marks of a share are read: what reading one of them at a position, and a
number of them one after another, can do (R124, R212, R216). -/

namespace Sys2Proof.Machine

open Sys2Proof

/-- A field inside the first `L` bytes, read from a position on. -/
theorem field_take_drop (b : List Byte) {L p o w : Nat} (h : p + o + w ≤ L) :
    field ((b.take L).drop p) o w = field b (p + o) w := by
  unfold field
  congr 1
  rw [List.drop_drop, List.drop_take, List.take_take, Nat.min_eq_left (by omega)]

/-- A byte inside the first `L` bytes, read from a position on. -/
theorem getD_take_drop (b : List Byte) {L p o : Nat} (h : p + o < L) :
    ((b.take L).drop p).getD o 0 = b.getD (p + o) 0 := by
  simp [List.getD, h]

/-- The value of a byte is the one-byte field there. -/
theorem getD_toNat (b : List Byte) (o : Nat) : (b.getD o 0).toNat = field b o 1 := by
  unfold field
  rcases h : b.drop o with _ | ⟨x, xs⟩
  · have : b.length ≤ o := by simpa using h
    simp [beNat, List.getD, List.getElem?_eq_none this]
  · have : b[o]? = some x := by
      have := congrArg (·[0]?) h; simpa using this
    simp [beNat, List.getD, this]

/-- A bit of a byte is the bit of the one-byte field there. -/
theorem getLsbD_field (b : List Byte) (o i : Nat) :
    (b.getD o 0).getLsbD i = (field b o 1).testBit i := by
  rw [← getD_toNat]; rfl

/-- A 16-bit two's complement number, written with its sign (R212). -/
theorem signed16_eq {n : Nat} (h : n < 65536) :
    signed16 n = (n : Int) - (if n < 32768 then 0 else 65536) := by
  unfold signed16
  rw [BitVec.toInt_eq_toNat_cond]
  simp only [BitVec.toNat_ofNat]
  rw [Nat.mod_eq_of_lt (by omega)]
  split <;> split <;> omega

/-- A number read from bytes is below 256 to their count. -/
theorem beNat_lt (bs : List Byte) : beNat bs < 256 ^ bs.length := by
  induction bs with
  | nil => simp [beNat]
  | cons b bs ih =>
    rw [beNat_cons, List.length_cons, Nat.pow_succ]
    have := b.isLt
    nlinarith [Nat.mul_le_mul_right (256 ^ bs.length) (show b.toNat ≤ 255 by omega)]

/-- A field is below 256 to its length. -/
theorem field_lt (b : List Byte) (o w : Nat) : field b o w < 256 ^ w := by
  unfold field
  refine Nat.lt_of_lt_of_le (beNat_lt _) (Nat.pow_le_pow_right (by omega) ?_)
  simp

/-- As many phasors are read as are asked for. -/
theorem phasorsAt_length (f : List Byte) (n : Nat) : ∀ off, (phasorsAt f off n).length = n := by
  induction n with
  | zero => exact fun _ => rfl
  | succ n ih => exact fun o => by simp [phasorsAt, ih]

/-- Each phasor read stands in its five bytes (R216). -/
theorem phasorsAt_get (f : List Byte) (n : Nat) : ∀ off i, i < n →
    (phasorsAt f off n)[i]? = some ⟨field f (off + 5 * i) 3, field f (off + 5 * i + 3) 2⟩ := by
  induction n with
  | zero => intro _ i h; omega
  | succ n ih =>
    intro off i h
    cases i with
    | zero => simp [phasorsAt]
    | succ i => 
      simp only [phasorsAt, List.getElem?_cons_succ]
      rw [ih _ _ (by omega)]
      congr 3 <;> ring

/-- The quality a number encodes. -/
theorem qualityOf_some {n : Nat} {q : Quality} : qualityOf n = some q ↔ qualityCode q = n := by
  unfold qualityOf
  cases q <;> simp only [qualityCode] <;> (split_ifs <;> simp <;> omega)

/-- A number that encodes no quality. -/
theorem qualityOf_none {n : Nat} : qualityOf n = none ↔ 3 < n := by
  unfold qualityOf
  split_ifs <;> simp <;> omega

/-- Fewer than six bytes hold no cell. -/
theorem parseCell_short (d : List Byte) (h : d.length < 6) : parseCell d = none := by
  simp [parseCell, h]

/-- What reading a cell at a position can do: it is read exactly where it has its form and its bytes stand
before the end, and it is then what its bytes say (R124, R216). -/
theorem parseCell_at (b : List Byte) {L p : Nat} (hL : L ≤ b.length) :
    (∀ c rest, parseCell ((b.take L).drop p) = some (c, rest) → CellForm b p ∧ p + cellSize b p ≤ L ∧
      rest = (b.take L).drop (p + cellSize b p) ∧ CellReads b p c) ∧
    (CellForm b p → p + cellSize b p ≤ L →
      ∃ c, parseCell ((b.take L).drop p) = some (c, (b.take L).drop (p + cellSize b p))) := by
  have hlen : ((b.take L).drop p).length = L - p := by simp; omega
  by_cases hs : L - p < 6
  · constructor
    · intro c rest h; rw [parseCell_short _ (by omega)] at h; cases h
    · intro _ h; unfold cellSize at h; split at h <;> omega
  have hp : p + 6 ≤ L := by omega
  generalize hd : (b.take L).drop p = d at *
  have f (o w) (h : p + o + w ≤ L) : field d o w = field b (p + o) w := by
    rw [← hd]; exact field_take_drop b h
  have g3 : d.getD 3 0 = b.getD (p + 3) 0 := by rw [← hd]; exact getD_take_drop b (by omega)
  have hdd (k) : d.drop k = (b.take L).drop (p + k) := by rw [← hd, List.drop_drop]
  unfold parseCell
  simp only [hlen, if_neg hs, f 0 2 (by omega), f 2 1 (by omega), f 4 1 (by omega), f 5 1 (by omega),
    g3, getLsbD_field, hdd]
  rcases hq : qualityOf (field b (p + 2) 1) with _ | q
  · have := qualityOf_none.1 hq
    constructor
    · intro c rest h; cases h
    · intro h; unfold CellForm at h; omega
  have hqc := qualityOf_some.1 hq
  by_cases hab : q = .absent
  · subst hab
    simp only [qualityCode] at hqc
    by_cases hn : field b (p + 5) 1 = 0
    · constructor
      · intro c rest h
        simp only [hn, if_true, Option.some.injEq, Prod.mk.injEq] at h
        obtain ⟨rfl, rfl⟩ := h
        refine ⟨⟨by omega, by omega, by omega⟩, by simp [cellSize, hn]; omega,
          by simp [cellSize, hn], ?_⟩
        simp [CellReads, qualityCode, ← hqc, List.range_succ]
      · intro _ _
        simp only [hn, if_true, cellSize]
        exact ⟨_, rfl⟩
    · constructor
      · intro c rest h; simp only [if_neg hn] at h; cases h
      · intro h; unfold CellForm at h; omega
  · have hq3 : qualityCode q ≠ 3 := by clear hqc hq; revert hab; cases q <;> simp [qualityCode]
    have hq4 : qualityCode q ≤ 3 := by cases q <;> simp [qualityCode]
    by_cases hbad :
        field b (p + 5) 1 = 0 ∨ 12 < field b (p + 5) 1 ∨ L - p < 12 + 5 * field b (p + 5) 1
    · constructor
      · intro c rest h
        cases q <;> first
          | exact absurd rfl hab
          | (dsimp only at h; rw [if_pos hbad] at h; cases h)
      · intro h h2
        unfold CellForm at h; unfold cellSize at h2
        split at h2 <;> omega
    · have hb2 := hbad
      simp only [not_or] at hb2
      have hsz : cellSize b p = 12 + 5 * field b (p + 5) 1 := by simp [cellSize, hb2.1]
      constructor
      · intro c rest h
        refine ⟨⟨by omega, by omega, by omega⟩, by omega, ?_⟩
        rw [hsz]
        generalize hn : field b (p + 5) 1 = n at *
        have hc : rest = (b.take L).drop (p + (12 + 5 * n)) ∧ c =
            { code := field b (p + 0) 2, quality := q, invalid := (field b (p + 3) 1).testBit 0
              suspect := (field b (p + 3) 1).testBit 1, secondary := (field b (p + 3) 1).testBit 2
              used := (field b (p + 3) 1).testBit 3, primary := field b (p + 4) 1
              values := some
                { phasors := phasorsAt d 6 n, freq := signed16 (field d (6 + 5 * n) 2)
                  rocof := signed16 (field d (8 + 5 * n) 2)
                  digital := BitVec.ofNat 16 (field d (10 + 5 * n) 2) } } := by
          cases q <;> first
            | exact absurd rfl hab
            | (simp only [if_neg hbad, Option.some.injEq, Prod.mk.injEq] at h
               exact ⟨h.2.symm, h.1.symm⟩)
        obtain ⟨rfl, rfl⟩ := hc
        refine ⟨rfl, rfl, by simpa using hqc, by simp [List.range_succ], rfl, by simpa using hab, ?_⟩
        intro v hv
        cases hv
        refine ⟨by simp [phasorsAt_length, hn], ?_, ?_⟩
        · intro i q hi
          have hil : i < n := by
            have := (List.getElem?_eq_some_iff.1 hi).1
            simpa [phasorsAt_length] using this
          rw [phasorsAt_get _ _ _ _ hil] at hi
          rw [f _ _ (by omega), f _ _ (by omega)] at hi
          simp only [Option.some.injEq] at hi
          rw [← hi]
          congr 2 <;> ring
        · rintro tail rfl
          simp only [phasorsAt_length]
          rw [f _ _ (by omega), f _ _ (by omega), f _ _ (by omega), signed16_eq (field_lt _ _ 2),
            signed16_eq (field_lt _ _ 2)]
          refine ⟨?_, ?_, ?_⟩ <;> · congr 2 <;> ring_nf
      · intro _ _
        rw [hsz]
        cases q <;> first | exact absurd rfl hab | (simp only [if_neg hbad]; exact ⟨_, rfl⟩)

/-- The next cell begins where a cell ends. -/
theorem cellStart_succ (b : List Byte) (k : Nat) :
    cellStart b (k + 1) = cellStart b k + cellSize b (cellStart b k) := rfl

/-- Later cells begin no earlier. -/
theorem cellStart_mono (b : List Byte) (k n : Nat) : cellStart b k ≤ cellStart b (k + n) := by
  induction n with
  | zero => exact Nat.le_refl _
  | succ n ih => rw [← Nat.add_assoc, cellStart_succ]; omega

/-- What reading a number of cells can do: all are read exactly where each has its form and they end before
the end of the bytes (R124, R216). -/
theorem parseCells_at (b : List Byte) {L : Nat} (hL : L ≤ b.length) (n : Nat) :
    ∀ k, cellStart b k ≤ L →
    (∀ cs rest, parseCells n ((b.take L).drop (cellStart b k)) = some (cs, rest) →
      (∀ j < n, CellForm b (cellStart b (k + j))) ∧ cellStart b (k + n) ≤ L ∧
      rest = (b.take L).drop (cellStart b (k + n)) ∧ cs.length = n ∧
      ∀ j c, cs[j]? = some c → CellReads b (cellStart b (k + j)) c) ∧
    ((∀ j < n, CellForm b (cellStart b (k + j))) → cellStart b (k + n) ≤ L →
      ∃ cs, parseCells n ((b.take L).drop (cellStart b k))
        = some (cs, (b.take L).drop (cellStart b (k + n)))) := by
  induction n with
  | zero =>
    intro k hk
    refine ⟨?_, fun _ _ => ⟨[], rfl⟩⟩
    rintro cs rest h
    cases h
    exact ⟨by omega, hk, rfl, rfl, by simp⟩
  | succ n ih =>
    intro k hk
    obtain ⟨h1, h2⟩ := parseCell_at b (p := cellStart b k) hL
    simp only [← cellStart_succ] at h1 h2
    have hadd : k + (n + 1) = k + 1 + n := by omega
    constructor
    · intro cs rest h
      unfold parseCells at h
      rcases hp : parseCell ((b.take L).drop (cellStart b k)) with _ | ⟨c, r⟩
      · simp [hp] at h
      obtain ⟨hg, hle, rfl, hr⟩ := h1 _ _ hp
      rcases hq : parseCells n ((b.take L).drop (cellStart b (k + 1))) with _ | ⟨cs', r'⟩
      · simp [hp, hq] at h
      simp only [hp, hq, Option.some.injEq, Prod.mk.injEq] at h
      obtain ⟨rfl, rfl⟩ := h
      obtain ⟨g, le, e, l, rd⟩ := (ih (k + 1) hle).1 _ _ hq
      rw [hadd]
      refine ⟨?_, le, e, by simp [l], ?_⟩
      · intro j hj
        cases j with
        | zero => exact hg
        | succ j => have := g j (by omega); rwa [show k + (j + 1) = k + 1 + j by omega]
      · intro j c' hj
        cases j with
        | zero => simp at hj; exact hj ▸ hr
        | succ j => have := rd j c' (by simpa using hj); rwa [show k + (j + 1) = k + 1 + j by omega]
    · intro hg hle
      have hm := cellStart_mono b (k + 1) n
      rw [hadd] at hle ⊢
      obtain ⟨c, hc⟩ := h2 (hg 0 (by omega)) (by omega)
      obtain ⟨cs, hcs⟩ := (ih (k + 1) (by omega)).2 (fun j hj => by
        have := hg (j + 1) (by omega)
        rwa [show k + (j + 1) = k + 1 + j by omega] at this) hle
      exact ⟨c :: cs, by unfold parseCells; simp only [hc, hcs]⟩

/-- The direction a number encodes. -/
theorem directionOf_some {n : Nat} {d : Direction} : directionOf n = some d ↔ directionCode d = n := by
  unfold directionOf
  cases d <;> simp only [directionCode] <;> (split_ifs <;> simp <;> omega)

/-- What reading a number of marks can do: all are read exactly where each direction is listed and they end
before the end of the bytes (R124, R216). -/
theorem parseMarks_at (b : List Byte) {L : Nat} (hL : L ≤ b.length) (n : Nat) : ∀ p, p ≤ L →
    (∀ ms rest, parseMarks n ((b.take L).drop p) = some (ms, rest) →
      (∀ j < n, field b (p + 4 * j + 3) 1 = 1 ∨ field b (p + 4 * j + 3) 1 = 2) ∧ p + 4 * n ≤ L ∧
      rest = (b.take L).drop (p + 4 * n) ∧ ms.length = n ∧
      ∀ j m, ms[j]? = some m → m.monitor = field b (p + 4 * j) 1 ∧
        m.code = field b (p + 4 * j + 1) 2 ∧ directionCode m.direction = field b (p + 4 * j + 3) 1) ∧
    ((∀ j < n, field b (p + 4 * j + 3) 1 = 1 ∨ field b (p + 4 * j + 3) 1 = 2) → p + 4 * n ≤ L →
      ∃ ms, parseMarks n ((b.take L).drop p) = some (ms, (b.take L).drop (p + 4 * n))) := by
  induction n with
  | zero =>
    intro p hp
    refine ⟨?_, fun _ _ => ⟨[], rfl⟩⟩
    rintro cs rest h
    cases h
    exact ⟨by omega, hp, rfl, rfl, by simp⟩
  | succ n ih =>
    intro p hp
    have hlen : ((b.take L).drop p).length = L - p := by simp; omega
    by_cases hs : L - p < 4
    · constructor
      · intro ms rest h; unfold parseMarks at h; simp [hlen, hs] at h
      · intro _ h; omega
    have f (o w) (h : p + o + w ≤ L) : field ((b.take L).drop p) o w = field b (p + o) w :=
      field_take_drop b h
    have hdd : ((b.take L).drop p).drop 4 = (b.take L).drop (p + 4) := by rw [List.drop_drop]
    obtain ⟨i1, i2⟩ := ih (p + 4) (by omega)
    constructor
    · intro ms rest h
      unfold parseMarks at h
      rw [hlen, if_neg hs, hdd, f 3 1 (by omega), f 0 1 (by omega), f 1 2 (by omega)] at h
      rcases hd : directionOf (field b (p + 3) 1) with _ | d
      · simp [hd] at h
      rcases hm : parseMarks n ((b.take L).drop (p + 4)) with _ | ⟨ms', r⟩
      · simp [hm] at h
      simp only [hd, hm, Option.some.injEq, Prod.mk.injEq] at h
      obtain ⟨rfl, rfl⟩ := h
      obtain ⟨g, le, e, l, rd⟩ := i1 _ _ hm
      have hdc := directionOf_some.1 hd
      refine ⟨?_, by omega, by rw [e]; congr 1; omega, by simp [l], ?_⟩
      · intro j hj
        cases j with
        | zero =>
          simp only [Nat.mul_zero, Nat.add_zero]
          cases d <;> simp [directionCode] at hdc <;> omega
        | succ j => have := g j (by omega); rwa [show p + 4 * (j + 1) = p + 4 + 4 * j by omega]
      · intro j m hj
        cases j with
        | zero => simp at hj; subst hj; exact ⟨rfl, rfl, hdc⟩
        | succ j => have := rd j m (by simpa using hj); rwa [show p + 4 * (j + 1) = p + 4 + 4 * j by omega]
    · intro hg hle
      obtain ⟨ms, hms⟩ := i2 (fun j hj => by
        have := hg (j + 1) (by omega)
        rwa [show p + 4 * (j + 1) = p + 4 + 4 * j by omega] at this) (by omega)
      have h0 := hg 0 (by omega)
      obtain ⟨d, hd⟩ : ∃ d, directionOf (field b (p + 3) 1) = some d := by
        rcases h0 with h | h <;> simp only [Nat.mul_zero, Nat.add_zero] at h <;> rw [h]
        · exact ⟨.rising, rfl⟩
        · exact ⟨.falling, rfl⟩
      refine ⟨⟨field b (p + 0) 1, field b (p + 1) 2, d⟩ :: ms, ?_⟩
      unfold parseMarks
      rw [hlen, if_neg hs, hdd, f 3 1 (by omega), f 0 1 (by omega), f 1 2 (by omega), hd, hms,
        show p + 4 * (n + 1) = p + 4 + 4 * n by omega]

end Sys2Proof.Machine
end

