-- ==== Sys2Proof/Laws/Memory.lean ====
section
/-! SUPPORT. The node's two memories: every operation keeps the canonical form, a read after a write
to the same address gives what was written, and a write leaves every other address alone. -/

namespace Sys2Proof

/-! ## The canonical form -/

theorem memAbove_mono {m : Memory} {a b : Nat} (hab : a ≤ b) (h : memAbove b m = true) :
    memAbove a m = true := by
  induction m with
  | nil => rfl
  | cons c m ih =>
    simp only [memAbove, Bool.and_eq_true, decide_eq_true_eq] at *
    exact ⟨by omega, ih h.2⟩

theorem memAbove_memWrite {m : Memory} {low a : Nat} (v : Byte) (ha : low < a)
    (h : memAbove low m = true) : memAbove low (memWrite m a v) = true := by
  induction m with
  | nil => unfold memWrite; split <;> simp [memAbove, ha]
  | cons c m ih =>
    obtain ⟨k, w⟩ := c
    simp only [memAbove, Bool.and_eq_true, decide_eq_true_eq] at h
    unfold memWrite
    split_ifs <;> simp_all [memAbove]

theorem memWf_cons {a : Nat} {v : Byte} {m : Memory} :
    memWf ((a, v) :: m) = true ↔ v ≠ unwritten ∧ memAbove a m = true ∧ memWf m = true := by
  simp only [memWf, Bool.and_eq_true, bne_iff_ne, ne_eq, and_assoc]

/-- A write keeps the canonical form. -/
theorem memWrite_wf {m : Memory} (a : Nat) (v : Byte) (h : memWf m = true) :
    memWf (memWrite m a v) = true := by
  induction m with
  | nil =>
    unfold memWrite
    split
    · rfl
    · next hv => exact memWf_cons.2 ⟨hv, rfl, rfl⟩
  | cons c m ih =>
    obtain ⟨k, w⟩ := c
    obtain ⟨hw, hk, hm⟩ := memWf_cons.1 h
    unfold memWrite
    split_ifs with h1 h2 h3 h4
    · exact h
    · refine memWf_cons.2 ⟨h2, ?_, h⟩
      simp only [memAbove, Bool.and_eq_true, decide_eq_true_eq]
      exact ⟨h1, memAbove_mono (Nat.le_of_lt h1) hk⟩
    · exact hm
    · exact memWf_cons.2 ⟨h4, h3 ▸ hk, hm⟩
    · exact memWf_cons.2 ⟨hw, memAbove_memWrite v (by omega) hk, ih hm⟩

/-- A run of writes keeps the canonical form. -/
theorem memWriteRun_wf (bytes : List Byte) : ∀ {m : Memory} (a : Nat), memWf m = true →
    memWf (memWriteRun m a bytes) = true := by
  induction bytes with
  | nil => exact fun _ h => h
  | cons b bs ih => exact fun a h => ih _ (memWrite_wf a b h)

/-- A write into the intake buffer keeps the canonical form. -/
theorem bufferWrite_wf (bytes : List Byte) : ∀ {m : Memory} (p : Pos), memWf m = true →
    memWf (bufferWrite m p bytes) = true := by
  induction bytes with
  | nil => exact fun _ h => h
  | cons b bs ih => exact fun p h => ih _ (memWrite_wf p.toNat b h)

/-- A write into the share store keeps the canonical form. -/
theorem storeWrite_wf (blocks : List Block) : ∀ {m : Memory} (bytes : List Byte), memWf m = true →
    memWf (storeWrite m blocks bytes) = true := by
  induction blocks with
  | nil => exact fun _ h => h
  | cons b bs ih => exact fun _ h => ih _ (memWriteRun_wf _ _ h)

/-! ## Reads after writes -/

theorem memRead_of_above {m : Memory} {low a : Nat} (ha : a ≤ low) (h : memAbove low m = true) :
    memRead m a = unwritten := by
  induction m with
  | nil => rfl
  | cons c m ih =>
    obtain ⟨k, w⟩ := c
    simp only [memAbove, Bool.and_eq_true, decide_eq_true_eq] at h
    simp only [memRead, if_neg (show ¬k = a by omega), ih h.2]

/-- What every address reads after a write. -/
theorem memRead_memWrite {m : Memory} (h : memWf m = true) (a : Nat) (v : Byte) (x : Nat) :
    memRead (memWrite m a v) x = if x = a then v else memRead m x := by
  induction m with
  | nil =>
    unfold memWrite
    split
    · next hv => simp [memRead, hv]
    · simp [memRead, eq_comm]
  | cons c m ih =>
    obtain ⟨k, w⟩ := c
    obtain ⟨hw, hk, hm⟩ := memWf_cons.1 h
    have low : ∀ y, y ≤ k → memRead m y = unwritten := fun y hy => memRead_of_above hy hk
    unfold memWrite
    by_cases hxa : x = a
    · subst hxa
      rw [if_pos rfl]
      split_ifs with h1 h2 h3 h4
      · rw [memRead, if_neg (by omega), low x (by omega), h2]
      · rw [memRead, if_pos rfl]
      · rw [low x (by omega), h4]
      · rw [memRead, if_pos rfl]
      · rw [memRead, if_neg (by omega), ih hm, if_pos rfl]
    · rw [if_neg hxa]
      split_ifs with h1 h2 h3 h4
      · rfl
      · rw [memRead, if_neg (by omega)]
      · rw [memRead, if_neg (by omega)]
      · rw [memRead, if_neg (by omega), memRead, if_neg (by omega)]
      · rw [memRead, memRead, ih hm, if_neg hxa]

/-- A read after a write to the same address. -/
theorem memRead_memWrite_same {m : Memory} (h : memWf m = true) (a : Nat) (v : Byte) :
    memRead (memWrite m a v) a = v := by simp [memRead_memWrite h]

/-- A write leaves every other address alone. -/
theorem memRead_memWrite_other {m : Memory} (h : memWf m = true) {a x : Nat} (v : Byte) (hx : x ≠ a) :
    memRead (memWrite m a v) x = memRead m x := by simp [memRead_memWrite h, hx]

/-- What every address reads after a run of writes. -/
theorem memRead_memWriteRun (bytes : List Byte) : ∀ {m : Memory} (a x : Nat), memWf m = true →
    memRead (memWriteRun m a bytes) x
      = if a ≤ x ∧ x < a + bytes.length then bytes.getD (x - a) 0 else memRead m x := by
  induction bytes with
  | nil => intro m a x _; simp only [memWriteRun, List.length_nil]; rw [if_neg (by omega)]
  | cons b bs ih =>
    intro m a x h
    simp only [memWriteRun, ih (a + 1) x (memWrite_wf a b h), memRead_memWrite h, List.length_cons]
    by_cases hxa : x = a
    · subst hxa
      rw [if_neg (by omega), if_pos rfl, if_pos (by omega)]
      simp
    · by_cases hin : a + 1 ≤ x ∧ x < a + 1 + bs.length
      · rw [if_pos hin, if_pos (by omega)]
        obtain ⟨n, rfl⟩ : ∃ n, x = a + 1 + n := ⟨x - (a + 1), by omega⟩
        rw [show a + 1 + n - a = n + 1 by omega, show a + 1 + n - (a + 1) = n by omega]
        rfl
      · rw [if_neg hin, if_neg hxa, if_neg (by omega)]

/-- A store write leaves alone every byte of the blocks it is not given. -/
theorem memRead_storeWrite_other (blocks : List Block) : ∀ {m : Memory} (bytes : List Byte) (x : Nat),
    memWf m = true → (∀ q ∈ blocks, x / Config.blockSize ≠ q.toNat) →
    memRead (storeWrite m blocks bytes) x = memRead m x := by
  induction blocks with
  | nil => exact fun _ _ _ _ => rfl
  | cons b bs ih =>
    intro m bytes x h hx
    have hb := hx b (by simp)
    simp only [storeWrite]
    rw [ih _ _ (memWriteRun_wf _ _ h) (fun q hq => hx q (by simp [hq])), memRead_memWriteRun _ _ _ h,
      if_neg]
    have : (bytes.take Config.blockSize).length ≤ 64 := by simp [Config.blockSize]
    simp only [blockBase, Config.blockSize] at *
    omega

/-- The bytes a run of reads gives: their number. -/
@[simp] theorem memReadRun_length (m : Memory) (n : Nat) : ∀ a, (memReadRun m a n).length = n := by
  induction n with
  | zero => exact fun _ => rfl
  | succ n ih => exact fun a => by simp [memReadRun, ih]

@[simp] theorem bufferRead_length (m : Memory) (n : Nat) : ∀ p, (bufferRead m p n).length = n := by
  induction n with
  | zero => exact fun _ => rfl
  | succ n ih => exact fun p => by simp [bufferRead, ih]

/-- A run of reads after a run of writes of the same bytes. -/
theorem memReadRun_memWriteRun {m : Memory} (h : memWf m = true) (a : Nat) (bytes : List Byte) :
    memReadRun (memWriteRun m a bytes) a bytes.length = bytes := by
  have key : ∀ (n off : Nat), off + n = bytes.length →
      memReadRun (memWriteRun m a bytes) (a + off) n = bytes.drop off := by
    intro n
    induction n with
    | zero => intro off ho; simp [memReadRun, ← ho]
    | succ n ih =>
      intro off ho
      have hoff : off < bytes.length := by omega
      rw [memReadRun, show a + off + 1 = a + (off + 1) by omega, ih (off + 1) (by omega),
        memRead_memWriteRun _ _ _ h, if_pos (by omega), show a + off - a = off by omega,
        List.drop_eq_getElem_cons hoff]
      simp [hoff]
  simpa using key bytes.length 0 (by omega)

/-- Runs of reads that agree at every address they read are equal. -/
theorem memReadRun_congr {m m' : Memory} (n : Nat) : ∀ a,
    (∀ x, a ≤ x → x < a + n → memRead m x = memRead m' x) → memReadRun m a n = memReadRun m' a n := by
  induction n with
  | zero => exact fun _ _ => rfl
  | succ n ih =>
    intro a h
    rw [memReadRun, memReadRun, h a (by omega) (by omega),
      ih (a + 1) (fun x h1 h2 => h x (by omega) (by omega))]

/-- The first reads of a longer run. -/
theorem memReadRun_take (m : Memory) (k : Nat) : ∀ (n a : Nat), k ≤ n →
    (memReadRun m a n).take k = memReadRun m a k := by
  induction k with
  | zero => intro n a _; simp [memReadRun]
  | succ k ih =>
    intro n a h
    obtain ⟨n, rfl⟩ : ∃ j, n = j + 1 := ⟨n - 1, by omega⟩
    simp [memReadRun, ih n (a + 1) (by omega)]

/-- The bytes written into distinct blocks with room for them are the bytes read back. -/
theorem storeRead_storeWrite (blocks : List Block) : ∀ {m : Memory} (bytes : List Byte),
    memWf m = true → blocks.Nodup → bytes.length ≤ Config.blockSize * blocks.length →
    storeRead (storeWrite m blocks bytes) blocks bytes.length = bytes := by
  induction blocks with
  | nil =>
    intro m bytes _ _ h
    simp at h
    simp [h, storeRead]
  | cons b bs ih =>
    intro m bytes h hn hl
    obtain ⟨hb, hbs⟩ := List.nodup_cons.1 hn
    have hwf := memWriteRun_wf (bytes.take Config.blockSize) (blockBase b) h
    have htail := ih (bytes.drop Config.blockSize) hwf hbs (by
      simp only [List.length_drop, List.length_cons, Config.blockSize] at *; omega)
    have hfirst : memReadRun (storeWrite m (b :: bs) bytes) (blockBase b) Config.blockSize
        = memReadRun (memWriteRun m (blockBase b) (bytes.take Config.blockSize)) (blockBase b)
            Config.blockSize := by
      refine memReadRun_congr _ _ fun x h1 h2 => memRead_storeWrite_other bs _ x hwf fun q hq he => hb ?_
      have : b = q := BitVec.eq_of_toNat_eq (by
        simp only [blockBase, Config.blockSize] at *; omega)
      exact this ▸ hq
    have hlen : (bytes.take Config.blockSize).length ≤ Config.blockSize := by simp
    simp only [storeRead, storeReadAll, storeWrite] at *
    rw [List.take_append, memReadRun_length, hfirst]
    by_cases hs : bytes.length ≤ Config.blockSize
    · rw [memReadRun_take _ _ _ _ hs, show bytes.length - Config.blockSize = 0 by omega,
        List.take_zero, List.append_nil, List.take_of_length_le hs, memReadRun_memWriteRun h]
    · have hfull : (bytes.take Config.blockSize).length = Config.blockSize := by
        rw [List.length_take]; omega
      have hrun := memReadRun_memWriteRun h (blockBase b) (bytes.take Config.blockSize)
      rw [hfull] at hrun
      rw [List.take_of_length_le (by rw [memReadRun_length]; omega), hrun]
      simp only [List.length_drop] at htail
      rw [htail, List.take_append_drop]

end Sys2Proof
end

