-- ==== Sys2Proof/Laws/Ops.lean ====
section
/-! SUPPORT. One lemma for each shared operation that says what it does, for the proofs to cite: the
outcome of a command, the counters, the records, the moment of a time-driven command, the
judgement of records and the examination of a close. -/

namespace Sys2Proof.Machine

open Sys2Proof

variable {s t : State}

/-! ## The outcome of a command -/

theorem perform_next {i : Instr} (f : State → State) (h : i.wellFormed = true) :
    perform i f s = .next (f s) := if_pos h

theorem perform_fault {i : Instr} (f : State → State) (h : i.wellFormed = false) :
    perform i f s = .fault .illFormed := if_neg (by simp [h])

theorem perform_cases {i : Instr} {f : State → State} (h : perform i f s = .next t) :
    i.wellFormed = true ∧ t = f s := by
  unfold perform at h
  split at h
  · next hw => exact ⟨hw, (Host.Outcome.next.inj h).symm⟩
  · cases h

/-! ## Counters and causes -/

@[simp] theorem raise_pins (c : Cause) : (raise c s).pins = s.pins := rfl
@[simp] theorem raise_loader (c : Cause) : (raise c s).loader = s.loader := rfl
@[simp] theorem raise_clock (c : Cause) : (raise c s).clock = s.clock := rfl
@[simp] theorem raise_intake (c : Cause) : (raise c s).intake = s.intake := rfl
@[simp] theorem raise_streams (c : Cause) : (raise c s).streams = s.streams := rfl
@[simp] theorem raise_table (c : Cause) : (raise c s).table = s.table := rfl
@[simp] theorem raise_link (c : Cause) : (raise c s).link = s.link := rfl
@[simp] theorem raise_gather (c : Cause) : (raise c s).gather = s.gather := rfl
@[simp] theorem raise_assembler (c : Cause) : (raise c s).assembler = s.assembler := rfl
@[simp] theorem raise_monitors (c : Cause) : (raise c s).monitors = s.monitors := rfl
@[simp] theorem raise_counters (c : Cause) : (raise c s).counters = s.counters := rfl
@[simp] theorem raise_pending (c : Cause) : (raise c s).pending = s.pending := rfl

theorem raise_causes (c : Cause) : (raise c s).port.causes = s.port.causes.add c := rfl

@[simp] theorem bump_pins (c : Counter) : (bump c s).pins = s.pins := by
  unfold bump; simp only; split <;> rfl
@[simp] theorem bump_loader (c : Counter) : (bump c s).loader = s.loader := by
  unfold bump; simp only; split <;> rfl
@[simp] theorem bump_clock (c : Counter) : (bump c s).clock = s.clock := by
  unfold bump; simp only; split <;> rfl
@[simp] theorem bump_intake (c : Counter) : (bump c s).intake = s.intake := by
  unfold bump; simp only; split <;> rfl
@[simp] theorem bump_streams (c : Counter) : (bump c s).streams = s.streams := by
  unfold bump; simp only; split <;> rfl
@[simp] theorem bump_table (c : Counter) : (bump c s).table = s.table := by
  unfold bump; simp only; split <;> rfl
@[simp] theorem bump_link (c : Counter) : (bump c s).link = s.link := by
  unfold bump; simp only; split <;> rfl
@[simp] theorem bump_gather (c : Counter) : (bump c s).gather = s.gather := by
  unfold bump; simp only; split <;> rfl
@[simp] theorem bump_assembler (c : Counter) : (bump c s).assembler = s.assembler := by
  unfold bump; simp only; split <;> rfl
@[simp] theorem bump_monitors (c : Counter) : (bump c s).monitors = s.monitors := by
  unfold bump; simp only; split <;> rfl
@[simp] theorem bump_pending (c : Counter) : (bump c s).pending = s.pending := by
  unfold bump; simp only; split <;> rfl

theorem bump_counters (c : Counter) :
    (bump c s).counters = s.counters.set c.index (satInc (s.count c)) := by
  unfold bump; simp only; split <;> rfl

/-- An increment and a change of the clock touch nothing of each other's. -/
theorem bump_setClock (c : Counter) (k : Clock) : bump c (s.setClock k) = (bump c s).setClock k := by
  unfold bump
  rw [show (s.setClock k).count c = s.count c from rfl]
  dsimp only
  split <;> rfl

/-- The port after an increment: COUNT_WATCH set exactly at an error-group counter's step to 128 (R210). -/
theorem bump_port (c : Counter) : (bump c s).port = { s.port with causes := { s.port.causes with
    countWatch := s.port.causes.countWatch || (c.inErrorGroup && s.count c == 127) } } := by
  unfold bump
  simp only [Config.watchBelow]
  split
  · next h => simp [raise, State.setPort, State.setCounters, Causes.add, h]
  · next h => simp only [Bool.not_eq_true] at h; simp [State.setCounters, h]

theorem Counter.index_inj {c k : Counter} (h : c.index = k.index) : c = k := by
  revert h; cases c <;> cases k <;> decide

theorem count_bump_same (c : Counter) : (bump c s).count c = min (s.count c + 1) 65535 := by
  simp [State.count, bump_counters, satInc, Config.counterMax]

theorem count_bump_other {c k : Counter} (h : k ≠ c) : (bump c s).count k = s.count k := by
  have hi : c.index.val ≠ k.index.val := fun he => h (Counter.index_inj (Fin.ext he)).symm
  simp only [State.count, bump_counters, Fin.getElem_fin]
  exact Vector.getElem_set_ne (by omega) (by omega) hi

/-- A counter incremented a number of times. -/
theorem count_bumpTimes_same (c : Counter) (n : Nat) : ∀ s : State, s.count c ≤ 65535 →
    (bumpTimes c n s).count c = min (s.count c + n) 65535 := by
  induction n with
  | zero => intro s h; simp only [bumpTimes]; omega
  | succ n ih =>
    intro s h
    rw [bumpTimes, ih _ (by rw [count_bump_same]; omega), count_bump_same]
    omega

theorem count_bumpTimes_other {c k : Counter} (h : k ≠ c) (n : Nat) : ∀ s : State,
    (bumpTimes c n s).count k = s.count k := by
  induction n with
  | zero => exact fun _ => rfl
  | succ n ih => exact fun s => by rw [bumpTimes, ih, count_bump_other h]

/-! ## Records -/

theorem recordOf_some {tag : Tag} {rs : List Record} {r : Record} (h : recordOf tag rs = some r) :
    r ∈ rs ∧ r.tag = tag :=
  ⟨List.mem_of_find?_eq_some h, by simpa using List.find?_some h⟩

theorem oldestOpen_some {rs : List Record} {r : Record} (h : oldestOpen rs = some r) :
    r ∈ rs ∧ r.state = .opened :=
  ⟨List.mem_of_find?_eq_some h, by simpa using List.find?_some h⟩

theorem closingRecord_some {rs : List Record} {r : Record} (h : closingRecord rs = some r) :
    r ∈ rs ∧ r.state = .closing :=
  ⟨List.mem_of_find?_eq_some h, by simpa using List.find?_some h⟩

@[simp] theorem withRecords_records (rs : List Record) : (withRecords rs s).table.records = rs := rfl

theorem updateRecord_eq (tag : Tag) (f : Record → Record) : updateRecord tag f s = { s with
    table := { s.table with
      records := s.table.records.map (fun r => if r.tag = tag then f r else r) } } := rfl

/-- A change that keeps the tag keeps every tag. -/
theorem updateRecord_tags (tag : Tag) {f : Record → Record} (hf : ∀ r, (f r).tag = r.tag) :
    (updateRecord tag f s).table.records.map (·.tag) = s.table.records.map (·.tag) := by
  simp only [updateRecord_eq, List.map_map]
  refine List.map_congr_left fun r _ => ?_
  simp only [Function.comp_apply]
  split
  · exact hf r
  · rfl

theorem freeRecords_eq (gone : Record → Bool) : freeRecords gone s = { s with
    table := { s.table with records := s.table.records.filter (fun r => !gone r) }
    gather := { s.gather with
      free := s.gather.free ++ (s.table.records.filter gone).flatMap Record.blocks } } := rfl

/-- No block is lost or gained when records are freed. -/
theorem freeRecords_blocks (gone : Record → Bool) :
    (blocksInPlace (freeRecords gone s)).Perm (blocksInPlace s) := by
  have hsplit : ((s.table.records.filter gone).flatMap Record.blocks ++
      (s.table.records.filter (fun r => !gone r)).flatMap Record.blocks).Perm
      (s.table.records.flatMap Record.blocks) := by
    rw [← List.flatMap_append]
    exact (List.filter_append_perm gone s.table.records).flatMap_right _
  simp only [blocksInPlace, freeRecords_eq, receptionBlocks, List.append_assoc]
  refine List.Perm.append_left _ ?_
  refine (List.perm_append_comm_assoc _ _ _).trans ?_
  exact List.Perm.append_left _ hsplit

/-! ## The moment of a time-driven command -/

theorem arrive_moment {d : Nat} (h : d = 0 ∨ d ≤ timeToNext s) :
    arrive (some d) s = some (momentOf d s) := by
  cases d with
  | zero => rfl
  | succ k =>
    have : k + 1 ≤ timeToNext s := by omega
    simp [arrive, momentOf, this]

/-- A time-driven command whose event can come: the event at its moment. -/
theorem atMoment_of_canArrive {due : State → Option Nat} {event : State → State} {d : Nat}
    (hd : due s = some d) (h : CanArrive d s) : atMoment due event s = event (momentOf d s) := by
  simp [atMoment, h.1, hd, arrive_moment h.2]

/-- Everything a time-driven command can do. -/
theorem atMoment_cases (due : State → Option Nat) (event : State → State) (s : State) :
    atMoment due event s = s ∨
      ∃ d, due s = some d ∧ CanArrive d s ∧ atMoment due event s = event (momentOf d s) := by
  by_cases hr : s.running = true
  · cases hd : due s with
    | none => simp [atMoment, hr, hd, arrive]
    | some d =>
      by_cases h : d = 0 ∨ d ≤ timeToNext s
      · exact .inr ⟨d, rfl, ⟨hr, h⟩, atMoment_of_canArrive hd ⟨hr, h⟩⟩
      · cases d with
        | zero => simp at h
        | succ k =>
          have : ¬ k + 1 ≤ timeToNext s := by omega
          simp [atMoment, hr, hd, arrive, this]
  · simp [atMoment, hr]

@[simp] theorem elapse_pins (k : Nat) : (elapse k s).pins = s.pins := rfl
@[simp] theorem elapse_loader (k : Nat) : (elapse k s).loader = s.loader := rfl
@[simp] theorem elapse_intake (k : Nat) : (elapse k s).intake = s.intake := rfl
@[simp] theorem elapse_table (k : Nat) : (elapse k s).table = s.table := rfl
@[simp] theorem elapse_link (k : Nat) : (elapse k s).link = s.link := rfl
@[simp] theorem elapse_monitors (k : Nat) : (elapse k s).monitors = s.monitors := rfl
@[simp] theorem elapse_port (k : Nat) : (elapse k s).port = s.port := rfl
@[simp] theorem elapse_counters (k : Nat) : (elapse k s).counters = s.counters := rfl
@[simp] theorem elapse_pending (k : Nat) : (elapse k s).pending = s.pending := rfl

theorem elapse_clock (k : Nat) : (elapse k s).clock = s.clock.advance k s.outPeriod := rfl
theorem elapse_streams (k : Nat) : (elapse k s).streams = s.streams.map (Stream.advance k) := rfl
theorem elapse_roster (k : Nat) :
    (elapse k s).gather.roster = s.gather.roster.map (Peer.advance k) := rfl
@[simp] theorem elapse_free (k : Nat) : (elapse k s).gather.free = s.gather.free := rfl
@[simp] theorem elapse_reception (k : Nat) :
    (elapse k s).gather.reception = s.gather.reception := rfl
@[simp] theorem elapse_store (k : Nat) : (elapse k s).gather.mem = s.gather.mem := rfl
@[simp] theorem elapse_assembler_state (k : Nat) :
    (elapse k s).assembler.state = s.assembler.state := rfl
@[simp] theorem elapse_skipped (k : Nat) : (elapse k s).assembler.skipped = s.assembler.skipped := rfl

/-! ## Judgement, composition and examination -/

theorem nextToLeave_some {rs : List Record} {r : Record} (h : nextToLeave rs = some r) :
    rs.find? (fun r => r.state != .draining) = some r ∧ r.state = .gathering ∧
      r.complete = true := by
  unfold nextToLeave at h
  split at h
  · next q hq =>
    split_ifs at h with hc
    cases h
    exact ⟨hq, hc⟩
  · cases h

theorem judge_of_none (h : nextToLeave s.table.records = none) : judge s = s := by
  unfold judge
  cases s.table.records.length with
  | zero => rfl
  | succ n => simp [judgeUpTo, h]

/-- Everything the assembler can do when it looks for a record. -/
theorem takeRecord_cases (s : State) : takeRecord s = s ∨ ∃ r, s.assembler.state = .idle ∧
    s.table.records.find? (fun r => r.state == .draining) = some r ∧ takeRecord s = compose r s := by
  unfold takeRecord
  split_ifs with hi
  · cases hr : s.table.records.find? (fun r => r.state == .draining) with
    | none => exact .inl rfl
    | some r => exact .inr ⟨r, hi, rfl, rfl⟩
  · exact .inl rfl

/-- What the sequencer may start (R73). -/
theorem startable_some {r : Record} (h : startable s = some r) :
    s.table.sequencer = .idle ∧ oldestOpen s.table.records = some r ∧
      (r.closePassed = true ∨ readyToClose s r = true) := by
  unfold startable at h
  split at h
  · next q hs ho =>
    split_ifs at h with hc
    cases h
    exact ⟨hs, ho, by simpa using hc⟩
  · cases h

theorem examine_of_none (h : startable s = none) : examine s = s := by
  unfold examine
  cases s.table.records.length with
  | zero => rfl
  | succ n => simp [examineUpTo, h]

/-- What the sequencer may start is what an examination may start (R73). -/
theorem startable_iff {r : Record} : startable s = some r ↔ MayStart s r := by
  constructor
  · exact fun h => startable_some h
  · rintro ⟨hs, ho, hc⟩
    have hf : oldestOpen s.table.records = some r := ho
    unfold startable
    rw [hs, hf]
    exact if_pos (by simpa using hc)

/-- The start of a close is the one action of R75. -/
theorem startClose_starts (r : Record) (s : State) : CloseStarts r s (startClose r s) := by
  rintro u rfl
  unfold startClose
  split <;> rfl

theorem startClose_records (r : Record) (s : State) :
    (startClose r s).table.records = s.table.records.map (fun q =>
      if q.tag = r.tag then { q with state := .closing, cells := some [] } else q) := by
  unfold startClose
  split
  · rfl
  · rw [bump_table]; rfl

/-- A close that starts takes its record out of OPEN, so that fewer OPEN records are left. -/
theorem startClose_opened_lt {r : Record} (h : r ∈ s.table.records) (ho : r.state = .opened) :
    (startClose r s).table.records.countP (fun q => q.state == .opened)
      < s.table.records.countP (fun q => q.state == .opened) := by
  rw [startClose_records, List.countP_map]
  generalize s.table.records = l at h
  have hle : ∀ q : Record, ((fun q : Record => q.state == .opened) ∘ fun q =>
      if q.tag = r.tag then { q with state := .closing, cells := some [] } else q) q = true →
      (q.state == .opened) = true := by
    intro q hq
    simp only [Function.comp_apply] at hq
    split at hq
    · simp at hq
    · exact hq
  induction l with
  | nil => cases h
  | cons q l ih =>
    simp only [List.countP_cons, Function.comp_apply]
    rcases List.mem_cons.mp h with rfl | hm
    · have hmono := List.countP_mono_left (l := l) fun q _ => hle q
      simp [ho] at hmono ⊢
      exact hmono
    · have hlt := ih hm
      split_ifs
      all_goals simp_all
      all_goals omega

/-- An examination with at least as many closes allowed as records are OPEN is an examination to its
end, where every completion is the one of R78. -/
theorem examineUpTo_examination
    (complete : ∀ (r : Record) (s : State), r ∈ s.table.records → r.state = .closing →
      CloseCompletes r s (finishClose r s) ∧
        (finishClose r s).table.records.countP (fun q => q.state == .opened)
          ≤ s.table.records.countP (fun q => q.state == .opened)) :
    ∀ (n : Nat) (s : State), s.table.records.countP (fun q => q.state == .opened) ≤ n →
      Examination s (examineUpTo n s) := by
  intro n
  induction n with
  | zero =>
    intro s hn
    refine .nothing s fun r hr => ?_
    have ho := oldestOpen_some hr.2.1
    have := List.countP_pos_iff (p := fun q : Record => q.state == .opened).mpr
      ⟨r, ho.1, by simp [ho.2]⟩
    omega
  | succ n ih =>
    intro s hn
    cases hs : startable s with
    | none =>
      have : examineUpTo (n + 1) s = s := by simp [examineUpTo, hs]
      rw [this]
      exact .nothing s fun r hr => by rw [startable_iff.mpr hr] at hs; cases hs
    | some r =>
      have hmay := startable_iff.mp hs
      by_cases he : r.enabled = []
      · have : examineUpTo (n + 1) s = examineUpTo n
            (finishClose { r with state := .closing, cells := some [] } (startClose r s)) := by
          simp [examineUpTo, hs, he]
        rw [this]
        have hr := oldestOpen_some hmay.2.1
        have hmem : { r with state := .closing, cells := some [] } ∈
            (startClose r s).table.records := by
          rw [startClose_records]
          exact List.mem_map.mpr ⟨r, hr.1, by simp⟩
        obtain ⟨hc, hle⟩ := complete _ _ hmem rfl
        have hlt := startClose_opened_lt (s := s) hr.1 hr.2
        exact .completes s _ _ _ r hmay he (startClose_starts r s) hc (ih _ (by omega))
      · have : examineUpTo (n + 1) s = startClose r s := by simp [examineUpTo, hs, he]
        rw [this]
        exact .starts s _ r hmay he (startClose_starts r s)

/-- An opening, with every examination as `Examination` says it (R22, R67, R68, R74). -/
theorem openTag_opens (h : ∀ u, Examination u (examine u)) (tag : Tag) (s : State) :
    SlotOpens tag s (openTag tag s) := by
  refine ⟨fun hfull => ?_, fun hroom tau u htau hu => ?_⟩
  · have hge : ¬ s.table.records.length < Config.maxRecords := by
      simpa [Config.maxRecords] using hfull
    have : openTag tag s
        = reportSkip (bump .tableFull (s.setClock { s.clock with newest := some tag })) := if_neg hge
    rw [this, bump_setClock]
    simp [reportSkip, State.setAssembler, State.setClock, satInc, Config.counterMax]
  · subst htau hu
    have hlt : s.table.records.length < Config.maxRecords := by simpa [Config.maxRecords] using hroom
    refine ⟨fun hn => ?_, fun ⟨q, hq, ho⟩ => ?_⟩
    · have : oldestOpen s.table.records = none :=
        List.find?_eq_none.mpr fun q hq => by simpa using hn q hq
      have he : openTag tag s = examine _ := (if_pos hlt).trans (if_pos (by simpa using this))
      rw [he]
      exact h _
    · have : oldestOpen s.table.records ≠ none := fun hnone => by
        simpa [ho] using List.find?_eq_none.mp hnone q hq
      obtain ⟨r, hr⟩ := Option.ne_none_iff_exists'.mp this
      exact (if_pos hlt).trans (if_neg (by simp [hr]))

/-- The cadence's evaluation in a running node (R21). -/
theorem evaluate_evaluates (h : ∀ u, Examination u (examine u)) (hr : s.running = true) :
    CadenceEvaluates s (evaluate s) := by
  rintro tag rfl
  have htag : (⟨s.clock.now.sec, s.clock.now.fu / s.outPeriod⟩ : Tag)
      = currentTag s.loader.shared.slotRate s.clock.now := rfl
  rw [htag]
  refine ⟨fun hs hn => ?_, fun hs => ?_⟩
  · have : evaluate s = openTag (currentTag s.loader.shared.slotRate s.clock.now) s := by
      rcases hs with hs | hs <;> simp [evaluate, hr, hs, hn, cadenceRuns]
    rw [this]
    exact openTag_opens h _ _
  · rcases hs with ⟨h1, h2⟩ | hn
    · have : cadenceRuns s.clock.state = false := by
        revert h1 h2; cases s.clock.state <;> simp [cadenceRuns]
      simp [evaluate, this]
    · simp [evaluate, hn]

/-! ## The share queue -/

theorem enqueueShare_room {q : QueuedShare} (h : s.link.queue.length < 64) :
    enqueueShare q s = { s with link := { s.link with queue := s.link.queue ++ [q] } } := if_pos h

theorem handOver_passed {q : QueuedShare} (h : q.passed = true) :
    handOver q s = bump .shareExpired s := if_pos h

theorem handOver_not_passed {q : QueuedShare} (h : q.passed = false) :
    handOver q s = enqueueShare q s := if_neg (by simp [h])

/-! ## The step -/

theorem step_nil (h : s.pending = []) : step s = .next (tick s) := by
  simp [step, h]

/-! ### A message's characters, the moment of a reset, the byte shifted out -/

/-- What the clock has taken of a message: the bytes of the characters younger than the load's end. -/
theorem messageBytes_loaded {c : Clock} {k : Nat} (h : c.loadAge = some k) (chars : List TodChar) :
    messageBytes c chars = (chars.filter (fun x => decide (x.age < k))).map todByte := by
  have : c.hears = fun x : TodChar => decide (x.age < k) := by
    funext x; simp [Clock.hears, h]
  rw [messageBytes, this]

/-- A deassertion under the pin's reset: RELOAD joins the record at that reset's moment, and only then. -/
theorem meetReload_eq : meetReload s = { s with loader := { s.loader with
    cause := { s.loader.cause with reload := s.loader.cause.reload || s.loader.reloadMet }
    reloadMet := false } } := by
  obtain ⟨pins, ⟨st, strap, report, cause, shared, met⟩, _, _, _, _, _, _, _, _, _, _, _⟩ := s
  cases met <;> simp [meetReload, State.setLoader]

/-- The byte shifted out is the response's in RESPONSE and 0 otherwise. -/
theorem Port.shiftedOut_eq (p : Port) (k : Nat) :
    p.shiftedOut k = if p.phase = .response then p.response.getD k 0 else 0 := by
  unfold Port.shiftedOut; cases p.phase <;> rfl

end Sys2Proof.Machine
end

