-- ==== Sys2Proof/Laws/Passings.lean ====
section
/-! SUPPORT. One lemma for each shared operation that lets records leave, entries depart and deadlines
pass, and for the boundary and the set of the count: it does what Safety.lean says of it. -/

namespace Sys2Proof.Machine

open Sys2Proof

variable {s t : State}

/-! ## Judgement -/

theorem nextToLeave_iff {r : Record} : nextToLeave s.table.records = some r ↔ MayLeave s r := by
  have hc : r.complete = true ↔
      (r.gatherPassed = true ∨ ∀ i ∈ r.expected.getD [], r.attachments[i] ≠ .none) := by
    simp [Record.complete]
  constructor
  · intro h
    obtain ⟨h1, h2, h3⟩ := nextToLeave_some h
    exact ⟨h1, h2, hc.mp h3⟩
  · rintro ⟨h1, h2, h3⟩
    simp [nextToLeave, h1, h2, hc.mpr h3]

theorem bump_withRecords (c : Counter) (rs : List Record) :
    bump c (withRecords rs s) = withRecords rs (bump c s) := by
  unfold bump
  rw [show (withRecords rs s).count c = s.count c from rfl]
  dsimp only
  split <;> rfl

/-- Changes of the table and the gatherer touch nothing of an increment's. -/
theorem bump_parts (c : Counter) (tb : Table) (g : Gather) :
    bump c { s with table := tb, gather := g } = { bump c s with table := tb, gather := g } := by
  unfold bump
  rw [show State.count { s with table := tb, gather := g } c = s.count c from rfl]
  dsimp only
  split <;> rfl

theorem leaveGathering_leaves (r : Record) (s : State) :
    LeavesGathering r s (leaveGathering r s) := by
  constructor
  · exact fun h => if_pos h
  · intro h
    have hn : ¬ drainingCount s.table.records < Config.maxDraining := by
      simp only [Config.maxDraining]; omega
    rw [leaveGathering, if_neg hn, freeRecords_eq, bump_parts]
    simp [reportSkip, State.setAssembler, satInc, Config.counterMax]
    constructor <;> rfl

/-- A record that leaves is one fewer not DRAINING. -/
theorem leaveGathering_lt {r : Record} (h : nextToLeave s.table.records = some r) :
    (leaveGathering r s).table.records.countP (fun q => q.state != .draining)
      < s.table.records.countP (fun q => q.state != .draining) := by
  obtain ⟨hf, hg, -⟩ := nextToLeave_some h
  have hm := List.mem_of_find?_eq_some hf
  have hd : (r.state != .draining) = true := by simp [hg]
  have key : ∀ l : List Record, r ∈ l → ∀ f : Record → Option Record,
      (∀ q p, f q = some p → (p.state != .draining) = true → (q.state != .draining) = true) →
      (∀ p, f r = some p → (p.state != .draining) = false) →
      (l.filterMap f).countP (fun q => q.state != .draining)
        < l.countP (fun q => q.state != .draining) := by
    intro l hl f hmono hr
    have hle : ∀ l : List Record, (l.filterMap f).countP (fun q => q.state != .draining)
        ≤ l.countP (fun q => q.state != .draining) := by
      intro l
      induction l with
      | nil => simp
      | cons q l ih =>
        rw [List.filterMap_cons, List.countP_cons]
        cases hq : f q with
        | none => exact Nat.le_add_right_of_le ih
        | some p =>
          simp only [List.countP_cons]
          have := hmono q p hq
          by_cases hp : (p.state != .draining) = true
          · simp [hp, this hp, ih]
          · simp only [Bool.not_eq_true] at hp; simp [hp]; omega
    induction l with
    | nil => cases hl
    | cons q l ih =>
      rw [List.filterMap_cons, List.countP_cons]
      rcases List.mem_cons.mp hl with rfl | hl'
      · have := hle l
        cases hq : f r with
        | none => simp [hd]; omega
        | some p => simp [hr p hq, hd]; omega
      · have := ih hl'
        cases hq : f q with
        | none => simp; omega
        | some p =>
          simp only [List.countP_cons]
          have hmm := hmono q p hq
          by_cases hp : (p.state != .draining) = true
          · simp [hp, hmm hp]; omega
          · simp only [Bool.not_eq_true] at hp; simp [hp]; omega
  unfold leaveGathering
  split
  · have ht : ∀ u : State, (takeRecord u).table = u.table := fun u =>
      takeRecord_frame (s := u) .table (by decide)
    rw [ht, updateRecord_eq]
    have := key s.table.records hm
      (fun q => some (if q.tag = r.tag then { q with state := .draining } else q))
      (by rintro q p hq hp; cases hq; split at hp <;> simp_all) (by rintro p hq; cases hq; simp)
    rwa [← List.filterMap_eq_map]
  · have ht : (reportSkip (bump .skipped (freeRecords (fun q => q.tag == r.tag) s))).table
        = (freeRecords (fun q => q.tag == r.tag) s).table := by
      simp [reportSkip, State.setAssembler]
    rw [ht, freeRecords_eq]
    have := key s.table.records hm (Option.guard fun q => !(q.tag == r.tag))
      (by intro q p hq hp; rw [Option.guard_eq_some_iff] at hq; rwa [hq.1])
      (by intro p hq; rw [Option.guard_eq_some_iff] at hq; obtain ⟨rfl, hp⟩ := hq; simp at hp)
    rwa [List.filterMap_eq_filter] at this

/-- The judgement of all GATHERING records is the one of R79, to its end. -/
theorem judge_judgement (s : State) : Judgement s (judge s) := by
  have h : ∀ (n : Nat) (s : State), s.table.records.countP (fun q => q.state != .draining) ≤ n →
      Judgement s (judgeUpTo n s) := by
    intro n
    induction n with
    | zero =>
      intro s hn
      refine .nothing s fun r hr => ?_
      have hm := List.mem_of_find?_eq_some hr.1
      have := List.countP_pos_iff (p := fun q : Record => q.state != .draining).mpr
        ⟨r, hm, by simp [hr.2.1]⟩
      omega
    | succ n ih =>
      intro s hn
      rw [judgeUpTo]
      cases hs : nextToLeave s.table.records with
      | none => exact .nothing s fun r hr => by rw [nextToLeave_iff.mpr hr] at hs; cases hs
      | some r =>
        have := leaveGathering_lt hs
        exact .leaves s _ _ r (nextToLeave_iff.mp hs) (leaveGathering_leaves r s) (ih _ (by omega))
  exact h _ s List.countP_le_length

/-! ## Departures -/

theorem leavePresent_leaves {i : Station} (next : PeerState)
    (h : s.gather.roster[i].state = .present) : LeavesPresent i next s (leavePresent i next s) := by
  rw [leavePresent, if_pos h, unexpect, bump_table]
  exact (bump_withRecords _ _).symm

theorem countMiss_counted (i : Station) (s : State) : MissCounted i s (countMiss s i) := by
  rintro u rfl
  have hk : ∀ m : Nat, Config.missLimit ≤ min (m + 1) Config.missLimit ↔ 3 ≤ m := by
    intro m; simp only [Config.missLimit]; omega
  have hi : (updatePeer i (fun p => { p with misses := min (p.misses + 1) Config.missLimit }) s).gather.roster[i]
      = { s.gather.roster[i] with misses := min (s.gather.roster[i].misses + 1) Config.missLimit } := by
    simp [updatePeer, State.setGather]
  unfold countMiss
  simp only [hi, hk]
  constructor
  · intro h
    rw [if_pos h]
    exact leavePresent_leaves _ ((congrArg Peer.state hi).trans h.2)
  · intro h
    rw [if_neg h]
    rfl

/-- A fold of events is the events in turn. -/
theorem foldl_inTurn {α : Type} {event : α → State → State → Prop} {f : State → α → State}
    (h : ∀ x s, event x s (f s x)) : ∀ (l : List α) (s : State), InTurn event l s (l.foldl f s)
  | [], _ => rfl
  | x :: xs, s => ⟨f s x, h x s, foldl_inTurn h xs (f s x)⟩

/-! ## Deadlines -/

theorem passClose_passes (h : ∀ u, Examination u (examine u)) (tag : Tag) (s : State) :
    ClosePasses tag s (passClose tag s) := by
  rintro u rfl
  have hold : ∀ l : List Record, (oldestOpen (l.map (fun q =>
      if q.tag = tag then { q with closePassed := true } else q))).map (·.tag)
      = (l.find? (fun q => q.state == .opened)).map (·.tag) := by
    intro l
    induction l with
    | nil => rfl
    | cons q l ih =>
      simp only [oldestOpen, List.map_cons, List.find?_cons] at ih ⊢
      by_cases ht : q.tag = tag <;> by_cases ho : q.state = .opened <;> simp_all [beq_false_of_ne]
  rw [← hold]
  unfold passClose
  simp only [updateRecord_eq]
  cases ho : oldestOpen (s.table.records.map (fun q =>
      if q.tag = tag then { q with closePassed := true } else q)) with
  | none => exact ⟨fun hc => by simp at hc, fun _ => rfl⟩
  | some r =>
    simp only [Option.map_some, Option.some.injEq]
    refine ⟨fun hc => ?_, fun hc => ?_⟩
    · rw [if_pos (by simpa using hc)]; exact h _
    · exact if_neg fun he => hc (by rw [he])

theorem recordOf_map {tag : Tag} {f : Record → Record} (hf : ∀ r, (f r).tag = r.tag)
    (l : List Record) : recordOf tag (l.map (fun q => if q.tag = tag then f q else q))
      = (recordOf tag l).map f := by
  induction l with
  | nil => rfl
  | cons q l ih =>
    simp only [recordOf, List.map_cons, List.find?_cons] at ih ⊢
    by_cases ht : q.tag = tag
    · simp [ht, hf]
    · simp [ht, ih, beq_false_of_ne]

theorem passGather_passes (tag : Tag) (s : State) : GatherPasses tag s (passGather tag s) := by
  rintro r hr u rfl
  have hm : recordOf tag (updateRecord tag (fun r => { r with gatherPassed := true }) s).table.records
      = some { r with gatherPassed := true } := by
    rw [updateRecord_eq]
    exact (recordOf_map (f := fun r => { r with gatherPassed := true }) (fun _ => rfl) _).trans
      (by rw [hr]; rfl)
  have he : passGather tag s = if r.state = .gathering then
      judge (r.missing.foldl countMiss (updateRecord tag (fun r => { r with gatherPassed := true }) s))
      else updateRecord tag (fun r => { r with gatherPassed := true }) s := by
    unfold passGather
    simp only [hm]
    rfl
  rw [he]
  exact ⟨fun hg => if_neg hg, fun hg => by
    rw [if_pos hg]
    exact ⟨_, foldl_inTurn countMiss_counted _ _, judge_judgement _⟩⟩

theorem passShare_passes (tag : Tag) (s : State) : SharePasses tag s (passShare tag s) := by
  constructor
  · intro h
    refine if_neg fun ho => ?_
    unfold Link.sharesOut at ho
    split at ho
    · next f phase htx => exact h f phase htx (Option.some.inj ho)
    · cases ho
  · intro f phase htx hf
    exact if_pos (by simp [Link.sharesOut, htx, hf])

theorem passCloseIfReached_reached (h : ∀ u, Examination u (examine u)) (tag : Tag) (s : State) :
    IfReached ((recordOf tag s.table.records).map (fun r => (r.closeDeadline, r.closePassed)))
      (ClosePasses tag) s (passCloseIfReached tag s) := by
  unfold passCloseIfReached
  cases recordOf tag s.table.records with
  | none => exact ⟨fun ⟨d, hd, _⟩ => by simp at hd, fun _ => rfl⟩
  | some r =>
    refine ⟨fun ⟨d, hd, hr⟩ => ?_, fun hn => if_neg fun hc => hn ?_⟩
    · simp only [Option.map_some, Option.some.injEq, Prod.mk.injEq] at hd
      obtain ⟨rfl, hp⟩ := hd
      simp only [hp, hr, Bool.not_false, Bool.and_self, if_true]
      exact passClose_passes h tag s
    · simp only [Bool.and_eq_true, Bool.not_eq_true'] at hc
      exact ⟨r.closeDeadline, by simp [hc.1], hc.2⟩

theorem passGatherIfReached_reached (tag : Tag) (s : State) :
    IfReached ((recordOf tag s.table.records).map (fun r => (r.gatherDeadline, r.gatherPassed)))
      (GatherPasses tag) s (passGatherIfReached tag s) := by
  unfold passGatherIfReached
  cases recordOf tag s.table.records with
  | none => exact ⟨fun ⟨d, hd, _⟩ => by simp at hd, fun _ => rfl⟩
  | some r =>
    refine ⟨fun ⟨d, hd, hr⟩ => ?_, fun hn => if_neg fun hc => hn ?_⟩
    · simp only [Option.map_some, Option.some.injEq, Prod.mk.injEq] at hd
      obtain ⟨rfl, hp⟩ := hd
      simp only [hp, hr, Bool.not_false, Bool.and_self, if_true]
      exact passGather_passes tag s
    · simp only [Bool.and_eq_true, Bool.not_eq_true'] at hc
      exact ⟨r.gatherDeadline, by simp [hc.1], hc.2⟩

theorem passShareIfReached_reached (tag : Tag) (s : State) :
    ShareReached tag s (passShareIfReached tag s) := by
  unfold passShareIfReached ShareReached
  cases s.link.queue.find? (fun e => e.tag == tag) with
  | none => exact ⟨fun ⟨d, hd, _⟩ => by simp at hd, fun _ => rfl⟩
  | some q =>
    refine ⟨fun ⟨d, hd, hr⟩ => ?_, fun hn => if_neg fun hc => hn ?_⟩
    · simp only [Option.map_some, Option.some.injEq, Prod.mk.injEq] at hd
      obtain ⟨rfl, hp⟩ := hd
      simp only [hp, hr, Bool.not_false, Bool.and_self, if_true]
      exact passShare_passes tag s
    · simp only [Bool.and_eq_true, Bool.not_eq_true'] at hc
      exact ⟨q.deadline, by simp [hc.1], hc.2⟩

/-- Every passing that a set of the count brings, as R71, R120 and R136 have it. -/
theorem passReached_passes (h : ∀ u, Examination u (examine u)) (s : State) :
    DeadlinesPass s (passReached s) :=
  ⟨_, foldl_inTurn (fun tag s => ⟨_, passCloseIfReached_reached h tag s,
    passGatherIfReached_reached tag _⟩) _ _, foldl_inTurn passShareIfReached_reached _ _⟩

/-! ## The second boundary and the set of the count -/

theorem passReached_loader : (passReached s).loader = s.loader :=
  passReached_frame (s := s) .loader (by decide)

theorem deliverBoundary_loader : (deliverBoundary s).loader = s.loader :=
  deliverBoundary_frame (s := s) .loader (by decide)

theorem evaluate_loader : (evaluate s).loader = s.loader :=
  evaluate_frame (s := s) .loader (by decide)

theorem copyEnable_eq (st : Stream) : st.copyEnable = { st with
    working := st.pending
    health :=
      if st.pending = st.working then st.health
      else if st.pending = false then .disabled
      else match st.age with
        | none => .unseen
        | some a => if a < 12000000 then .live else .stalled } := by
  obtain ⟨e, p, w, hl, ag, r, hz, c⟩ := st
  cases p <;> cases w <;> rfl

/-- The bound of the fastest working stream, streams taken one after the other (R70). -/
theorem fastest_bound (k : Nat) : ∀ (l : List Stream) (w : Nat),
    (match fastestPeriod l with
      | none => w
      | some p => min w (k * p)) =
    ((l.filter (·.working)).map (·.period)).foldl (fun w p => min w (k * p)) w
  | [], _ => rfl
  | st :: l, w => by
    have ih := fastest_bound k l
    cases hw : st.working
    · simpa [fastestPeriod, hw] using ih w
    · rw [List.filter_cons_of_pos (by simpa using hw)]
      simp only [List.map_cons, List.foldl_cons, ← ih, fastestPeriod, hw, if_true]
      cases fastestPeriod l with
      | none => rfl
      | some p =>
        simp only [Nat.mul_min_mul_left, min_assoc]

theorem copyEnable_periods : ∀ l : List Stream,
    ((l.map Stream.copyEnable).filter (·.working)).map (·.period)
      = (l.filter (·.pending)).map (·.period)
  | [] => rfl
  | st :: l => by
    have hw : st.copyEnable.working = st.pending := by rw [copyEnable_eq]
    have hp : st.copyEnable.period = st.period := by rw [copyEnable_eq]; rfl
    have ih := copyEnable_periods l
    cases h : st.pending <;> simp_all

theorem mem_losingLive {l : List Stream} {n : Nat} : n ∈ losingLive l ↔
    ∃ st ∈ l[n]?, ∃ st' ∈ (l.map Stream.copyEnable)[n]?, st.health = .live ∧ st'.health ≠ .live := by
  simp only [losingLive, List.mem_filter, List.mem_range, List.getElem?_map]
  cases h : l[n]? with
  | none => simp
  | some st =>
    have := (List.getElem?_eq_some_iff.mp h).1
    simp [this, losesLive]

/-- An examination for a list of positions is one exactly when it names a stream of the oldest OPEN
record's enable set. -/
theorem examineForAny_cases (h : ∀ u, Examination u (examine u)) (ns : List Nat) (s : State) :
    ((∃ r ∈ s.table.records.find? (fun q => q.state == .opened), ∃ n ∈ r.enabled, n ∈ ns) →
      Examination s (examineForAny ns s)) ∧
    (¬(∃ r ∈ s.table.records.find? (fun q => q.state == .opened), ∃ n ∈ r.enabled, n ∈ ns) →
      examineForAny ns s = s) := by
  unfold examineForAny
  change ((∃ r ∈ oldestOpen s.table.records, _) → _) ∧ (¬(∃ r ∈ oldestOpen s.table.records, _) → _)
  cases oldestOpen s.table.records with
  | none => simp
  | some r =>
    have hc : r.enabled.any (fun n => ns.contains n) = true ↔ ∃ n ∈ r.enabled, n ∈ ns := by simp
    simp only [hc, Option.mem_def, Option.some.injEq, exists_eq_left']
    exact ⟨fun hv => by rw [if_pos hv]; exact h _, fun hv => if_neg hv⟩

/-- The second boundary delivered in a running node. -/
theorem deliverBoundary_delivers (h : ∀ u, Examination u (examine u)) (hr : s.running = true) :
    BoundaryDelivers s (deliverBoundary s) := by
  rintro u grace wait leaves rfl rfl hu hl
  have hcopy : queueBeacon (recomputeWait (copyEnableSets (if decide (s.clock.state = .stepping)
      then s.setClock { s.clock with state := .locked } else s))) = u := by
    have hw : ∀ w, (match fastestPeriod (s.streams.map Stream.copyEnable) with
        | none => w
        | some p => min w (28 * p))
        = ((s.streams.filter (·.pending)).map (·.period)).foldl (fun w p => min w (28 * p)) w :=
      fun w => by rw [fastest_bound, copyEnable_periods]
    rw [hu, ← hw]
    by_cases hst : s.clock.state = .stepping
    · simp only [hst, decide_true, if_true, queueBeacon, recomputeWait, copyEnableSets,
        State.setClock, State.setStreams, State.setTable, State.setLink]
      congr 1
      exact List.map_congr_left fun st _ => copyEnable_eq st
    · simp only [hst, decide_false, if_false, queueBeacon, recomputeWait, copyEnableSets,
        State.setStreams, State.setTable, State.setLink]
      congr 1
      exact List.map_congr_left fun st _ => copyEnable_eq st
  have hus : u.streams = s.streams.map Stream.copyEnable := by
    rw [hu]; exact List.map_congr_left fun st _ => (copyEnable_eq st).symm
  have hut : u.table.records = s.table.records := by rw [hu]
  have hul : u.loader = s.loader := by rw [hu]
  have hex := examineForAny_cases h (losingLive s.streams) u
  simp only [mem_losingLive, hut, ← hus] at hex
  rw [← hl] at hex
  refine ⟨examineForAny (losingLive s.streams) u, hex.1, hex.2, fun hst => ?_, fun hst => ?_⟩
  · have : deliverBoundary s = evaluate (examineForAny (losingLive s.streams) u) := by
      rw [← hcopy]; unfold deliverBoundary; simp [hst]
    rw [this]
    refine evaluate_evaluates h ?_
    rw [State.running, examineForAny_frame (losingLive s.streams) .loader (by decide), hul]
    exact hr
  · rw [← hcopy]; unfold deliverBoundary; simp [hst]

/-- What a set of the count brings in a running node. -/
theorem afterSet_follows (h : ∀ u, Examination u (examine u)) (before : Time) (locks : Bool)
    (hr : s.running = true) : SetFollows before (locks = true) s (afterSet before locks s) := by
  have hrun : ∀ {a b : State}, b.loader = a.loader → a.running = true → b.running = true := by
    intro a b hb ha; rw [State.running, hb]; exact ha
  refine ⟨if s.clock.now.sec ≠ before.sec then deliverBoundary s else s, _, fun hs => ?_, fun hs => ?_,
    passReached_passes h _, fun hc => ?_, fun hc => ?_⟩
  · rw [if_pos hs]; exact deliverBoundary_delivers h hr
  · exact if_neg (by simpa using hs)
  · have : afterSet before locks s = evaluate (passReached
        (if s.clock.now.sec ≠ before.sec then deliverBoundary s else s)) := if_pos hc
    rw [this]
    refine evaluate_evaluates h (hrun passReached_loader ?_)
    split
    · exact hrun deliverBoundary_loader hr
    · exact hr
  · exact if_neg hc

theorem settleDue_settles (h : ∀ u, Examination u (examine u)) (hr : s.running = true) :
    DueSettles s (settleDue s) := by
  have hrun : ∀ {a b : State}, b.loader = a.loader → a.running = true → b.running = true := by
    intro a b hb ha; rw [State.running, hb]; exact ha
  refine ⟨if s.clock.boundaryDue then reachBoundary s else s, _, fun hb => ?_, fun hb => ?_,
    fun hd => ?_, fun hd => ?_, passReached_passes h _⟩
  · rw [if_pos hb]; exact deliverBoundary_delivers h hr
  · exact if_neg (by simp [hb])
  · rw [if_pos hd]
    refine evaluate_evaluates h ?_
    split
    · exact hrun (a := s) deliverBoundary_loader hr
    · exact hr
  · exact if_neg (by simp [hd])

theorem bumpTimes_parts (c : Counter) (tb : Table) (g : Gather) : ∀ (n : Nat) (s : State),
    bumpTimes c n { s with table := tb, gather := g }
      = { bumpTimes c n s with table := tb, gather := g }
  | 0, _ => rfl
  | n + 1, s => by rw [bumpTimes, bump_parts, bumpTimes_parts c tb g n]; rfl

/-- Every OPEN record abandoned (R82). -/
theorem abandonOpen_abandons (s : State) : Abandons s (abandonOpen s) := by
  rintro gone rfl
  have ho : (fun r : Record => decide (r.state = .opened)) = fun r => r.state == .opened :=
    funext fun r => by cases r.state <;> rfl
  have hn : (fun r : Record => decide (r.state ≠ .opened)) = fun r => !(r.state == .opened) :=
    funext fun r => by cases r.state <;> rfl
  rw [ho, hn]
  unfold abandonOpen
  simp only [freeRecords_eq, List.countP_eq_length_filter, bumpTimes_parts]
  rfl

end Sys2Proof.Machine
end

