-- ==== Sys2Proof/Tests/Slice0.lean ====
section
/-! SUPPORT. Tests of the model, each on one small state: the operand checks, the spec's worked
examples, and for every statement with hypotheses a concrete state and operands that meet them
(`witness_` and the statement's name, shortened; what stands after it names the clause). -/

namespace Sys2Proof.Tests

open Sys2Proof Sys2Proof.Machine

set_option Elab.async false

/-! ## A small node -/

/-- A shared section: slot rate 50, stations 0, 1 and 2. -/
def settings : Shared :=
  { slotRate := .r50, stations := [0, 1, 2], defaultWait := 100, grace := 100, silenceLimit := 200
    holdoverLimit := 1, stopOnExpiry := false, edgeSelect := .rising, delayComp := 600
    blanking := 900, lockTolerance := 6, stepLimit := 600, snapTolerance := 6, holdLimit := 1
    earlyLimit := 1000, accuracyLimit := 15, digest := 0x1234 }

/-- A working stream. -/
def stream (code : Nat) (rate : Rate) (phasors : Nat) (role : Role) : Stream :=
  { Stream.load ⟨code, rate, phasors, role, true⟩ with health := .live, age := some 0 }

/-- A sample with one phasor. -/
def sample (t : Time) : Sample :=
  { t := t, phasors := [⟨1000, 10⟩], freq := 20, rocof := 30, digital := 5, invalid := false
    suspect := false, stamp := ⟨t, true⟩, settled := true }

/-- A running station 1 of three, LOCKED at (1000, 60,000), with two streams and four free blocks;
station 0 is PRESENT and station 2 UNHEARD. -/
def lab : State :=
  { State.reset with
    loader := { State.reset.loader with state := .loaded, strap := 1, shared := settings }
    clock := { Clock.reset with
      state := .locked, now := ⟨1000, 60000⟩, edgeAge := some 59400, newest := some ⟨1000, 0⟩
      loadAge := some 99999999 }
    intake := { Intake.reset [] with writer := .idle }
    streams := [stream 7 .r50 1 .primary, stream 8 .r25 1 (.secondary 0)]
    link := { Link.reset with state := .active, medium := .idle }
    gather :=
      { roster := (loadedRoster 1 settings.stations).set 0 ⟨.present, some .locked, none, none, 0, some 0⟩
        free := [0, 1, 2, 3], reception := none, mem := [] }
    assembler := ⟨.idle, 0, none⟩
    port := { Port.reset with phase := .waiting } }

/-- A record of a tag in a state, with both streams enabled. -/
def record (t : Tag) (st : RecordState) : Record :=
  { tag := t, state := st, closeDeadline := ⟨t.sec, t.k * 120000 + 720000⟩
    gatherDeadline := ⟨t.sec, t.k * 120000 + 1320000⟩, closePassed := false, gatherPassed := false
    enabled := [0, 1], cells := none, marks := [], expected := none
    attachments := Vector.replicate 16 .none, afterStep := false }

/-- The lab with records. -/
def labWith (rs : List Record) : State := { lab with
  table := { lab.table with
    records := rs
    sequencer := if (closingRecord rs).isSome then .closing else .idle } }

/-- The lab with a transaction open in COMMAND. -/
def labPort : State := { lab with
  pins := { lab.pins with chipSelect := true }, port := { lab.port with phase := .command } }

/-- The state a command leaves. -/
def after (c : Instr) (s : State) : State :=
  match exec c s with
  | .next t => t
  | .fault _ => s
  | .refused _ => s

/-- The states of the records. -/
def states (s : State) : List (Nat × RecordState) := s.table.records.map (fun r => (r.tag.k, r.state))

/-! ## Operands the outside world cannot send -/

theorem test_illFormed_position : (Instr.stallExpiry 48).wellFormed = false := by decide
theorem test_illFormed_tag_second : (Instr.closeDeadline ⟨4294967296, 0⟩).wellFormed = false := by decide
theorem test_illFormed_tag_k : (Instr.gatheringDeadline ⟨0, 120⟩).wellFormed = false := by decide
theorem test_illFormed_share_tag : (Instr.shareExpiry ⟨0, 120⟩).wellFormed = false := by decide
theorem test_illFormed_header : (Instr.shareHeader [17]).wellFormed = false := by decide
theorem test_illFormed_readStream : (Instr.readStream [0, 0]).wellFormed = false := by decide
theorem test_illFormed_setWait : (Instr.setWait [0, 0, 0]).wellFormed = false := by decide
theorem test_illFormed_enable : (Instr.enableStream [0, 0]).wellFormed = false := by decide
theorem test_illFormed_disable : (Instr.disableStream [0, 0]).wellFormed = false := by decide
theorem test_illFormed_ack : (Instr.ackAttention [0, 0]).wellFormed = false := by decide
theorem test_illFormed_message : (Instr.timeOfDayMessage []).wellFormed = false := by decide
theorem test_illFormed_unknown : (Instr.unknownCommand 0x25).wellFormed = false := by decide

/-- An ill-formed operand is the model's one fault. -/
theorem test_illFormed_faults : exec (.readStream [0, 0]) labPort = .fault .illFormed := by rfl

/-! ## Formats (chapter 12) -/

/-- The CRC-16 check value of R213 over the ASCII digits 1 to 9. -/
theorem test_crc16_check_value :
    crc16 [0x31, 0x32, 0x33, 0x34, 0x35, 0x36, 0x37, 0x38, 0x39] = 0x29B1 := by decide +kernel

/-- The CRC-32 check value of R213 over the ASCII digits 1 to 9. -/
theorem test_crc32_check_value :
    crc32 [0x31, 0x32, 0x33, 0x34, 0x35, 0x36, 0x37, 0x38, 0x39] = 0xCBF43926 := by decide +kernel

/-- The second time of 00_scope.md section 6.1: 2,100,000 fu are within one second. -/
theorem test_time_carries : (Time.mk 1000 5000000).plus 2100000 = ⟨addSeconds 1000 1, 1100000⟩ := by
  decide +kernel

/-- The segment of 64 bytes of R217's remark: cells of 2 phasors, none and 4 phasors. -/
theorem test_segment_size :
    let v (n : Nat) : Option CellValues := some ⟨List.replicate n ⟨1, 1⟩, 0, 0, 0⟩
    (Segment.size ⟨7, .received, none, [⟨1, .exact, false, false, false, false, 0, v 2⟩,
      ⟨2, .absent, false, false, false, false, 0, none⟩,
      ⟨3, .exact, false, false, false, false, 0, v 4⟩]⟩) = 64 := by decide +kernel

/-! ## Cell resolution: the examples of chapter 5 -/

/-- Section 5.9: the bracket across a second boundary. -/
def gapEarly : Sample :=
  { sample ⟨99, 5800000⟩ with phasors := [⟨800000, 5000⟩], freq := -2400, rocof := 10, digital := 1 }
/-- Section 5.9: the later end, INVALID. -/
def gapLate : Sample :=
  { sample ⟨100, 200000⟩ with
    phasors := [⟨799000, 60000⟩], freq := -2600, rocof := -30, digital := 2, invalid := true }

theorem test_example_5_9 : resolve ⟨⟨100, 50000⟩, 200000, 6, 1, 9⟩ [gapEarly, gapLate]
    = ⟨9, .interpolated, true, false, false, false, 0, some ⟨[⟨799375, 63951⟩], -2525, -15, 2⟩⟩ := by
  decide +kernel

/-- Section 5.10: one stream through successive slots, for the hold limits 1, 0 and 3. -/
theorem test_example_5_10 :
    let q (k h : Nat) := (resolve ⟨⟨5, k * 120000⟩, 240000, 6, h, 9⟩
      [sample ⟨5, 0⟩, sample ⟨5, 240000⟩]).quality
    [q 0 1, q 1 1, q 2 1, q 3 1, q 3 0, q 4 1, q 5 1, q 5 3, q 8 3, q 9 3] =
      [.exact, .interpolated, .exact, .held, .absent, .held, .absent, .held, .held, .absent] := by
  decide +kernel

/-- Section 5.11: half a turn, the candidate above is taken. -/
theorem test_example_5_11_half_turn :
    (weight 240000 600000, predictedRotation 5000 600000, unwrapped 32768 10000 10000,
      interpolateAngle 32768 26214 10000 10000) = (26214, 32768, 65536, 36214) := by decide +kernel

/-- Section 5.11: six whole turns. -/
theorem test_example_5_11_many_turns :
    (weight 720000 1200000, predictedRotation 30000 1200000, unwrapped 393216 1000 1500,
      interpolateAngle 393216 39322 1000 1500) = (39322, 393216, 393716, 40624) := by decide +kernel

/-- Section 5.12: the same two samples under snap tolerances of 6 and 0. -/
theorem test_example_5_12 :
    let a := sample ⟨5, 49998⟩
    let b := { sample ⟨5, 100002⟩ with phasors := [⟨1300, 10⟩] }
    let c (snap : Nat) := resolve ⟨⟨5, 50000⟩, 50000, snap, 1, 9⟩ [a, b]
    (c 6).quality = .exact ∧ (c 0).quality = .interpolated ∧
      ((c 0).values.map (·.phasors)) = some [⟨1000, 10⟩] ∧
      ringFinal ⟨5, 50000⟩ 6 50000 [a, b] = true ∧ ringFinal ⟨5, 50000⟩ 0 50000 [a, b] = false := by
  decide +kernel

/-! ## Rings: the example of section 3.8 -/

/-- The 32 settled samples of section 3.8 at the horizon (…500, 900,000). -/
def fullStream : Stream :=
  { stream 7 .r50 1 .primary with
    ring := (List.range 21).map (fun i => sample ⟨499, 3480000 + 120000 * i⟩) ++
      (List.range 7).map (fun i => sample ⟨500, 120000 * i⟩) ++
      (List.range 4).map (fun i => sample ⟨500, 960000 + 120000 * i⟩)
    horizon := some ⟨500, 900000⟩ }

theorem test_example_3_8 :
    let offer (st : Stream) (fu : Nat) := st.offer (sample ⟨500, fu⟩)
    let s1 := offer fullStream 840000
    let s2 := offer s1.2 840000
    let s3 := offer s2.2 480000
    let s4 := offer s3.2 1440000
    (s1.1, s2.1, s3.1, s4.1) = (.takenLate, .refusedDuplicate, .refusedLate, .taken) ∧
      s4.2.counters = ⟨2, 1, 2, 1, 1, 0⟩ ∧ s4.2.ring.length = 32 ∧
      s4.2.ring.head?.map (·.t) = some ⟨499, 3720000⟩ := by
  decide +kernel

/-- Section 3.8: before the first close, an offer older than a full ring is STALE, and one within it
takes the evicted oldest's place. -/
theorem test_example_3_8_stale :
    let st := { fullStream with horizon := none }
    (st.offer (sample ⟨499, 3360000⟩)).1 = .refusedStale ∧
      (st.offer (sample ⟨499, 3490002⟩)).2.ring.head?.map (·.t) = some ⟨499, 3490002⟩ := by
  decide +kernel

/-! ## Station clock: the examples of section 1.4 -/

/-- A running clock at a count, with a pending message and enough edge age. -/
def clockAt (st : ClockState) (now : Time) (m : Option TodMessage) : State := { lab with
  clock := { lab.clock with state := st, now := now, pendingTod := m, edgeAge := some 6000003 } }

/-- The first edge sets the time within the second only, the second is not known yet. -/
theorem test_example_acquisition_set :
    let s := { clockAt .acquiring ⟨0, 2345678⟩ (some ⟨1700000000, none⟩) with streams := [] }
    let t := after (.ppsEdge .rise) { s with clock := { s.clock with newest := none, edgeAge := none } }
    t.clock.now = ⟨0, 600⟩ ∧ t.clock.state = .acquiring ∧ t.clock.pendingTod = none := by
  decide +kernel

/-- The edge that locks: the count set to the message's second and tag 0 opened 600 fu late. -/
theorem test_example_acquisition_lock :
    let s := clockAt .acquiring ⟨1, 603⟩ (some ⟨1700000001, none⟩)
    let t := after (.ppsEdge .rise) { s with clock := { s.clock with newest := none } }
    t.clock.now = ⟨1700000001, 600⟩ ∧ t.clock.state = .locked ∧
      t.clock.newest = some ⟨1700000001, 0⟩ := by
  decide +kernel

/-- An inserted leap second: the second repeats and nothing opens. -/
theorem test_example_leap :
    let s := clockAt .locked ⟨1700086400, 601⟩ (some ⟨1700086399, none⟩)
    let t := after (.ppsEdge .rise) { s with
      clock := { s.clock with announcement := some .insertSecond, newest := some ⟨1700086400, 0⟩ } }
    t.clock.now = ⟨1700086399, 600⟩ ∧ t.count .leap = 1 ∧ t.clock.announcement = none ∧
      t.clock.newest = some ⟨1700086400, 0⟩ ∧ t.table.records = [] ∧
      t.link.beacon = some ⟨1700086399, true⟩ := by
  decide +kernel

/-- Records whose deadlines are far ahead. -/
def farRecord (k : Nat) (st : RecordState) : Record :=
  { record ⟨5000, k⟩ st with closeDeadline := ⟨5002, 0⟩, gatherDeadline := ⟨5002, 0⟩ }

/-- A step with records in every state (section 4.6): e is −4,200, the four OPEN records are gone. -/
theorem test_example_step :
    let s := clockAt .locked ⟨5000, 5996400⟩ none
    let t := after (.ppsEdge .rise) { s with
      table := { s.table with
        sequencer := .closing
        records := [farRecord 20 .draining, farRecord 21 .draining, farRecord 22 .draining,
          { farRecord 23 .gathering with expected := some [0] },
          { farRecord 24 .gathering with expected := some [0] },
          { farRecord 25 .closing with cells := some [] },
          farRecord 26 .opened, farRecord 27 .opened, farRecord 28 .opened, farRecord 29 .opened] } }
    t.clock.state = .stepping ∧ t.clock.stepAge = some 0 ∧
      states t = [(20, .draining), (21, .draining), (22, .draining), (23, .gathering),
        (24, .gathering), (25, .closing)] ∧
      t.count .recordsAbandoned = 4 ∧ t.link.notice = some ⟨.stepped, ⟨5000, 29⟩⟩ ∧
      t.table.afterStep = true := by
  decide +kernel

/-- Nine seconds later an edge names a second 3 away: the step is escalated. -/
theorem test_example_escalation :
    let s := clockAt .locked ⟨5009, 600⟩ (some ⟨5012, none⟩)
    let t := after (.ppsEdge .rise) { s with clock := { s.clock with stepAge := some 54000000 } }
    t.clock.state = .stopped ∧ t.link.notice = some ⟨.stopping, ⟨0, 0⟩⟩ ∧ t.attn = true := by
  decide +kernel

/-! ## Intake: the example of section 2.3 -/

/-- The nearly full buffer, the checker on an 85-byte frame at 20,000. -/
def nearlyFull : State := { lab with
  intake := { lab.intake with
    readPtr := 20000, writeHead := 19940, writeCur := 19940, held := 32708, checker := .checking
    mem := [(20008, 85)] } }

theorem test_example_2_3_start :
    let t := after .frameStart nearlyFull
    t.intake.writer = .receiving ∧ t.intake.writeCur = 19949 ∧ t.intake.free = 51 ∧
      t.count .framesReceived = 1 := by
  decide +kernel

/-- Twelve bytes into frame D the buffer is full: the 13th byte undoes it. -/
theorem test_example_2_3_full :
    let t := after (.byteEvent 1) { nearlyFull with
      pins := { lab.pins with strobe := true }
      intake := { nearlyFull.intake with
        writer := .receiving, writeHead := 19979, writeCur := 20000, held := 32747, frameBytes := 12 } }
    t.intake.writer = .discarding ∧ t.intake.writeCur = 19979 ∧ t.intake.free = 21 ∧
      t.count .bufferFull = 1 := by
  decide +kernel

/-- The checker ends the frame at 20,000: 94 bytes are released. -/
theorem test_example_2_3_release :
    let t := after .frameJudgement { nearlyFull with
      intake := { nearlyFull.intake with writer := .discarding, writeHead := 19979, writeCur := 19979
                                         held := 32747 } }
    t.intake.readPtr = 20094 ∧ t.intake.held = 32653 ∧ t.intake.free = 115 := by
  decide +kernel

/-- The frame of a sample of code 7 with one phasor (R214), closed by its CRC-16. -/
def frameOf (code : Nat) (t : Time) : List Byte :=
  let body := [0xA7, 0x01] ++ beBytes 2 30 ++ beBytes 2 code ++ beBytes 4 t.sec ++ beBytes 3 (t.fu / 6)
    ++ [0, 0, 0, 1] ++ beBytes 3 1000 ++ beBytes 2 10 ++ beBytes 2 20 ++ beBytes 2 30 ++ beBytes 2 5
  body ++ beBytes 2 (crc16 body).toNat

/-- The node with a held frame and a stamp in the buffer. -/
def holding (f : List Byte) (stamp : Stamp) : State := { lab with
  intake := { lab.intake with
    mem := bufferWrite (bufferWrite [] 0 (stampEntry stamp f.length)) 9 f
    writeHead := 9 + BitVec.ofNat 15 f.length, writeCur := 9 + BitVec.ofNat 15 f.length
    held := 9 + f.length, checker := .checking } }

/-- One source over two paths (section 2.4): a sample 10,000 fu ahead of its arrival is EARLY. -/
theorem test_example_early :
    let t := after .frameJudgement (holding (frameOf 7 ⟨500, 600000⟩) ⟨⟨500, 590000⟩, true⟩)
    t.intake.lastDrop = ⟨7, .early, ⟨500, 590000⟩⟩ ∧ t.count .early = 1 := by
  decide +kernel

/-- One source over two paths: a sample on time is admitted with the values of its frame. -/
theorem test_example_admitted :
    let t := after .frameJudgement (holding (frameOf 7 ⟨500, 240000⟩) ⟨⟨500, 301000⟩, true⟩)
    (t.streams.map (·.ring)) = [[{ sample ⟨500, 240000⟩ with stamp := ⟨⟨500, 301000⟩, true⟩
                                                             settled := false }], []] ∧
      t.count .samplesAdmitted = 1 := by
  decide +kernel

/-! ## Slot table, shares and snapshots: the examples of chapters 4, 7, 8 and 9 -/

/-- A composition in delivery. -/
def composition (t : Tag) (n : Nat) : Composition :=
  { tag := t, slotRate := .r50, emitter := 1, clock := .locked
    flags := ⟨false, false, false, false, false⟩, skipped := 0, marks := [], segments := [], length := n }

/-- A stalled port (section 4.8): with 16 DRAINING the record whose close completes is skipped. -/
theorem test_example_stalled_port :
    let rs := (List.range 16).map (fun i => farRecord (10 + i) .draining) ++
      [{ farRecord 26 .closing with enabled := [], cells := some [] }]
    let s := labWith rs
    let t := after .closeCompletion { s with
      gather := { s.gather with roster := loadedRoster 1 settings.stations }
      assembler := ⟨.delivering (composition ⟨5000, 10⟩ 99) 5, 0, none⟩ }
    t.table.records.length = 16 ∧ t.count .skipped = 1 ∧ t.assembler.skipped = 1 := by
  decide +kernel

/-- The shortened wait of section 4.3: W_eff and G_eff after SET_WAIT(50) at slot rate 60. -/
theorem test_example_shortened_wait :
    (graceOf 100 100000, waitOf 50 600000 100000 (some 50000), waitOf 2000 600000 100000 (some 50000))
      = (600000, 300000, 1400000) := by decide +kernel

/-- A notice from station 2 (section 7.4): four records wait for it. -/
theorem test_example_peer_steps :
    let stored : Attachment := .stored [0] 21
    let none16 : Vector Attachment 16 := Vector.replicate 16 .none
    let rs := [farRecord 28 .draining,
      { farRecord 29 .gathering with expected := some [0, 2], attachments := none16.set 0 stored },
      { farRecord 30 .gathering with expected := some [0, 2] }, farRecord 31 .opened, farRecord 32 .opened]
    let s := labWith rs
    let f : OutFrame := .notice ⟨.stepped, ⟨5000, 31⟩⟩
    let t := after (.linkFrameEnd (f.key 2) (f.bytes 2)) { s with
      link := { s.link with medium := .foreign } }
    states t = [(28, .draining), (29, .draining), (30, .gathering), (31, .opened), (32, .opened)] ∧
      t.table.records.map (fun r => (r.attachments[(2 : Station)], r.expected)) =
        [(.none, none), (.abandoned, some [0]), (.abandoned, some [0]), (.abandoned, none), (.none, none)] ∧
      t.gather.roster[(2 : Station)].lastClock = some .stepping := by
  decide +kernel

/-- A cell with one phasor. -/
def cell (code : Nat) (q : Quality) : Cell :=
  ⟨code, q, false, false, false, false, 0, if q = .absent then none else some ⟨[⟨1, 1⟩], 0, 0, 0⟩⟩

/-- A cell with a number of phasors. -/
def wideCell (code n : Nat) (q : Quality) : Cell :=
  ⟨code, q, false, false, false, false, 0, some ⟨List.replicate n ⟨1, 1⟩, 0, 0, 0⟩⟩

/-- A share of cells and marks. -/
def share (t : Tag) (cells : List Cell) (marks : List Mark) : ShareFrame :=
  ⟨t, 50, 0x1234, .locked, cells, marks⟩

/-- The bytes of a share but for its CRC-32, which no reader of a stored share looks at. -/
def storedBytes (i : Station) (f : ShareFrame) : List Byte :=
  (shareBytes i f).take (f.size - 4) ++ [0, 0, 0, 0]

/-- Inclusion at the secondary station (section 7.5). -/
theorem test_example_inclusion :
    let bytes := storedBytes 7 (share ⟨3000, 5⟩ [cell 4101 .exact, cell 4102 .absent] [])
    let r := { record ⟨3000, 5⟩ .closing with
      enabled := [0, 1, 2]
      cells := some [cell 4101 .interpolated, cell 4102 .held, cell 5000 .exact]
      attachments := (Vector.replicate 16 Attachment.none).set 7 (.stored [0] bytes.length) }
    let streams := [stream 4101 .r50 1 (.secondary 7), stream 4102 .r50 1 (.secondary 7),
      stream 5000 .r50 1 .primary]
    (outgoingCells streams (storeWrite [] [0] bytes) r).map (fun c => (c.code, c.secondary, c.primary))
      = [(4102, true, 7), (5000, false, 0)] := by
  decide +kernel

/-- A covered secondary cell, an uncovered one and a primary one. -/
theorem witness_OutgoingShare :
    let bytes := storedBytes 7 (share ⟨3000, 5⟩ [cell 4101 .exact, cell 4102 .absent] [])
    let cs := [cell 4101 .interpolated, cell 4102 .held, cell 5000 .exact]
    let stored := (storedShare (storeWrite [] [0] bytes) (.stored [0] bytes.length)).map (·.cells)
    stored = some [cell 4101 .exact, cell 4102 .absent] ∧ (cs.map (·.code)).Nodup := by
  decide +kernel

/-- Composing one snapshot (section 8.3), with its cells, marks, statuses and lengths. -/
theorem test_example_composition :
    let five := storedBytes 5 (share ⟨3000, 5⟩ [{ cell 4102 .interpolated with secondary := true, primary := 7 },
      cell 6000 .exact] [])
    let seven := storedBytes 7 (share ⟨3000, 5⟩ [wideCell 4101 2 .exact, cell 4102 .absent,
      wideCell 7000 4 .held] [⟨0, 7000, .falling⟩])
    let r := { record ⟨3000, 5⟩ .draining with
      enabled := [0, 1, 2], expected := some [1, 5, 7], marks := [⟨3, 5000, .rising⟩]
      cells := some [wideCell 4101 2 .interpolated, cell 4102 .held, wideCell 5000 3 .exact]
      attachments := ((Vector.replicate 16 Attachment.none).set 5 (.stored [0] five.length)).set 7
        (.stored [1, 2] seven.length) }
    let c := composeRecord .r50 2 [1, 2, 5, 7] .locked false 0
      (Vector.replicate 16 ⟨.present, some .locked, none, none, 0, none⟩)
      [stream 4101 .r50 2 (.secondary 7), stream 4102 .r50 1 (.secondary 7), stream 5000 .r50 3 .primary]
      (storeWrite (storeWrite [] [0] five) [1, 2] seven) r
    c.segments.map (fun g => (g.station, g.status, g.cells.map (·.code))) =
        [(1, .missing, []), (2, .local_, [5000]), (5, .received, [4102, 6000]),
          (7, .received, [4101, 4102, 7000])] ∧
      c.segments.map Segment.size = [4, 31, 38, 64] ∧ c.length = 17 + 10 + 4 + 31 + 38 + 64 + 4 ∧
      c.marks = [(2, ⟨3, 5000, .rising⟩), (7, ⟨0, 7000, .falling⟩)] ∧
      (c.flags.gap, c.flags.marked, c.flags.partial_) = (false, true, true) := by
  decide +kernel

/-- A monitor on FREQ with threshold 150 and blanking 2 that watches position 0 (section 9.2). -/
def monitor (level : Level) (countdown : Nat) : Monitor :=
  { Monitor.reset with
    settings := ⟨.freq, 150, 0, 0, .both, 2⟩, watch := [0]
    levels := level :: List.replicate 47 .unknown, countdown := countdown }

/-- The lab with one monitor and a record in close. -/
def watching (level : Level) (countdown : Nat) : State :=
  let s := labWith [{ farRecord 11 .closing with cells := some [] }]
  { s with monitors := s.monitors.set 2 (monitor level countdown) }

/-- A cell of code 4,101 with a frequency deviation. -/
def freqCell (f : Int) : Cell := ⟨4101, .exact, false, false, false, false, 0, some ⟨[⟨1, 1⟩], f, 0, 0⟩⟩

/-- Blanking across a run of closes: (S, 11) fires, (S, 12) is blanked, (S, 16) at the threshold is
BELOW. -/
theorem test_example_blanking :
    let fired := evaluateCell 0 (freqCell 160) ⟨5000, 11⟩ (watching .below 0)
    let blanked := evaluateCell 0 (freqCell 140) ⟨5000, 11⟩ (watching .above 2)
    let edge := evaluateCell 0 (freqCell 150) ⟨5000, 11⟩ (watching .above 1)
    fired.table.records.map (·.marks) = [[⟨2, 4101, .rising⟩]] ∧ fired.monitors[2].countdown = 2 ∧
      blanked.table.records.map (·.marks) = [[]] ∧ blanked.count .marksBlanked = 1 ∧
      (Monitor.countDown blanked.monitors[2]).countdown = 1 ∧
      edge.monitors[2].levels.head? = some .below := by
  decide +kernel

/-- A ninth mark is refused. -/
theorem test_example_mark_overflow :
    let s := watching .below 0
    let t := evaluateCell 0 (freqCell 160) ⟨5000, 11⟩
      (withRecords [{ farRecord 11 .closing with marks := List.replicate 8 ⟨0, 1, .rising⟩ }] s)
    t.count .markOverflow = 1 ∧ t.count .marksAppended = 0 := by
  decide +kernel

/-! ## Resets, loads and the service port: the examples of chapters 10 and 11 -/

/-- An empty station section: no entries, eight monitors OFF. -/
def emptySection : List Byte := [0, 91, 0] ++ List.replicate 88 0

/-- The shared section of the image of section 10.6, whose five settings clamp. -/
def imageHeader : List Byte :=
  [0xC1, 0x6A, 0x01, 0, 0, 0x05, 0xDD, 60, 0x02, 0x25, 0x09, 0xC4, 0, 100, 0, 200, 0, 60, 0, 1,
    0x02, 0x58, 0, 50, 0x02, 0xBC, 0x01, 0xF4, 0, 6, 1, 0x2E, 0xE0, 9]

/-- Station 5's section: one primary stream of code 4,101 at 120 per second, enabled at start. -/
def ownSection : List Byte := [0, 98, 1, 0x10, 0x05, 120, 2, 0, 0, 1] ++ List.replicate 88 0

/-- The body of the image of section 10.6. -/
def imageBody : List Byte :=
  imageHeader ++ ((List.replicate 5 emptySection).flatten ++
    (ownSection ++ (List.replicate 10 emptySection).flatten))

/-- The image of section 10.6 with its check value. -/
def image : List Byte := closeCrc32 imageBody

theorem image_whole : imageFault image = none := by
  have hlen : imageBody.length = 1497 := by decide +kernel
  have hl : imageField image 3 4 = 1501 := by decide +kernel
  have hm : imageField image 0 2 = 0xC16A ∧ imageField image 2 1 = 1 := by decide +kernel
  have hc : crc32 (imageBytes image 0 1497) = BitVec.ofNat 32 (imageField image 1497 4) :=
    hlen ▸ closeCrc32_imageGood imageBody
  simp [imageFault, hl, hm.1, hm.2, Config.minImage, Config.maxImage, hc]

/-- A result other than an error is the one it holds. -/
theorem ok_of_toOption {ε α : Type} {x : Except ε α} {a : α} (h : x.toOption = some a) : x = .ok a := by
  cases x with
  | error e => cases h
  | ok b => exact congrArg _ (Option.some.inj h)

/-- The one entry and the eight monitors of the section. -/
theorem image_section : readSection image 5 (stationsOf (imageField image 8 2)) 489
    = .ok ([⟨4101, .r120, 2, .primary, true⟩], List.replicate 8 ⟨.freq, 0, 0, 0, .off, 0⟩) :=
  ok_of_toOption (by decide +kernel)

/-- A load with clamps (section 10.6), at station 5. -/
theorem image_load : load 5 image = ⟨⟨.none, none, readClamps image, some (sharedDigest image)⟩,
    some ⟨readShared image .r60 .rising, [⟨4101, .r120, 2, .primary, true⟩],
      List.replicate 8 ⟨.freq, 0, 0, 0, .off, 0⟩⟩⟩ :=
  load_passes image_whole (by decide +kernel) (by decide +kernel) (by decide +kernel)
    (ok_of_toOption (by decide +kernel)) image_section

/-- The settings the load of section 10.6 clamps, and what it makes of them. -/
theorem test_example_clamps :
    let w := readShared image .r60 .rising
    [w.defaultWait, w.blanking, w.lockTolerance, w.stepLimit, w.earlyLimit]
        = [2000, 100, 600, 601, 10000] ∧
      readClamps image = { Clamps.none with
        defaultWait := true, blanking := true, lockTolerance := true, stepLimit := true
        earlyLimit := true } := by
  decide +kernel

/-- A blank flash reads as all ones: MARKER_FAULT, and the station is in CONFIG_FAULT with ATTN high. -/
theorem test_blank_flash :
    let t := after (.loadFault []) State.reset
    t.loader.report.reason = .markerFault ∧ t.loader.cause = ⟨true, false, false, true⟩ ∧
      t.intake.writer = .ignoring ∧ t.attn = true := by
  decide +kernel

/-- The reset cause record over a working day (section 10.7): RELOAD, then the pin. -/
theorem test_example_reset_cause :
    let s := { labPort with
      loader := { lab.loader with cause := ⟨false, false, false, false⟩ }
      port := { labPort.port with phase := .response, reloadPending := true } }
    let t := after (.chipSelectDeassert 5) s
    let u := after .resetPinAssert t
    t.loader.cause = ⟨false, false, true, false⟩ ∧ t.loader.strap = 5 ∧ t.loader.state = .loading ∧
      u.loader.cause = ⟨false, true, true, false⟩ := by
  decide +kernel

/-- A transaction cut short (section 11.5) is counted, and BAD_CRC at 128 raises ATTN. -/
theorem test_example_cut_short :
    let t := after (.chipSelectDeassert 0) (after (.setWait [5]) labPort)
    (after (.setWait [5]) labPort).port.phase = .arguments ∧ t.port.phase = .waiting ∧
      t.count .commandsRefused = 1 ∧ t.table.requestedWait = lab.table.requestedWait := by
  decide +kernel

theorem test_example_watch :
    let s := { lab with counters := zeroCounters.set 11 127 }
    (bump .badCrc s).attn = true ∧ (bump .badCrc s).count .badCrc = 128 ∧ s.attn = false := by
  decide +kernel

/-- SET_WAIT stores 2,000 ms at most and answers what it stored (R69, R207). -/
theorem test_setWait_limit :
    (after (.setWait [0xFF, 0xFF]) labPort).port.response = [0x01, 0x07, 0xD0] := by decide +kernel

/-! ## Witnesses: a state and operands for every statement with hypotheses -/

theorem canArrive_of {d : Nat} {s : State} (h : (s.running && (d == 0 || decide (d ≤ timeToNext s))) = true) :
    CanArrive d s := by
  simpa [CanArrive] using h

/-! ### The step and the laws -/

theorem witness_StepTakesTheFrontCommand :
    ({ lab with pending := [.reload, .readStatus] } : State).pending = .reload :: [.readStatus] := rfl

theorem witness_IdleStepLetsOneFuPass :
    State.reset.pending = [] ∧ State.reset.running = false ∧ lab.pending = [] ∧ lab.running = true ∧
      0 < timeToNext lab := by decide +kernel

/-- The last fu of a second: one fu on, the count wraps. -/
theorem witness_IdleStepLetsOneFuPass_wrap :
    let s := clockAt .acquiring ⟨1000, 5999999⟩ none
    s.pending = [] ∧ s.running = true ∧ 0 < timeToNext s := by decide +kernel

/-- Events due with no command waiting: the first of them in the model's order, the laws holding. -/
theorem witness_IdleStep_due :
    let stalled := { stream 7 .r50 1 .primary with age := some 12000000 }
    let reached : Record := { farRecord 26 .gathering with
      closePassed := true, gatherDeadline := ⟨1000, 60000⟩, expected := some [0] }
    let with_ (c : Clock) (ss : List Stream) (rs : List Record) (mark : Option Nat) : State :=
      { labWith rs with clock := { c with newest := some ⟨5000, 26⟩ }, streams := ss
                        assembler := ⟨.idle, 0, mark⟩ }
    let states : List State := [with_ { lab.clock with boundaryDue := true } [stalled] [reached] (some 60),
      with_ lab.clock [stalled] [reached] (some 60), with_ { lab.clock with edgeAge := some 9000000 } [] [] none,
      with_ lab.clock [stalled] [reached] none, with_ lab.clock [] [reached] none]
    (∀ s ∈ states, s.pending = [] ∧ s.running = true ∧ ClockLaw s ∧ TableLaw s ∧ QueueLaw s ∧
      timeToNext s = 0) ∧
    states.map (fun s => ((eventsDue s).find? (·.1)).map (·.2)) =
      [some .localSecondBoundary, some .markPulseEnd, some .holdoverEntry, some (.stallExpiry 0),
        some (.gatheringDeadline ⟨5000, 26⟩)] := by
  refine ⟨?_, by decide +kernel⟩
  unfold ClockLaw TableLaw QueueLaw
  decide +kernel

theorem witness_CommandsComplete :
    (Instr.readStream [0]).wellFormed = true ∧ (Instr.readStream [0, 0]).wellFormed = false := by
  decide

theorem witness_CommandsChangeOnlyTheirParts :
    MemoryLaw lab ∧ ∃ t, exec (.linkFrameEnd 0 []) lab = .next t := ⟨⟨rfl, rfl⟩, _, rfl⟩

/-- The lab with a DRAINING record in delivery, a CLOSING one and a queued share. -/
def busy : State :=
  let s := labWith [farRecord 20 .draining, { farRecord 25 .closing with cells := some [] },
    farRecord 26 .opened]
  { s with
    clock := { s.clock with newest := some ⟨5000, 26⟩ }
    link := { s.link with queue := [⟨⟨5000, 20⟩, [], [], ⟨5002, 0⟩, false⟩] }
    assembler := ⟨.delivering (composition ⟨5000, 20⟩ 50) 5, 0, none⟩
    pending := [.snapshotByteTaken] }

theorem witness_TableLaw : TableLaw busy ∧ ∃ t, step busy = .next t :=
  ⟨by unfold TableLaw; decide +kernel, _, rfl⟩

/-- The lab whose share store is whole: every block free. -/
def wholeStore : State := { lab with gather := { lab.gather with free := allBlocks } }

theorem witness_StoreLaw : TableLaw wholeStore ∧ StoreLaw wholeStore ∧ ∃ t, step wholeStore = .next t := by
  refine ⟨by unfold TableLaw; decide +kernel, ?_, _, rfl⟩
  simp [StoreLaw, blocksInPlace, receptionBlocks, wholeStore, lab, State.reset, Table.reset]

theorem witness_QueueLaw : TableLaw busy ∧ QueueLaw busy ∧ ∃ t, step busy = .next t :=
  ⟨witness_TableLaw.1, by unfold QueueLaw; decide +kernel, _, rfl⟩

/-- Two held frames that run past position 32,767, of 2 and of 1 byte, and three bytes of another in
reception. -/
def filling : State := { lab with
  pins := { lab.pins with strobe := true }
  intake := { lab.intake with
    readPtr := 32756, writeHead := 9, writeCur := 21, held := 21, frameBytes := 3
    writer := .receiving, checker := .checking, mem := [(7, 1), (32764, 2)] } }

theorem filling_law : BufferLaw filling := by
  refine ⟨by decide, by decide, ⟨[2, 1], ⟨by decide, by decide, by decide, by decide, trivial⟩, by decide⟩,
    by decide, by decide, by decide, by decide, ?_, ?_⟩ <;> simp [filling, lab]

/-- The laws hold where a step goes on, and the buffer's laws after the oldest frame is judged. -/
theorem witness_RingBufferAndCounterLaws :
    RingLaw { lab with streams := [fullStream] } ∧ MemoryLaw filling ∧ BufferLaw filling ∧
      CounterLaw lab ∧ (∃ t, step lab = .next t) ∧
      step { filling with pending := [.frameJudgement] } = .next (after .frameJudgement filling) ∧
      ((after .frameJudgement filling).intake.held, (after .frameJudgement filling).intake.readPtr)
        = (10, 32767) := by
  refine ⟨by unfold RingLaw; decide +kernel, ⟨rfl, rfl⟩, filling_law, ⟨?_, ?_⟩, ⟨_, rfl⟩, rfl,
    by decide +kernel⟩
  · intro c; cases c <;> decide +kernel
  · decide +kernel

theorem witness_ClockWaitAndLinkLaws :
    ClockLaw lab ∧ WaitLaw lab ∧ LinkLaw lab ∧ ∃ t, step lab = .next t :=
  ⟨by unfold ClockLaw; decide +kernel, by unfold WaitLaw; decide +kernel,
    by unfold LinkLaw; decide +kernel, _, rfl⟩

theorem witness_MemoryLaw : MemoryLaw (holding [1, 2] ⟨⟨5, 6⟩, true⟩) ∧
    ∃ t, step (holding [1, 2] ⟨⟨5, 6⟩, true⟩) = .next t :=
  ⟨⟨by decide +kernel, by decide +kernel⟩, _, rfl⟩

theorem witness_RecordsOnlyMoveForward : TableLaw busy ∧ ∃ t, step busy = .next t ∧
    ∃ r ∈ busy.table.records, ∃ q ∈ t.table.records, q.tag = r.tag :=
  ⟨witness_TableLaw.1, _, rfl, farRecord 20 .draining, by decide +kernel, farRecord 20 .draining,
    by decide +kernel, rfl⟩

theorem witness_OpenedTagsOnlyMoveForward : ∃ t, step busy = .next t ∧ t.table.records ≠ [] :=
  ⟨_, rfl, by decide +kernel⟩

theorem witness_SnapshotsLeaveInTagOrder : TableLaw busy ∧ ∃ t, step busy = .next t ∧
    busy.assembler.state = .delivering (composition ⟨5000, 20⟩ 50) 5 ∧
    t.assembler.state = .delivering (composition ⟨5000, 20⟩ 50) 6 :=
  ⟨witness_TableLaw.1, _, rfl, rfl, by decide +kernel⟩

/-- The end of a delivery, a DRAINING record behind it. -/
def ending : State :=
  { labWith [farRecord 20 .draining, farRecord 21 .draining] with
    clock := { lab.clock with newest := some ⟨5000, 21⟩ }
    assembler := ⟨.delivering (composition ⟨5000, 20⟩ 50) 49, 0, none⟩
    pending := [.deliveryEnd] }

/-- The delivered tag's turn is over, an older one's turn has been. -/
theorem witness_Snapshots_gone : TableLaw ending ∧ ending.loader.state = .loaded ∧
    Gone ⟨5000, 19⟩ ending ∧ ∃ t, step ending = .next t ∧ t.loader.state = .loaded ∧
      (tagInDelivery t.assembler.state) = some ⟨5000, 21⟩ ∧ Gone ⟨5000, 20⟩ t :=
  ⟨by unfold TableLaw; decide +kernel, rfl, by unfold Gone; decide +kernel, _, rfl, rfl,
    by decide +kernel, by unfold Gone; decide +kernel⟩

/-! ### Cell resolution -/

/-- The ends of a bracket of 1,200,000 fu: a weight of 0 up to x = 9, of 65,536 from 9 before the end. -/
theorem witness_Interpolation_ends :
    weight 9 1200000 = 0 ∧ weight 10 1200000 = 1 ∧ weight 1199991 1200000 = 65536 ∧
      weight 1199990 1200000 = 65535 := by decide +kernel

theorem witness_Interpolation :
    let c := resolve ⟨⟨100, 50000⟩, 200000, 6, 1, 9⟩ [gapEarly, gapLate]
    c.quality = .interpolated ∧ c.values = some ⟨[⟨799375, 63951⟩], -2525, -15, 2⟩ := by
  decide +kernel

/-- The extremes of the frequency deviation, and the ranges of R97 to R99. -/
theorem witness_Angle :
    predictedRotation (-32768) 1200000 = -429497 ∧ predictedRotation 32767 1200000 = 429483 ∧
      unwrapped 32768 10000 10000 = 65536 ∧ unwrapped 32767 10000 10000 = 0 ∧
      interpolateAngle 32768 0 10 20 = 10 ∧ interpolateAngle 32768 65536 10 20 = 20 := by
  decide +kernel

/-- The average frequency deviation with neither end, one end and both ends INVALID (R96). -/
theorem witness_Angle_average :
    let a (bad : Bool) := { sample ⟨5, 0⟩ with freq := -3, invalid := bad }
    let b (bad : Bool) := { sample ⟨5, 1⟩ with freq := 4, invalid := bad }
    [averageFreq (a false) (b false), averageFreq (a true) (b false), averageFreq (a false) (b true),
      averageFreq (a true) (b true)] = [0, 4, -3, 0] := by
  decide +kernel

/-- The digital word below the middle of the bracket, and above it (section 5.9). -/
theorem witness_InterpolatedCell :
    let low := resolve ⟨⟨99, 5900000⟩, 200000, 6, 1, 9⟩ [gapEarly, gapLate]
    low.quality = .interpolated ∧ weight 100000 400000 < 32768 ∧ low.values.map (·.digital) = some 1 := by
  decide +kernel

/-- One view for each case, at the boundary of the case: EXACT at the snap tolerance. -/
theorem witness_Resolver_exact :
    ringOrdered [sample ⟨5, 119994⟩, sample ⟨5, 120007⟩] = true ∧
      (offset ⟨5, 120000⟩ (sample ⟨5, 119994⟩)).natAbs ≤ 6 ∧
      (offset ⟨5, 120000⟩ (sample ⟨5, 119994⟩)).natAbs < (offset ⟨5, 120000⟩ (sample ⟨5, 120007⟩)).natAbs := by
  decide +kernel

/-- Two equally near samples: the earlier one. -/
theorem witness_Resolver_tie :
    (resolve ⟨⟨5, 120000⟩, 120000, 6, 1, 9⟩ [{ sample ⟨5, 119994⟩ with freq := 1 },
      { sample ⟨5, 120006⟩ with freq := 2 }]).values.map (·.freq) = some 1 := by
  decide +kernel

/-- A bracket of exactly two periods, one fu more, and a hold of exactly one period. -/
theorem witness_Resolver_bracket :
    let q (t0 t1 : Nat) := (resolve ⟨⟨5, 360000⟩, 120000, 6, 1, 9⟩
      [sample ⟨5, t0⟩, sample ⟨5, t1⟩]).quality
    [q 240000 480000, q 240000 480001, q 239999 480000] = [.interpolated, .held, .absent] := by
  decide +kernel

theorem witness_Resolver_absent :
    ∀ y ∈ [sample ⟨5, 120007⟩], (6 : Int) < (offset ⟨5, 120000⟩ y).natAbs ∧
      0 < offset ⟨5, 120000⟩ y := by decide +kernel

/-! ### Rings -/

theorem witness_Ring_late :
    fullStream.ring.length ≤ 32 ∧ ringOrdered fullStream.ring = true ∧
      (∃ b ∈ fullStream.lateBound, (sample ⟨500, 540000⟩).t.atOrBefore b = true) :=
  ⟨by decide +kernel, by decide +kernel, ⟨500, 540000⟩, by decide +kernel, by decide +kernel⟩

/-- The LATE bound of R58's example at rate 50, and a horizon less than and exactly three periods after
second 0. -/
theorem witness_Ring_bound :
    let bound (h : Time) := { stream 7 .r50 1 .primary with horizon := some h }.lateBound
    [bound ⟨1700000500, 300000⟩, bound ⟨0, 359999⟩, bound ⟨0, 360000⟩] =
      [some ⟨1700000499, 5940000⟩, none, some ⟨0, 0⟩] := by
  decide +kernel

theorem witness_Ring_duplicate :
    (∀ b ∈ fullStream.lateBound, (sample ⟨500, 600000⟩).t.atOrBefore b = false) ∧
      ∃ y ∈ fullStream.ring, y.t = (sample ⟨500, 600000⟩).t :=
  ⟨by decide +kernel, sample ⟨500, 600000⟩, by decide +kernel, rfl⟩

theorem witness_Ring_stale :
    let st := { fullStream with horizon := none }
    (∀ b ∈ st.lateBound, (sample ⟨499, 3360000⟩).t.atOrBefore b = false) ∧ st.ring.length = 32 ∧
      (∀ y ∈ st.ring, (sample ⟨499, 3360000⟩).t.before y.t = true) := by
  decide +kernel

/-- Just after the LATE bound, no equal sample, and an older one to evict. -/
theorem witness_Ring_admitted :
    (∀ b ∈ fullStream.lateBound, (sample ⟨500, 540001⟩).t.atOrBefore b = false) ∧
      (∀ y ∈ fullStream.ring, y.t ≠ (sample ⟨500, 540001⟩).t) ∧
      (∃ y ∈ fullStream.ring, y.t.before (sample ⟨500, 540001⟩).t = true) :=
  ⟨by decide +kernel, by decide +kernel, sample ⟨499, 3480000⟩, by decide +kernel, by decide +kernel⟩

/-! ### Station clock -/

/-- The edges of R5: the second changes at r = 3,000,000, and the bands at their limits. -/
theorem witness_PhaseError :
    (phaseOf ⟨5, 3000600⟩ 600).2 = -3000000 ∧ phaseOf ⟨5, 3000599⟩ 600 = (5, 2999999) ∧
      [bandOf 6 600 6, bandOf 6 600 (-7), bandOf 6 600 600, bandOf 6 600 (-601)]
        = [.small, .middle, .middle, .large] := by decide +kernel

theorem witness_SecondOfAnEdge :
    decideSecond 100 none none = (100, .agreed) ∧
      decideSecond 100 (some ⟨99, none⟩) (some .insertSecond) = (99, .leap) ∧
      decideSecond 100 (some ⟨101, none⟩) (some .deleteSecond) = (101, .leap) ∧
      decideSecond 100 (some ⟨101, none⟩) (some .insertSecond) = (101, .disagreement) ∧
      decideSecond 0 (some ⟨4294967295, none⟩) (some .insertSecond) = (4294967295, .disagreement) ∧
      decideSecond 4294967295 (some ⟨0, none⟩) (some .deleteSecond) = (0, .disagreement) := by
  decide +kernel

/-- A candidate one fu inside the blanking interval, and one at its end. -/
theorem witness_Edges_blanked :
    let s := { lab with clock := { lab.clock with edgeAge := some 5399999 } }
    let t := { lab with clock := { lab.clock with edgeAge := some 5400000 } }
    s.running = true ∧ s.loader.shared.edgeSelect = .rising ∧
      5399999 < s.loader.shared.blanking * 6000 ∧ (after (.ppsEdge .rise) s).count .ppsSpurious = 1 ∧
      (after (.ppsEdge .rise) t).count .ppsSpurious = 0 := by
  decide +kernel

/-- The hypotheses on an accepted edge, for each clock state a clause names. -/
theorem witness_Edges_accepted :
    ∀ st ∈ [ClockState.acquiring, .stopped, .locked, .holdover],
      let s := clockAt st ⟨1000, 603⟩ (some ⟨1000, none⟩)
      s.running = true ∧ s.loader.shared.edgeSelect = .rising ∧ s.clock.state = st ∧
        (∀ a ∈ s.clock.edgeAge, s.loader.shared.blanking * 6000 ≤ a) ∧
        phaseOf s.clock.now s.loader.shared.delayComp = (1000, 3) ∧
        (∀ m ∈ s.clock.pendingTod, (3 : Int).natAbs ≤ s.loader.shared.lockTolerance ∧
          decideSecond 1000 (some m) none = (1000, .agreed)) ∧
        bandOf s.loader.shared.lockTolerance s.loader.shared.stepLimit 3 = .small := by
  decide +kernel

/-- An edge that enters another second raises its boundary: in ACQUIRING, and in STEPPING, where one
within the second leaves STEPPING standing. -/
theorem witness_Edges_boundary :
    let s (st : ClockState) (fu : Nat) (m : Option TodMessage) :=
      { clockAt st ⟨1000, fu⟩ m with
        loader := { lab.loader with shared := { settings with stepLimit := 700 } }
        streams := [{ stream 7 .r50 1 .primary with pending := false }] }
    let t (st : ClockState) (fu : Nat) (m : Option TodMessage) := after (.ppsEdge .rise) (s st fu m)
    let show_ (u : State) := (u.clock.state, u.clock.now, u.streams.map (·.working), u.link.beacon)
    [show_ (t .acquiring 5999999 none), show_ (t .stepping 603 none),
      show_ (t .stepping 5999999 none)] =
      [(.acquiring, ⟨1001, 600⟩, [false], some ⟨1001, false⟩), (.stepping, ⟨1000, 600⟩, [true], none),
        (.locked, ⟨1001, 600⟩, [false], some ⟨1001, true⟩)] := by
  decide +kernel

/-- A step in STEPPING ends in STOPPED; one from LOCKED without OPEN records leaves the notice. -/
theorem witness_AcceptedEdge_steps :
    let t (st : ClockState) := after (.ppsEdge .rise) (clockAt st ⟨1000, 1201⟩ none)
    ((t .stepping).clock.state, (t .stepping).link.notice) = (.stopped, some ⟨.stopping, ⟨0, 0⟩⟩) ∧
      ((t .locked).clock.state, (t .locked).link.notice) = (.stepping, none) := by
  decide +kernel

/-- An accepted edge in each band and with a disagreement: the state after it. -/
theorem witness_AcceptedEdge_states :
    let state (fu : Nat) (m : Option TodMessage) (age : Option Nat) :=
      let s := clockAt .locked ⟨1000, fu⟩ m
      (after (.ppsEdge .rise) { s with clock := { s.clock with stepAge := age } }).clock.state
    [state 606 none none, state 1200 none none, state 1201 none none, state 600 (some ⟨3, none⟩) none,
      state 1201 none (some 95999999), state 1201 none (some 96000000)]
      = [.locked, .locked, .stepping, .stepping, .stopped, .stepping] := by
  decide +kernel

/-- A small edge that moves the count to 600 fu in HOLDOVER: the share deadline, the close deadline and
the gathering deadline it reaches pass, and the current tag is opened behind them. -/
theorem witness_AcceptedEdge_deadlines :
    let r := { farRecord 26 .closing with
      tag := ⟨999, 48⟩, gatherDeadline := ⟨1000, 600⟩, cells := some [] }
    let q := { farRecord 27 .opened with tag := ⟨999, 49⟩, closeDeadline := ⟨1000, 598⟩ }
    let s := { clockAt .holdover ⟨1000, 597⟩ none with
      table := { lab.table with records := [r, q], sequencer := .closing }
      link := { lab.link with queue := [⟨⟨999, 47⟩, [], [], ⟨1000, 599⟩, false⟩] } }
    let u := after (.ppsEdge .rise)
      { s with clock := { s.clock with newest := some ⟨999, 49⟩, slotDue := false } }
    u.clock.now = ⟨1000, 600⟩ ∧ u.clock.state = .locked ∧ u.clock.newest = some ⟨1000, 0⟩ ∧
      u.table.records.map (fun r => (r.tag.k, r.closePassed, r.gatherPassed)) =
        [(48, false, true), (49, true, false), (0, true, true)] ∧
      u.link.queue = [] ∧ u.count .shareExpired = 1 := by
  decide +kernel

/-- The characters of a message, one begun every 600 fu and the last of them 1 ms ago. -/
def chars (bytes : List Byte) : List TodChar :=
  bytes.zipIdx.map (fun e => ⟨Vector.ofFn (fun i : Fin 8 => e.1[i]), true,
    6000 + 600 * (bytes.length - 1 - e.2)⟩)

/-- The ten bits of a character that carries 0x35, least significant bit first, and of the same character
with its stop bit missing; and ten bits that no start bit begins (R215). -/
theorem test_tod_character :
    let bits (start stop : Bool) : List Bool :=
      [start, true, false, true, false, true, true, false, false, stop]
    (readTodChar 6000 (bits false true)).map (fun c => (todByte c, c.stop, todBits c)) =
        some (0x35#8, true, bits false true) ∧
      (readTodChar 6000 (bits false false)).map (fun c => (todByte c, c.stop)) = some (0x35#8, false) ∧
      readTodChar 6000 (bits true true) = none ∧ (chars [0x35]).map todByte = [0x35] := by
  decide +kernel

/-- Good time-of-day messages without and with a leap, and three bad ones (R215). -/
theorem witness_TimeOfDay :
    let close (b : List Byte) := b ++ beBytes 2 (crc16 b).toNat
    let take (b : List Byte) := (after (.timeOfDayMessage (chars b)) lab).clock.pendingTod
    [take (close [0x5C, 0, 0, 0, 1, 2]), take (close [0x5C, 3, 0, 0, 1, 2]),
      take (close [0x5C, 5, 0, 0, 1, 2]), take (close [0x5C, 7, 0, 0, 1, 2]),
      take (close [0x5D, 0, 0, 0, 1, 2]), take [0x5C, 0, 0, 0, 1, 2, 0, 0]] =
      [some ⟨258, none⟩, some ⟨258, some .insertSecond⟩, some ⟨258, some .deleteSecond⟩, none, none,
        none] := by
  decide +kernel

/-- A message of which all, seven and none of its characters began after the load ended (R23). -/
theorem witness_TimeOfDay_load :
    let b : List Byte := [0x5C, 0, 0, 0, 1, 2]
    let c := chars (b ++ beBytes 2 (crc16 b).toNat)
    let t (k : Nat) := after (.timeOfDayMessage c)
      { lab with clock := { lab.clock with loadAge := some k, pendingTod := some ⟨9, none⟩ } }
    oneMessage c = true ∧ [10201, 10200, 6000].map (fun k => (t k).clock.pendingTod) =
      [some ⟨258, none⟩, none, some ⟨9, none⟩] ∧
      [10201, 10200, 6000].map (fun k => (t k).count .todBad) = [0, 1, 0] := by
  decide +kernel

theorem witness_SecondBoundary_due :
    CanArrive 0 { lab with clock := { lab.clock with boundaryDue := true } } ∧
      boundaryIn { lab with clock := { lab.clock with boundaryDue := true } } = 0 :=
  ⟨canArrive_of (by decide +kernel), by decide +kernel⟩

/-- A second boundary one fu ahead, in STEPPING. -/
theorem witness_SecondBoundary_ahead :
    boundaryIn (clockAt .stepping ⟨1000, 5999999⟩ none) = 1 ∧
      CanArrive 1 (clockAt .stepping ⟨1000, 5999999⟩ none) ∧
      (after .localSecondBoundary (clockAt .stepping ⟨1000, 5999999⟩ none)).clock.state = .locked :=
  ⟨by decide +kernel, canArrive_of (by decide +kernel), by decide +kernel⟩

/-- The copy at a boundary takes the only stream of the oldest OPEN record out of LIVE, and a stream that
it does not wait for. -/
theorem witness_SecondBoundary_leaves :
    let s (enabled : List Nat) := { labWith [{ farRecord 26 .opened with enabled := enabled }] with
      clock := { lab.clock with boundaryDue := true }
      streams := [{ stream 7 .r50 1 .primary with pending := false, age := some 5 },
        stream 8 .r25 1 .primary] }
    CanArrive 0 (s [0]) ∧ CanArrive 0 (s [1]) ∧ boundaryIn (s [0]) = 0 ∧
      [states (after .localSecondBoundary (s [0])), states (after .localSecondBoundary (s [1]))] =
        [[(26, .closing)], [(26, .opened)]] ∧
      (after .localSecondBoundary (s [0])).streams.map (·.health) = [.disabled, .live] :=
  ⟨canArrive_of (by decide +kernel), canArrive_of (by decide +kernel), by decide +kernel,
    by decide +kernel, by decide +kernel⟩

/-- The next slot time of the lab, 60,000 fu ahead, opens tag 1. -/
theorem witness_SlotTime_opens :
    slotReachedIn lab = some 60000 ∧ CanArrive 60000 lab ∧ lab.table.records.length < 64 ∧
      newerThanOpened lab.clock.newest ⟨1000, 1⟩ = true ∧
      (after .slotTimeReached lab).table.records.map (fun r => (r.tag, r.enabled)) = [(⟨1000, 1⟩, [0, 1])] :=
  ⟨by decide +kernel, canArrive_of (by decide +kernel), by decide +kernel, by decide +kernel,
    by decide +kernel⟩

/-- A slot time already opened, and one reached with 64 records held. -/
theorem witness_SlotTime_refused :
    let old := { lab with clock := { lab.clock with newest := some ⟨1000, 1⟩ } }
    let full := { lab with
      table := { lab.table with records := (List.range 64).map (fun k => farRecord k .gathering) } }
    slotReachedIn old = some 60000 ∧ newerThanOpened old.clock.newest ⟨1000, 1⟩ = false ∧
      slotReachedIn full = some 60000 ∧ full.table.records.length = 64 := by
  decide +kernel

/-- An opening that is ready at once, no stream being LIVE: CLOSING where no older record is OPEN, OPEN
behind one; and one with an empty working enable set: its close completes at once. -/
theorem witness_SlotTime_examined :
    let waits (rs : List Record) (st : Stream) : State := { labWith rs with
      streams := [st]
      table := { (labWith rs).table with effectiveWait := 600000, effectiveGrace := 600000 } }
    let quiet (rs : List Record) := waits rs { stream 7 .r50 1 .primary with health := .unseen }
    let empty := waits [] { stream 7 .r50 1 .primary with working := false }
    let old : Record := { record ⟨1000, 0⟩ .opened with closeDeadline := ⟨5001, 0⟩ }
    states (after .slotTimeReached (quiet [])) = [(1, .closing)] ∧
      states (after .slotTimeReached (quiet [old])) = [(0, .opened), (1, .opened)] ∧
      states (after .slotTimeReached empty) = [(1, .gathering)] ∧
      (after .slotTimeReached empty).link.queue.map (·.tag) = [⟨1000, 1⟩] ∧
      (after .slotTimeReached empty).count .earlyClose = 1 := by
  decide +kernel

theorem witness_SlotTime_refused_arrives :
    CanArrive 60000 { lab with clock := { lab.clock with newest := some ⟨1000, 1⟩ } } ∧
    CanArrive 60000 { lab with
      table := { lab.table with records := (List.range 64).map (fun k => farRecord k .gathering) } } :=
  ⟨canArrive_of (by decide +kernel), canArrive_of (by decide +kernel)⟩

/-- An edge age of 8,999,999 fu in LOCKED: holdover entry is one fu ahead. -/
theorem witness_HoldoverEntry :
    let s := { lab with clock := { lab.clock with edgeAge := some 8999999 } }
    s.clock.state = .locked ∧ CanArrive (9000000 - 8999999) s :=
  ⟨rfl, canArrive_of (by decide +kernel)⟩

/-- One fu before the holdover limit of one second, without and with stop on expiry. -/
def nearLimit (stop : Bool) : State := { lab with
  loader := { lab.loader with shared := { settings with stopOnExpiry := stop } }
  clock := { lab.clock with state := .holdover, holdoverAge := 5999999 } }

theorem witness_HoldoverLimit :
    CanArrive 1 (nearLimit false) ∧ CanArrive 1 (nearLimit true) ∧
      (after .holdoverLimitExpiry (nearLimit false)).clock.holdoverLong = true ∧
      (after .holdoverLimitExpiry (nearLimit true)).clock.state = .stopped :=
  ⟨canArrive_of (by decide +kernel), canArrive_of (by decide +kernel), by decide +kernel,
    by decide +kernel⟩

/-! ### Intake -/

/-- Exactly 9 bytes free and one fewer, and the two writers that take no frame. -/
theorem witness_FrameStart :
    let with_ (w : WriterState) (held : Nat) := { lab with
      intake := { lab.intake with writer := w, held := held } }
    (with_ .idle 32759).intake.free = 9 ∧ (with_ .idle 32760).intake.free = 8 ∧
      [(after .frameStart (with_ .idle 32759)).intake.writer,
        (after .frameStart (with_ .idle 32760)).intake.writer,
        (after .frameStart (with_ .ignoring 0)).intake.writer,
        (after .frameStart (with_ .closed 0)).intake.writer]
        = [.receiving, .discarding, .ignoring, .closed] := by
  decide +kernel

/-- A frame in reception with a number of bytes taken, the strobe asserted. -/
def receiving (n held : Nat) : State := { lab with
  pins := { lab.pins with strobe := true }
  intake := { lab.intake with
    writer := .receiving, frameBytes := n, writeCur := 9 + BitVec.ofNat 15 n, held := held } }

/-- The 86th byte, a byte without room, and a byte that fits. -/
theorem witness_Byte :
    MemoryLaw (receiving 85 0) ∧ (receiving 84 (32768 - 93)).intake.free = 0 ∧
      (receiving 84 (32768 - 94)).intake.free = 1 ∧
      (after (.byteEvent 7) (receiving 85 0)).count .oversize = 1 ∧
      (after (.byteEvent 7) (receiving 84 (32768 - 93))).count .bufferFull = 1 ∧
      (after (.byteEvent 7) (receiving 84 (32768 - 94))).intake.mem = [(93, 7)] :=
  ⟨⟨rfl, rfl⟩, by decide +kernel, by decide +kernel, by decide +kernel, by decide +kernel,
    by decide +kernel⟩

/-- A byte and a frame end while the load still runs, and after it ended in CONFIG_FAULT. -/
theorem witness_Byte_unheard : ∀ w ∈ [WriterState.closed, .ignoring],
    let s := { lab with
      pins := { lab.pins with strobe := true }, intake := { lab.intake with writer := w } }
    MemoryLaw s ∧ s.pins.strobe = true ∧ after (.byteEvent 7) s = s ∧
      after .frameEnd s = { s with pins := { s.pins with strobe := false } } := by
  unfold MemoryLaw; decide +kernel

theorem witness_FrameEnd :
    MemoryLaw (receiving 30 0) ∧ (receiving 30 0).pins.strobe = true ∧
      (after .frameEnd (receiving 30 0)).intake.held = 39 ∧
      (after .frameEnd (receiving 30 0)).intake.checker = .checking :=
  ⟨⟨rfl, rfl⟩, rfl, by decide +kernel, by decide +kernel⟩

/-- A frame of three bytes in ACQUIRING whose stamp entry begins at position 32,763 and whose last byte
stands at 6: the checker reads its stamp and its bytes. -/
theorem witness_FrameJudgement_wrap :
    let s := { lab with
      clock := { lab.clock with state := .acquiring, now := ⟨4294967295, 5999999⟩ }
      intake := { lab.intake with writer := .idle, writeHead := 32763, writeCur := 32763,
                                  readPtr := 32763 } }
    let t := [Instr.frameStart, .byteEvent 1, .byteEvent 2, .byteEvent 3, .frameEnd].foldl
      (fun s c => after c s) s
    MemoryLaw s ∧ ClockLaw s ∧ s.intake.free = 32768 ∧ t.intake.checker = .checking ∧
      t.intake.writeHead = 7 ∧ memRead t.intake.mem 6 = 3 ∧ memRead t.intake.mem 4 = 1 ∧
      heldFrame t.intake = (⟨⟨4294967295, 5999999⟩, false⟩, [1, 2, 3]) := by
  refine ⟨⟨rfl, rfl⟩, ?_, ?_⟩
  · unfold ClockLaw; decide +kernel
  · decide +kernel

/-- A frame closed by its CRC-16. -/
def closed16 (body : List Byte) : List Byte := body ++ beBytes 2 (crc16 body).toNat

/-- A frame for each refusal before the ring: 29 bytes, a wrong marker, a wrong length, a wrong
CRC-16, an unknown code, a disabled stream, a wrong phasor count, a fraction of a whole second. -/
theorem witness_FrameChecks :
    let good := frameOf 7 ⟨500, 240000⟩
    let judged (f : List Byte) (s : State) := judgeFrame s f ⟨⟨500, 301000⟩, true⟩
    let off := { lab with streams := [{ stream 7 .r50 1 .primary with working := false }] }
    let two := { lab with streams := [stream 7 .r50 2 .primary] }
    [judged (good.take 29) lab, judged (good.set 0 0) lab, judged (good.set 3 31) lab,
      judged (good.set 29 0) lab, judged (frameOf 9 ⟨500, 240000⟩) lab, judged good off, judged good two,
      judged (frameOf 7 ⟨500, 6000000⟩) lab] =
      [.refused 0 .runt, .refused 0 .badMarker, .refused 0 .format, .refused 0 .badCrc,
        .refused 9 .unknownSource, .refused 7 .disabledSource, .refused 7 .format, .refused 7 .format] := by
  decide +kernel

/-- A sample exactly the early limit ahead of its arrival is offered. -/
theorem witness_FrameChecks_offered :
    judgeFrame lab (frameOf 7 ⟨500, 240000⟩) ⟨⟨500, 234000⟩, true⟩ =
      .offered 0 7 { sample ⟨500, 240000⟩ with stamp := ⟨⟨500, 234000⟩, true⟩, settled := false } := by
  decide +kernel

theorem witness_FrameJudgement :
    let s := holding (frameOf 7 ⟨500, 240000⟩) ⟨⟨500, 301000⟩, true⟩
    s.intake.checker = .checking ∧
      heldFrame s.intake = (⟨⟨500, 301000⟩, true⟩, frameOf 7 ⟨500, 240000⟩) := by
  decide +kernel

/-- A sample the ring refuses: its timestamp is held already. -/
theorem witness_FrameJudgement_refused :
    let s := { holding (frameOf 7 ⟨500, 240000⟩) ⟨⟨500, 301000⟩, true⟩ with
      streams := [{ stream 7 .r50 1 .primary with ring := [sample ⟨500, 240000⟩] }] }
    judgeFrame s (frameOf 7 ⟨500, 240000⟩) ⟨⟨500, 301000⟩, true⟩ = .offered 0 7
        { sample ⟨500, 240000⟩ with stamp := ⟨⟨500, 301000⟩, true⟩, settled := false } ∧
      s.streams.map (fun st => (st.offer (sample ⟨500, 240000⟩)).1.reason) = [some .duplicate] ∧
      (after .frameJudgement s).count .duplicate = 1 ∧
      (after .frameJudgement s).intake.lastDrop = ⟨7, .duplicate, ⟨500, 301000⟩⟩ := by
  decide +kernel

/-! ### Streams, records and the local close -/

/-- A LIVE stream one fu before its stall. -/
def nearStall : State := { lab with streams := [{ stream 7 .r50 1 .primary with age := some 11999999 }] }

theorem witness_StallExpiry : ∃ st, nearStall.streams[0]? = some st ∧ st.health = .live ∧
    st.age = some 11999999 ∧ CanArrive (12000000 - 11999999) nearStall ∧
    (after (.stallExpiry 0) nearStall).streams.map (·.health) = [.stalled] :=
  ⟨_, rfl, rfl, rfl, canArrive_of (by decide +kernel), by decide +kernel⟩

/-- A queued share one fu before its deadline, and the same share in transmission. -/
def nearExpiry (tx : Option Transmission) : State := { lab with
  link := { lab.link with queue := [⟨⟨1000, 0⟩, [], [], ⟨1000, 60001⟩, false⟩], tx := tx } }

theorem witness_ShareExpiry : (∃ q, (nearExpiry none).link.queue.find? (fun e => e.tag == ⟨1000, 0⟩) = some q ∧
      q.passed = false ∧ q.deadline = ⟨1000, 60001⟩) ∧
    CanArrive ((⟨1000, 60000⟩ : Time).until_ ⟨1000, 60001⟩) (nearExpiry none) ∧
    (after (.shareExpiry ⟨1000, 0⟩) (nearExpiry none)).link.queue = [] ∧
    (after (.shareExpiry ⟨1000, 0⟩) (nearExpiry none)).count .shareExpired = 1 :=
  ⟨⟨_, rfl, rfl, rfl⟩, canArrive_of (by decide +kernel), by decide +kernel, by decide +kernel⟩

theorem witness_ShareExpiry_transmitting :
    let s := nearExpiry (some ⟨.share (share ⟨1000, 0⟩ [] []), .transmitting⟩)
    CanArrive ((⟨1000, 60000⟩ : Time).until_ ⟨1000, 60001⟩) s ∧
      (after (.shareExpiry ⟨1000, 0⟩) s).link.queue.map (·.passed) = [true] :=
  ⟨canArrive_of (by decide +kernel), by decide +kernel⟩

/-- A PRESENT peer one fu before the silence limit of 200 ms. -/
def nearSilence : State := { lab with gather := { lab.gather with
  roster := lab.gather.roster.set 0 ⟨.present, none, none, none, 0, some 1199999⟩ } }

theorem witness_SilenceExpiry : nearSilence.gather.roster[(0 : Station)].state = .present ∧
    nearSilence.gather.roster[(0 : Station)].silence = some 1199999 ∧ CanArrive (200 * 6000 - 1199999) nearSilence ∧
    (after (.silenceExpiry 0) nearSilence).gather.roster[(0 : Station)].state = .silent :=
  ⟨by decide +kernel, by decide +kernel, canArrive_of (by decide +kernel), by decide +kernel⟩

/-- The oldest OPEN record one fu before its close deadline, a second one with the same deadline. -/
def nearClose : State := labWith [{ farRecord 26 .opened with closeDeadline := ⟨1000, 60001⟩ },
  { farRecord 27 .opened with closeDeadline := ⟨1000, 60001⟩ }]

theorem witness_CloseDeadline : (∃ r, recordOf ⟨5000, 26⟩ nearClose.table.records = some r ∧
      r.closePassed = false ∧ r.closeDeadline = ⟨1000, 60001⟩ ∧
      oldestOpen nearClose.table.records = some r ∧ nearClose.table.sequencer = .idle ∧
      r.enabled ≠ []) ∧
    CanArrive ((⟨1000, 60000⟩ : Time).until_ ⟨1000, 60001⟩) nearClose ∧
    states (after (.closeDeadline ⟨5000, 26⟩) nearClose) = [(26, .closing), (27, .opened)] ∧
    states (after (.closeDeadline ⟨5000, 27⟩) nearClose) = [(26, .opened), (27, .opened)] :=
  ⟨⟨_, rfl, rfl, rfl, rfl, rfl, by decide⟩, canArrive_of (by decide +kernel), by decide +kernel, by decide +kernel⟩

/-- The oldest OPEN record with an empty enable set, one fu before its close deadline. -/
def nearEmptyClose : State :=
  { labWith [{ farRecord 26 .opened with enabled := [], closeDeadline := ⟨1000, 60001⟩ }] with
    clock := { lab.clock with newest := some ⟨5000, 26⟩ } }

theorem witness_CloseDeadline_empty : TableLaw nearEmptyClose ∧
    CanArrive ((⟨1000, 60000⟩ : Time).until_ ⟨1000, 60001⟩) nearEmptyClose ∧
    (∃ i ∈ nearEmptyClose.loader.shared.stations, nearEmptyClose.gather.roster[i].state = .present) ∧
    states (after (.closeDeadline ⟨5000, 26⟩) nearEmptyClose) = [(26, .gathering)] ∧
    (after (.closeDeadline ⟨5000, 26⟩) nearEmptyClose).link.queue.map (·.tag) = [⟨5000, 26⟩] :=
  ⟨by unfold TableLaw; decide +kernel, canArrive_of (by decide +kernel),
    ⟨0, by decide +kernel, by decide +kernel⟩, by decide +kernel, by decide +kernel⟩

/-- The oldest OPEN record with an empty enable set before another whose deadline has passed: its close
completes, and the examination that follows starts the other's, which is no early close. -/
theorem witness_CloseDeadline_examined :
    let s := { labWith [{ farRecord 26 .opened with enabled := [], closeDeadline := ⟨1000, 60001⟩ },
        { farRecord 27 .opened with closePassed := true }] with
      clock := { lab.clock with newest := some ⟨5000, 27⟩ } }
    let t := after (.closeDeadline ⟨5000, 26⟩) s
    TableLaw s ∧ QueueLaw s ∧ states t = [(26, .gathering), (27, .closing)] ∧
      t.table.sequencer = .closing ∧ t.count .earlyClose = 0 := by
  refine ⟨by unfold TableLaw; decide +kernel, by unfold QueueLaw; decide +kernel, ?_⟩
  decide +kernel

/-- The deadline of the oldest OPEN record passes in CLOSING: only marked. -/
theorem witness_CloseDeadline_closing :
    let s := labWith [{ farRecord 25 .closing with cells := some [] },
      { farRecord 26 .opened with closeDeadline := ⟨1000, 60001⟩ }]
    s.table.sequencer = .closing ∧ CanArrive ((⟨1000, 60000⟩ : Time).until_ ⟨1000, 60001⟩) s ∧
      (after (.closeDeadline ⟨5000, 26⟩) s).table.records.map (fun r => (r.state, r.closePassed)) =
        [(.closing, false), (.opened, true)] :=
  ⟨rfl, canArrive_of (by decide +kernel), by decide +kernel⟩

/-- The only stream of the oldest OPEN record stalls, and one it does not wait for. -/
theorem witness_CloseDeadline_stall :
    let s (enabled : List Nat) := { labWith [{ farRecord 26 .opened with enabled := enabled }] with
      streams := [{ stream 7 .r50 1 .primary with age := some 11999999 }, stream 8 .r25 1 .primary] }
    CanArrive 1 (s [0]) ∧ CanArrive 1 (s [1]) ∧
      [states (after (.stallExpiry 0) (s [0])), states (after (.stallExpiry 0) (s [1]))] =
        [[(26, .closing)], [(26, .opened)]] ∧
      [(after (.stallExpiry 0) (s [0])).count .earlyClose,
        (after (.stallExpiry 0) (s [1])).count .earlyClose] = [1, 0] :=
  ⟨canArrive_of (by decide +kernel), canArrive_of (by decide +kernel), by decide +kernel,
    by decide +kernel⟩

/-- A sample at the slot time of the oldest OPEN record: ready with one stream, not with two. -/
theorem witness_CloseDeadline_admission :
    let s (enabled : List Nat) :=
      { holding (frameOf 7 ⟨5000, 3120000⟩) ⟨⟨5000, 3120000⟩, true⟩ with
        table := { lab.table with records := [{ farRecord 26 .opened with enabled := enabled }] } }
    [states (after .frameJudgement (s [0])), states (after .frameJudgement (s [0, 1]))] =
        [[(26, .closing)], [(26, .opened)]] ∧
      [(after .frameJudgement (s [0])).count .earlyClose,
        (after .frameJudgement (s [0, 1])).count .earlyClose] = [1, 0] := by
  decide +kernel

/-- A record in close whose first stream holds a settled sample at the slot time and a later one not
settled. -/
def closing : State :=
  let s := labWith [{ record ⟨1000, 0⟩ .closing with cells := some [] }]
  { s with streams := [{ stream 7 .r50 1 .primary with
    ring := [sample ⟨1000, 2⟩, { sample ⟨1000, 6⟩ with settled := false }] }, stream 8 .r25 1 .primary] }

theorem witness_Resolution : ∃ r st, closingRecord closing.table.records = some r ∧
    r.cells = some [] ∧ r.enabled[0]? = some 0 ∧ closing.streams[0]? = some st ∧
      (after .streamResolution closing).table.records.map (·.cells) =
        [some [⟨7, .exact, false, false, false, false, 0, some ⟨[⟨1000, 10⟩], 20, 30, 5⟩⟩]] :=
  ⟨_, _, rfl, rfl, rfl, rfl, by decide +kernel⟩

/-- Each branch of a monitor's judgement meets its hypotheses: blanked, fired, refused, unchanged. -/
theorem witness_Monitor :
    (watching .below 0).monitors[2].settings.mode = .both ∧ 0 ∈ (watching .below 0).monitors[2].watch ∧
      (watching .below 0).monitors[2].levels[0]? = some .below ∧
      (watching .below 1).monitors[2].countdown = 1 ∧
      (recordOf ⟨5000, 11⟩ (watching .below 0).table.records).isSome = true := by
  decide +kernel

theorem witness_CloseCompletion :
    let s := labWith [{ farRecord 25 .closing with enabled := [], cells := some [] }]
    (∃ r, closingRecord s.table.records = some r ∧ (r.cells.getD []).length = r.enabled.length ∧
      r.gatherPassed = false ∧ ∀ i : Station, r.attachments[i] = .none) ∧
      (∃ i ∈ s.loader.shared.stations, s.gather.roster[i].state = .present) ∧
      oldestOpen s.table.records = none ∧ s.link.queue.length < 64 ∧
      states (after .closeCompletion s) = [(25, .gathering)] ∧
      (after .closeCompletion s).table.records.map (·.expected) = [some [0]] :=
  ⟨⟨_, rfl, rfl, rfl, by decide +kernel⟩, ⟨0, by decide +kernel, by decide +kernel⟩, by decide +kernel,
    by decide +kernel, by decide +kernel, by decide +kernel⟩

theorem witness_CloseCompletion_law :
    let s := labWith [{ farRecord 25 .closing with enabled := [], cells := some [] }]
    TableLaw { s with clock := { s.clock with newest := some ⟨5000, 25⟩ } } := by
  unfold TableLaw; decide +kernel

/-- A close completes with OPEN records behind it: one whose deadline has passed, one that is ready, and
one that is neither. -/
theorem witness_CloseCompletion_examined :
    let s (passed ready : Bool) := { labWith [{ farRecord 25 .closing with enabled := [], cells := some [] },
        { farRecord 26 .opened with closePassed := passed, enabled := [0] }] with
      clock := { lab.clock with newest := some ⟨5000, 26⟩ }
      streams := [{ stream 7 .r50 1 .primary with health := if ready then .stalled else .live }] }
    let t (passed ready : Bool) := after .closeCompletion (s passed ready)
    TableLaw (s false false) ∧ QueueLaw (s false false) ∧
      [t true false, t false true, t false false].map (fun x => (states x, x.count .earlyClose)) =
        [([(25, .gathering), (26, .closing)], 0), ([(25, .gathering), (26, .closing)], 1),
          ([(25, .gathering), (26, .opened)], 0)] := by
  refine ⟨by unfold TableLaw; decide +kernel, by unfold QueueLaw; decide +kernel, ?_⟩
  decide +kernel

/-- A record whose close is about to complete, behind DRAINING ones, with shares queued; station 0 is
PRESENT or not. -/
def completing (drained queued : Nat) (passed heard : Bool) : State :=
  let s := labWith ((List.range drained).map (fun k => farRecord k .draining) ++
    [{ farRecord 25 .closing with enabled := [], cells := some [], gatherPassed := passed }])
  { s with
    clock := { s.clock with newest := some ⟨5000, 25⟩ }
    link := { s.link with
      queue := (List.range queued).map (fun k => ⟨⟨4000, k⟩, [], [], ⟨5001, 0⟩, false⟩) }
    gather := if heard then s.gather else
      { s.gather with roster := loadedRoster 1 settings.stations } }

theorem witness_CloseCompletion_laws :
    (∀ n ∈ [0, 64], TableLaw (completing 0 n false true) ∧ QueueLaw (completing 0 n false true)) ∧
      ∀ n ∈ [15, 16], TableLaw (completing n 0 false false) ∧ QueueLaw (completing n 0 false false) := by
  unfold TableLaw QueueLaw; decide +kernel

/-- The deadline passed already: withdrawn at once; a full queue gives up its oldest share, or the one
after it while that is in transmission. -/
theorem witness_CloseCompletion_queue :
    let t := after .closeCompletion (completing 0 5 true true)
    let u := after .closeCompletion (completing 0 64 false true)
    let full := completing 0 64 false true
    let v := after .closeCompletion { full with link := { full.link with
      tx := some ⟨.share (share ⟨4000, 0⟩ [] []), .transmitting⟩ } }
    [t, u, v].map (fun x => (x.link.queue.length, x.count .shareExpired, x.count .shareDisplaced)) =
        [(5, 1, 0), (64, 0, 1), (64, 0, 1)] ∧
      [u, v].map (fun x => (x.link.queue.take 2).map (·.tag.k)) = [[1, 2], [0, 2]] := by
  decide +kernel

/-- A record complete at once: DRAINING behind 15 DRAINING ones, skipped behind 16. -/
theorem witness_CloseCompletion_complete :
    let t (n : Nat) := after .closeCompletion (completing n 0 false false)
    [t 15, t 16].map (fun x => (x.table.records.length, drainingCount x.table.records, x.count .skipped))
      = [(16, 16, 0), (16, 16, 1)] := by
  decide +kernel

/-- A GATHERING record one fu before its deadline, behind some DRAINING ones, waiting for station 0. -/
def nearGather (n : Nat) : State :=
  let s := labWith ((List.range n).map (fun k => farRecord k .draining) ++
    [{ farRecord 30 .gathering with gatherDeadline := ⟨1000, 60001⟩, expected := some [0] }])
  { s with clock := { s.clock with newest := some ⟨5000, 30⟩ } }

theorem witness_GatheringDeadline_record : ∀ n ∈ [15, 16], ∃ r,
    recordOf ⟨5000, 30⟩ (nearGather n).table.records = some r ∧ r.state = .gathering ∧
      r.gatherPassed = false ∧ r.gatherDeadline = ⟨1000, 60001⟩ ∧ r.missing = [0] ∧
      (nearGather n).table.records.find? (fun q => q.state != .draining) = some r ∧
      drainingCount (nearGather n).table.records = n := by
  simp only [List.mem_cons, List.not_mem_nil, or_false, forall_eq_or_imp, forall_eq]
  exact ⟨⟨_, rfl, rfl, rfl, rfl, rfl, rfl, rfl⟩, ⟨_, rfl, rfl, rfl, rfl, rfl, rfl, rfl⟩⟩

theorem witness_GatheringDeadline :
    TableLaw (nearGather 15) ∧ TableLaw (nearGather 16) ∧
      CanArrive ((⟨1000, 60000⟩ : Time).until_ ⟨1000, 60001⟩) (nearGather 15) ∧
      CanArrive ((⟨1000, 60000⟩ : Time).until_ ⟨1000, 60001⟩) (nearGather 16) :=
  ⟨by unfold TableLaw; decide +kernel, by unfold TableLaw; decide +kernel,
    canArrive_of (by decide +kernel), canArrive_of (by decide +kernel)⟩

/-- The fourth miss of station 0: PEER_SILENT is counted. -/
theorem witness_GatheringDeadline_silent :
    let s := { nearGather 15 with gather := { lab.gather with
      roster := lab.gather.roster.set 0 ⟨.present, none, none, none, 3, some 0⟩ } }
    let t := after (.gatheringDeadline ⟨5000, 30⟩) s
    TableLaw s ∧ t.gather.roster[(0 : Station)].state = .silent ∧ t.count .peerSilent = 1 :=
  ⟨by unfold TableLaw; decide +kernel, by decide +kernel, by decide +kernel⟩

theorem witness_GatheringDeadline_after :
    let t := after (.gatheringDeadline ⟨5000, 30⟩) (nearGather 16)
    (after (.gatheringDeadline ⟨5000, 30⟩) (nearGather 15)).table.records.length = 16 ∧
      t.table.records.length = 16 ∧ t.gather.roster[(0 : Station)].misses = 1 ∧ t.count .skipped = 1 := by
  decide +kernel

/-- The gathering deadline of an OPEN, a CLOSING and a DRAINING record: marked, and nothing counted. -/
theorem witness_GatheringDeadline_marked :
    let s (st : RecordState) := labWith [{ farRecord 30 st with gatherDeadline := ⟨1000, 60001⟩ }]
    let t (st : RecordState) := after (.gatheringDeadline ⟨5000, 30⟩) (s st)
    CanArrive ((⟨1000, 60000⟩ : Time).until_ ⟨1000, 60001⟩) (s .opened) ∧
      [RecordState.opened, .closing, .draining].map (fun st =>
        (t st).table.records.map (fun r => (r.state, r.gatherPassed))) =
          [[(.opened, true)], [(.closing, true)], [(.draining, true)]] ∧
      (t .closing).gather.roster[(0 : Station)].misses = 0 :=
  ⟨canArrive_of (by decide +kernel), by decide +kernel, by decide +kernel⟩

/-- A GATHERING record behind an older one that still waits: marked, its misses counted. -/
theorem witness_GatheringDeadline_behind :
    let s := { labWith [{ farRecord 29 .gathering with expected := some [0, 2] },
        { farRecord 30 .gathering with gatherDeadline := ⟨1000, 60001⟩, expected := some [0] }] with
      clock := { lab.clock with newest := some ⟨5000, 30⟩ } }
    let t := after (.gatheringDeadline ⟨5000, 30⟩) s
    TableLaw s ∧ CanArrive ((⟨1000, 60000⟩ : Time).until_ ⟨1000, 60001⟩) s ∧
      t.table.records.map (fun r => (r.tag.k, r.state, r.gatherPassed)) =
        [(29, .gathering, false), (30, .gathering, true)] ∧
      t.gather.roster[(0 : Station)].misses = 1 :=
  ⟨by unfold TableLaw; decide +kernel, canArrive_of (by decide +kernel), by decide +kernel,
    by decide +kernel⟩

/-! ### Snapshots -/

/-- The last byte of a delivery, and the record behind it. -/
def lastByte : State :=
  let s := labWith [{ farRecord 20 .draining with
    attachments := (Vector.replicate 16 Attachment.none).set 0 (.stored [9] 21) }, farRecord 21 .draining]
  { s with assembler := ⟨.delivering (composition ⟨5000, 20⟩ 50) 49, 0, some 59⟩ }

theorem witness_DeliveryEnd :
    let t := after .deliveryEnd lastByte
    t.table.records.map (·.tag.k) = [21] ∧ t.gather.free = [0, 1, 2, 3, 9] ∧
      tagInDelivery t.assembler.state = some ⟨5000, 21⟩ ∧ t.count .snapshotsDelivered = 1 := by
  decide +kernel

/-- A delivery ends where a GATHERING record is complete: it drains in the same judgement, and the
composition begun is its own. -/
theorem witness_DeliveryEnd_judged :
    let s := labWith [farRecord 20 .draining, { farRecord 21 .gathering with expected := some [] }]
    let t := after .deliveryEnd { s with
      assembler := ⟨.delivering (composition ⟨5000, 20⟩ 50) 49, 0, none⟩ }
    states t = [(21, .draining)] ∧ tagInDelivery t.assembler.state = some ⟨5000, 21⟩ := by
  decide +kernel

theorem witness_MarkPulseEnd : lastByte.assembler.mark = some 59 ∧ CanArrive (60 - 59) lastByte ∧
    (after .markPulseEnd lastByte).markHigh = false :=
  ⟨rfl, canArrive_of (by decide +kernel), by decide +kernel⟩

/-- Every status a segment can have: a record with one attachment of each kind. -/
theorem witness_Composition :
    let r := { record ⟨1000, 0⟩ .draining with
      expected := some [5], cells := some []
      attachments := ((Vector.replicate 16 Attachment.none).set 2 .lost).set 3 .abandoned }
    [segmentStatus 1 r 1, segmentStatus 1 { r with
        attachments := r.attachments.set 0 (.stored [0] 21) } 0,
      segmentStatus 1 r 2, segmentStatus 1 r 3, segmentStatus 1 r 5, segmentStatus 1 r 6] =
      [.local_, .received, .lost, .abandoned, .missing, .excluded] := by
  decide +kernel

/-- What the merge keeps is defined for every list of cells. -/
theorem witness_Merge (all : List Cell) : ∃ keep, MergeRule all keep := by
  classical
  refine ⟨fun i => (all[i]?).bind (fun c =>
    if c.secondary then if ChosenAt all c i then some { c with used := true } else none
    else if c.quality ≠ .absent ∧ ∃ j, j < i ∧ PrimaryAt all c.code j then none
    else some { c with used := false }), fun i c h => ⟨fun hs => ⟨fun hc => ?_, fun hc => ?_⟩,
      fun hs => ⟨fun hc => ?_, fun hc => ?_⟩⟩⟩ <;>
    simp only [h, Option.bind_some, hs, if_true, if_false, Bool.false_eq_true] <;>
    first | exact if_pos hc | exact if_neg hc

/-- A conflict, an ABSENT primary cell, a secondary cell of a code with a primary value, and the better
of two secondary cells of a code without one. -/
theorem witness_Merge_cells :
    let sec (code : Nat) (q : Quality) : Cell := { cell code q with secondary := true }
    let segs := [[cell 7 .exact, sec 9 .held], [cell 7 .exact, cell 8 .absent, sec 7 .exact, sec 9 .exact]]
    (mergeAll [] segs).map (fun seg => seg.map (fun c => (c.code, c.used))) =
        [[(7, false)], [(8, false), (9, true)]] ∧ conflictCount [] segs.flatten = 1 := by
  decide +kernel

/-- A DRAINING record is taken: a conflict between the own cell and a stored one, and a mark. -/
theorem witness_Composition_taken :
    let bytes := storedBytes 0 (share ⟨5000, 20⟩ [cell 7 .exact] [])
    let s := { labWith [{ farRecord 20 .draining with
        enabled := [0], cells := some [cell 7 .exact], expected := some [0]
        marks := [⟨1, 7, .rising⟩]
        attachments := (Vector.replicate 16 Attachment.none).set 0 (.stored [3] bytes.length) }] with
      gather := { lab.gather with mem := storeWrite [] [3] bytes }
      assembler := ⟨.idle, 4, none⟩ }
    let t := takeRecord s
    (s.table.records.find? (fun q => q.state == .draining)).isSome = true ∧
      t.count .codeConflict = 1 ∧ t.assembler.skipped = 0 ∧ t.assembler.mark = some 0 ∧
      tagInDelivery t.assembler.state = some ⟨5000, 20⟩ ∧
      t.assembler.presented = some (0, true) := by
  decide +kernel

/-! ### Peer link -/

/-- The lab with a notice, a share and a beacon pending. -/
def pendingAll : State := { lab with link := { lab.link with
  notice := some ⟨.stepped, ⟨1000, 0⟩⟩, beacon := some ⟨1000, true⟩
  queue := [⟨⟨1000, 0⟩, [], [], ⟨1001, 0⟩, false⟩] } }

/-- The notice first, the share next, the beacon last, and nothing with the defer flag set. -/
theorem witness_Claim :
    let noNotice := { pendingAll with link := { pendingAll.link with notice := none } }
    let beaconOnly := { noNotice with link := { noNotice.link with queue := [] } }
    let deferred := { pendingAll with link := { pendingAll.link with deferFlag := true } }
    let offered (s : State) := (after .claimStart s).link.tx.map (fun x => x.frame.frameClass)
    [offered pendingAll, offered noNotice, offered beaconOnly, offered deferred]
      = [some 0, some 1, some 2, none] := by
  decide +kernel

/-- A claim with the share of tag (1000, 0): won, lost to station 0, and a line fault. -/
def claiming (passed : Bool) : State := { lab with link := { lab.link with
  medium := .own, tx := some ⟨.share (share ⟨1000, 0⟩ [] []), .claiming⟩
  queue := [⟨⟨1000, 0⟩, [], [], ⟨1001, 0⟩, passed⟩] } }

theorem witness_ClaimResolves :
    let phase (line : ClaimKey) (passed : Bool) :=
      ((after (.claimResolved line) (claiming passed)).link.tx.map (·.phase),
        (after (.claimResolved line) (claiming passed)).link.queue.length)
    (phase 17 false, phase 16 false, phase 16 true, phase 19 false) =
      ((some .transmitting, 1), (none, 1), (none, 0), (none, 1)) := by
  decide +kernel

/-- A station that offers a notice or a beacon and loses keeps it. -/
theorem witness_ClaimResolves_kept :
    let s (f : OutFrame) := { lab with link := { lab.link with medium := .own, tx := some ⟨f, .claiming⟩ } }
    let b := beaconNow lab ⟨1000, true⟩
    (after (.claimResolved 0) (s (.notice ⟨.stopping, ⟨0, 0⟩⟩))).link.notice = some ⟨.stopping, ⟨0, 0⟩⟩ ∧
      (after (.claimResolved 16) (s (.beacon b))).link.beacon = some ⟨1000, true⟩ := by
  decide +kernel

/-- The claims of chapter 6's example: 5, 18 and 25, and then 18 and 25 (section 6.5). -/
theorem test_example_claims :
    [[5, 18, 25], [18, 25], [25]].map (fun keys => claimLine keys 7) =
      ([5, 18, 25] : List ClaimKey).map claimLevels := by
  decide +kernel

/-- A transmission, and the third collision in a run. -/
theorem witness_Transmissions :
    let s (run : Nat) := { claiming false with link := { (claiming false).link with
      tx := some ⟨.share (share ⟨1000, 0⟩ [] []), .transmitting⟩, collisionRun := run } }
    (after .transmissionComplete (s 2)).link.queue = [] ∧
      (after .transmissionComplete (s 2)).link.collisionRun = 0 ∧
      (after .collision (s 1)).link.state = .active ∧ (after .collision (s 2)).link.state = .muted ∧
      (after .collision (s 2)).attn = true := by
  decide +kernel

/-- A collision of a share whose deadline passed in transmission, in a character and in the claim. -/
theorem witness_Transmissions_passed :
    let s (passed : Bool) (phase : TxPhase) := { claiming passed with link := { (claiming passed).link with
      tx := some ⟨.share (share ⟨1000, 0⟩ [] []), phase⟩ } }
    let show_ (passed : Bool) (phase : TxPhase) :=
      let u := after .collision (s passed phase)
      (u.link.queue.length, u.count .shareExpired, u.link.medium)
    [show_ true .transmitting, show_ true .claiming, show_ false .transmitting] =
      [(0, 1, .own), (0, 1, .foreign), (1, 0, .own)] := by
  decide +kernel

theorem witness_LineEvents :
    let s (m : Medium) := { lab with link := { lab.link with medium := m, deferFlag := true } }
    (after .foreignClaimResolved (s .idle)).link.medium = .foreign ∧
      (after .deferIdleExpiry (s .own)).link.deferFlag = false ∧
      (after .linkIdleJudged (s .unsynced)).link.medium = .idle := by
  decide +kernel

/-- One frame of each kind is within its ranges and is read back as sent. -/
theorem witness_LinkFrames :
    let fs := [OutFrame.notice ⟨.stepped, ⟨1000, 3⟩⟩, .beacon (beaconNow lab ⟨1000, true⟩),
      .share (share ⟨1000, 3⟩ [cell 7 .held] [⟨2, 7, .falling⟩])]
    fs.map (fun f => (f.fits, (parseLinkFrame (f.key 2) (f.bytes 2)) = some f.received)) =
      [(true, True), (true, True), (true, True)] := by
  simp only [List.map_cons, List.map_nil, List.cons.injEq, Prod.mk.injEq, eq_iff_iff, iff_true, and_true]
  decide +kernel

/-- The claim of key 17 and one character of 0xA5 on the line, and their reading (R107). -/
theorem test_line_form :
    let d := LineLevel.dominant
    let r := LineLevel.recessive
    let levels := [d, d, r, d, d, d, r, d, r, d, r, d, d, r, d, r, r]
    transmissionLevels 17 [0xA5] = levels ∧ readTransmission levels = some (17, [0xA5]) ∧
      levels.length = 17 ∧ readTransmission (levels.set 16 d) = none ∧
      lineLevel [r, d, r] = d ∧ lineLevel [r, r] = r := by
  decide +kernel

/-- A share of station 1, key 17, in the claim and past it, reading what it drives: its start bit, its
first 1, the end of its claim, its first character; and a station that is not transmitting. -/
theorem witness_LinkFrames_driven :
    let won := after (.claimResolved 17) (claiming false)
    let own : List LineLevel := transmissionLevels 17 []
    [(claiming false).drives [], (claiming false).drives (own.take 2), (claiming false).drives own,
      won.drives own, lab.drives []] =
      [.dominant, .recessive, .recessive, .dominant, .recessive] := by
  decide +kernel

/-- Key 17 loses to key 5 at its second bit, which it reads dominant: it stops driving, and its 0 at the
fourth key bit stays recessive (R114). A character that reads a difference at its third bit is driven to
its end, and the next one is not (R118). -/
theorem test_drives_stop :
    let won := after (.claimResolved 17) (claiming false)
    let d : LineLevel := .dominant
    let own : List LineLevel := transmissionLevels 17 []
    firstDifference (transmissionLevels 17 []) [d, d, d] = some 2 ∧
      (claiming false).drives [d, d] = .recessive ∧ (claiming false).drives [d, d, d] = .recessive ∧
      (transmissionLevels 17 [])[3]? = some .dominant ∧
      firstDifference (own ++ characterLevels 0x11) (own ++ [d, d, d, d, d]) = some 11 ∧
      won.drives (own ++ [d, d, d, d, d]) = d ∧
      won.drives (own ++ [d, d, d, d, d] ++ List.replicate 5 d) = .recessive := by
  decide +kernel

/-- The lab with a frame on the line. -/
def hearing : State := { lab with link := { lab.link with medium := .foreign } }

/-- A frame for each failed check: 13 bytes, a wrong length, a wrong CRC-32, a wrong key, a sender
outside the set, and this station's own index. -/
theorem witness_BadLinkFrames :
    let f : OutFrame := .notice ⟨.stopping, ⟨0, 0⟩⟩
    let heard (key : ClaimKey) (b : List Byte) := after (.linkFrameEnd key b) hearing
    (heard 2 ((f.bytes 2).take 13)).count .linkBadLength = 1 ∧
      (heard 2 ((f.bytes 2).set 3 15)).count .linkBadLength = 1 ∧
      (heard 2 ((f.bytes 2).set 13 0)).count .linkBadCrc = 1 ∧
      (heard 3 (f.bytes 2)).count .linkBadKind = 1 ∧ (heard 9 (f.bytes 9)).count .stranger = 1 ∧
      (heard 1 (f.bytes 1)).count .indexClash = 1 ∧ shareHeaderOf (f.bytes 2) = none := by
  decide +kernel

/-- What check 3 makes of a frame with one byte of its body changed, its CRC-32 made good again. -/
def formWith (key : ClaimKey) (b : List Byte) (i : Nat) (v : Byte) : Option Counter :=
  match checkForm key (closeCrc32 ((b.take (b.length - 4)).set i v)) with
  | .error c => some c
  | .ok _ => none

/-- Each form that check 3 refuses: the format number, the kind, the index, the notice kind, the beacon's
clock state; of a share the clock state, the counts, a quality, a phasor count, the two at odds, a
direction, and a length that does not follow; and a beacon's bits 6..3, which nothing looks at. -/
theorem witness_BadLinkFrames_forms :
    let notice := noticeBytes 2 ⟨.stopping, ⟨0, 0⟩⟩
    let beacon := beaconBytes 2 (beaconNow lab ⟨1000, true⟩)
    let b := shareBytes 2 (share ⟨1000, 3⟩ [cell 7 .exact, cell 8 .absent] [⟨2, 7, .falling⟩])
    (∀ x ∈ [(0, 0x20#8), (0, 0x13), (0, 0x11), (1, 3), (4, 0), (4, 3)],
        formWith 2 notice x.1 x.2 = some .linkBadKind) ∧
      (∀ v ∈ [5#8, 6, 7], formWith 34 beacon 4 v = some .linkBadKind) ∧
      formWith 34 beacon 4 0xF9 = none ∧ formWith 18 b 20 0xF0 = none ∧
      (∀ x ∈ [(14, 5#8), (15, 49), (16, 9), (19, 4), (19, 3), (22, 13), (22, 0), (36, 0), (43, 3),
        (15, 1), (16, 0)], formWith 18 b x.1 x.2 = some .linkBadKind) ∧
      (after (.linkFrameEnd 2 (closeCrc32 ((notice.take 10).set 4 3))) hearing).count .linkBadKind = 1 ∧
      crc32 (notice.take 10) = BitVec.ofNat 32 (field notice 10 4) ∧ BadForm 3 notice ∧
      ¬BadForm 2 notice := by
  refine ⟨by decide +kernel, by decide +kernel, by decide +kernel, by decide +kernel, by decide +kernel,
    by decide +kernel, by decide +kernel, .inr (.inr (.inr (.inl (by decide +kernel)))), ?_⟩
  unfold BadForm CellForm
  decide +kernel

/-- A share whose header was handed and whose CRC-32 is wrong: its blocks return. -/
theorem witness_BadLinkFrames_share :
    let b := (shareBytes 0 (share ⟨5000, 3⟩ [] [])).set 20 0
    let s := { hearing with gather := { hearing.gather with reception := some ⟨b.take 17, [7], false⟩ } }
    shareHeaderOf b = some (b.take 17) ∧ (checkForm 16 b).toOption = none ∧
      (after (.linkFrameEnd 16 b) s).count .linkBadCrc = 1 ∧
      (after (.linkFrameEnd 16 b) s).gather.free = [0, 1, 2, 3, 7] := by
  decide +kernel

/-- A share from a sender outside the set, one under this station's own index, and one in CONFIG_FAULT. -/
theorem witness_BadLinkFrames_share_sender :
    let b (i : Station) := shareBytes i (share ⟨5000, 3⟩ [] [])
    let s (i : Station) := { hearing with
      gather := { hearing.gather with reception := some ⟨(b i).take 17, [7], false⟩ } }
    let t (i : Station) := after (.linkFrameEnd (BitVec.ofNat 6 (16 + i.val)) (b i)) (s i)
    let f := { hearing with loader := { hearing.loader with state := .fault } }
    [((t 9).count .stranger, (t 9).gather.free), ((t 1).count .indexClash, (t 1).gather.free)] =
        [(1, [0, 1, 2, 3, 7]), (1, [0, 1, 2, 3, 7])] ∧
      (after (.linkFrameEnd 16 (b 0)) f).count .linkFramesReceived = 1 ∧
      (after (.linkFrameEnd 16 ((b 0).set 20 0)) f).count .linkBadCrc = 1 := by
  decide +kernel

/-! ### Roster and shares -/

/-- The header of a share of 65 bytes from station 0, which takes two blocks. -/
def header : List Byte := [0x11, 0, 0, 65] ++ tagBytes ⟨1000, 0⟩ ++ [50] ++ beBytes 4 0x1234 ++ [1, 0, 0]

theorem witness_ShareHeader :
    MemoryLaw hearing ∧ hearing.running = true ∧ header.length = 17 ∧ field header 0 1 = 17 ∧
      field header 2 2 = 65 ∧ hearing.gather.reception = none ∧
      (after (.shareHeader header) hearing).gather.free = [2, 3] ∧
      (after (.shareHeader header) { hearing with
        gather := { hearing.gather with free := [0] } }).gather.reception = some ⟨header, [], true⟩ ∧
      (after (.shareHeader (header.set 9 60)) hearing).gather.reception
        = some ⟨header.set 9 60, [], false⟩ :=
  ⟨⟨rfl, rfl⟩, rfl, by decide +kernel, by decide +kernel, by decide +kernel, rfl, by decide +kernel,
    by decide +kernel, by decide +kernel⟩

/-- A share without cells, its header handed with a list of blocks, for a record of its tag. -/
def sharing (st : RecordState) (blocks : List Block) : State :=
  let s := labWith [{ farRecord 3 st with expected := some [] }]
  { s with
    clock := { s.clock with newest := some ⟨5000, 3⟩ }
    link := { s.link with medium := .foreign }
    gather := { s.gather with
      free := [2, 3], reception := some ⟨(shareBytes 0 (share ⟨5000, 3⟩ [] [])).take 17, blocks, false⟩ } }

theorem witness_AcceptedShare_hypotheses :
    let s := sharing .opened [1]
    let b := shareBytes 0 (share ⟨5000, 3⟩ [] [])
    (checkForm 16 b).toOption = some (.share (share ⟨5000, 3⟩ [] [])) ∧
      s.gather.reception.map (·.header) = shareHeaderOf b ∧ keyStation 16 = 0 ∧
      (0 : Station) ∈ s.loader.shared.stations ∧ (0 : Station) ≠ s.loader.strap ∧
      (50 : Byte).toNat = s.loader.shared.slotRate.perSecond ∧ s.loader.shared.digest = 0x1234 ∧
      s.gather.roster[(0 : Station)].state = .present ∧
      newerThanOpened s.clock.newest ⟨5000, 3⟩ = false ∧
      (recordOf ⟨5000, 3⟩ s.table.records).map (fun r => (r.state, r.attachments[(0 : Station)]))
        = some (.opened, .none) ∧
      b.length = 21 := by
  decide +kernel

theorem witness_AcceptedShare :
    TableLaw (sharing .opened [1]) ∧ MemoryLaw (sharing .opened [1]) ∧
      ([1] : List Block).Nodup ∧
      (after (.linkFrameEnd 16 (shareBytes 0 (share ⟨5000, 3⟩ [] []))) (sharing .opened [1])).table.records.map
        (fun r => r.attachments[(0 : Station)]) = [.stored [1] 21] ∧
      (after (.linkFrameEnd 16 (shareBytes 0 (share ⟨5000, 3⟩ [] []))) (sharing .opened [])).table.records.map
        (fun r => r.attachments[(0 : Station)]) = [.lost] :=
  ⟨by unfold TableLaw; decide +kernel, ⟨rfl, rfl⟩, by decide, by decide +kernel, by decide +kernel⟩

/-- The stored bytes of the share are read as the share again, once it has come. -/
theorem witness_AcceptedShare_read :
    let f := share ⟨5000, 3⟩ [] []
    let t := after (.linkFrameEnd 16 (shareBytes 0 f)) (sharing .opened [1])
    (checkForm 16 (storeRead t.gather.mem [1] 21)).toOption = some (.share f) ∧
      storedShare t.gather.mem (.stored [1] 21) = some f := by
  decide +kernel

/-- A share for a GATHERING record that still waits for station 2, and one that completes it, behind no
and behind 16 DRAINING records. -/
def sharingGathering (drained : Nat) (expected : List Station) : State :=
  let s := sharing .gathering [1]
  { s with table := { s.table with
    records := (List.range drained).map (fun k => { farRecord k .draining with tag := ⟨4999, k⟩ }) ++
      [{ farRecord 3 .gathering with expected := some expected }] } }

theorem witness_AcceptedShare_gathering :
    let t (n : Nat) (e : List Station) :=
      after (.linkFrameEnd 16 (shareBytes 0 (share ⟨5000, 3⟩ [] []))) (sharingGathering n e)
    (∀ x ∈ [(0, [0, 2]), (0, [0]), (16, [0])], TableLaw (sharingGathering x.1 x.2)) ∧
      [states (t 0 [0, 2]), states (t 0 [0])] = [[(3, .gathering)], [(3, .draining)]] ∧
      (t 16 [0]).table.records.length = 16 ∧ (t 16 [0]).count .skipped = 1 ∧
      (t 16 [0]).gather.free = [2, 3, 1] := by
  refine ⟨by unfold TableLaw; decide +kernel, ?_⟩
  decide +kernel

/-- Every test of R142: ahead, late in DRAINING, duplicate, accepted, late before the oldest, orphan. -/
theorem witness_ShareTags :
    let s := labWith [farRecord 3 .draining, { farRecord 4 .opened with
      attachments := (Vector.replicate 16 Attachment.none).set 0 .lost }, farRecord 6 .opened]
    let t := { s with clock := { s.clock with newest := some ⟨5000, 6⟩ } }
    [matchShare t 0 ⟨5000, 7⟩, matchShare t 0 ⟨5000, 3⟩, matchShare t 0 ⟨5000, 4⟩,
      matchShare t 2 ⟨5000, 4⟩, matchShare t 0 ⟨5000, 2⟩, matchShare t 0 ⟨5000, 5⟩] =
      [.ahead, .late, .duplicate, .accepted, .late, .orphan] := by
  decide +kernel

/-- A refused share of a PRESENT peer, and one of a MISMATCHED peer: the blocks return. -/
theorem witness_ShareTags_refused :
    let late := sharing .draining [1]
    let other := { late with gather := { late.gather with
      roster := late.gather.roster.set 0 ⟨.mismatched, none, none, none, 0, none⟩ } }
    let take (s : State) := after (.linkFrameEnd 16 (shareBytes 0 (share ⟨5000, 3⟩ [] []))) s
    (take late).count .lateShare = 1 ∧ (take late).gather.free = [2, 3, 1] ∧
      (take other).count .mismatchedShare = 1 ∧ (take other).gather.free = [2, 3, 1] := by
  decide +kernel

/-- A refused share of an UNHEARD and of a SILENT peer: it is PRESENT all the same (R144). -/
theorem witness_ShareTags_unheard :
    let late := sharing .draining [1]
    let from_ (st : PeerState) := { late with gather := { late.gather with
      roster := late.gather.roster.set 0 ⟨st, none, none, none, 3, none⟩ } }
    let take (st : PeerState) :=
      after (.linkFrameEnd 16 (shareBytes 0 (share ⟨5000, 3⟩ [] []))) (from_ st)
    matchShare (from_ .unheard) 0 ⟨5000, 3⟩ = .late ∧
      [take .unheard, take .silent].map (fun t => (t.gather.roster[(0 : Station)], t.count .lateShare)) =
        List.replicate 2 (⟨.present, some .locked, none, none, 0, some 0⟩, 1) ∧
      (take .silent).gather.free = [2, 3, 1] := by
  decide +kernel

/-- A share with another digest from a PRESENT peer: MISMATCHED, silent for every GATHERING record. -/
theorem witness_ShareTags_mismatch :
    let f := { share ⟨5000, 3⟩ [] [] with digest := 0x1235 }
    let s := sharingGathering 0 [0, 2]
    let b := shareBytes 0 f
    let t := after (.linkFrameEnd 16 b) { s with
      gather := { s.gather with reception := some ⟨b.take 17, [1], false⟩ } }
    t.count .mismatch = 1 ∧ t.count .mismatchedShare = 0 ∧ t.count .peerSilent = 1 ∧
      t.gather.roster[(0 : Station)].state = .mismatched ∧ t.gather.free = [2, 3, 1] ∧
      t.table.records.map (·.expected) = [some [2]] := by
  decide +kernel

/-- The hypotheses on a beacon and a notice from station 2. -/
theorem witness_BeaconAndNotice_hypotheses :
    let f : OutFrame := .beacon ⟨.locked, 50, 0x1234, 600000, 600000, ⟨1000, true⟩⟩
    let n : OutFrame := .notice ⟨.stepped, ⟨5000, 31⟩⟩
    hearing.loader.state = .loaded ∧ hearing.link.medium = .foreign ∧ hearing.gather.reception = none ∧
      (checkForm 34 (f.bytes 2)).toOption = some f.received ∧ keyStation 34 = 2 ∧
      (checkForm 2 (n.bytes 2)).toOption = some n.received ∧ keyStation 2 = 2 ∧
      (2 : Station) ∈ hearing.loader.shared.stations ∧ (2 : Station) ≠ hearing.loader.strap ∧
      hearing.gather.roster[(2 : Station)].state = .unheard := by
  decide +kernel

/-- A beacon from UNHEARD station 2: it becomes PRESENT, MISMATCHED or stays UNHEARD. -/
theorem witness_Beacon :
    let take (c : ClockState) (rate : Byte) :=
      let f : OutFrame := .beacon ⟨c, rate, 0x1234, 600000, 600000, ⟨1000, true⟩⟩
      (after (.linkFrameEnd 34 (f.bytes 2)) hearing).gather.roster[(2 : Station)].state
    [take .locked 50, take .locked 60, take .stopped 50, take .stepping 50]
      = [.present, .mismatched, .unheard, .present] := by
  decide +kernel

/-- A STOPPING notice from PRESENT station 0, and one from a MISMATCHED station. -/
theorem witness_Notice :
    let f : OutFrame := .notice ⟨.stopping, ⟨0, 0⟩⟩
    let other := { hearing with gather := { hearing.gather with
      roster := hearing.gather.roster.set 0 ⟨.mismatched, none, none, none, 0, none⟩ } }
    (after (.linkFrameEnd 0 (f.bytes 0)) hearing).gather.roster[(0 : Station)].state = .silent ∧
      (after (.linkFrameEnd 0 (f.bytes 0)) other).gather.roster[(0 : Station)]
        = ⟨.mismatched, none, none, none, 0, some 0⟩ := by
  decide +kernel

/-- Departures from PRESENT of station 0: by a STOPPING notice and by a beacon of a stopped clock, with a
GATHERING record that expects it and station 2; and a STEPPED notice, which is none. -/
theorem witness_Notice_departs :
    let s := { hearing with table := { hearing.table with
      records := [{ farRecord 26 .gathering with expected := some [0, 2] }] } }
    let stopping : OutFrame := .notice ⟨.stopping, ⟨0, 0⟩⟩
    let stepped : OutFrame := .notice ⟨.stepped, ⟨5000, 26⟩⟩
    let beacon : OutFrame := .beacon ⟨.stopped, 50, 0x1234, 600000, 600000, ⟨1000, true⟩⟩
    let show_ (key : ClaimKey) (f : OutFrame) :=
      let u := after (.linkFrameEnd key (f.bytes 0)) s
      (u.count .peerSilent, u.table.records.map (·.expected))
    TableLaw { s with clock := { s.clock with newest := some ⟨5000, 26⟩ } } ∧
      [show_ 0 stopping, show_ 32 beacon, show_ 0 stepped] =
        [(1, [some [2]]), (1, [some [2]]), (0, [some [2]])] :=
  ⟨by unfold TableLaw; decide +kernel, by decide +kernel⟩

/-! ### Resets, loads and the service port -/

theorem witness_Resets :
    let held := { lab with pins := { lab.pins with resetAsserted := true } }
    lab.pins.resetAsserted = false ∧ (after (.resetPinRelease 9) held).loader.strap = 9 ∧
      (after .resetPinAssert lab).loader.state = .loading ∧
      (after (.powerOn 9) lab).loader.cause = ⟨true, false, false, false⟩ ∧
      (after (.powerOn 9) lab).streams = [] ∧ (after (.powerOn 9) lab).clock = .reset := by
  decide +kernel

/-- A pin reset and a RELOAD at one moment, in either order: both flags (R190). -/
theorem witness_Resets_together :
    let s := { labPort with
      loader := { lab.loader with cause := ⟨false, false, false, false⟩ }
      port := { labPort.port with phase := .response, reloadPending := true } }
    let t := after (.chipSelectDeassert 5) (after .resetPinAssert s)
    let u := after .resetPinAssert (after (.chipSelectDeassert 5) s)
    (after .resetPinAssert s).loader.reloadMet = true ∧
      [t.loader.cause, u.loader.cause] = [⟨false, true, true, false⟩, ⟨false, true, true, false⟩] ∧
      t.loader.reloadMet = false ∧
      (after (.chipSelectDeassert 5) { t with pins := { t.pins with chipSelect := true } }).loader.cause
        = ⟨false, true, true, false⟩ := by
  decide +kernel

/-- A node whose strap index is 5, its load begun. -/
def loading : State := { State.reset with loader := { State.reset.loader with strap := 5 } }

theorem witness_Loads :
    loading.loader.state = .loading ∧ loading.pins.resetAsserted = false ∧
      (load loading.loader.strap image).working.isSome = true ∧
      (load loading.loader.strap []).working = none := by
  refine ⟨rfl, rfl, ?_, by decide +kernel⟩
  rw [show load loading.loader.strap image = load 5 image from rfl, image_load]
  rfl

/-- An image for each fault of R192 and R193 that a field can show: marker, length, CRC-32. -/
theorem witness_LoadJudges :
    let fault (b : List Byte) := (load 5 b).report.reason
    [fault [0xC1, 0x6A, 2], fault ([0xC1, 0x6A, 1] ++ beBytes 4 1493),
      fault ([0xC1, 0x6A, 1] ++ beBytes 4 6871)] =
      [.markerFault, .lengthFault, .lengthFault] := by
  decide +kernel

theorem witness_LoadJudges_passes : (load 5 image).working.map (·.entries.length) = some 1 ∧
    imageField image 3 4 = 1501 ∧ imageField image 7 1 ∈ [10, 25, 30, 50, 60, 100, 120] ∧
    imageField image 19 1 ≤ 2 ∧ (imageField image 8 2).testBit 5 = true ∧
    (imageField image 8 2).testBit 1 = false := by
  rw [image_load]; exact ⟨rfl, by decide +kernel, by decide +kernel, by decide +kernel, by decide +kernel,
    by decide +kernel⟩

/-- The image of section 10.6 with another own section of the same 98 bytes. -/
def imageWith (own : List Byte) : List Byte :=
  closeCrc32 (imageHeader ++ ((List.replicate 5 emptySection).flatten ++
    (own ++ (List.replicate 10 emptySection).flatten)))

/-- It passes the checks of R192 and R193 whatever the section holds. -/
theorem imageWith_passes {own : List Byte} (h : own.length = 98) : ImagePasses 5 (imageWith own) := by
  have hlen : (imageHeader ++ ((List.replicate 5 emptySection).flatten ++
      (own ++ (List.replicate 10 emptySection).flatten))).length = 1497 := by
    rw [List.length_append, List.length_append, List.length_append, h]
    decide +kernel
  have hf (off len : Nat) (hb : off + len ≤ 34) :
      imageField (imageWith own) off len = imageField imageHeader off len := by
    have hh : imageHeader.length = 34 := rfl
    simp only [imageField, imageBytes, imageWith, closeCrc32, List.append_assoc]
    rw [List.drop_append_of_le_length (by omega), List.take_append_of_le_length (by simp; omega)]
  have hc := closeCrc32_imageGood (imageHeader ++ ((List.replicate 5 emptySection).flatten ++
    (own ++ (List.replicate 10 emptySection).flatten)))
  rw [hlen] at hc
  unfold ImagePasses
  simp only [hf 0 2 (by omega), hf 2 1 (by omega), hf 3 4 (by omega), hf 7 1 (by omega),
    hf 19 1 (by omega), hf 8 2 (by omega)]
  have hl : imageField imageHeader 3 4 = 1501 := by decide +kernel
  rw [hl]
  exact ⟨by decide +kernel, by decide +kernel, by omega, by omega, hc, by decide +kernel,
    by decide +kernel, by decide +kernel⟩

/-- One own section for each fault of R195 to R197: one that runs past the image's end, a count of 49,
a length that the count does not give, a slot rate of 11, and a monitor quantity of 3. -/
theorem witness_LoadJudges_sections :
    let own (l0 l1 count rate quantity : Byte) : List Byte :=
      [l0, l1, count, 0x10, 0x05, rate, 2, 0, 0, 1] ++ quantity :: List.replicate 87 0
    let found (s : List Byte) := findSection (imageWith s) 1497 5 0 34
    let judged (s : List Byte) := (readSection (imageWith s) 5 [0, 2, 5, 9] 489).toOption.isSome
    (∀ l0 l1 count rate quantity, (own l0 l1 count rate quantity).length = 98) ∧
      (found (own 0x10 98 1 120 0)).toOption = none ∧
      (found (own 0 98 1 120 0)).toOption = some 489 ∧
      [judged (own 0 98 49 120 0), judged (own 0 99 1 120 0), judged (own 0 98 1 11 0),
        judged (own 0 98 1 120 3), judged (own 0 98 1 120 2)] = [false, false, false, false, true] := by
  refine ⟨fun _ _ _ _ _ => rfl, ?_⟩
  decide +kernel

/-- The checks of R196 in order on an entry with two faults: the first is the reason. -/
theorem witness_LoadJudges_entry :
    let i := imageWith ([0, 98, 1, 0, 0, 120, 13, 0, 0, 1] ++ List.replicate 88 0)
    entryStart i 5 0 = 492 ∧ imageField i 494 1 = 120 ∧ imageField i 495 1 = 13 ∧
      imageField i 492 2 = 0 := by
  decide +kernel

/-- A transaction opened, closed in each phase, and a command met while the loader is LOADING. -/
theorem witness_Transactions :
    let s (p : PortPhase) := { labPort with port := { labPort.port with phase := p } }
    let early := { labPort with loader := { lab.loader with state := .loading } }
    (after .chipSelectAssert lab).port.phase = .command ∧
      [(after (.chipSelectDeassert 0) (s .command)).count .commandsRefused,
        (after (.chipSelectDeassert 0) (s .arguments)).count .commandsRefused,
        (after (.chipSelectDeassert 0) (s .response)).count .commandsRefused,
        (after (.chipSelectDeassert 0) (s .dropping)).count .commandsRefused,
        (after (.chipSelectDeassert 0) early).count .commandsRefused] = [1, 1, 0, 0, 0] ∧
      (after .reload early).port.response = [0x02] ∧ (after .reload early).port.reloadPending = false := by
  decide +kernel

/-- A stream that exists and one that does not; a command outside a transaction is not taken. -/
theorem witness_Reads :
    labPort.port.phase = .command ∧ labPort.loader.state = .loaded ∧
      (after (.readStream [1]) labPort).port.response.take 3 = [0x01, 0, 8] ∧
      (after (.readStream [2]) labPort).port.response = [0x04] ∧
      (after .readStatus labPort).port.response.length = 74 ∧
      (after .readStatus lab).port.response = [] := by
  decide +kernel

theorem witness_ServiceCommands :
    let stopped := { labPort with clock := { lab.clock with state := .stopped } }
    let all := { labPort with port := { labPort.port with causes := ⟨true, true, true, true⟩ } }
    (after .resumeClock stopped).clock.state = .acquiring ∧
      (after .resumeClock labPort).port.response = [0x03] ∧
      (after (.disableStream [0]) labPort).streams.map (·.pending) = [false, true] ∧
      (after (.enableStream [2]) labPort).port.response = [0x04] ∧
      (after (.ackAttention [5]) all).port.response = [0x01, 10] ∧
      (after (.unknownCommand 0x26) labPort).port.response = [0x05] := by
  decide +kernel

/-- Argument bytes shifted in one by one: ARGUMENTS until the last. -/
theorem witness_Arguments :
    let a := after (.setWait [0]) (after (.setWait []) labPort)
    let b := after (.readStream []) labPort
    labPort.port.shifted 0x21 [] ∧ a.port.shifted 0x21 [0] ∧ b.port.shifted 0x12 [] ∧
      b.port.phase = .arguments ∧ (after (.setWait [50]) a).port.response = [0x01, 0, 50] ∧
      (after (.setWait [50]) a).table.requestedWait = 50 ∧
      (after (.readStream [2]) b).port.response = [0x04] := by
  refine ⟨.inl ⟨rfl, rfl⟩, .inr ⟨rfl, rfl, rfl⟩, .inr ⟨rfl, rfl, rfl⟩, rfl, ?_⟩
  decide +kernel

/-- The byte shifted out: the response, and 0x00 past it and in every other phase (R202). -/
theorem witness_Transactions_shifted :
    let p := (after (.setWait [0, 50]) labPort).port
    [p.shiftedOut 0, p.shiftedOut 2, p.shiftedOut 3, labPort.port.shiftedOut 0] = [0x01, 50, 0, 0] := by
  decide +kernel

end Sys2Proof.Tests
end

/-! The bytes of the node's two memories: which operations leave them as they are, and that the four
which write keep the canonical form (R27, R139). -/

namespace Sys2Proof.Machine

open Sys2Proof

variable {s t : State} {ps : List Part}

/-- The bytes of the intake buffer and of the share store. -/
def State.memories (s : State) : Memory × Memory := (s.intake.mem, s.gather.mem)

theorem MemoryLaw.of_memories (h : t.memories = s.memories) (hs : MemoryLaw s) : MemoryLaw t := by
  obtain ⟨hi, hg⟩ := Prod.mk.inj h
  exact ⟨hi ▸ hs.1, hg ▸ hs.2⟩

/-- A frame that lists neither memory leaves both as they are. -/
theorem ChangesOnly.memories (h : ChangesOnly ps s t) (hi : Part.intakeMem ∉ ps := by decide)
    (hg : Part.storeMem ∉ ps := by decide) : t.memories = s.memories :=
  Prod.ext (h .intakeMem hi) (h .storeMem hg)

/-! ## The updates -/

@[simp] theorem memories_setPins (v : Pins) : (s.setPins v).memories = s.memories := rfl
@[simp] theorem memories_setLoader (v : Loader) : (s.setLoader v).memories = s.memories := rfl
@[simp] theorem memories_setClock (v : Clock) : (s.setClock v).memories = s.memories := rfl
@[simp] theorem memories_setStreams (v : List Stream) :
    (s.setStreams v).memories = s.memories := rfl
@[simp] theorem memories_setTable (v : Table) : (s.setTable v).memories = s.memories := rfl
@[simp] theorem memories_setLink (v : Link) : (s.setLink v).memories = s.memories := rfl
@[simp] theorem memories_setAssembler (v : Assembler) :
    (s.setAssembler v).memories = s.memories := rfl
@[simp] theorem memories_setMonitors (v : Vector Monitor 8) :
    (s.setMonitors v).memories = s.memories := rfl
@[simp] theorem memories_setPort (v : Port) : (s.setPort v).memories = s.memories := rfl
@[simp] theorem memories_setCounters (v : Vector Nat 48) :
    (s.setCounters v).memories = s.memories := rfl
@[simp] theorem memories_setIntake_keep (v : Intake) (h : v.mem = s.intake.mem) :
    (s.setIntake v).memories = s.memories := Prod.ext h rfl
@[simp] theorem memories_setGather_keep (v : Gather) (h : v.mem = s.gather.mem) :
    (s.setGather v).memories = s.memories := Prod.ext rfl h
@[simp] theorem memories_setPending (v : List Instr) : (s.setPending v).memories = s.memories := rfl

/-! ## The shared operations -/

@[simp] theorem memories_raise (c : Cause) : (raise c s).memories = s.memories := rfl
@[simp] theorem memories_bump (c : Counter) : (bump c s).memories = s.memories :=
  (bump_frame c).memories
@[simp] theorem memories_judge : (judge s).memories = s.memories := judge_frame.memories
@[simp] theorem memories_takeRecord : (takeRecord s).memories = s.memories :=
  takeRecord_frame.memories
@[simp] theorem memories_freeRecords (gone : Record → Bool) :
    (freeRecords gone s).memories = s.memories := rfl
@[simp] theorem memories_updateRecord (tag : Tag) (f : Record → Record) :
    (updateRecord tag f s).memories = s.memories := rfl
@[simp] theorem memories_withRecords (rs : List Record) :
    (withRecords rs s).memories = s.memories := rfl
@[simp] theorem memories_updatePeer (i : Station) (f : Peer → Peer) :
    (updatePeer i f s).memories = s.memories := rfl
@[simp] theorem memories_leavePresent (i : Station) (st : PeerState) :
    (leavePresent i st s).memories = s.memories := (leavePresent_frame i st).memories
@[simp] theorem memories_enterPresent (i : Station) :
    (enterPresent i s).memories = s.memories := rfl
@[simp] theorem memories_withdrawShare (tag : Tag) : (withdrawShare tag s).memories = s.memories :=
  (withdrawShare_frame tag).memories
@[simp] theorem memories_passShare (tag : Tag) : (passShare tag s).memories = s.memories :=
  (passShare_frame tag).memories
@[simp] theorem memories_finishClose (r : Record) : (finishClose r s).memories = s.memories :=
  (finishClose_frame r).memories
@[simp] theorem memories_examine : (examine s).memories = s.memories := examine_frame.memories
@[simp] theorem memories_examineFor (n : Nat) : (examineFor n s).memories = s.memories :=
  (examineFor_frame n).memories
@[simp] theorem memories_evaluate : (evaluate s).memories = s.memories := evaluate_frame.memories
@[simp] theorem memories_abandonOpen : (abandonOpen s).memories = s.memories :=
  abandonOpen_frame.memories
@[simp] theorem memories_placeNotice (n : Notice) : (placeNotice n s).memories = s.memories := rfl
@[simp] theorem memories_enterStopped : (enterStopped s).memories = s.memories :=
  enterStopped_frame.memories
@[simp] theorem memories_passClose (tag : Tag) : (passClose tag s).memories = s.memories :=
  (passClose_frame tag).memories
@[simp] theorem memories_passGather (tag : Tag) : (passGather tag s).memories = s.memories :=
  (passGather_frame tag).memories
@[simp] theorem memories_passReached : (passReached s).memories = s.memories :=
  passReached_frame.memories
@[simp] theorem memories_deliverBoundary : (deliverBoundary s).memories = s.memories :=
  deliverBoundary_frame.memories
@[simp] theorem memories_elapse (k : Nat) : (elapse k s).memories = s.memories := rfl

theorem memories_foldl {α : Type} {f : State → α → State}
    (h : ∀ (s : State) (a : α), (f s a).memories = s.memories) (l : List α) (s : State) :
    (l.foldl f s).memories = s.memories := by
  induction l generalizing s with
  | nil => rfl
  | cons a l ih => rw [List.foldl_cons, ih, h]

/-- A time-driven command leaves the memories where its event does. -/
theorem memories_atMoment {due : State → Option Nat} {event : State → State}
    (h : ∀ s, (event s).memories = s.memories) :
    (atMoment due event s).memories = s.memories := by
  rcases atMoment_cases due event s with he | ⟨d, -, -, he⟩
  · rw [he]
  · rw [he, h, momentOf]
    split <;> simp

/-! ## The station clock -/

@[simp] theorem memories_reachBoundary : (reachBoundary s).memories = s.memories := by
  simp [reachBoundary]

@[simp] theorem memories_reachSlot : (reachSlot s).memories = s.memories := by simp [reachSlot]

@[simp] theorem memories_expireHoldover : (expireHoldover s).memories = s.memories := by
  unfold expireHoldover
  split <;> simp

theorem memories_endTod (chars : List TodChar) : (endTod chars s).memories = s.memories := by
  unfold endTod
  split
  · unfold takeTod
    split <;> simp
  · rfl

@[simp] theorem memories_settleDue : (settleDue s).memories = s.memories := by
  unfold settleDue
  dsimp only
  rw [memories_passReached]
  split_ifs <;> simp

@[simp] theorem memories_afterSet (before : Time) (locks : Bool) :
    (afterSet before locks s).memories = s.memories := by
  unfold afterSet
  dsimp only
  split_ifs <;> simp

@[simp] theorem memories_stepTo (second : Nat) : (stepTo second s).memories = s.memories := by
  unfold stepTo
  dsimp only
  split
  · simp
  · cases newestOpenTag s.table.records <;> simp

@[simp] theorem memories_phaseSet (second : Nat) : (phaseSet second s).memories = s.memories := by
  unfold phaseSet
  dsimp only
  split <;> simp

@[simp] theorem memories_edgeAcquiring : (edgeAcquiring s).memories = s.memories := by
  unfold edgeAcquiring
  dsimp only
  split <;> simp

@[simp] theorem memories_edgeDisciplined : (edgeDisciplined s).memories = s.memories := by
  unfold edgeDisciplined
  dsimp only
  split
  all_goals simp only [memories_stepTo, memories_phaseSet, memories_bump]
  all_goals split <;> simp

theorem memories_acceptEdge : (acceptEdge s).memories = s.memories := by
  unfold acceptEdge
  dsimp only
  split <;> simp

theorem memories_takeEdge (edge : Transition) : (takeEdge edge s).memories = s.memories := by
  unfold takeEdge
  split_ifs
  · exact memories_bump _
  · exact memories_acceptEdge
  · rfl

/-! ## The intake unit, but for the bytes it stores -/

@[simp] theorem memories_recordDrop (code : Nat) (reason : DropReason) (stamp : Time) :
    (recordDrop code reason stamp s).memories = s.memories := by
  unfold recordDrop
  cases reason.counter <;> simp

@[simp] theorem memories_beginFrame : (beginFrame s).memories = s.memories := by
  unfold beginFrame
  dsimp only
  split <;> simp

theorem memories_takeFrameStart : (takeFrameStart s).memories = s.memories := by
  unfold takeFrameStart
  dsimp only
  split
  · rfl
  · split <;> simp

@[simp] theorem memories_undoFrame (reason : DropReason) :
    (undoFrame reason s).memories = s.memories := by
  simp [undoFrame]

@[simp] theorem memories_checkerTake : (checkerTake s).memories = s.memories := by
  unfold checkerTake
  split <;> simp

@[simp] theorem memories_offerSample (n code : Nat) (x : Sample) :
    (offerSample n code x s).memories = s.memories := by
  unfold offerSample
  split
  · rfl
  · dsimp only
    split <;> simp

theorem memories_judgeHeld : (judgeHeld s).memories = s.memories := by
  unfold judgeHeld
  split
  · dsimp only
    split <;> simp [releaseFrame]
  · rfl

/-! ## The snapshot port -/

theorem memories_takeSnapshotByte : (takeSnapshotByte s).memories = s.memories := by
  unfold takeSnapshotByte
  split
  · split <;> simp
  · rfl
  · rfl

@[simp] theorem memories_endDelivery : (endDelivery s).memories = s.memories := by
  unfold endDelivery
  split
  · split
    · simp [finishDelivery]
    · rfl
  · rfl
  · rfl

@[simp] theorem memories_lowerMark : (lowerMark s).memories = s.memories := rfl

/-! ## The peer link -/

@[simp] theorem memories_returnFrame (f : OutFrame) (m : Medium) :
    (returnFrame f m s).memories = s.memories := by
  unfold returnFrame expireReturned
  split
  · split
    · split <;> simp
    · simp
  · simp
  · simp

@[simp] theorem memories_collide (f : OutFrame) (m : Medium) :
    (collide f m s).memories = s.memories := by
  unfold collide
  dsimp only
  split <;> simp

theorem memories_startClaim : (startClaim s).memories = s.memories := by
  unfold startClaim
  split
  · split <;> simp
  · rfl

theorem memories_resolveClaim (line : ClaimKey) : (resolveClaim line s).memories = s.memories := by
  unfold resolveClaim
  split
  · split <;> simp
  · rfl
  · rfl

@[simp] theorem memories_foreignClaim : (foreignClaim s).memories = s.memories := by
  unfold foreignClaim
  split <;> simp

theorem memories_deferIdle : (deferIdle s).memories = s.memories := by
  unfold deferIdle
  split <;> simp

theorem memories_completeSend : (completeSend s).memories = s.memories := by
  unfold completeSend
  split <;> simp

theorem memories_findMismatch : (findMismatch s).memories = s.memories := by
  unfold findMismatch
  split <;> simp

@[simp] theorem memories_judgeIdle : (judgeIdle s).memories = s.memories := by
  unfold judgeIdle
  split <;> simp

/-! ## The receiver, but for the bytes it stores -/

@[simp] theorem memories_impliedClaim : (impliedClaim s).memories = s.memories := by
  unfold impliedClaim
  split <;> simp

@[simp] theorem memories_dropReception : (dropReception s).memories = s.memories := by
  unfold dropReception
  split <;> rfl

@[simp] theorem memories_heard (i : Station) (c : ClockState) :
    (heard i c s).memories = s.memories := rfl

@[simp] theorem memories_mismatch (i : Station) : (mismatch i s).memories = s.memories := by
  simp [mismatch]

theorem memories_takeBeacon (i : Station) (f : BeaconFrame) :
    (takeBeacon i f s).memories = s.memories := by
  unfold takeBeacon
  dsimp only
  split
  · simp
  · split <;> simp

theorem memories_takeNotice (i : Station) (n : Notice) :
    (takeNotice i n s).memories = s.memories := by
  unfold takeNotice
  dsimp only
  split
  · simp
  · split
    · split <;> simp
    · simp

@[simp] theorem memories_acceptShare (i : Station) (tag : Tag) (length : Nat) :
    (acceptShare i tag length s).memories = s.memories := by
  unfold acceptShare
  dsimp only
  split
  · split <;> simp
  · simp

@[simp] theorem memories_settleMatch (i : Station) (tag : Tag) (length : Nat) :
    (settleMatch i tag length s).memories = s.memories := by
  unfold settleMatch
  split <;> simp [refuseShare]

theorem memories_takeShare (i : Station) (f : ShareFrame) (length : Nat) :
    (takeShare i f length s).memories = s.memories := by
  unfold takeShare
  dsimp only
  split
  · simp
  · split <;> simp [refuseShare]

@[simp] theorem memories_handOn (i : Station) (f : LinkFrame) (length : Nat) :
    (handOn i f length s).memories = s.memories := by
  unfold handOn
  cases f with
  | notice n => exact (memories_takeNotice i n).trans (memories_bump _)
  | beacon b => exact (memories_takeBeacon i b).trans (memories_bump _)
  | share x => exact (memories_takeShare i x length).trans (memories_bump _)

@[simp] theorem memories_receiveFrame (key : ClaimKey) (b : List Byte) :
    (receiveFrame key b s).memories = s.memories := by
  unfold receiveFrame
  dsimp only
  split
  · simp
  · split_ifs <;> simp

@[simp] theorem memories_countFrame (key : ClaimKey) (b : List Byte) :
    (countFrame key b s).memories = s.memories := by
  unfold countFrame
  split <;> simp

/-! ## Resets and the loader -/

theorem memories_assertReset : (assertReset s).memories = s.memories := by
  unfold assertReset
  split <;> rfl

theorem memories_releaseReset (straps : Station) :
    (releaseReset straps s).memories = s.memories := by
  unfold releaseReset
  split <;> rfl

theorem memories_completeLoad (image : List Byte) :
    (completeLoad image s).memories = s.memories := by
  unfold completeLoad
  split <;> rfl

theorem memories_faultLoad (image : List Byte) : (faultLoad image s).memories = s.memories := by
  unfold faultLoad
  split <;> rfl

/-! ## The service port -/

@[simp] theorem memories_answer (response : List Byte) :
    (answer response s).memories = s.memories := rfl

@[simp] theorem memories_refuseCommand (code : Byte) :
    (refuseCommand code s).memories = s.memories := by
  simp [refuseCommand]

theorem memories_assertSelect : (assertSelect s).memories = s.memories := by
  unfold assertSelect
  dsimp only
  split_ifs <;> rfl

@[simp] theorem memories_closeTransaction : (closeTransaction s).memories = s.memories := rfl

@[simp] theorem memories_cutShort : (cutShort s).memories = s.memories := by
  unfold cutShort
  split <;> simp

@[simp] theorem memories_meetReload : (meetReload s).memories = s.memories := by
  rw [meetReload_eq]; rfl

theorem memories_deassertSelect (straps : Station) :
    (deassertSelect straps s).memories = s.memories := by
  unfold deassertSelect
  dsimp only
  split
  · split
    · simp
    · split
      · simp
      · simp
      · split <;> rfl
      · simp
      · simp
  · rfl

/-- A command without arguments leaves the memories where carrying it out does. -/
theorem memories_plainCommand {carryOut : State → State}
    (h : (carryOut s).memories = s.memories) : (plainCommand carryOut s).memories = s.memories := by
  unfold plainCommand takeCommand
  split_ifs <;> simp [h]

/-- A command with arguments leaves the memories where carrying it out does. -/
theorem memories_argumentCommand (code : Byte) (bytes : List Byte)
    {carryOut : List Byte → State → State}
    (h : ∀ args, (carryOut args s).memories = s.memories) :
    (argumentCommand code bytes carryOut s).memories = s.memories := by
  unfold argumentCommand takeCommand
  dsimp only
  split
  · rfl
  · split_ifs <;> simp [h]

theorem memories_reportStream (args : List Byte) : (reportStream args s).memories = s.memories := by
  unfold reportStream
  split <;> simp

theorem memories_setPendingMember (member : Bool) (args : List Byte) :
    (setPendingMember member args s).memories = s.memories := by
  unfold setPendingMember
  split <;> simp

theorem memories_resumeClock : (resumeClock s).memories = s.memories := by
  unfold resumeClock
  split <;> simp

/-! ## The directory, the slot table and its local close -/

@[simp] theorem memories_stallStream (n : Nat) : (stallStream n s).memories = s.memories := by
  simp [stallStream]

@[simp] theorem memories_silencePeer (i : Station) : (silencePeer i s).memories = s.memories := by
  simp [silencePeer]

@[simp] theorem memories_updateMonitor (i : Fin 8) (f : Monitor → Monitor) :
    (updateMonitor i f s).memories = s.memories := rfl

@[simp] theorem memories_offerMark (tag : Tag) (m : Mark) :
    (offerMark tag m s).memories = s.memories := by
  unfold offerMark
  split
  · rfl
  · split <;> simp

theorem memories_judgeCell (pos : Nat) (c : Cell) (tag : Tag) (i : Fin 8) :
    (judgeCell pos c tag s i).memories = s.memories := by
  unfold judgeCell
  dsimp only
  split
  · rfl
  · split
    · rfl
    · split
      · simp
      · split_ifs <;> simp [fire]

theorem memories_evaluateCell (pos : Nat) (c : Cell) (tag : Tag) :
    (evaluateCell pos c tag s).memories = s.memories :=
  memories_foldl (fun _ i => memories_judgeCell pos c tag i) _ _

theorem memories_resolveNext : (resolveNext s).memories = s.memories := by
  unfold resolveNext
  split
  · rfl
  · split
    · rfl
    · exact memories_evaluateCell _ _ _

theorem memories_completeClose : (completeClose s).memories = s.memories := by
  unfold completeClose
  split <;> simp

/-! ## A step without a command -/

theorem memories_tickLater : (tickLater s).memories = s.memories := by
  unfold tickLater
  split
  · simp
  · split
    · simp
    · split
      · simp
      · split
        · simp
        · split <;> simp

theorem memories_tick : (tick s).memories = s.memories := by
  unfold tick
  split_ifs
  · rfl
  · simp
  · simp
  · simp
  · simp
  · rfl
  · simp
  · exact memories_tickLater

/-! ## The operations that write -/

theorem takeByte_memoryLaw (b : Byte) (h : MemoryLaw s) : MemoryLaw (takeByte b s) := by
  unfold takeByte
  split
  · split
    · split_ifs
      · exact .of_memories (memories_undoFrame _) h
      · exact .of_memories (memories_undoFrame _) h
      · exact ⟨memWrite_wf _ b h.1, h.2⟩
    all_goals exact h
  · exact h

theorem completeFrame_memoryLaw (h : MemoryLaw s) : MemoryLaw (completeFrame s) :=
  .of_memories memories_checkerTake ⟨bufferWrite_wf _ _ h.1, h.2⟩

theorem takeFrameEnd_memoryLaw (h : MemoryLaw s) : MemoryLaw (takeFrameEnd s) := by
  unfold takeFrameEnd
  dsimp only
  split
  · split
    · exact completeFrame_memoryLaw h
    all_goals exact h
  · exact h

theorem handHeader_memoryLaw (header : List Byte) (h : MemoryLaw s) :
    MemoryLaw (handHeader header s) := by
  unfold handHeader
  dsimp only
  split_ifs
  · exact ⟨h.1, storeWrite_wf _ _ h.2⟩
  · exact h
  · exact h

theorem takeHeader_memoryLaw (bytes : List Byte) (h : MemoryLaw s) :
    MemoryLaw (takeHeader bytes s) := by
  unfold takeHeader
  dsimp only
  split
  · split
    · exact handHeader_memoryLaw _ (.of_memories memories_impliedClaim h)
    · exact h
  · exact h

theorem gatherBytes_memoryLaw {b : List Byte} (ht : gatherBytes b s = some t) (h : MemoryLaw s) :
    MemoryLaw t := by
  unfold gatherBytes at ht
  split at ht
  · split at ht
    · cases ht
      exact ⟨h.1, storeWrite_wf _ _ h.2⟩
    · cases ht
  · split at ht
    · cases ht
      exact h
    · next header _ =>
      cases ht
      have hh := handHeader_memoryLaw header h
      exact ⟨hh.1, storeWrite_wf _ _ hh.2⟩

theorem takeFrame_memoryLaw (key : ClaimKey) (b : List Byte) (h : MemoryLaw s) :
    MemoryLaw (takeFrame key b s) := by
  unfold takeFrame
  dsimp only
  split
  · split
    · next s1 hs1 =>
      exact .of_memories (memories_receiveFrame key b) (gatherBytes_memoryLaw hs1 h)
    · exact h
  · exact .of_memories (memories_countFrame key b) h
  · exact h

theorem endLinkFrame_memoryLaw (key : ClaimKey) (b : List Byte) (h : MemoryLaw s) :
    MemoryLaw (endLinkFrame key b s) := by
  have hi : MemoryLaw (impliedClaim s) := .of_memories memories_impliedClaim h
  unfold endLinkFrame
  dsimp only
  split
  · exact takeFrame_memoryLaw key b hi
  · exact .of_memories memories_judgeIdle hi
  · exact .of_memories memories_judgeIdle hi
  · exact h

/-! ## The step -/

/-- Every command keeps the memories' canonical form: four may write bytes, and no other does. -/
theorem exec_memoryLaw (c : Instr) (h : MemoryLaw s) (ht : exec c s = .next t) : MemoryLaw t := by
  have keeps {f : State → State} (he : exec c s = perform c f s)
      (hf : MemoryLaw s → MemoryLaw (f s)) : MemoryLaw t :=
    (perform_cases (he ▸ ht)).2 ▸ hf h
  have same {f : State → State} (he : exec c s = perform c f s)
      (hf : (f s).memories = s.memories) : MemoryLaw t := keeps he (.of_memories hf)
  cases c with
  | byteEvent b => exact keeps rfl (takeByte_memoryLaw b)
  | frameEnd => exact keeps rfl takeFrameEnd_memoryLaw
  | shareHeader bytes => exact keeps rfl (takeHeader_memoryLaw bytes)
  | linkFrameEnd key bytes => exact keeps rfl (endLinkFrame_memoryLaw key bytes)
  | powerOn straps => exact same rfl rfl
  | resetPinAssert => exact same rfl memories_assertReset
  | resetPinRelease straps => exact same rfl (memories_releaseReset straps)
  | loadComplete image => exact same rfl (memories_completeLoad image)
  | loadFault image => exact same rfl (memories_faultLoad image)
  | ppsEdge edge => exact same rfl (memories_takeEdge edge)
  | timeOfDayMessage chars => exact same rfl (memories_endTod chars)
  | localSecondBoundary => exact same rfl (memories_atMoment fun _ => memories_reachBoundary)
  | slotTimeReached => exact same rfl (memories_atMoment fun _ => memories_reachSlot)
  | holdoverEntry => exact same rfl (memories_atMoment fun _ => rfl)
  | holdoverLimitExpiry => exact same rfl (memories_atMoment fun _ => memories_expireHoldover)
  | frameStart => exact same rfl memories_takeFrameStart
  | frameJudgement => exact same rfl memories_judgeHeld
  | stallExpiry n => exact same rfl (memories_atMoment fun _ => memories_stallStream n)
  | closeDeadline tag => exact same rfl (memories_atMoment fun _ => memories_passClose tag)
  | streamResolution => exact same rfl memories_resolveNext
  | closeCompletion => exact same rfl memories_completeClose
  | gatheringDeadline tag => exact same rfl (memories_atMoment fun _ => memories_passGather tag)
  | shareExpiry tag => exact same rfl (memories_atMoment fun _ => memories_passShare tag)
  | snapshotByteTaken => exact same rfl memories_takeSnapshotByte
  | deliveryEnd => exact same rfl memories_endDelivery
  | markPulseEnd => exact same rfl (memories_atMoment fun _ => memories_lowerMark)
  | claimStart => exact same rfl memories_startClaim
  | claimResolved line => exact same rfl (memories_resolveClaim line)
  | foreignClaimResolved => exact same rfl memories_foreignClaim
  | deferIdleExpiry => exact same rfl memories_deferIdle
  | transmissionComplete => exact same rfl memories_completeSend
  | collision => exact same rfl memories_findMismatch
  | silenceExpiry peer => exact same rfl (memories_atMoment fun _ => memories_silencePeer peer)
  | chipSelectAssert => exact same rfl memories_assertSelect
  | chipSelectDeassert straps => exact same rfl (memories_deassertSelect straps)
  | readStatus => exact same rfl (memories_plainCommand rfl)
  | readRoster => exact same rfl (memories_plainCommand rfl)
  | readStream args => exact same rfl (memories_argumentCommand _ _ memories_reportStream)
  | readCounters => exact same rfl (memories_plainCommand rfl)
  | readLastDrop => exact same rfl (memories_plainCommand rfl)
  | readResetCause => exact same rfl (memories_plainCommand rfl)
  | clearCounters => exact same rfl (memories_plainCommand rfl)
  | setWait args => exact same rfl (memories_argumentCommand _ _ fun _ => rfl)
  | enableStream args =>
    exact same rfl (memories_argumentCommand _ _ (memories_setPendingMember true))
  | disableStream args =>
    exact same rfl (memories_argumentCommand _ _ (memories_setPendingMember false))
  | resumeClock => exact same rfl (memories_plainCommand memories_resumeClock)
  | ackAttention args => exact same rfl (memories_argumentCommand _ _ fun _ => rfl)
  | reload => exact same rfl (memories_plainCommand rfl)
  | unknownCommand code =>
    exact same rfl (memories_plainCommand (memories_refuseCommand codeUnknown))
  | linkIdleJudged => exact same rfl memories_judgeIdle

/-- Settles O11: the front command keeps the law, and a step without a command writes no byte. -/
theorem stepKeepsTheMemoryLaw : Obligations.StepKeepsTheMemoryLaw := by
  unfold Obligations.StepKeepsTheMemoryLaw
  intro s t hs ht
  cases hp : s.pending with
  | nil =>
    rw [step_nil hp] at ht
    cases ht
    exact .of_memories memories_tick hs
  | cons c rest =>
    have hc : exec c (s.setPending rest) = .next t := by simpa only [step, hp] using ht
    exact exec_memoryLaw (s := s.setPending rest) c hs hc

end Sys2Proof.Machine

/-! The writer of the intake unit (R25 to R31, R45): what a frame start, a byte and a frame end do
in each of its states. -/

namespace Sys2Proof.Machine

open Sys2Proof

variable {s t : State}

/-! ## Increments and drops beside the lines and the intake unit -/

theorem bump_setIntake (c : Counter) (v : Intake) :
    bump c (s.setIntake v) = (bump c s).setIntake v := by
  unfold bump
  rw [show (s.setIntake v).count c = s.count c from rfl]
  dsimp only
  split <;> rfl

theorem bump_setPins (c : Counter) (v : Pins) : bump c (s.setPins v) = (bump c s).setPins v := by
  unfold bump
  rw [show (s.setPins v).count c = s.count c from rfl]
  dsimp only
  split <;> rfl

/-- A drop is its reason's counter incremented and the last-drop record written (R42, R43). -/
theorem recordDrop_eq {reason : DropReason} {c : Counter} (h : reason.counter = some c) (code : Nat)
    (stamp : Time) : recordDrop code reason stamp s =
      (bump c s).setIntake { s.intake with lastDrop := ⟨code, reason, stamp⟩ } := by
  simp [recordDrop, h]

/-! ## Frame start -/

theorem exec_frameStart : exec .frameStart s = .next (takeFrameStart s) :=
  perform_next (i := .frameStart) _ rfl

theorem takeFrameStart_idle (hs : s.pins.strobe = false) (hw : s.intake.writer = .idle) :
    takeFrameStart s = beginFrame (s.setPins { s.pins with strobe := true }) := by
  simp [takeFrameStart, hs, hw]

theorem takeFrameStart_ignoring (hs : s.pins.strobe = false) (hw : s.intake.writer = .ignoring) :
    takeFrameStart s = (bump .framesIgnored s).setPins { s.pins with strobe := true } := by
  simp [takeFrameStart, hs, hw, bump_setPins]

theorem takeFrameStart_closed (hs : s.pins.strobe = false) (hw : s.intake.writer = .closed) :
    takeFrameStart s = s.setPins { s.pins with strobe := true } := by
  simp [takeFrameStart, hs, hw]

/-- A frame start in IDLE with room for the stamp entry reserves its 9 bytes (R28). -/
theorem beginFrame_room (h : 9 ≤ s.intake.free) :
    beginFrame s = (bump .framesReceived s).setIntake { s.intake with
      frameStamp := stampNow s, frameBytes := 0, writer := .receiving
      writeCur := s.intake.writeHead + 9 } := by
  unfold beginFrame
  dsimp only
  rw [bump_setIntake]
  exact if_pos h

/-- A frame start in IDLE without that room drops the frame as BUFFER_FULL (R28). -/
theorem beginFrame_full (h : s.intake.free < 9) :
    beginFrame s = (bump .bufferFull (bump .framesReceived s)).setIntake { s.intake with
      frameStamp := stampNow s, frameBytes := 0, writer := .discarding
      lastDrop := ⟨0, .bufferFull, s.clock.now⟩ } := by
  unfold beginFrame
  dsimp only
  rw [bump_setIntake, recordDrop_eq rfl, bump_setIntake]
  exact if_neg (Nat.not_le.2 h)

theorem takeFrameStart_room (hs : s.pins.strobe = false) (hw : s.intake.writer = .idle)
    (hfree : 9 ≤ s.intake.free) :
    takeFrameStart s = { bump .framesReceived s with
      pins := { s.pins with strobe := true }
      intake := { s.intake with
        frameStamp := stampNow s, frameBytes := 0, writer := .receiving
        writeCur := s.intake.writeHead + 9 } } := by
  rw [takeFrameStart_idle hs hw, beginFrame_room (by exact hfree), bump_setPins]
  rfl

theorem takeFrameStart_full (hs : s.pins.strobe = false) (hw : s.intake.writer = .idle)
    (hfree : s.intake.free < 9) :
    takeFrameStart s = { bump .bufferFull (bump .framesReceived s) with
      pins := { s.pins with strobe := true }
      intake := { s.intake with
        frameStamp := stampNow s, frameBytes := 0, writer := .discarding
        lastDrop := ⟨0, .bufferFull, s.clock.now⟩ } } := by
  rw [takeFrameStart_idle hs hw, beginFrame_full (by exact hfree), bump_setPins, bump_setPins]
  rfl

/-- Settles O28, by the writer's state and the 9 bytes a stamp entry takes. -/
theorem frameStartReservesTheStampEntry : Obligations.FrameStartReservesTheStampEntry := by
  unfold Obligations.FrameStartReservesTheStampEntry
  rintro s stamp hs rfl
  refine ⟨fun hw hfree => ?_, fun hw hfree => ?_, fun hw => ?_, fun hw => ?_⟩
  · rw [exec_frameStart, takeFrameStart_room hs hw hfree]
    rfl
  · rw [exec_frameStart, takeFrameStart_full hs hw hfree]
    rfl
  · rw [exec_frameStart, takeFrameStart_ignoring hs hw]
    rfl
  · rw [exec_frameStart, takeFrameStart_closed hs hw]
    rfl

/-! ## A byte -/

theorem exec_byteEvent (b : Byte) : exec (.byteEvent b) s = .next (takeByte b s) :=
  perform_next (i := .byteEvent b) _ rfl

/-- Only a writer in RECEIVING takes a byte (R29, R45). -/
theorem takeByte_not_receiving (b : Byte) (h : s.intake.writer ≠ .receiving) :
    takeByte b s = s := by
  unfold takeByte
  split
  · split
    · next hw => exact absurd hw h
    all_goals rfl
  · rfl

theorem takeByte_receiving (b : Byte) (hs : s.pins.strobe = true)
    (hw : s.intake.writer = .receiving) :
    takeByte b s =
      if 85 ≤ s.intake.frameBytes then undoFrame .oversize s
      else if s.intake.free = 0 then undoFrame .bufferFull s
      else storeByte b s := by
  unfold takeByte
  rw [if_pos hs, hw]

/-- A frame dropped in reception leaves its count and the last-drop record alone (R30). -/
theorem undoFrame_eq {reason : DropReason} {c : Counter} (h : reason.counter = some c) :
    undoFrame reason s = { bump c s with
      intake := { s.intake with
        writer := .discarding, writeCur := s.intake.writeHead, frameBytes := 0
        lastDrop := ⟨0, reason, s.intake.frameStamp.at_⟩ } } := by
  rw [undoFrame, recordDrop_eq h]
  rfl

/-- Settles O29, by the writer's state, the count of 85 and the free space. -/
theorem byteIsStoredOrTheFrameUndone : Obligations.ByteIsStoredOrTheFrameUndone := by
  unfold Obligations.ByteIsStoredOrTheFrameUndone
  intro s b hm hs
  rw [exec_byteEvent]
  refine ⟨fun hw hlen => ?_, fun hw hlen hfree => ?_, fun hw hlen hfree => ?_, fun hw => ?_⟩
  · rw [takeByte_receiving b hs hw, if_pos hlen, undoFrame_eq rfl]
  · rw [takeByte_receiving b hs hw, if_neg (by omega), if_pos hfree, undoFrame_eq rfl]
  · rw [takeByte_receiving b hs hw, if_neg (by omega), if_neg hfree]
    exact ⟨_, rfl, memRead_memWrite_same hm.1 _ b, fun a ha => memRead_memWrite_other hm.1 b ha⟩
  · rw [takeByte_not_receiving b (by rcases hw with hw | hw | hw <;> simp [hw])]

/-! ## Positions and runs of bytes in the buffer -/

/-- Positions less than 32,768 apart are distinct (R27). -/
theorem pos_add_ne (p : Pos) {j k : Nat} (hj : j < 32768) (hk : k < 32768) (h : j ≠ k) :
    (p + BitVec.ofNat 15 j).toNat ≠ (p + BitVec.ofNat 15 k).toNat := by
  simp only [BitVec.toNat_add, BitVec.toNat_ofNat]
  omega

theorem pos_add_succ (p : Pos) (k : Nat) :
    p + 1 + BitVec.ofNat 15 k = p + BitVec.ofNat 15 (k + 1) := by
  rw [BitVec.add_assoc, Nat.add_comm, BitVec.ofNat_add]
  rfl

/-- A run of bytes into the buffer leaves every position outside the run as it was. -/
theorem memRead_bufferWrite_other (bytes : List Byte) : ∀ {m : Memory} (p : Pos) (a : Nat),
    memWf m = true → (∀ k < bytes.length, a ≠ (p + BitVec.ofNat 15 k).toNat) →
    memRead (bufferWrite m p bytes) a = memRead m a := by
  induction bytes with
  | nil => exact fun _ _ _ _ => rfl
  | cons b bs ih =>
    intro m p a hm ha
    have hp : a ≠ p.toNat := by simpa using ha 0 (by simp)
    rw [bufferWrite, ih (p + 1) a (memWrite_wf _ b hm), memRead_memWrite_other hm b hp]
    intro k hk
    rw [pos_add_succ]
    exact ha (k + 1) (by simpa using hk)

/-- A run of bytes no longer than the buffer stands there from its first position on. -/
theorem memRead_bufferWrite (bytes : List Byte) : ∀ {m : Memory} (p : Pos) {k : Nat},
    memWf m = true → bytes.length ≤ 32768 → k < bytes.length →
    memRead (bufferWrite m p bytes) (p + BitVec.ofNat 15 k).toNat = bytes.getD k 0 := by
  induction bytes with
  | nil => intro m p k _ _ hk; simp at hk
  | cons b bs ih =>
    intro m p k hm hlen hk
    rw [List.length_cons] at hlen hk
    have hwf := memWrite_wf p.toNat b hm
    cases k with
    | zero =>
      rw [bufferWrite, memRead_bufferWrite_other bs _ _ hwf, BitVec.add_zero,
        memRead_memWrite_same hm]
      · rfl
      · intro j hj
        rw [pos_add_succ]
        exact pos_add_ne p (by omega) (by omega) (by omega)
    | succ k =>
      rw [bufferWrite, ← pos_add_succ, ih (p + 1) hwf (by omega) (by omega)]
      rfl

/-! ## Frame end -/

theorem exec_frameEnd : exec .frameEnd s = .next (takeFrameEnd s) :=
  perform_next (i := .frameEnd) _ rfl

theorem takeFrameEnd_receiving (hs : s.pins.strobe = true) (hw : s.intake.writer = .receiving) :
    takeFrameEnd s = completeFrame (s.setPins { s.pins with strobe := false }) := by
  simp [takeFrameEnd, hs, hw]

theorem takeFrameEnd_discarding (hs : s.pins.strobe = true) (hw : s.intake.writer = .discarding) :
    takeFrameEnd s = (s.setPins { s.pins with strobe := false }).setIntake
      { s.intake with writer := .idle } := by
  simp [takeFrameEnd, hs, hw]

/-- A frame end of a frame that was not taken (R26, R45). -/
theorem takeFrameEnd_unheard (hs : s.pins.strobe = true)
    (hw : s.intake.writer = .closed ∨ s.intake.writer = .ignoring) :
    takeFrameEnd s = s.setPins { s.pins with strobe := false } := by
  rcases hw with hw | hw <;> simp [takeFrameEnd, hs, hw]

theorem stampEntry_length (stamp : Stamp) (count : Nat) : (stampEntry stamp count).length = 9 := by
  simp [stampEntry, timeBytes]

/-- The checker holds a frame once it has looked, where the complete region is not empty (R33). -/
theorem checkerTake_held (h : s.intake.held ≠ 0) :
    checkerTake s = s.setIntake { s.intake with checker := .checking } := by
  unfold checkerTake
  split
  · rfl
  · next hc =>
    have hck : s.intake.checker = .checking := by
      cases hk : s.intake.checker with
      | idle => exact absurd ⟨hk, h⟩ hc
      | checking => rfl
    rw [← hck]
    rfl

/-- The node after a frame end in RECEIVING (R31, R33). -/
theorem completeFrame_eq (s : State) : completeFrame s = s.setIntake { s.intake with
    mem := bufferWrite s.intake.mem s.intake.writeHead
      (stampEntry s.intake.frameStamp s.intake.frameBytes)
    writeHead := s.intake.writeCur, writer := .idle, frameBytes := 0
    held := s.intake.held + 9 + s.intake.frameBytes, checker := .checking } := by
  unfold completeFrame
  rw [checkerTake_held (by simp [Config.stampSize])]
  rfl

/-- Settles O30, by the writer's state. -/
theorem frameEndCompletesTheFrame : Obligations.FrameEndCompletesTheFrame := by
  unfold Obligations.FrameEndCompletesTheFrame
  intro s hm hs
  rw [exec_frameEnd]
  refine ⟨fun hw => ?_, fun hw => ?_, fun hw => ?_⟩
  · have hlen := stampEntry_length s.intake.frameStamp s.intake.frameBytes
    rw [takeFrameEnd_receiving hs hw, completeFrame_eq]
    refine ⟨_, rfl, fun i => ?_, fun a ha => ?_⟩
    · exact memRead_bufferWrite _ _ hm.1 (hlen.le.trans (by decide)) (i.isLt.trans_eq hlen.symm)
    · exact memRead_bufferWrite_other _ _ a hm.1 fun k hk => ha ⟨k, hk.trans_eq hlen⟩
  · rw [takeFrameEnd_discarding hs hw]
    rfl
  · rw [takeFrameEnd_unheard hs hw]
    rfl

end Sys2Proof.Machine

/-! The checks before the ring (R34 to R39): the order in which they refuse a frame, and the sample
that a frame which passes them carries. -/

namespace Sys2Proof.Machine

open Sys2Proof

variable {s t : State} {f : List Byte} {stamp : Stamp}

/-! ## Checks 1 to 4 -/

/-- The checks on the frame's bytes alone, in the order of R34. -/
theorem byteCheck_eq (f : List Byte) : byteCheck f =
    if f.length < 30 then some .runt
    else if f.getD 0 0 ≠ 0xA7#8 ∨ f.getD 1 0 ≠ 1#8 then some .badMarker
    else if field f 2 2 ≠ f.length then some .format
    else if crc16 (f.take (f.length - 2)) ≠ BitVec.ofNat 16 (field f (f.length - 2) 2) then
      some .badCrc
    else none := by
  simp [byteCheck, frameCrcGood, ← getD_toNat, BitVec.toNat_eq, Config.minFrame]

theorem judgeFrame_of_byteCheck {reason : DropReason} (h : byteCheck f = some reason) :
    judgeFrame s f stamp = .refused 0 reason := by
  simp [judgeFrame, h]

/-! ## Checks 5 to 8 -/

theorem positionOf_eq_none {streams : List Stream} {code : Nat}
    (h : ∀ st ∈ streams, st.entry.code ≠ code) : positionOf streams code = none :=
  List.findIdx?_eq_none_iff.2 fun st hst => by simpa using h st hst

/-- The position of a source code is that of the first stream which has it (R49). -/
theorem positionOf_eq_some {streams : List Stream} {code n : Nat} {st : Stream}
    (hn : streams[n]? = some st) (hc : st.entry.code = code)
    (hfirst : ∀ k, k < n → ∀ u ∈ streams[k]?, u.entry.code ≠ code) :
    positionOf streams code = some n := by
  obtain ⟨hlt, rfl⟩ := List.getElem?_eq_some_iff.1 hn
  refine List.findIdx?_eq_some_iff_getElem.2 ⟨hlt, by simpa using hc, fun k hk => ?_⟩
  have hk' : k < streams.length := hk.trans hlt
  simpa using hfirst k hk _ (List.getElem?_eq_getElem hk')

theorem judgeFrame_unknown (hb : byteCheck f = none)
    (hp : positionOf s.streams (frameCode f) = none) :
    judgeFrame s f stamp = .refused (frameCode f) .unknownSource := by
  simp [judgeFrame, hb, hp]

/-- The checks of a frame whose stream the directory holds, in the order of R34. -/
theorem judgeFrame_known {n : Nat} {st : Stream} (hb : byteCheck f = none)
    (hp : positionOf s.streams (frameCode f) = some n) (hn : s.streams[n]? = some st) :
    judgeFrame s f stamp =
      if st.working = false then .refused (frameCode f) .disabledSource
      else if framePhasors f ≠ st.entry.phasors ∨ f.length ≠ 25 + 5 * framePhasors f
          ∨ 1000000 ≤ frameFraction f then .refused (frameCode f) .format
      else if isEarly s.clock.state s.loader.shared.earlyLimit
          (frameSample f s.loader.shared.accuracyLimit stamp) then .refused (frameCode f) .early
      else .offered n (frameCode f) (frameSample f s.loader.shared.accuracyLimit stamp) := by
  simp [judgeFrame, hb, hp, hn]

theorem isEarly_iff {clock : ClockState} {limit : Nat} {x : Sample} :
    isEarly clock limit x = true ↔ clock ≠ .acquiring ∧ x.stamp.known = true ∧
      (x.stamp.at_.plus (limit * 6)).before x.t = true := by
  simp [isEarly, and_assoc]

theorem isEarly_eq_false_iff {clock : ClockState} {limit : Nat} {x : Sample} :
    isEarly clock limit x = false ↔ clock = .acquiring ∨ x.stamp.known = false ∨
      (x.stamp.at_.plus (limit * 6)).before x.t = false := by
  rw [← Bool.not_eq_true, isEarly_iff]
  simp only [not_and_or, not_not, Bool.not_eq_true]

/-! ## The sample of a frame (R38) -/

/-- Two bytes as one field, the first the more significant (R212). -/
theorem field_two {o : Nat} (h : o + 1 < f.length) :
    field f o 2 = field f o 1 * 256 + field f (o + 1) 1 := by
  have hd : f.drop o = f[o] :: f[o + 1] :: f.drop (o + 2) := by
    rw [List.drop_eq_getElem_cons (by omega), List.drop_eq_getElem_cons h]
  have hd' : f.drop (o + 1) = f[o + 1] :: f.drop (o + 2) := List.drop_eq_getElem_cons h
  simp only [field, hd, hd', List.take_succ_cons, List.take_zero, beNat, List.foldl_cons,
    List.foldl_nil, zero_mul, zero_add]

/-- The invalid mark is the top bit of the status field. -/
theorem frameSample_invalid_iff (limit : Nat) (stamp : Stamp) (h : 15 < f.length) :
    (frameSample f limit stamp).invalid = true ↔ (field f 14 2).testBit 15 = true := by
  have hlow := field_lt f 15 1
  have htwo : field f 14 2 = field f 14 1 * 256 + field f 15 1 := field_two h
  simp only [frameSample, getLsbD_field, htwo, Nat.testBit_eq_decide_div_mod_eq, decide_eq_true_eq]
  omega

/-- The suspect mark: the unlocked bit of the time quality, or its accuracy over the limit. -/
theorem frameSample_suspect_iff (f : List Byte) (limit : Nat) (stamp : Stamp) :
    (frameSample f limit stamp).suspect = true ↔
      (field f 13 1).testBit 7 = true ∨ limit < field f 13 1 % 16 := by
  simp only [frameSample, getLsbD_field, BitVec.toNat_setWidth, getD_toNat, Bool.or_eq_true,
    decide_eq_true_eq, Nat.reducePow]

theorem frameSample_phasor (limit : Nat) (stamp : Stamp) {i : Nat} (h : i < framePhasors f) :
    (frameSample f limit stamp).phasors[i]? =
      some ⟨field f (17 + 5 * i) 3, field f (20 + 5 * i) 2⟩ := by
  rw [frameSample, phasorsAt_get f _ 17 i h, show 17 + 5 * i + 3 = 20 + 5 * i by omega]

/-- The two rates and the digital word stand behind the phasors. -/
theorem frameSample_tail (f : List Byte) (limit : Nat) (stamp : Stamp) (tail : Nat)
    (h : tail = 17 + 5 * framePhasors f) :
    (frameSample f limit stamp).freq =
        (field f tail 2 : Int) - (if field f tail 2 < 32768 then 0 else 65536) ∧
      (frameSample f limit stamp).rocof =
        (field f (tail + 2) 2 : Int) - (if field f (tail + 2) 2 < 32768 then 0 else 65536) ∧
      (frameSample f limit stamp).digital = BitVec.ofNat 16 (field f (tail + 4) 2) := by
  subst h
  rw [← signed16_eq (field_lt f _ 2), ← signed16_eq (field_lt f _ 2)]
  refine ⟨rfl, ?_, ?_⟩ <;> simp only [frameSample] <;> congr 2 <;> omega

/-- Settles O31: each check is met where those before it pass. -/
theorem frameChecksRefuseInOrder : Obligations.FrameChecksRefuseInOrder := by
  unfold Obligations.FrameChecksRefuseInOrder
  intro s f stamp
  refine ⟨⟨rfl, rfl, rfl⟩, fun h => ?_, fun hlen h => ?_, fun hlen h0 h1 => ?_⟩
  · exact judgeFrame_of_byteCheck (by rw [byteCheck_eq, if_pos h])
  · exact judgeFrame_of_byteCheck (by rw [byteCheck_eq, if_neg (by omega), if_pos h])
  have hmark : ¬(f.getD 0 0 ≠ 0xA7#8 ∨ f.getD 1 0 ≠ 1#8) := by simp only [h0, h1]; decide
  refine ⟨fun h => ?_, fun hsize => ⟨fun h => ?_, fun hcrc => ?_⟩⟩
  · exact judgeFrame_of_byteCheck (by
      rw [byteCheck_eq, if_neg (by omega), if_neg hmark, if_pos h])
  · exact judgeFrame_of_byteCheck (by
      rw [byteCheck_eq, if_neg (by omega), if_neg hmark, if_neg (not_not.2 hsize),
        if_pos h])
  have hb : byteCheck f = none := by
    rw [byteCheck_eq, if_neg (by omega), if_neg hmark, if_neg (not_not.2 hsize),
      if_neg (not_not.2 hcrc)]
  refine ⟨fun h => judgeFrame_unknown hb (positionOf_eq_none h), fun n st hn hc hfirst => ?_⟩
  rw [judgeFrame_known hb (positionOf_eq_some hn hc hfirst) hn]
  refine ⟨fun hw => if_pos hw, fun hw => ?_⟩
  rw [if_neg (by simp [hw])]
  refine ⟨fun h => if_pos h, fun hph hl hfr => ?_⟩
  rw [if_neg (by omega)]
  refine ⟨fun h => if_pos (isEarly_iff.2 h), fun h => ?_⟩
  rw [if_neg (Bool.not_eq_true _ ▸ isEarly_eq_false_iff.2 h)]
  exact ⟨_, rfl, rfl, rfl, rfl, phasorsAt_length f _ 17, fun i hi => frameSample_phasor _ _ hi,
    frameSample_tail f _ _, frameSample_invalid_iff _ _ (by omega), frameSample_suspect_iff f _ _⟩

end Sys2Proof.Machine

/-! The frame the checker holds and its judgement (R33, R40 to R44, R52, R62): what the buffer holds
after a frame's reception, what a refusal and an admission change, and the release of the frame's
space. -/

namespace Sys2Proof.Machine

open Sys2Proof

variable {s t u : State} {f : List Byte} {stamp : Stamp}

/-! ## Runs of commands -/

theorem Runs.append {cs ds : List Instr} : ∀ {s : State}, Runs cs s u → Runs ds u t →
    Runs (cs ++ ds) s t := by
  induction cs with
  | nil =>
    rintro s rfl hd
    exact hd
  | cons c cs ih =>
    rintro s ⟨v, hv, hc⟩ hd
    exact ⟨v, hv, ih hc hd⟩

/-! ## The held frame (R31, R33) -/

/-- Bytes that stand in the buffer from a position on are the bytes read there. -/
theorem bufferRead_eq {m : Memory} (bytes : List Byte) : ∀ p : Pos,
    (∀ k < bytes.length, memRead m (p + BitVec.ofNat 15 k).toNat = bytes.getD k 0) →
    bufferRead m p bytes.length = bytes := by
  induction bytes with
  | nil => exact fun _ _ => rfl
  | cons b bs ih =>
    intro p h
    have hhead : memRead m p.toNat = b := by simpa using h 0 (by simp)
    have htail : bufferRead m (p + 1) bs.length = bs := ih (p + 1) fun k hk => by
      rw [pos_add_succ]
      exact h (k + 1) (by simpa using hk)
    rw [List.length_cons, bufferRead, hhead, htail]

/-- The layout of a stamp entry: each value stands in its field (notes/assumptions/9.md). -/
theorem stampEntry_fields {count : Nat} (hsec : stamp.at_.sec ≤ 4294967295)
    (hfu : stamp.at_.fu < 6000000) (hc : count < 256) :
    field (stampEntry stamp count) 0 4 = stamp.at_.sec ∧
      field (stampEntry stamp count) 4 3 = stamp.at_.fu ∧
      field (stampEntry stamp count) 7 1 = (if stamp.known then 1 else 0) ∧
      field (stampEntry stamp count) 8 1 = count := by
  have hk : (if stamp.known then 1 else 0) < 256 ^ 1 := by split <;> decide
  have h0 := field_append [] (beBytes 3 stamp.at_.fu ++ beBytes 1 (if stamp.known then 1 else 0) ++
    beBytes 1 count) 4 stamp.at_.sec (by omega)
  have h4 := field_append (beBytes 4 stamp.at_.sec)
    (beBytes 1 (if stamp.known then 1 else 0) ++ beBytes 1 count) 3 stamp.at_.fu (by omega)
  have h7 := field_append (beBytes 4 stamp.at_.sec ++ beBytes 3 stamp.at_.fu) (beBytes 1 count) 1
    _ hk
  have h8 := field_append (beBytes 4 stamp.at_.sec ++ beBytes 3 stamp.at_.fu ++
    beBytes 1 (if stamp.known then 1 else 0)) [] 1 count (by omega)
  simp only [List.length_append, beBytes_length, List.length_nil, List.nil_append,
    List.append_nil, List.append_assoc] at h0 h4 h7 h8
  simp only [stampEntry, timeBytes, List.append_assoc]
  exact ⟨h0, h4, h7, h8⟩

/-- The frame that the buffer holds from the read pointer on. -/
theorem heldFrame_eq {i : Intake} (hlen : f.length ≤ 85) (hsec : stamp.at_.sec ≤ 4294967295)
    (hfu : stamp.at_.fu < 6000000)
    (h : ∀ k < 9 + f.length, memRead i.mem (i.readPtr + BitVec.ofNat 15 k).toNat =
      (stampEntry stamp f.length ++ f).getD k 0) :
    heldFrame i = (stamp, f) := by
  have he := stampEntry_length stamp f.length
  obtain ⟨h0, h4, h7, h8⟩ := stampEntry_fields (count := f.length) hsec hfu (by omega)
  have hentry : bufferRead i.mem i.readPtr 9 = stampEntry stamp f.length := by
    refine he ▸ bufferRead_eq _ i.readPtr fun k hk => ?_
    rw [h k (by omega), List.getD_append _ _ _ _ hk]
  have hbytes : bufferRead i.mem (i.readPtr + 9) f.length = f := by
    refine bufferRead_eq f _ fun k hk => ?_
    have hpos : i.readPtr + 9 + BitVec.ofNat 15 k = i.readPtr + BitVec.ofNat 15 (9 + k) := by
      rw [BitVec.add_assoc, BitVec.ofNat_add]
      rfl
    rw [hpos, h (9 + k) (by omega), List.getD_append_right _ _ _ _ (by omega), he,
      Nat.add_sub_cancel_left]
  have hknown : ((stampEntry stamp f.length).getD 7 0).getLsbD 0 = stamp.known := by
    rw [getLsbD_field, h7]
    cases stamp.known <;> rfl
  simp only [heldFrame, Config.stampSize, hentry, entryStamp, entryCount, h0, h4, h8, hknown,
    hbytes]

/-! ## The reception of a frame (R28, R29, R31) -/

/-- A stored byte takes at most one byte of the free space (R27, R29). -/
theorem free_storeByte (b : Byte) : s.intake.free ≤ (storeByte b s).intake.free + 1 := by
  simp only [Intake.free, Intake.received, storeByte, State.setIntake_intake, Config.bufferSize]
  bv_omega

/-- The bytes of a frame, with room for them, are stored one behind the other (R29). -/
theorem runs_bytes (bytes : List Byte) : ∀ {s : State}, s.pins.strobe = true →
    s.intake.writer = .receiving → s.intake.frameBytes + bytes.length ≤ 85 →
    bytes.length ≤ s.intake.free →
    Runs (bytes.map .byteEvent) s (s.setIntake { s.intake with
      mem := bufferWrite s.intake.mem s.intake.writeCur bytes
      writeCur := s.intake.writeCur + BitVec.ofNat 15 bytes.length
      frameBytes := s.intake.frameBytes + bytes.length }) := by
  induction bytes with
  | nil =>
    intro s _ _ _ _
    simp only [List.map_nil, Runs, List.length_nil, BitVec.add_zero, bufferWrite, Nat.add_zero]
    rfl
  | cons b bs ih =>
    intro s hs hw hlen hfree
    rw [List.length_cons] at hlen hfree
    have hroom := free_storeByte (s := s) b
    have hb : exec (.byteEvent b) s = .next (storeByte b s) := by
      rw [exec_byteEvent, takeByte_receiving b hs hw, if_neg (by omega), if_neg (by omega)]
    have hrest := ih (s := storeByte b s) hs hw
      (by simp only [storeByte, State.setIntake_intake]; omega) (by omega)
    refine ⟨_, hb, ?_⟩
    simp only [storeByte, State.setIntake_intake, State.setIntake_twice, pos_add_succ,
      Nat.add_assoc, Nat.add_comm 1] at hrest
    exact hrest

/-- The intake unit after the whole reception of a frame. -/
def Intake.withFrame (i : Intake) (stamp : Stamp) (f : List Byte) : Intake :=
  { i with
    writer := .idle, frameStamp := stamp, frameBytes := 0, checker := .checking
    writeHead := i.writeHead + BitVec.ofNat 15 (9 + f.length)
    writeCur := i.writeHead + BitVec.ofNat 15 (9 + f.length)
    held := i.held + 9 + f.length
    mem := bufferWrite (bufferWrite i.mem (i.writeHead + 9) f) i.writeHead
      (stampEntry stamp f.length) }

/-- A frame start in IDLE, the frame's bytes and its frame end, with room for them. -/
theorem runs_frame (hs : s.pins.strobe = false) (hw : s.intake.writer = .idle)
    (hlen : f.length ≤ 85) (hfree : 9 + f.length ≤ s.intake.free) :
    ∃ t, Runs (.frameStart :: f.map .byteEvent ++ [.frameEnd]) s t ∧
      t.intake = s.intake.withFrame (stampNow s) f := by
  have hstart := takeFrameStart_room hs hw (by omega : 9 ≤ s.intake.free)
  obtain ⟨s1, h1⟩ : ∃ s1, s1 = takeFrameStart s := ⟨_, rfl⟩
  rw [← h1] at hstart
  have hroom : f.length ≤ s1.intake.free := by
    rw [hstart]
    simp only [Intake.free, Intake.received, Config.bufferSize] at hfree ⊢
    rw [show s.intake.writeHead + 9 - s.intake.writeHead = 9#15 by bv_omega]
    simp only [BitVec.toNat_ofNat]
    omega
  have hbytes := runs_bytes (s := s1) f (by rw [hstart]) (by rw [hstart])
    (by rw [hstart]; simpa using hlen) hroom
  refine ⟨_, ⟨s1, h1 ▸ exec_frameStart, hbytes.append ⟨_, exec_frameEnd, rfl⟩⟩, ?_⟩
  rw [takeFrameEnd_receiving (by simp [hstart]) (by simp [hstart]), completeFrame_eq]
  simp [hstart, Intake.withFrame, BitVec.add_assoc, BitVec.ofNat_add]

/-- After a frame's reception the stamp entry and the bytes stand from the old write head on, past
32,767 to 0, and every other byte of the buffer is as it was. -/
theorem memRead_withFrame (i : Intake) (hm : memWf i.mem = true) (hlen : f.length ≤ 85) :
    (∀ k < 9 + f.length,
      memRead (i.withFrame stamp f).mem (i.writeHead + BitVec.ofNat 15 k).toNat =
        (stampEntry stamp f.length ++ f).getD k 0) ∧
    ∀ a, (∀ k < 9 + f.length, a ≠ (i.writeHead + BitVec.ofNat 15 k).toNat) →
      memRead (i.withFrame stamp f).mem a = memRead i.mem a := by
  have he := stampEntry_length stamp f.length
  have hwf := bufferWrite_wf f (i.writeHead + 9) hm
  have hpos (k : Nat) :
      i.writeHead + 9 + BitVec.ofNat 15 k = i.writeHead + BitVec.ofNat 15 (9 + k) := by
    rw [BitVec.add_assoc, BitVec.ofNat_add]
    rfl
  refine ⟨fun k hk => ?_, fun a ha => ?_⟩
  · by_cases hin : k < 9
    · rw [List.getD_append _ _ _ _ (by omega)]
      exact memRead_bufferWrite _ _ hwf (by omega) (by omega)
    · obtain ⟨j, rfl⟩ : ∃ j, k = 9 + j := ⟨k - 9, by omega⟩
      rw [List.getD_append_right _ _ _ _ (by omega), he, Nat.add_sub_cancel_left, ← hpos]
      refine (memRead_bufferWrite_other _ _ _ hwf fun l hl => ?_).trans
        (memRead_bufferWrite f _ hm (by omega) (by omega))
      rw [hpos]
      exact pos_add_ne _ (by omega) (by omega) (by omega)
  · refine (memRead_bufferWrite_other _ _ a hwf fun k hk => ha k (by omega)).trans
      (memRead_bufferWrite_other f _ a hm fun k hk => ?_)
    rw [hpos]
    exact ha (9 + k) (by omega)

/-! ## What an examination leaves of a stream and of the counters (R52, R61, R73 to R78) -/

/-- The counters that an examination by the close sequencer can increment. -/
def examineCounters : List Counter :=
  [.earlyClose, .shareExpired, .shareDisplaced, .skipped, .codeConflict]

theorem ne_of_not_examineCounter {c k : Counter} (hc : c ∉ examineCounters)
    (hk : k ∈ examineCounters := by decide) : c ≠ k := fun h => hc (h ▸ hk)

theorem takeRecord_count {c : Counter} (hc : c ∉ examineCounters) :
    (takeRecord s).count c = s.count c := by
  rcases takeRecord_cases s with h | ⟨r, -, -, h⟩
  · rw [h]
  · rw [h, compose]
    exact count_bumpTimes_other (ne_of_not_examineCounter hc) _ _

theorem leaveGathering_count {c : Counter} (hc : c ∉ examineCounters) (r : Record) :
    (leaveGathering r s).count c = s.count c := by
  unfold leaveGathering
  split
  · exact takeRecord_count hc
  · exact count_bump_other (ne_of_not_examineCounter hc)

theorem judge_count {c : Counter} (hc : c ∉ examineCounters) : (judge s).count c = s.count c := by
  unfold judge
  generalize s.table.records.length = n
  induction n generalizing s with
  | zero => rfl
  | succ n ih =>
    unfold judgeUpTo
    split
    · rw [ih, leaveGathering_count hc]
    · rfl

theorem handOver_count {c : Counter} (hc : c ∉ examineCounters) (q : QueuedShare) :
    (handOver q s).count c = s.count c := by
  unfold handOver enqueueShare
  split_ifs
  · exact count_bump_other (ne_of_not_examineCounter hc)
  · rfl
  · exact count_bump_other (ne_of_not_examineCounter hc)

theorem startClose_count {c : Counter} (hc : c ∉ examineCounters) (r : Record) :
    (startClose r s).count c = s.count c := by
  rw [startClose_starts r s _ rfl]
  split
  · rfl
  · exact count_bump_other (ne_of_not_examineCounter hc)

theorem finishClose_count {c : Counter} (hc : c ∉ examineCounters) (r : Record) :
    (finishClose r s).count c = s.count c :=
  (judge_count hc).trans (handOver_count hc _)

/-- What an admission gave its stream and a close leaves as it is: the timestamps of the ring, the
admission age, the health and the counters. -/
def Stream.admission (st : Stream) : List Time × Option Nat × Health × StreamCounters :=
  (st.ring.map (·.t), st.age, st.health, st.counters)

theorem closeStart_admission (tau : Time) (st : Stream) :
    (st.closeStart tau).admission = st.admission := by
  simp [Stream.admission, Stream.closeStart, settleRing, Function.comp_def]

theorem startClose_admission (r : Record) :
    (startClose r s).streams.map Stream.admission = s.streams.map Stream.admission := by
  have hs : (startClose r s).streams = s.streams.mapIdx (fun n st =>
      if n ∈ r.enabled then st.closeStart (slotTime s.loader.shared.slotRate r.tag) else st) := by
    unfold startClose
    dsimp only
    split
    · rfl
    · rw [bump_streams]
      rfl
  rw [hs]
  refine List.ext_getElem (by simp) fun n h _ => ?_
  simp only [List.getElem_map, List.getElem_mapIdx]
  split
  · exact closeStart_admission _ _
  · rfl

theorem finishClose_streams (r : Record) : (finishClose r s).streams = s.streams :=
  finishClose_frame r .streams (by decide)

/-- An examination leaves what admissions gave the streams, and the counters other than its own. -/
theorem examine_admission {c : Counter} (hc : c ∉ examineCounters) (s : State) :
    (examine s).streams.map Stream.admission = s.streams.map Stream.admission ∧
      (examine s).count c = s.count c := by
  unfold examine
  generalize s.table.records.length = n
  induction n generalizing s with
  | zero => exact ⟨rfl, rfl⟩
  | succ n ih =>
    unfold examineUpTo
    split
    · exact ⟨rfl, rfl⟩
    · next r _ =>
      dsimp only
      split
      · obtain ⟨hs, hn⟩ := ih (finishClose { r with state := .closing, cells := some [] }
          (startClose r s))
        rw [hs, hn, finishClose_streams, finishClose_count hc]
        exact ⟨startClose_admission r, startClose_count hc r⟩
      · exact ⟨startClose_admission r, startClose_count hc r⟩

theorem examineFor_admission {c : Counter} (hc : c ∉ examineCounters) (n : Nat) (s : State) :
    (examineFor n s).streams.map Stream.admission = s.streams.map Stream.admission ∧
      (examineFor n s).count c = s.count c := by
  unfold examineFor
  split
  · split
    · exact examine_admission hc s
    · exact ⟨rfl, rfl⟩
  · exact ⟨rfl, rfl⟩

theorem examineFor_intake (n : Nat) (s : State) : (examineFor n s).intake = s.intake := by
  have hi : { (examineFor n s).intake with mem := [] } = { s.intake with mem := [] } :=
    examineFor_frame n .intake (by decide)
  have hm : (examineFor n s).intake.mem = s.intake.mem := examineFor_frame n .intakeMem (by decide)
  calc (examineFor n s).intake
      = { ({ (examineFor n s).intake with mem := [] } : Intake) with
          mem := (examineFor n s).intake.mem } := rfl
    _ = s.intake := by rw [hi, hm]

/-! ## The refusal of a frame and the answer of the ring (R40 to R44, R52, R62) -/

theorem recordDrop_intake (code : Nat) (reason : DropReason) (time : Time) :
    (recordDrop code reason time s).intake =
      { s.intake with lastDrop := ⟨code, reason, time⟩ } := by
  unfold recordDrop
  cases reason.counter <;> simp

/-- A refusal: the last-drop record, its reason's counter, and no other counter (R42, R43). -/
theorem recordDrop_refusal (code : Nat) (reason : DropReason) (time : Time) (s : State) :
    (recordDrop code reason time s).streams = s.streams ∧
      (recordDrop code reason time s).table = s.table ∧
      (recordDrop code reason time s).intake.lastDrop = ⟨code, reason, time⟩ ∧
      ∀ k ∈ reason.counter,
        (recordDrop code reason time s).count k = min (s.count k + 1) 65535 ∧
          ∀ j, j ≠ k → (recordDrop code reason time s).count j = s.count j := by
  refine ⟨?_, ?_, by rw [recordDrop_intake], fun k hk => ?_⟩
  · unfold recordDrop
    cases reason.counter <;> simp
  · unfold recordDrop
    cases reason.counter <;> simp
  · rw [recordDrop_eq (Option.mem_def.1 hk)]
    exact ⟨count_bump_same k, fun j hj => count_bump_other hj⟩

theorem updateStream_const (n : Nat) (st : Stream) (streams : List Stream) :
    updateStream n (fun _ => st) streams = streams.set n st :=
  (List.set_eq_modify st n streams).symm

/-- A sample the ring refuses is counted in its stream and recorded as a drop (R40, R42). -/
theorem offerSample_refused {n : Nat} {code : Nat} {x : Sample} {st : Stream} {reason : DropReason}
    (hn : s.streams[n]? = some st) (hr : (st.offer x).1.reason = some reason) :
    offerSample n code x s = recordDrop code reason x.stamp.at_
      (s.setStreams (s.streams.set n (st.offer x).2)) := by
  simp only [offerSample, hn, hr, updateStream_const]

/-- A sample the ring admits is counted, and the sequencer noticed (R40, R62). -/
theorem offerSample_admitted {n : Nat} {code : Nat} {x : Sample} {st : Stream}
    (hn : s.streams[n]? = some st) (hr : (st.offer x).1.reason = none) :
    offerSample n code x s = examineFor n (bump .samplesAdmitted
      (s.setStreams (s.streams.set n (st.offer x).2))) := by
  simp only [offerSample, hn, hr, updateStream_const]

theorem offer_admitted_age {st : Stream} {x : Sample} (hr : (st.offer x).1.reason = none) :
    (st.offer x).2.age = some 0 := by
  unfold Stream.offer at hr ⊢
  split_ifs at hr ⊢
  · cases hr
  · cases hr
  · cases hr
  · rfl
  · rfl

theorem judgeFrame_offered_stamp {n code : Nat} {x : Sample}
    (h : judgeFrame s f stamp = .offered n code x) : x.stamp = stamp := by
  unfold judgeFrame at h
  split at h
  · cases h
  · dsimp only at h
    split at h
    · cases h
    · split at h
      · cases h
      · split_ifs at h
        cases h
        rfl

/-! ## The judgement -/

/-- What a verdict does to the node: a refusal recorded, or the sample offered to its ring. -/
def applyVerdict (stamp : Stamp) (s : State) : Verdict → State
  | .refused code reason => recordDrop code reason stamp.at_ s
  | .offered n code x => offerSample n code x s

theorem offerSample_intake (n code : Nat) (x : Sample) :
    ∃ d, (offerSample n code x s).intake = { s.intake with lastDrop := d } := by
  unfold offerSample
  split
  · exact ⟨_, rfl⟩
  · dsimp only
    split
    · exact ⟨_, recordDrop_intake _ _ _⟩
    · exact ⟨s.intake.lastDrop, by rw [examineFor_intake, bump_intake]; rfl⟩

/-- A verdict changes the last-drop record and nothing else of the intake unit. -/
theorem applyVerdict_intake (stamp : Stamp) (v : Verdict) :
    ∃ d, (applyVerdict stamp s v).intake = { s.intake with lastDrop := d } := by
  cases v with
  | refused code reason => exact ⟨_, recordDrop_intake _ _ _⟩
  | offered n code x => exact offerSample_intake n code x

/-- The frame's space is released, and the checker holds the next frame if there is one (R33). -/
theorem releaseFrame_eq (size : Nat) (s : State) : releaseFrame size s = s.setIntake { s.intake with
    checker := if s.intake.held - size = 0 then .idle else .checking
    readPtr := s.intake.readPtr + BitVec.ofNat 15 size
    held := s.intake.held - size } := by
  unfold releaseFrame
  split_ifs with h
  · simp [checkerTake, h]
  · rw [checkerTake_held (by simpa using h)]
    rfl

theorem exec_frameJudgement (hck : s.intake.checker = .checking)
    (hf : heldFrame s.intake = (stamp, f)) :
    exec .frameJudgement s =
      .next (releaseFrame (9 + f.length) (applyVerdict stamp s (judgeFrame s f stamp))) := by
  have he : exec .frameJudgement s = .next (judgeHeld s) :=
    perform_next (i := .frameJudgement) _ rfl
  rw [he, judgeHeld, if_pos hck, hf]
  dsimp only
  cases judgeFrame s f stamp <;> rfl

/-- An admission: the count, and the stream as the ring left it, but for the start of a close that
the examination brings (R52, R62, R74). -/
theorem offerSample_admits {n code : Nat} {x : Sample} {st : Stream}
    (hn : s.streams[n]? = some st) (hr : (st.offer x).1.reason = none) :
    (offerSample n code x s).intake.lastDrop = s.intake.lastDrop ∧
      (offerSample n code x s).count .samplesAdmitted = min (s.count .samplesAdmitted + 1) 65535 ∧
      ∃ u, (offerSample n code x s).streams[n]? = some u ∧
        u.admission = (st.offer x).2.admission := by
  obtain ⟨hlt, -⟩ := List.getElem?_eq_some_iff.1 hn
  rw [offerSample_admitted hn hr]
  obtain ⟨hs, hc⟩ := examineFor_admission (c := .samplesAdmitted) (by decide) n
    (bump .samplesAdmitted (s.setStreams (s.streams.set n (st.offer x).2)))
  refine ⟨?_, ?_, ?_⟩
  · rw [examineFor_intake, bump_intake, State.setStreams_intake]
  · rw [hc, count_bump_same]
    rfl
  · have hget := congrArg (·[n]?) hs
    simpa [hlt] using hget

/-- Settles O32: the held frame by what stands in the buffer, the reception by its run, and the
judgement by the verdict on the frame. -/
theorem frameJudgementRecordsItsOutcome : Obligations.FrameJudgementRecordsItsOutcome := by
  unfold Obligations.FrameJudgementRecordsItsOutcome
  refine ⟨fun i stamp f hlen hsec hfu h => heldFrame_eq hlen hsec hfu h, ?_, ?_⟩
  · rintro s f stamp inFrame hm ⟨hfu, hsec, -⟩ hs hw hlen hfree rfl hin
    obtain ⟨t, hrun, ht⟩ := runs_frame hs hw hlen hfree
    obtain ⟨hread, hother⟩ :=
      memRead_withFrame (stamp := stampNow s) (f := f) s.intake hm.1 hlen
    rw [← ht] at hread hother
    refine ⟨t, hrun, by rw [ht]; rfl, by rw [ht]; rfl, by rw [ht]; rfl, by rw [ht]; rfl,
      by rw [ht]; rfl, heldFrame_eq hlen hsec hfu hread,
      fun a ha => hother a fun k hk he => ha ((hin a).2 ⟨k, hk, he⟩)⟩
  · intro s stamp f hck hf
    refine ⟨_, exec_frameJudgement hck hf, ?_⟩
    obtain ⟨d, hd⟩ := applyVerdict_intake (s := s) stamp (judgeFrame s f stamp)
    rw [releaseFrame_eq]
    refine ⟨by simp [hd], by simp [hd], by simp [hd], by simp [hd], fun code reason hv => ?_,
      fun n code x st hv hn => ⟨fun reason hr => ?_, fun hr => ?_⟩⟩
    · rw [hv]
      exact recordDrop_refusal code reason stamp.at_ s
    · rw [hv, applyVerdict, offerSample_refused hn hr, judgeFrame_offered_stamp hv]
      exact recordDrop_refusal code reason stamp.at_ (s.setStreams (s.streams.set n (st.offer x).2))
    · obtain ⟨hd, hc, u, hu, hadm⟩ := offerSample_admits (code := code) hn hr
      simp only [Stream.admission, Prod.mk.injEq, offer_admitted_age hr] at hadm
      rw [hv]
      exact ⟨hd, hc, u, hu, hadm⟩

end Sys2Proof.Machine

/-! The sample rings (R52 to R63): the order of times, the place of a sample in its ring, and the
ring's judgement of an offered sample. -/

namespace Sys2Proof.Machine

open Sys2Proof

variable {st : Stream} {x : Sample}

/-! ## Times -/

theorem before_iff {a b : Time} :
    a.before b = true ↔ a.sec < b.sec ∨ a.sec = b.sec ∧ a.fu < b.fu := by
  simp [Time.before]

theorem before_trans {a b c : Time} (hab : a.before b = true) (hbc : b.before c = true) :
    a.before c = true := by
  rw [before_iff] at *
  omega

theorem before_asymm {a b : Time} (h : a.before b = true) : b.before a = false := by
  rw [← Bool.not_eq_true, before_iff]
  rw [before_iff] at h
  omega

/-- Of two different times one lies before the other. -/
theorem before_of_not_before {a b : Time} (h : ¬a.before b = true) (hne : b ≠ a) :
    b.before a = true := by
  obtain ⟨asec, afu⟩ := a
  obtain ⟨bsec, bfu⟩ := b
  simp only [ne_eq, Time.mk.injEq, before_iff] at *
  omega

/-! ## The order of a ring (R55) -/

theorem ringOrdered_iff {ring : List Sample} :
    ringOrdered ring = true ↔ ring.Pairwise (fun x y => x.t.before y.t = true) := by
  induction ring with
  | nil => simp [ringOrdered]
  | cons y ys ih => simp [ringOrdered, ih, List.pairwise_cons]

/-- The order of a ring is that of its timestamps. -/
theorem ringOrdered_iff_times {ring : List Sample} :
    ringOrdered ring = true ↔ (ring.map (·.t)).Pairwise (fun a b => a.before b = true) := by
  rw [ringOrdered_iff, List.pairwise_map]

/-- Placing a sample adds it and takes nothing away (R60). -/
theorem ringInsert_perm (x : Sample) (ring : List Sample) : (ringInsert x ring).Perm (x :: ring) := by
  induction ring with
  | nil => exact .refl _
  | cons y ys ih =>
    unfold ringInsert
    split
    · exact .refl _
    · exact (ih.cons y).trans (.swap x y ys)

/-- A sample whose timestamp no held one has is placed in order (R60). -/
theorem ringInsert_ordered {ring : List Sample} (h : ringOrdered ring = true)
    (hx : ∀ y ∈ ring, y.t ≠ x.t) : ringOrdered (ringInsert x ring) = true := by
  rw [ringOrdered_iff] at *
  induction ring with
  | nil => simp [ringInsert]
  | cons y ys ih =>
    obtain ⟨hy, hys⟩ := List.pairwise_cons.1 h
    unfold ringInsert
    split
    · next hb =>
      refine List.pairwise_cons.2 ⟨fun z hz => ?_, h⟩
      rcases List.mem_cons.1 hz with rfl | hz
      · exact hb
      · exact before_trans hb (hy z hz)
    · next hb =>
      refine List.pairwise_cons.2 ⟨fun z hz => ?_, ih hys fun z hz => hx z (.tail _ hz)⟩
      rcases List.mem_cons.1 ((ringInsert_perm x ys).mem_iff.1 hz) with rfl | hz
      · exact before_of_not_before hb (hx y (.head _))
      · exact hy z hz

theorem makeRoom_eq {ring : List Sample} (h : ring.length ≤ 32) :
    makeRoom ring = if ring.length = 32 then ring.tail else ring := by
  unfold makeRoom
  rw [List.drop_one]
  by_cases hl : ring.length = 32
  · rw [if_pos hl.ge, if_pos hl]
  · rw [if_neg (by simp only [Config.ringCapacity]; omega), if_neg hl]

theorem makeRoom_sublist (ring : List Sample) : (makeRoom ring).Sublist ring := by
  unfold makeRoom
  split
  · exact List.drop_sublist _ _
  · exact .refl _

/-! ## The LATE bound (R58) -/

/-- A time a duration earlier is none exactly where it would lie before second 0. -/
theorem minus_eq_none {a : Time} {d : Nat} (h : a.sec * 6000000 + a.fu < d) : a.minus d = none :=
  if_pos h

/-- A time a duration earlier, its fu within a second. -/
theorem minus_eq_some {a : Time} {d : Nat} (h : d ≤ a.sec * 6000000 + a.fu) :
    ∃ b, a.minus d = some b ∧ b.fu < 6000000 ∧
      b.sec * 6000000 + b.fu + d = a.sec * 6000000 + a.fu :=
  ⟨_, if_neg (Nat.not_lt.2 h), Nat.mod_lt _ (by decide), by
    simp only [Config.fuPerSecond]; omega⟩

theorem lateBound_of_horizon {h : Time} (hh : st.horizon = some h) :
    st.lateBound = h.minus (3 * st.entry.rate.period) := by
  simp [Stream.lateBound, hh, Stream.period]

/-! ## The three steps (R56, R58 to R60) -/

theorem tooLate_iff : st.tooLate x = true ↔ ∃ b ∈ st.lateBound, x.t.atOrBefore b = true := by
  unfold Stream.tooLate
  cases st.lateBound <;> simp

theorem holds_iff : st.holds x = true ↔ ∃ y ∈ st.ring, y.t = x.t := by
  simp [Stream.holds]

/-- A full ring refuses a sample that is older than the oldest it holds, and so than all (R60). -/
theorem tooStale_iff (hlen : st.ring.length ≤ 32) (hord : ringOrdered st.ring = true) :
    st.tooStale x = true ↔ st.ring.length = 32 ∧ ∀ y ∈ st.ring, x.t.before y.t = true := by
  unfold Stream.tooStale
  cases hr : st.ring with
  | nil => simp [Config.ringCapacity]
  | cons y ys =>
    rw [hr, ringOrdered_iff, List.pairwise_cons] at hord
    rw [hr] at hlen
    simp only [Bool.and_eq_true, decide_eq_true_eq, Config.ringCapacity, List.forall_mem_cons]
    refine ⟨fun ⟨hfull, hy⟩ => ⟨by omega, hy, fun z hz => before_trans hy (hord.1 z hz)⟩,
      fun ⟨hfull, hy, _⟩ => ⟨by omega, hy⟩⟩

theorem marksLate_iff : st.marksLate x = true ↔
    ∃ h ∈ st.horizon, st.lateBound ≠ none ∧ x.t.atOrBefore h = true := by
  unfold Stream.marksLate
  cases st.lateBound <;> cases st.horizon <;> simp

theorem offer_tooLate (h : st.tooLate x = true) : st.offer x =
    (.refusedLate, { st with counters := { st.counters with late := satInc st.counters.late } }) :=
  if_pos h

theorem offer_holds (hl : ¬st.tooLate x = true) (h : st.holds x = true) : st.offer x =
    (.refusedDuplicate,
      { st with counters := { st.counters with duplicate := satInc st.counters.duplicate } }) :=
  (if_neg hl).trans (if_pos h)

theorem offer_tooStale (hl : ¬st.tooLate x = true) (hd : ¬st.holds x = true)
    (h : st.tooStale x = true) : st.offer x =
    (.refusedStale, { st with counters := { st.counters with stale := satInc st.counters.stale } }) :=
  (if_neg hl).trans ((if_neg hd).trans (if_pos h))

/-- A sample that passes the three steps is admitted, late or not (R58, R60). -/
theorem offer_admits (hl : ¬st.tooLate x = true) (hd : ¬st.holds x = true)
    (hs : ¬st.tooStale x = true) : st.offer x =
    (if st.marksLate x = true then .takenLate else .taken, st.receive x (st.marksLate x)) := by
  unfold Stream.offer
  rw [if_neg hl, if_neg hd, if_neg hs]
  split
  · next h => rw [h]
  · next h => rw [Bool.eq_false_iff.2 h]

/-- The ring after an admission is ordered (R55, R60). -/
theorem receive_ordered (hord : ringOrdered st.ring = true) (hd : ¬st.holds x = true) (late : Bool) :
    ringOrdered (st.receive x late).ring = true := by
  have hsub := makeRoom_sublist st.ring
  refine ringInsert_ordered (ringOrdered_iff.2 ((ringOrdered_iff.1 hord).sublist hsub)) ?_
  exact fun y hy he => hd (holds_iff.2 ⟨y, hsub.subset hy, he⟩)

/-- The ring after an admission, but for the order (R60, R61). -/
theorem receive_perm (hlen : st.ring.length ≤ 32) (late : Bool) :
    (st.receive x late).ring.Perm ({ x with settled := false } ::
      (if st.ring.length = 32 then st.ring.tail else st.ring)) :=
  makeRoom_eq hlen ▸ ringInsert_perm _ _

/-- An admission changes of the stream its ring, age, health and counters, as R52, R60 and R63 say. -/
theorem receive_eq (hlen : st.ring.length ≤ 32) (late : Bool) : st.receive x late = { st with
    ring := (st.receive x late).ring
    age := some 0
    health := if st.health = .unseen ∨ st.health = .stalled then .live else st.health
    counters := { st.counters with
      admitted := min (st.counters.admitted + 1) 65535
      lateAdmitted := if late then min (st.counters.lateAdmitted + 1) 65535
        else st.counters.lateAdmitted
      evicted := if st.ring.length = 32 then min (st.counters.evicted + 1) 65535
        else st.counters.evicted } } := by
  have hfull : Config.ringCapacity ≤ st.ring.length ↔ st.ring.length = 32 := by
    simp only [Config.ringCapacity]; omega
  simp only [Stream.receive, hfull, satInc, Config.counterMax]

/-- Settles O19, by the three steps of the offer. -/
theorem ringJudgesTheOfferedSample : Obligations.RingJudgesTheOfferedSample := by
  unfold Obligations.RingJudgesTheOfferedSample
  refine ⟨fun st => ⟨fun h => by simp [Stream.lateBound, h], fun h hh => ?_⟩,
    fun st x hlen hord => ⟨fun hl => offer_tooLate (tooLate_iff.2 hl), fun hl => ?_⟩⟩
  · rw [lateBound_of_horizon hh]
    exact ⟨minus_eq_none, minus_eq_some⟩
  · have hl : ¬st.tooLate x = true := fun h => by
      obtain ⟨b, hb, hx⟩ := tooLate_iff.1 h
      simp [hl b hb] at hx
    refine ⟨fun hd => offer_holds hl (holds_iff.2 hd), fun hd => ?_⟩
    have hd : ¬st.holds x = true := fun h => by
      obtain ⟨y, hy, he⟩ := holds_iff.1 h
      exact hd y hy he
    refine ⟨fun hfull hall => offer_tooStale hl hd ((tooStale_iff hlen hord).2 ⟨hfull, hall⟩),
      fun hroom => ?_⟩
    have hs : ¬st.tooStale x = true := fun h => by
      obtain ⟨hfull, hall⟩ := (tooStale_iff hlen hord).1 h
      rcases hroom with hroom | ⟨y, hy, hb⟩
      · omega
      · exact absurd (hall y hy) (by simp [before_asymm hb])
    rw [offer_admits hl hd hs]
    refine ⟨?_, receive_perm hlen _, receive_ordered hord hd _, ?_⟩
    · simp only [marksLate_iff]
    · refine (receive_eq hlen _).trans ?_
      cases st.marksLate x <;> rfl

end Sys2Proof.Machine

/-! What a command that is no business of the intake unit, of a ring or of a reset leaves as it is: the
intake unit but for its last-drop record, the loader's state, the timestamps and the counters of the
streams; and the caps of the station's counters. -/

namespace Sys2Proof.Machine

open Sys2Proof

variable {b s t : State}

/-- The timestamps a stream's ring holds and the stream's counters. -/
def Stream.tally (st : Stream) : List Time × StreamCounters := (st.ring.map (·.t), st.counters)

/-- The station counters and the skipped count are within 16 bits. -/
def CountsCapped (s : State) : Prop :=
  (∀ c : Counter, s.count c ≤ 65535) ∧ s.assembler.skipped ≤ 65535

/-- From one state to another the intake unit but for its last-drop record, the loader's state and the
tallies of the streams are the same, and capped counters stay capped. -/
structure Steady (s t : State) : Prop where
  intake : ∃ d, t.intake = { s.intake with lastDrop := d }
  loader : t.loader.state = s.loader.state
  streams : t.streams.map Stream.tally = s.streams.map Stream.tally
  capped : CountsCapped s → CountsCapped t

theorem Steady.refl (s : State) : Steady s s := ⟨⟨_, rfl⟩, rfl, rfl, id⟩

theorem Steady.trans (h : Steady b s) (h' : Steady s t) : Steady b t := by
  obtain ⟨d, hd⟩ := h.intake
  obtain ⟨d', hd'⟩ := h'.intake
  exact ⟨⟨d', by rw [hd', hd]⟩, h'.loader.trans h.loader, h'.streams.trans h.streams,
    h'.capped ∘ h.capped⟩

/-! ## The updates -/

theorem Steady.after_setPins (h : Steady b s) (v : Pins) : Steady b (s.setPins v) :=
  ⟨h.intake, h.loader, h.streams, h.capped⟩

theorem Steady.after_setLoader (h : Steady b s) {v : Loader} (hv : v.state = s.loader.state) :
    Steady b (s.setLoader v) := ⟨h.intake, hv.trans h.loader, h.streams, h.capped⟩

theorem Steady.after_setClock (h : Steady b s) (v : Clock) : Steady b (s.setClock v) :=
  ⟨h.intake, h.loader, h.streams, h.capped⟩

theorem Steady.after_setDrop (h : Steady b s) (d : LastDrop) :
    Steady b (s.setIntake { s.intake with lastDrop := d }) :=
  h.trans ⟨⟨d, rfl⟩, rfl, rfl, id⟩

theorem Steady.after_setStreams (h : Steady b s) {v : List Stream}
    (hv : v.map Stream.tally = s.streams.map Stream.tally) : Steady b (s.setStreams v) :=
  ⟨h.intake, h.loader, hv.trans h.streams, h.capped⟩

theorem Steady.after_setTable (h : Steady b s) (v : Table) : Steady b (s.setTable v) :=
  ⟨h.intake, h.loader, h.streams, h.capped⟩

theorem Steady.after_setLink (h : Steady b s) (v : Link) : Steady b (s.setLink v) :=
  ⟨h.intake, h.loader, h.streams, h.capped⟩

theorem Steady.after_setGather (h : Steady b s) (v : Gather) : Steady b (s.setGather v) :=
  ⟨h.intake, h.loader, h.streams, h.capped⟩

theorem Steady.after_setAssembler (h : Steady b s) {v : Assembler}
    (hv : s.assembler.skipped ≤ 65535 → v.skipped ≤ 65535) : Steady b (s.setAssembler v) :=
  ⟨h.intake, h.loader, h.streams, fun hc => ⟨(h.capped hc).1, hv (h.capped hc).2⟩⟩

theorem Steady.after_setMonitors (h : Steady b s) (v : Vector Monitor 8) :
    Steady b (s.setMonitors v) := ⟨h.intake, h.loader, h.streams, h.capped⟩

theorem Steady.after_setPort (h : Steady b s) (v : Port) : Steady b (s.setPort v) :=
  ⟨h.intake, h.loader, h.streams, h.capped⟩

/-! ## Counters and causes -/

theorem Steady.after_raise (h : Steady b s) (c : Cause) : Steady b (raise c s) := h.after_setPort _

theorem bump_capped (c : Counter) (h : CountsCapped s) : CountsCapped (bump c s) := by
  refine ⟨fun k => ?_, by rw [bump_assembler]; exact h.2⟩
  by_cases hk : k = c
  · rw [hk, count_bump_same]; omega
  · rw [count_bump_other hk]; exact h.1 k

theorem Steady.after_bump (h : Steady b s) (c : Counter) : Steady b (bump c s) :=
  h.trans ⟨⟨_, bump_intake c⟩, by rw [bump_loader], by rw [bump_streams], bump_capped c⟩

theorem Steady.after_bumpTimes (c : Counter) (n : Nat) :
    ∀ {s : State}, Steady b s → Steady b (bumpTimes c n s) := by
  induction n with
  | zero => exact fun h => h
  | succ n ih => exact fun h => ih (h.after_bump c)

/-! ## Records, judgement and the roster -/

theorem Steady.after_withRecords (h : Steady b s) (rs : List Record) : Steady b (withRecords rs s) :=
  h.after_setTable _

theorem Steady.after_updateRecord (h : Steady b s) (tag : Tag) (f : Record → Record) :
    Steady b (updateRecord tag f s) := h.after_setTable _

theorem Steady.after_freeBlocks (h : Steady b s) (bs : List Sys2Proof.Block) :
    Steady b (freeBlocks bs s) := h.after_setGather _

theorem Steady.after_freeRecords (h : Steady b s) (gone : Record → Bool) :
    Steady b (freeRecords gone s) := (h.after_withRecords _).after_freeBlocks _

theorem Steady.after_reportSkip (h : Steady b s) : Steady b (reportSkip s) :=
  h.after_setAssembler fun _ => Nat.min_le_right _ _

theorem Steady.after_compose (h : Steady b s) (r : Record) : Steady b (compose r s) :=
  .after_bumpTimes _ _ (h.after_setAssembler fun _ => Nat.zero_le _)

theorem Steady.after_takeRecord (h : Steady b s) : Steady b (takeRecord s) := by
  rcases takeRecord_cases s with he | ⟨r, -, -, he⟩
  · rw [he]; exact h
  · rw [he]; exact h.after_compose r

theorem Steady.after_leaveGathering (h : Steady b s) (r : Record) :
    Steady b (leaveGathering r s) := by
  unfold leaveGathering
  split
  · exact (h.after_updateRecord _ _).after_takeRecord
  · exact ((h.after_freeRecords _).after_bump _).after_reportSkip

theorem Steady.after_judge (h : Steady b s) : Steady b (judge s) := by
  unfold judge
  generalize s.table.records.length = n
  induction n generalizing s with
  | zero => exact h
  | succ n ih =>
    unfold judgeUpTo
    split
    · exact ih (h.after_leaveGathering _)
    · exact h

theorem Steady.after_updatePeer (h : Steady b s) (i : Station) (f : Peer → Peer) :
    Steady b (updatePeer i f s) := h.after_setGather _

theorem Steady.after_leavePresent (h : Steady b s) (i : Station) (st : PeerState) :
    Steady b (leavePresent i st s) := by
  unfold leavePresent
  split
  · exact ((h.after_updatePeer _ _).after_bump _).after_withRecords _
  · exact h.after_updatePeer _ _

theorem Steady.after_enterPresent (h : Steady b s) (i : Station) : Steady b (enterPresent i s) :=
  h.after_updatePeer _ _

theorem Steady.after_countMiss (h : Steady b s) (i : Station) : Steady b (countMiss s i) := by
  unfold countMiss
  dsimp only
  split
  · exact (h.after_updatePeer _ _).after_leavePresent _ _
  · exact h.after_updatePeer _ _

/-- A run of changes that each keep what is steady keeps it. -/
theorem Steady.after_foldl {α : Type} {f : State → α → State}
    (hf : ∀ {s : State} (a : α), Steady b s → Steady b (f s a)) (l : List α) :
    ∀ {s : State}, Steady b s → Steady b (l.foldl f s) := by
  induction l with
  | nil => exact fun h => h
  | cons a l ih => exact fun h => ih (hf a h)

/-! ## Shares, closes and examinations -/

theorem Steady.after_handOver (h : Steady b s) (q : QueuedShare) : Steady b (handOver q s) := by
  unfold handOver enqueueShare
  split_ifs
  · exact h.after_bump _
  · exact h.after_setLink _
  · exact (h.after_setLink _).after_bump _

theorem Steady.after_withdrawShare (h : Steady b s) (tag : Tag) :
    Steady b (withdrawShare tag s) := (h.after_setLink _).after_bump _

theorem Steady.after_passShare (h : Steady b s) (tag : Tag) : Steady b (passShare tag s) := by
  unfold passShare
  split
  · exact h.after_setLink _
  · exact h.after_withdrawShare _

/-- The start of a close settles samples, and moves no timestamp and counts nothing in a stream. -/
theorem startClose_tally (r : Record) :
    (startClose r s).streams.map Stream.tally = s.streams.map Stream.tally := by
  have h := congrArg (List.map fun a => (a.1, a.2.2.2)) (startClose_admission (s := s) r)
  rw [List.map_map, List.map_map] at h
  exact h

theorem Steady.after_startClose (h : Steady b s) (r : Record) : Steady b (startClose r s) := by
  have ht := startClose_tally (s := s) r
  rw [startClose_starts r s _ rfl] at ht ⊢
  refine h.trans ?_
  split at ht
  · next hp =>
    rw [if_pos hp]
    exact ⟨⟨_, rfl⟩, rfl, ht, id⟩
  · next hp =>
    rw [if_neg hp]
    exact ⟨⟨_, bump_intake _⟩, by rw [bump_loader], ht, fun hc => bump_capped _ hc⟩

theorem Steady.after_finishClose (h : Steady b s) (r : Record) : Steady b (finishClose r s) :=
  ((((h.after_setMonitors _).after_updateRecord _ _).after_handOver _).after_updateRecord _
    _).after_judge.after_setTable _

theorem Steady.after_examine (h : Steady b s) : Steady b (examine s) := by
  unfold examine
  generalize s.table.records.length = n
  induction n generalizing s with
  | zero => exact h
  | succ n ih =>
    unfold examineUpTo
    split
    · exact h
    · dsimp only
      split
      · exact ih ((h.after_startClose _).after_finishClose _)
      · exact h.after_startClose _

theorem Steady.after_examineFor (h : Steady b s) (n : Nat) : Steady b (examineFor n s) := by
  unfold examineFor
  split
  · split
    · exact h.after_examine
    · exact h
  · exact h

theorem Steady.after_examineForAny (h : Steady b s) (ns : List Nat) :
    Steady b (examineForAny ns s) := by
  unfold examineForAny
  split
  · split
    · exact h.after_examine
    · exact h
  · exact h

/-! ## Openings, abandonment, deadlines and the boundary -/

theorem Steady.after_evaluate (h : Steady b s) : Steady b (evaluate s) := by
  unfold evaluate openTag
  dsimp only
  split_ifs
  · exact ((h.after_setClock _).after_setTable _).after_examine
  · exact (h.after_setClock _).after_setTable _
  · exact ((h.after_setClock _).after_bump _).after_reportSkip
  · exact h

theorem Steady.after_abandonOpen (h : Steady b s) : Steady b (abandonOpen s) :=
  (Steady.after_bumpTimes _ _ (h.after_freeRecords _)).after_setTable _

theorem Steady.after_enterStopped (h : Steady b s) : Steady b (enterStopped s) :=
  ((h.after_abandonOpen.after_setLink _).after_raise _).after_setClock _

theorem Steady.after_passClose (h : Steady b s) (tag : Tag) : Steady b (passClose tag s) := by
  unfold passClose
  dsimp only
  split
  · split
    · exact (h.after_updateRecord _ _).after_examine
    · exact h.after_updateRecord _ _
  · exact h.after_updateRecord _ _

theorem Steady.after_passGather (h : Steady b s) (tag : Tag) : Steady b (passGather tag s) := by
  unfold passGather
  dsimp only
  split
  · split
    · exact (Steady.after_foldl (fun i h => h.after_countMiss i) _
        (h.after_updateRecord _ _)).after_judge
    · exact h.after_updateRecord _ _
  · exact h.after_updateRecord _ _

theorem Steady.after_passCloseIfReached (h : Steady b s) (tag : Tag) :
    Steady b (passCloseIfReached tag s) := by
  unfold passCloseIfReached
  split
  · split
    · exact h.after_passClose tag
    · exact h
  · exact h

theorem Steady.after_passGatherIfReached (h : Steady b s) (tag : Tag) :
    Steady b (passGatherIfReached tag s) := by
  unfold passGatherIfReached
  split
  · split
    · exact h.after_passGather tag
    · exact h
  · exact h

theorem Steady.after_passShareIfReached (h : Steady b s) (tag : Tag) :
    Steady b (passShareIfReached tag s) := by
  unfold passShareIfReached
  split
  · split
    · exact h.after_passShare tag
    · exact h
  · exact h

theorem Steady.after_passReached (h : Steady b s) : Steady b (passReached s) :=
  .after_foldl (fun tag h => h.after_passShareIfReached tag) _
    (.after_foldl (fun tag h => (h.after_passCloseIfReached tag).after_passGatherIfReached tag) _ h)

theorem copyEnable_tally (st : Stream) : st.copyEnable.tally = st.tally := by
  rw [copyEnable_eq]; rfl

theorem Steady.after_copyEnableSets (h : Steady b s) : Steady b (copyEnableSets s) :=
  h.after_setStreams (by simp [Function.comp_def, copyEnable_tally])

theorem Steady.after_deliverBoundary (h : Steady b s) : Steady b (deliverBoundary s) := by
  have hcopy {u : State} (h : Steady b u) : Steady b (queueBeacon (recomputeWait (copyEnableSets u))) :=
    (h.after_copyEnableSets.after_setTable _).after_setLink _
  unfold deliverBoundary
  dsimp only
  split_ifs
  · exact ((hcopy (h.after_setClock _)).after_examineForAny _).after_evaluate
  · exact (hcopy h).after_examineForAny _

/-! ## Time -/

theorem Steady.after_elapse (h : Steady b s) (k : Nat) : Steady b (elapse k s) :=
  (((h.after_setClock _).after_setStreams (by
    simp only [State.setClock_streams, List.map_map]; rfl)).after_setGather _).after_setAssembler id

/-- A time-driven command is steady where its event is. -/
theorem Steady.after_atMoment {due : State → Option Nat} {event : State → State} (h : Steady b s)
    (he : ∀ {s : State}, Steady b s → Steady b (event s)) : Steady b (atMoment due event s) := by
  rcases atMoment_cases due event s with hs | ⟨d, -, -, hs⟩
  · rw [hs]; exact h
  · rw [hs, momentOf]
    split
    · exact he h
    · exact he (h.after_elapse d)

/-! ## The station clock -/

theorem Steady.after_reachBoundary (h : Steady b s) : Steady b (reachBoundary s) :=
  (h.after_setClock _).after_deliverBoundary

theorem Steady.after_reachSlot (h : Steady b s) : Steady b (reachSlot s) :=
  (h.after_setClock _).after_evaluate

theorem Steady.after_expireHoldover (h : Steady b s) : Steady b (expireHoldover s) := by
  unfold expireHoldover
  split
  · exact h.after_enterStopped
  · exact h.after_setClock _

theorem Steady.after_endTod (h : Steady b s) (chars : List TodChar) :
    Steady b (endTod chars s) := by
  unfold endTod
  split
  · unfold takeTod
    split
    · exact h.after_setClock _
    · exact (h.after_setClock _).after_bump _
  · exact h

theorem Steady.after_settleDue (h : Steady b s) : Steady b (settleDue s) := by
  unfold settleDue
  dsimp only
  split_ifs
  · exact h.after_reachBoundary.after_reachSlot.after_passReached
  · exact h.after_reachBoundary.after_passReached
  · exact h.after_reachSlot.after_passReached
  · exact h.after_passReached

theorem Steady.after_afterSet (h : Steady b s) (before : Time) (locks : Bool) :
    Steady b (afterSet before locks s) := by
  unfold afterSet
  dsimp only
  split_ifs
  · exact h.after_deliverBoundary.after_passReached.after_evaluate
  · exact h.after_passReached.after_evaluate
  · exact h.after_deliverBoundary.after_passReached
  · exact h.after_passReached

theorem Steady.after_stepTo (h : Steady b s) (second : Nat) : Steady b (stepTo second s) := by
  unfold stepTo
  dsimp only
  split
  · exact (h.after_setClock _).after_enterStopped.after_passReached
  · refine Steady.after_passReached (Steady.after_setClock ?_ _)
    split
    · exact h.after_abandonOpen.after_setLink _
    · exact h.after_abandonOpen

theorem Steady.after_phaseSet (h : Steady b s) (second : Nat) : Steady b (phaseSet second s) := by
  unfold phaseSet
  dsimp only
  split
  · exact (h.after_setClock _).after_afterSet _ _
  · exact (h.after_setClock _).after_afterSet _ _

theorem Steady.after_edgeAcquiring (h : Steady b s) : Steady b (edgeAcquiring s) := by
  unfold edgeAcquiring
  dsimp only
  split
  · exact (h.after_setClock _).after_afterSet _ _
  · exact (h.after_setClock _).after_afterSet _ _

theorem Steady.after_edgeDisciplined (h : Steady b s) : Steady b (edgeDisciplined s) := by
  have hleap (second : Nat) (decided : Decided) : Steady b (if decided = .leap then
      bump .leap (s.setClock (consumeTod s.clock)) else s.setClock (consumeTod s.clock)) := by
    split
    · exact (h.after_setClock _).after_bump _
    · exact h.after_setClock _
  unfold edgeDisciplined
  dsimp only
  split
  · exact (hleap 0 _).after_stepTo _
  · exact (hleap 0 _).after_stepTo _
  · exact ((hleap 0 _).after_bump _).after_phaseSet _
  · exact (hleap 0 _).after_phaseSet _

theorem Steady.after_takeEdge (h : Steady b s) (edge : Transition) : Steady b (takeEdge edge s) := by
  have hage := h.after_settleDue.after_setClock { (settleDue s).clock with edgeAge := some 0 }
  unfold takeEdge acceptEdge
  dsimp only
  split_ifs
  · exact h.after_bump _
  · split
    · exact hage.after_edgeAcquiring
    · exact hage.after_setClock _
    · exact hage.after_edgeDisciplined
    · exact hage.after_edgeDisciplined
    · exact hage.after_edgeDisciplined
  · exact h

/-! ## The snapshot port -/

theorem Steady.after_takeSnapshotByte (h : Steady b s) : Steady b (takeSnapshotByte s) := by
  unfold takeSnapshotByte
  split
  · split
    · exact h.after_setAssembler id
    · exact h
  · exact h
  · exact h

theorem Steady.after_endDelivery (h : Steady b s) : Steady b (endDelivery s) := by
  unfold endDelivery
  split
  · split
    · exact Steady.after_takeRecord
        (((h.after_bump _).after_freeRecords _).after_judge.after_setAssembler id)
    · exact h
  · exact h
  · exact h

theorem Steady.after_lowerMark (h : Steady b s) : Steady b (lowerMark s) := h.after_setAssembler id

/-! ## The peer link -/

theorem Steady.after_returnFrame (h : Steady b s) (f : OutFrame) (m : Medium) :
    Steady b (returnFrame f m s) := by
  have hback := h.after_setLink { s.link.giveBack f with medium := m }
  unfold returnFrame expireReturned
  split
  · split
    · split
      · exact hback.after_withdrawShare _
      · exact hback
    · exact hback
  · exact hback
  · exact hback

theorem Steady.after_collide (h : Steady b s) (f : OutFrame) (m : Medium) :
    Steady b (collide f m s) := by
  unfold collide
  dsimp only
  split
  · exact ((((h.after_setLink _).after_bump _).after_returnFrame f m).after_setLink _).after_raise _
  · exact ((h.after_setLink _).after_bump _).after_returnFrame f m

theorem Steady.after_startClaim (h : Steady b s) : Steady b (startClaim s) := by
  unfold startClaim
  split
  · split
    · exact h.after_setLink _
    · exact h
  · exact h

theorem Steady.after_resolveClaim (h : Steady b s) (line : ClaimKey) :
    Steady b (resolveClaim line s) := by
  unfold resolveClaim
  split
  · split
    · exact h.after_setLink _
    · exact h.after_returnFrame _ _
    · exact h.after_collide _ _
  · exact h
  · exact h

theorem Steady.after_foreignClaim (h : Steady b s) : Steady b (foreignClaim s) := by
  unfold foreignClaim
  split
  · exact h.after_setLink _
  · exact h

theorem Steady.after_deferIdle (h : Steady b s) : Steady b (deferIdle s) := by
  unfold deferIdle
  split
  · exact h.after_setLink _
  · exact h

theorem Steady.after_completeSend (h : Steady b s) : Steady b (completeSend s) := by
  unfold completeSend
  split
  · exact (h.after_setLink _).after_bump _
  · exact h
  · exact h

theorem Steady.after_findMismatch (h : Steady b s) : Steady b (findMismatch s) := by
  unfold findMismatch
  split
  · exact h.after_collide _ _
  · exact h.after_collide _ _
  · exact h

theorem Steady.after_judgeIdle (h : Steady b s) : Steady b (judgeIdle s) := by
  unfold judgeIdle
  split
  · exact h.after_setLink _
  · exact h

/-! ## The receiver -/

theorem Steady.after_impliedClaim (h : Steady b s) : Steady b (impliedClaim s) := by
  unfold impliedClaim
  split
  · exact h.after_foreignClaim
  · exact h

theorem Steady.after_handHeader (h : Steady b s) (header : List Byte) :
    Steady b (handHeader header s) := by
  unfold handHeader
  dsimp only
  split_ifs
  · exact h.after_setGather _
  · exact h.after_setGather _
  · exact h.after_setGather _

theorem Steady.after_takeHeader (h : Steady b s) (bytes : List Byte) :
    Steady b (takeHeader bytes s) := by
  unfold takeHeader
  dsimp only
  split
  · split
    · exact h.after_impliedClaim.after_handHeader _
    · exact h
  · exact h

theorem Steady.after_dropReception (h : Steady b s) : Steady b (dropReception s) := by
  unfold dropReception
  split
  · exact h
  · exact (h.after_setGather _).after_freeBlocks _

theorem Steady.after_refuseShare (h : Steady b s) (c : Counter) : Steady b (refuseShare c s) :=
  (h.after_bump c).after_dropReception

theorem Steady.after_heard (h : Steady b s) (i : Station) (c : ClockState) :
    Steady b (heard i c s) := h.after_updatePeer _ _

theorem Steady.after_mismatch (h : Steady b s) (i : Station) : Steady b (mismatch i s) :=
  ((h.after_bump _).after_leavePresent _ _).after_judge

theorem Steady.after_takeBeacon (h : Steady b s) (i : Station) (f : BeaconFrame) :
    Steady b (takeBeacon i f s) := by
  have hheard := (h.after_heard i f.clock).after_updatePeer i (fun p => { p with
    lastEffective := some (f.wait.toNat, f.grace.toNat), lastBeacon := some f.second })
  unfold takeBeacon
  dsimp only
  split
  · exact hheard.after_mismatch i
  · split
    · exact hheard.after_enterPresent i
    · exact hheard.after_enterPresent i
    · exact hheard.after_enterPresent i
    · exact (hheard.after_leavePresent i _).after_judge
    · exact hheard

theorem Steady.after_takeNotice (h : Steady b s) (i : Station) (n : Notice) :
    Steady b (takeNotice i n s) := by
  unfold takeNotice
  dsimp only
  split
  · exact h.after_updatePeer _ _
  · split
    · split
      · exact ((h.after_heard _ _).after_leavePresent _ _).after_judge
      · exact h.after_heard _ _
    · exact ((h.after_heard _ _).after_withRecords _).after_judge

theorem Steady.after_acceptShare (h : Steady b s) (i : Station) (tag : Tag) (length : Nat) :
    Steady b (acceptShare i tag length s) := by
  have hstored (c : Counter) (a : Attachment) := (((h.after_setGather
    { s.gather with reception := none }).after_bump c).after_updateRecord tag
    (fun r => { r with attachments := r.attachments.set i a })).after_updatePeer i
    (fun p => { p with misses := 0 })
  unfold acceptShare
  dsimp only
  split
  · split
    · exact (hstored _ _).after_judge
    · exact hstored _ _
  · exact hstored _ _

theorem Steady.after_settleMatch (h : Steady b s) (i : Station) (tag : Tag) (length : Nat) :
    Steady b (settleMatch i tag length s) := by
  unfold settleMatch
  split
  · exact h.after_refuseShare _
  · exact h.after_refuseShare _
  · exact h.after_refuseShare _
  · exact h.after_refuseShare _
  · exact h.after_acceptShare _ _ _

theorem Steady.after_takeShare (h : Steady b s) (i : Station) (f : ShareFrame) (length : Nat) :
    Steady b (takeShare i f length s) := by
  have hheard := h.after_heard i f.clock
  unfold takeShare
  dsimp only
  split
  · exact (hheard.after_mismatch i).after_dropReception
  · split
    · exact hheard.after_refuseShare _
    · exact (hheard.after_enterPresent i).after_settleMatch _ _ _
    · exact (hheard.after_enterPresent i).after_settleMatch _ _ _
    · exact hheard.after_settleMatch _ _ _
    · exact hheard.after_dropReception
    · exact hheard.after_dropReception

theorem Steady.after_receiveFrame (h : Steady b s) (key : ClaimKey) (bytes : List Byte) :
    Steady b (receiveFrame key bytes s) := by
  unfold receiveFrame
  dsimp only
  split
  · exact (h.after_bump _).after_dropReception
  · next f _ =>
    split
    · exact (h.after_bump _).after_dropReception
    · split
      · exact ((h.after_bump _).after_raise _).after_dropReception
      · cases f with
        | notice n => exact (h.after_bump _).after_takeNotice _ n
        | beacon f => exact (h.after_bump _).after_takeBeacon _ f
        | share x => exact (h.after_bump _).after_takeShare _ x _

theorem Steady.after_countFrame (h : Steady b s) (key : ClaimKey) (bytes : List Byte) :
    Steady b (countFrame key bytes s) := by
  unfold countFrame
  split
  · exact h.after_bump _
  · exact h.after_bump _

theorem Steady.after_gatherBytes {bytes : List Byte} (h : Steady b s)
    (ht : gatherBytes bytes s = some t) : Steady b t := by
  unfold gatherBytes at ht
  split at ht
  · split at ht
    · cases ht
      exact h.after_setGather _
    · cases ht
  · split at ht
    · cases ht
      exact h
    · cases ht
      exact (h.after_handHeader _).after_setGather _

theorem Steady.after_endLinkFrame (h : Steady b s) (key : ClaimKey) (bytes : List Byte) :
    Steady b (endLinkFrame key bytes s) := by
  have hclaim := h.after_impliedClaim
  unfold endLinkFrame takeFrame
  dsimp only
  split
  · split
    · split
      · next hs1 => exact ((hclaim.after_gatherBytes hs1).after_receiveFrame key bytes).after_setLink _
      · exact hclaim
    · exact (hclaim.after_countFrame key bytes).after_setLink _
    · exact hclaim
  · exact hclaim.after_judgeIdle
  · exact hclaim.after_judgeIdle
  · exact h

/-! ## The reset pin's release and the service port -/

theorem Steady.after_releaseReset (h : Steady b s) (straps : Station) :
    Steady b (releaseReset straps s) := by
  unfold releaseReset
  split
  · exact ((h.after_setPins _).after_setLoader rfl).after_setLoader rfl
  · exact h

theorem Steady.after_answer (h : Steady b s) (response : List Byte) :
    Steady b (answer response s) := h.after_setPort _

theorem Steady.after_refuseCommand (h : Steady b s) (code : Byte) :
    Steady b (refuseCommand code s) := (h.after_bump _).after_answer _

theorem Steady.after_reportCause (h : Steady b s) : Steady b (reportCause s) :=
  (h.after_setLoader (v := { s.loader with cause := ⟨false, false, false, false⟩ }) rfl).after_answer _

theorem Steady.after_assertSelect (h : Steady b s) : Steady b (assertSelect s) := by
  unfold assertSelect
  dsimp only
  split_ifs
  · exact h
  · exact h.after_setPins _
  · exact (h.after_setPins _).after_setPort _

theorem Steady.after_closeTransaction (h : Steady b s) : Steady b (closeTransaction s) :=
  h.after_setPort _

theorem Steady.after_cutShort (h : Steady b s) : Steady b (cutShort s) := by
  unfold cutShort
  split
  · exact h.after_closeTransaction
  · exact (h.after_bump _).after_closeTransaction

theorem Steady.after_meetReload (h : Steady b s) : Steady b (meetReload s) :=
  meetReload_eq ▸ h.after_setLoader rfl

/-- A command without arguments is steady where carrying it out is. -/
theorem Steady.after_plainCommand {carryOut : State → State} (h : Steady b s)
    (hc : Steady b (carryOut s)) : Steady b (plainCommand carryOut s) := by
  unfold plainCommand takeCommand
  split_ifs
  · exact h.after_answer _
  · exact hc
  · exact h

/-- A command with arguments is steady where carrying it out is. -/
theorem Steady.after_argumentCommand (code : Byte) (bytes : List Byte)
    {carryOut : List Byte → State → State} (h : Steady b s)
    (hc : ∀ args, Steady b (carryOut args s)) :
    Steady b (argumentCommand code bytes carryOut s) := by
  unfold argumentCommand takeCommand
  dsimp only
  split
  · exact h
  · split_ifs
    · exact h.after_answer _
    · exact hc _
    · exact h.after_setPort _

theorem Steady.after_reportStream (h : Steady b s) (args : List Byte) :
    Steady b (reportStream args s) := by
  unfold reportStream
  split
  · exact h.after_answer _
  · exact h.after_refuseCommand _

theorem Steady.after_setPendingMember (h : Steady b s) (member : Bool) (args : List Byte) :
    Steady b (setPendingMember member args s) := by
  unfold setPendingMember
  split
  · refine Steady.after_answer (h.after_setStreams ?_) _
    refine List.ext_getElem (by simp [updateStream]) fun n _ _ => ?_
    simp only [updateStream, List.getElem_map, List.getElem_modify]
    split <;> rfl
  · exact h.after_refuseCommand _

theorem Steady.after_resumeClock (h : Steady b s) : Steady b (resumeClock s) := by
  unfold resumeClock
  split
  · exact (h.after_setClock _).after_answer _
  · exact h.after_refuseCommand _

/-! ## The directory, the slot table and its local close -/

theorem Steady.after_stallStream (h : Steady b s) (n : Nat) : Steady b (stallStream n s) := by
  refine Steady.after_examineFor (h.after_setStreams ?_) n
  refine List.ext_getElem (by simp [updateStream]) fun k _ _ => ?_
  simp only [updateStream, List.getElem_map, List.getElem_modify]
  split <;> rfl

theorem Steady.after_silencePeer (h : Steady b s) (i : Station) : Steady b (silencePeer i s) :=
  (h.after_leavePresent _ _).after_judge

theorem Steady.after_offerMark (h : Steady b s) (tag : Tag) (m : Mark) :
    Steady b (offerMark tag m s) := by
  unfold offerMark
  split
  · exact h
  · split
    · exact (h.after_updateRecord _ _).after_bump _
    · exact h.after_bump _

theorem Steady.after_judgeCell (h : Steady b s) (pos : Nat) (c : Cell) (tag : Tag) (i : Fin 8) :
    Steady b (judgeCell pos c tag s i) := by
  unfold judgeCell
  dsimp only
  split
  · exact h
  · split
    · exact h
    · split
      · exact h.after_setMonitors _
      · split_ifs
        · exact h.after_setMonitors _
        · exact ((h.after_setMonitors _).after_offerMark _ _).after_setMonitors _
        · exact (h.after_setMonitors _).after_bump _

theorem Steady.after_resolveNext (h : Steady b s) : Steady b (resolveNext s) := by
  unfold resolveNext
  split
  · exact h
  · split
    · exact h
    · exact .after_foldl (fun i h => h.after_judgeCell _ _ _ i) _ (h.after_updateRecord _ _)

theorem Steady.after_completeClose (h : Steady b s) : Steady b (completeClose s) := by
  unfold completeClose
  split
  · exact h
  · exact (h.after_finishClose _).after_examine

/-! ## A step without a command -/

theorem Steady.after_tickLater (h : Steady b s) : Steady b (tickLater s) := by
  unfold tickLater
  split
  · exact h.after_stallStream _
  · split
    · exact h.after_passClose _
    · split
      · exact h.after_passGather _
      · split
        · exact h.after_passShare _
        · split
          · exact h.after_silencePeer _
          · exact h.after_elapse 1

theorem Steady.after_tick (h : Steady b s) : Steady b (tick s) := by
  unfold tick
  split_ifs
  · exact h.after_setLoader rfl
  · exact h.after_reachBoundary
  · exact h.after_reachSlot
  · exact h.after_lowerMark
  · exact h.after_endDelivery
  · exact h.after_setClock _
  · exact h.after_expireHoldover
  · exact h.after_tickLater

end Sys2Proof.Machine

/-! The laws of the rings, of the intake buffer and of the counters at every step (R26, R27, R33, R55):
where a command is steady they carry over, and the intake unit's own commands, the resets, the loads and
CLEAR_COUNTERS keep them each for its reason. -/

namespace Sys2Proof.Machine

open Sys2Proof

variable {s t u : State}

/-! ## The laws by what a steady command keeps -/

/-- The per-stream counters are within 16 bits (R63). -/
def StreamCounters.Capped (c : StreamCounters) : Prop :=
  c.admitted ≤ 65535 ∧ c.lateAdmitted ≤ 65535 ∧ c.evicted ≤ 65535 ∧ c.late ≤ 65535 ∧
    c.duplicate ≤ 65535 ∧ c.stale ≤ 65535

theorem ringLaw_iff : RingLaw s ↔ ∀ a ∈ s.streams.map Stream.tally,
    a.1.length ≤ 32 ∧ a.1.Pairwise (fun x y => x.before y = true) := by
  simp only [RingLaw, Config.ringCapacity, List.forall_mem_map, Stream.tally, List.length_map,
    ringOrdered_iff_times]

theorem counterLaw_iff : CounterLaw s ↔
    CountsCapped s ∧ ∀ a ∈ s.streams.map Stream.tally, a.2.Capped := by
  simp only [CounterLaw, CountsCapped, and_assoc, List.forall_mem_map]
  rfl

/-- The buffer's law reads the intake unit but for the last-drop record, and the loader's state. -/
theorem BufferLaw.of_intake {d : LastDrop} (h : BufferLaw s)
    (hi : t.intake = { s.intake with lastDrop := d }) (hl : t.loader.state = s.loader.state) :
    BufferLaw t := by
  unfold BufferLaw
  rw [hi, hl]
  exact h

/-- From one state to another the laws of the rings, the buffer and the counters carry over. -/
structure LawsKept (s t : State) : Prop where
  ring : RingLaw s → RingLaw t
  buffer : MemoryLaw s → BufferLaw s → BufferLaw t
  counter : CounterLaw s → CounterLaw t

theorem Steady.ring (h : Steady s t) (hs : RingLaw s) : RingLaw t := by
  rw [ringLaw_iff] at *
  rwa [h.streams]

theorem Steady.counter (h : Steady s t) (hs : CounterLaw s) : CounterLaw t := by
  rw [counterLaw_iff] at *
  exact ⟨h.capped hs.1, h.streams ▸ hs.2⟩

theorem Steady.lawsKept (h : Steady s t) : LawsKept s t :=
  ⟨h.ring, fun _ hb => let ⟨_, hd⟩ := h.intake; hb.of_intake hd h.loader, h.counter⟩

/-- A steady command followed by a change of the intake unit. -/
theorem Steady.lawsKept_setIntake (h : Steady s u) (v : Intake)
    (hb : MemoryLaw s → BufferLaw s → BufferLaw (u.setIntake v)) : LawsKept s (u.setIntake v) :=
  ⟨h.ring, hb, h.counter⟩

/-! ## Whole frames in the buffer (R27) -/

theorem pos_add_add (p : Pos) (j k : Nat) :
    p + BitVec.ofNat 15 j + BitVec.ofNat 15 k = p + BitVec.ofNat 15 (j + k) := by
  rw [BitVec.add_assoc, BitVec.ofNat_add]

/-- Frames stay where every byte of them is as it was. -/
theorem framesFrom_congr {m m' : Memory} (sizes : List Nat) : ∀ {p : Pos},
    (∀ k < (sizes.map (9 + ·)).sum, memRead m' (p + BitVec.ofNat 15 k).toNat =
      memRead m (p + BitVec.ofNat 15 k).toNat) →
    FramesFrom m p sizes → FramesFrom m' p sizes := by
  induction sizes with
  | nil => exact fun _ h => h
  | cons n ns ih =>
    rintro p hm ⟨hn, hcount, hrest⟩
    rw [List.map_cons, List.sum_cons] at hm
    have h8 : memRead m' (p + 8).toNat = memRead m (p + 8).toNat := hm 8 (by omega)
    refine ⟨hn, by rw [h8]; exact hcount, ih (fun k hk => ?_) hrest⟩
    rw [pos_add_add]
    exact hm _ (by simp only [Config.stampSize]; omega)

/-- One more frame behind the frames of a region. -/
theorem framesFrom_append {m : Memory} {n : Nat} (sizes : List Nat) : ∀ {p : Pos},
    FramesFrom m p sizes → n ≤ 85 →
    (memRead m (p + BitVec.ofNat 15 (sizes.map (9 + ·)).sum + 8).toNat).toNat = n →
    FramesFrom m p (sizes ++ [n]) := by
  induction sizes with
  | nil =>
    intro p _ hn hcount
    simp only [List.map_nil, List.sum_nil, BitVec.add_zero] at hcount
    exact ⟨hn, hcount, trivial⟩
  | cons k ks ih =>
    rintro p ⟨hk, hfirst, hrest⟩ hn hcount
    refine ⟨hk, hfirst, ih hrest hn ?_⟩
    rwa [pos_add_add]

/-! ## The writer (R28 to R31) -/

/-- Outside RECEIVING the reception region is empty: every change that leaves the complete region alone
and ends there keeps the law. -/
theorem BufferLaw.of_not_receiving {w : WriterState} {n : Nat} {stamp : Stamp} {d : LastDrop}
    (h : BufferLaw s) (hi : t.intake = { s.intake with
      writer := w, writeCur := s.intake.writeHead, frameBytes := n, frameStamp := stamp
      lastDrop := d })
    (hw : w ≠ .receiving) (hn : n ≤ 85) (hload : t.loader.state = .loading → w = .closed)
    (hfault : t.loader.state = .fault → w = .ignoring) : BufferLaw t := by
  obtain ⟨hhead, -, hframes, hck, hfit, -, -, -, -⟩ := h
  unfold BufferLaw
  simp only [hi, Intake.received, if_neg hw, BitVec.sub_self, BitVec.add_zero]
  exact ⟨hhead, trivial, hframes, hck, by simp; omega, rfl, hn, hload, hfault⟩

theorem BufferLaw.writeCur_eq (h : BufferLaw s) (hw : s.intake.writer ≠ .receiving) :
    s.intake.writeCur = s.intake.writeHead := by
  obtain ⟨-, hcur, -⟩ := h
  simpa [hw] using hcur

theorem BufferLaw.frameBytes_le (h : BufferLaw s) : s.intake.frameBytes ≤ 85 := by
  obtain ⟨-, -, -, -, -, -, hbytes, -, -⟩ := h
  exact hbytes

/-- The loader that a writer in IDLE, RECEIVING or DISCARDING stands beside is LOADED (R26). -/
theorem BufferLaw.loaded (h : BufferLaw s)
    (hw : s.intake.writer ≠ .closed ∧ s.intake.writer ≠ .ignoring) :
    s.loader.state ≠ .loading ∧ s.loader.state ≠ .fault := by
  obtain ⟨-, -, -, -, -, -, -, hload, hfault⟩ := h
  exact ⟨fun hl => hw.1 (hload hl), fun hl => hw.2 (hfault hl)⟩

/-- The 9 bytes of a stamp entry reserved (R28). -/
theorem BufferLaw.of_reserved {stamp : Stamp} (h : BufferLaw s) (hw : s.intake.writer = .idle)
    (hfree : 9 ≤ s.intake.free) (hi : t.intake = { s.intake with
      frameStamp := stamp, frameBytes := 0, writer := .receiving
      writeCur := s.intake.writeHead + 9 }) (hl : t.loader = s.loader) : BufferLaw t := by
  obtain ⟨hload, hfault⟩ := h.loaded (by simp [hw])
  obtain ⟨hhead, -, hframes, hck, hfit, hrec, -, -, -⟩ := h
  have hnine : s.intake.writeHead + 9 - s.intake.writeHead = 9#15 := by bv_omega
  rw [if_neg (by simp [hw])] at hrec
  have hroom : s.intake.held + 9 ≤ 32768 := by
    simp only [Intake.free, hrec, Config.bufferSize] at hfree
    omega
  unfold BufferLaw
  simp only [hi, hl, Intake.received, hnine]
  exact ⟨hhead, rfl, hframes, hck, hroom, rfl, Nat.zero_le _, fun hc => absurd hc hload,
    fun hc => absurd hc hfault⟩

/-- A byte stored in the reception region (R29). -/
theorem BufferLaw.storeByte (hm : MemoryLaw s) (h : BufferLaw s) (hw : s.intake.writer = .receiving)
    (hlen : s.intake.frameBytes < 85) (hfree : s.intake.free ≠ 0) (b : Byte) :
    BufferLaw (storeByte b s) := by
  obtain ⟨hload, hfault⟩ := h.loaded (by simp [hw])
  obtain ⟨hhead, hcur, ⟨sizes, hframes, hheld⟩, hck, hfit, hrec, -, -, -⟩ := h
  rw [if_pos hw] at hcur hrec
  simp only [Intake.free, hrec, Config.bufferSize, Config.stampSize] at *
  have hnext : s.intake.writeCur + 1 =
      s.intake.writeHead + BitVec.ofNat 15 (9 + (s.intake.frameBytes + 1)) := by
    rw [hcur]; bv_omega
  have hsize : (s.intake.writeCur + 1 - s.intake.writeHead).toNat =
      9 + (s.intake.frameBytes + 1) := by
    rw [hnext]; bv_omega
  unfold BufferLaw
  simp only [Machine.storeByte, State.setIntake_intake, State.setIntake_loader, Intake.received,
    hw, if_true, hsize]
  refine ⟨hhead, hnext, ⟨sizes, framesFrom_congr sizes (fun k hk => ?_) hframes, hheld⟩, hck,
    ?_, trivial, hlen, fun hc => absurd hc hload, fun hc => absurd hc hfault⟩
  swap
  · simp only [Config.bufferSize]; omega
  refine memRead_memWrite_other hm.1 b ?_
  rw [hcur, hhead, pos_add_add]
  exact pos_add_ne _ (by omega) (by omega) (by omega)

/-- The last byte of a stamp entry is the frame's byte count (notes/assumptions/9.md). -/
theorem stampEntry_count (stamp : Stamp) {count : Nat} (h : count < 256) :
    ((stampEntry stamp count).getD 8 0).toNat = count := by
  have h8 := field_append (beBytes 4 stamp.at_.sec ++ beBytes 3 stamp.at_.fu ++
    beBytes 1 (if stamp.known then 1 else 0)) [] 1 count (by omega)
  simp only [List.length_append, beBytes_length, List.append_nil] at h8
  rw [getD_toNat]
  exact h8

/-- The frame in reception joins the complete region (R31). -/
theorem BufferLaw.completeFrame (hm : MemoryLaw s) (h : BufferLaw s)
    (hw : s.intake.writer = .receiving) : BufferLaw (completeFrame s) := by
  obtain ⟨hload, hfault⟩ := h.loaded (by simp [hw])
  obtain ⟨hhead, hcur, ⟨sizes, hframes, hheld⟩, -, hfit, hrec, hbytes, -, -⟩ := h
  rw [if_pos hw] at hcur hrec
  simp only [hrec, Config.bufferSize, Config.stampSize, Config.maxFrame] at *
  have hlen := stampEntry_length s.intake.frameStamp s.intake.frameBytes
  have hold : FramesFrom (bufferWrite s.intake.mem s.intake.writeHead
      (stampEntry s.intake.frameStamp s.intake.frameBytes)) s.intake.readPtr sizes := by
    refine framesFrom_congr sizes (fun k hk => ?_) hframes
    refine memRead_bufferWrite_other _ _ _ hm.1 fun j hj => ?_
    rw [hhead, pos_add_add]
    exact pos_add_ne _ (by omega) (by omega) (by omega)
  have hnew : (memRead (bufferWrite s.intake.mem s.intake.writeHead
      (stampEntry s.intake.frameStamp s.intake.frameBytes)) (s.intake.writeHead + 8).toNat).toNat =
      s.intake.frameBytes := by
    have h8 := memRead_bufferWrite (stampEntry s.intake.frameStamp s.intake.frameBytes)
      s.intake.writeHead (k := 8) hm.1 (by omega) (by omega)
    rw [show (8 : Pos) = BitVec.ofNat 15 8 from rfl, h8, stampEntry_count _ (by omega)]
  rw [completeFrame_eq]
  unfold BufferLaw
  simp only [State.setIntake_intake, State.setIntake_loader, Intake.received, BitVec.sub_self,
    reduceCtorEq, if_false, BitVec.add_zero]
  refine ⟨?_, trivial, ⟨sizes ++ [s.intake.frameBytes], ?_, ?_⟩, fun _ => by omega, ?_, rfl, by simp,
    fun hc => absurd hc hload, fun hc => absurd hc hfault⟩
  · rw [hcur, hhead, pos_add_add, Nat.add_assoc]
  · exact framesFrom_append sizes hold hbytes (by rw [← hheld, ← hhead]; exact hnew)
  · simp only [List.map_append, List.map_cons, List.map_nil, List.sum_append, List.sum_cons,
      List.sum_nil, hheld, Config.stampSize]
    omega
  · simp only [BitVec.toNat_ofNat, Config.bufferSize]
    omega

/-! ## The intake unit's commands -/

theorem lawsKept_takeFrameStart : LawsKept s (takeFrameStart s) := by
  have hdrop := (Steady.refl s).after_bump .framesReceived
  by_cases hs : s.pins.strobe = true
  · rw [takeFrameStart, if_pos hs]
    exact (Steady.refl s).lawsKept
  · have hs := Bool.eq_false_iff.2 hs
    cases hw : s.intake.writer with
    | idle =>
      by_cases hfree : 9 ≤ s.intake.free
      · rw [takeFrameStart_room hs hw hfree]
        exact (hdrop.after_setPins _).lawsKept_setIntake _ fun _ hb =>
          hb.of_reserved hw hfree rfl (bump_loader _)
      · rw [takeFrameStart_full hs hw (by omega)]
        refine ((hdrop.after_bump .bufferFull).after_setPins _).lawsKept_setIntake _ fun _ hb => ?_
        obtain ⟨hload, hfault⟩ := hb.loaded (by simp [hw])
        refine hb.of_not_receiving (w := .discarding) (n := 0)
          (by rw [← hb.writeCur_eq (by simp [hw])]; rfl) (by simp) (by simp) ?_ ?_
        · exact fun hc => absurd (by simpa using hc) hload
        · exact fun hc => absurd (by simpa using hc) hfault
    | ignoring =>
      rw [takeFrameStart_ignoring hs hw]
      exact (((Steady.refl s).after_bump _).after_setPins _).lawsKept
    | closed =>
      rw [takeFrameStart_closed hs hw]
      exact ((Steady.refl s).after_setPins _).lawsKept
    | receiving =>
      rw [show takeFrameStart s = s.setPins { s.pins with strobe := true } by
        simp [takeFrameStart, hs, hw]]
      exact ((Steady.refl s).after_setPins _).lawsKept
    | discarding =>
      rw [show takeFrameStart s = s.setPins { s.pins with strobe := true } by
        simp [takeFrameStart, hs, hw]]
      exact ((Steady.refl s).after_setPins _).lawsKept

/-- A frame dropped in reception gives its space back (R30). -/
theorem lawsKept_undoFrame {reason : DropReason} {c : Counter} (hr : reason.counter = some c)
    (hw : s.intake.writer = .receiving) : LawsKept s (undoFrame reason s) := by
  rw [undoFrame_eq hr]
  refine ((Steady.refl s).after_bump c).lawsKept_setIntake _ fun _ hb => ?_
  obtain ⟨hload, hfault⟩ := hb.loaded (by simp [hw])
  refine hb.of_not_receiving (w := .discarding) (n := 0) rfl (by simp) (by simp) ?_ ?_
  · exact fun hc => absurd (by simpa using hc) hload
  · exact fun hc => absurd (by simpa using hc) hfault

theorem lawsKept_takeByte (b : Byte) : LawsKept s (takeByte b s) := by
  by_cases hr : s.pins.strobe = true ∧ s.intake.writer = .receiving
  · obtain ⟨hs, hw⟩ := hr
    rw [takeByte_receiving b hs hw]
    split_ifs with hlen hfree
    · exact lawsKept_undoFrame rfl hw
    · exact lawsKept_undoFrame rfl hw
    · exact (Steady.refl s).lawsKept_setIntake _ fun hm hb =>
        hb.storeByte hm hw (by omega) hfree b
  · have he : takeByte b s = s := by
      by_cases hs : s.pins.strobe = true
      · exact takeByte_not_receiving b fun hw => hr ⟨hs, hw⟩
      · exact if_neg hs
    rw [he]
    exact (Steady.refl s).lawsKept

theorem lawsKept_takeFrameEnd : LawsKept s (takeFrameEnd s) := by
  have hpins := (Steady.refl s).after_setPins { s.pins with strobe := false }
  by_cases hs : s.pins.strobe = true
  · cases hw : s.intake.writer with
    | receiving =>
      rw [takeFrameEnd_receiving hs hw, completeFrame_eq]
      refine hpins.lawsKept_setIntake _ fun hm hb => ?_
      rw [← completeFrame_eq]
      exact BufferLaw.completeFrame hm hb hw
    | discarding =>
      rw [takeFrameEnd_discarding hs hw]
      refine hpins.lawsKept_setIntake _ fun _ hb => ?_
      obtain ⟨hload, hfault⟩ := hb.loaded (by simp [hw])
      exact hb.of_not_receiving (w := .idle) (by rw [← hb.writeCur_eq (by simp [hw])]; rfl)
        (by simp) hb.frameBytes_le (fun hc => absurd hc hload) (fun hc => absurd hc hfault)
    | closed =>
      rw [takeFrameEnd_unheard hs (.inl hw)]
      exact hpins.lawsKept
    | ignoring =>
      rw [takeFrameEnd_unheard hs (.inr hw)]
      exact hpins.lawsKept
    | idle =>
      rw [show takeFrameEnd s = s.setPins { s.pins with strobe := false } by
        simp [takeFrameEnd, hs, hw]]
      exact hpins.lawsKept
  · rw [takeFrameEnd, if_neg hs]
    exact (Steady.refl s).lawsKept

/-! ## The checker (R33, R40, R41) -/

theorem Steady.after_recordDrop {b : State} (h : Steady b s) (code : Nat) (reason : DropReason)
    (time : Time) : Steady b (recordDrop code reason time s) := by
  unfold recordDrop
  split
  · exact (h.after_bump _).after_setDrop _
  · exact h.after_setDrop _

theorem satInc_le (n : Nat) : satInc n ≤ 65535 := Nat.min_le_right _ _

theorem receive_capped {st : Stream} (h : st.counters.Capped) (x : Sample) (late : Bool) :
    (st.receive x late).counters.Capped := by
  obtain ⟨-, hlateAdmitted, hevicted, hlate, hduplicate, hstale⟩ := h
  refine ⟨satInc_le _, ?_, ?_, hlate, hduplicate, hstale⟩
  · dsimp only [Stream.receive]
    split
    · exact satInc_le _
    · exact hlateAdmitted
  · dsimp only [Stream.receive]
    split
    · exact satInc_le _
    · exact hevicted

/-- An offer keeps the ring's law and the counters' caps (R55, R63). -/
theorem offer_keeps (st : Stream) (x : Sample) :
    (st.ring.length ≤ 32 → ringOrdered st.ring = true →
      (st.offer x).2.ring.length ≤ 32 ∧ ringOrdered (st.offer x).2.ring = true) ∧
    (st.counters.Capped → (st.offer x).2.counters.Capped) := by
  by_cases hl : st.tooLate x = true
  · rw [offer_tooLate hl]
    exact ⟨fun h1 h2 => ⟨h1, h2⟩, fun ⟨h1, h2, h3, _, h5, h6⟩ =>
      ⟨h1, h2, h3, satInc_le _, h5, h6⟩⟩
  by_cases hd : st.holds x = true
  · rw [offer_holds hl hd]
    exact ⟨fun h1 h2 => ⟨h1, h2⟩, fun ⟨h1, h2, h3, h4, _, h6⟩ =>
      ⟨h1, h2, h3, h4, satInc_le _, h6⟩⟩
  by_cases hs : st.tooStale x = true
  · rw [offer_tooStale hl hd hs]
    exact ⟨fun h1 h2 => ⟨h1, h2⟩, fun ⟨h1, h2, h3, h4, h5, _⟩ =>
      ⟨h1, h2, h3, h4, h5, satInc_le _⟩⟩
  · rw [offer_admits hl hd hs]
    refine ⟨fun hlen hord => ⟨?_, receive_ordered hord hd _⟩, fun hc => receive_capped hc x _⟩
    rw [(receive_perm hlen _).length_eq]
    split
    · next hfull => simp [hfull]
    · simp only [List.length_cons]; omega

/-- The directory with an offered sample's stream in its place. -/
theorem lawsKept_setOffer {n : Nat} {st : Stream} (hn : s.streams[n]? = some st) (x : Sample) :
    (RingLaw s → RingLaw (s.setStreams (s.streams.set n (st.offer x).2))) ∧
    (CounterLaw s → CounterLaw (s.setStreams (s.streams.set n (st.offer x).2))) := by
  have hst := List.mem_of_getElem? hn
  obtain ⟨hring, hcap⟩ := offer_keeps st x
  refine ⟨fun h u hu => ?_, fun ⟨hc, hskip, h⟩ => ⟨hc, hskip, fun u hu => ?_⟩⟩
  · rcases List.mem_or_eq_of_mem_set hu with hu | rfl
    · exact h u hu
    · exact hring (h st hst).1 (h st hst).2
  · rcases List.mem_or_eq_of_mem_set hu with hu | rfl
    · exact h u hu
    · exact hcap (h st hst)

/-- A verdict is steady but for the stream whose ring takes the sample. -/
theorem applyVerdict_keeps (stamp : Stamp) (v : Verdict) :
    (RingLaw s → RingLaw (applyVerdict stamp s v)) ∧
    (CounterLaw s → CounterLaw (applyVerdict stamp s v)) ∧
    (applyVerdict stamp s v).loader.state = s.loader.state := by
  cases v with
  | refused code reason =>
    have h := (Steady.refl s).after_recordDrop code reason stamp.at_
    exact ⟨h.ring, h.counter, h.loader⟩
  | offered n code x =>
    cases hn : s.streams[n]? with
    | none => simp [applyVerdict, offerSample, hn]
    | some st =>
      obtain ⟨hring, hcounter⟩ := lawsKept_setOffer hn x
      have h : Steady (s.setStreams (s.streams.set n (st.offer x).2)) (offerSample n code x s) := by
        cases hr : (st.offer x).1.reason with
        | some reason =>
          rw [offerSample_refused hn hr]
          exact (Steady.refl _).after_recordDrop _ _ _
        | none =>
          rw [offerSample_admitted hn hr]
          exact ((Steady.refl _).after_bump _).after_examineFor n
      exact ⟨h.ring ∘ hring, h.counter ∘ hcounter, h.loader⟩

theorem bufferRead_getD (m : Memory) (n : Nat) : ∀ (p : Pos) {k : Nat}, k < n →
    (bufferRead m p n).getD k 0 = memRead m (p + BitVec.ofNat 15 k).toNat := by
  induction n with
  | zero => intro p k hk; omega
  | succ n ih =>
    intro p k hk
    cases k with
    | zero => simp [bufferRead]
    | succ k =>
      rw [bufferRead, List.getD_cons_succ, ih (p + 1) (by omega), pos_add_succ]

/-- The held frame has as many bytes as its stamp entry counts (R33). -/
theorem heldFrame_length (i : Intake) :
    (heldFrame i).2.length = (memRead i.mem (i.readPtr + 8).toNat).toNat := by
  simp only [heldFrame, bufferRead_length, entryCount, ← getD_toNat]
  rw [bufferRead_getD _ _ _ (by decide)]
  rfl

/-- The oldest frame leaves the complete region (R33). -/
theorem BufferLaw.releaseFrame {d : LastDrop} (h : BufferLaw s) (hck : s.intake.checker = .checking)
    (hi : u.intake = { s.intake with lastDrop := d }) (hl : u.loader.state = s.loader.state) :
    BufferLaw (releaseFrame (9 + (heldFrame s.intake).2.length) u) := by
  obtain ⟨hhead, hcur, ⟨sizes, hframes, hheld⟩, hne, hfit, hrec, hbytes, hload, hfault⟩ := h
  rw [heldFrame_length]
  cases sizes with
  | nil => exact absurd hheld (hne hck)
  | cons n ns =>
    obtain ⟨hn, hcount, hrest⟩ := hframes
    rw [hcount, releaseFrame_eq]
    simp only [List.map_cons, List.sum_cons, Config.stampSize] at hheld hrest
    have hptr : s.intake.readPtr + BitVec.ofNat 15 s.intake.held = s.intake.readPtr +
        BitVec.ofNat 15 (9 + n) + BitVec.ofNat 15 (s.intake.held - (9 + n)) := by
      rw [pos_add_add, Nat.add_sub_cancel' (by omega)]
    unfold BufferLaw
    simp only [State.setIntake_intake, State.setIntake_loader, hi, hl]
    refine ⟨hhead.trans hptr, hcur, ⟨ns, hrest, ?_⟩, fun hc he => ?_, ?_, hrec, hbytes, hload,
      hfault⟩
    · simp only [Config.stampSize]; omega
    · rw [if_pos he] at hc; cases hc
    · have hsame : Intake.received { s.intake with lastDrop := d } = s.intake.received := rfl
      simp only [Intake.received] at hfit ⊢
      omega

theorem lawsKept_judgeHeld : LawsKept s (judgeHeld s) := by
  by_cases hck : s.intake.checker = .checking
  · rcases hf : heldFrame s.intake with ⟨stamp, f⟩
    have he : judgeHeld s = Machine.releaseFrame (9 + f.length)
        (applyVerdict stamp s (judgeFrame s f stamp)) := by
      have h := exec_frameJudgement hck hf
      exact (perform_cases (i := .frameJudgement) h).2.symm
    obtain ⟨hring, hcounter, hloader⟩ := applyVerdict_keeps (s := s) stamp (judgeFrame s f stamp)
    obtain ⟨d, hd⟩ := applyVerdict_intake (s := s) stamp (judgeFrame s f stamp)
    refine ⟨fun h => ?_, fun _ h => ?_, fun h => ?_⟩
    · rw [he, releaseFrame_eq]
      exact hring h
    · rw [he]
      have hb := h.releaseFrame hck hd hloader
      rwa [hf] at hb
    · rw [he, releaseFrame_eq]
      exact hcounter h
  · rw [judgeHeld, if_neg hck]
    exact (Steady.refl s).lawsKept

/-! ## Resets and loads (R46, R47, R189, R198, R199) -/

/-- Every law holds where the blocks stand in their reset state. -/
theorem lawsKept_of_reset {m : List Host.Cell} (hi : t.intake = .reset m)
    (hl : t.loader.state = .loading) (hs : t.streams = []) (hc : t.counters = zeroCounters)
    (ha : t.assembler = .reset) : LawsKept s t := by
  refine ⟨fun _ => ?_, fun _ _ => ?_, fun _ => ⟨fun c => ?_, ?_, ?_⟩⟩
  · simp [RingLaw, hs]
  · have hempty : (Intake.reset m).received = 0 := by simp [Intake.received, Intake.reset]
    unfold BufferLaw
    rw [hi, hl, hempty]
    exact ⟨rfl, rfl, ⟨[], trivial, rfl⟩, nofun, Nat.zero_le _, rfl, Nat.zero_le _, fun _ => rfl,
      nofun⟩
  · simp [State.count, hc, zeroCounters]
  · rw [ha]; exact Nat.zero_le _
  · simp [hs]

theorem lawsKept_assertReset : LawsKept s (assertReset s) := by
  unfold assertReset
  split
  · exact (Steady.refl s).lawsKept
  · exact lawsKept_of_reset rfl rfl rfl rfl rfl

theorem lawsKept_deassertSelect (straps : Station) : LawsKept s (deassertSelect straps s) := by
  have hpins := (Steady.refl s).after_setPins { s.pins with chipSelect := false }
  unfold deassertSelect
  dsimp only
  split
  · split
    · exact hpins.after_meetReload.lawsKept
    · split
      · exact hpins.after_cutShort.lawsKept
      · exact hpins.after_cutShort.lawsKept
      · split
        · exact lawsKept_of_reset rfl rfl rfl rfl rfl
        · exact hpins.after_closeTransaction.lawsKept
      · exact hpins.after_closeTransaction.lawsKept
      · exact hpins.after_closeTransaction.lawsKept
  · exact (Steady.refl s).lawsKept

/-- While a load runs, the writer is CLOSED (R26). -/
theorem BufferLaw.closed_of_loadRuns (h : BufferLaw s) (hr : s.loadRuns = true) :
    s.intake.writer = .closed := by
  obtain ⟨-, -, -, -, -, -, -, hload, -⟩ := h
  refine hload ?_
  simp only [State.loadRuns, Bool.and_eq_true, beq_iff_eq] at hr
  exact hr.1

theorem lawsKept_completeLoad (image : List Byte) : LawsKept s (completeLoad image s) := by
  unfold completeLoad
  split
  · next report w hr _ =>
    refine ⟨fun _ st hst => ?_, fun _ hb => ?_, fun ⟨hc, hskip, _⟩ => ⟨hc, hskip, fun st hst => ?_⟩⟩
    · obtain ⟨e, -, rfl⟩ := List.mem_map.1 hst
      exact ⟨Nat.zero_le _, rfl⟩
    · have hw := hb.closed_of_loadRuns hr
      refine hb.of_not_receiving (w := if s.pins.strobe then .discarding else .idle)
        (by rw [← hb.writeCur_eq (by simp [hw])]; rfl) ?_ hb.frameBytes_le (fun hc => by cases hc)
        (fun hc => by cases hc)
      split <;> simp
    · obtain ⟨e, -, rfl⟩ := List.mem_map.1 hst
      exact ⟨Nat.zero_le _, Nat.zero_le _, Nat.zero_le _, Nat.zero_le _, Nat.zero_le _,
        Nat.zero_le _⟩
  · exact (Steady.refl s).lawsKept

theorem lawsKept_faultLoad (image : List Byte) : LawsKept s (faultLoad image s) := by
  unfold faultLoad
  split
  · next report hr _ =>
    refine ⟨fun h => h, fun _ hb => ?_, fun h => h⟩
    have hw := hb.closed_of_loadRuns hr
    exact hb.of_not_receiving (w := .ignoring) (by rw [← hb.writeCur_eq (by simp [hw])]; rfl)
      (by simp) hb.frameBytes_le (fun hc => by cases hc) (fun _ => rfl)
  · exact (Steady.refl s).lawsKept

/-! ## CLEAR_COUNTERS (R206) -/

theorem lawsKept_clearCounters : LawsKept s (plainCommand clearCounters s) := by
  unfold plainCommand takeCommand
  split_ifs
  · exact ((Steady.refl s).after_answer _).lawsKept
  · refine ⟨fun h st hst => ?_, fun _ h => h, fun ⟨_, hskip, _⟩ => ⟨fun c => ?_, hskip, ?_⟩⟩
    · obtain ⟨st', hst', rfl⟩ := List.mem_map.1 hst
      exact h st' hst'
    · simp [State.count, clearCounters, answer, zeroCounters]
    · intro st hst
      obtain ⟨st', -, rfl⟩ := List.mem_map.1 hst
      exact ⟨Nat.zero_le _, Nat.zero_le _, Nat.zero_le _, Nat.zero_le _, Nat.zero_le _,
        Nat.zero_le _⟩
  · exact (Steady.refl s).lawsKept

/-! ## The step -/

/-- Every command keeps the three laws. -/
theorem exec_lawsKept (c : Instr) (ht : exec c s = .next t) : LawsKept s t := by
  have kept {f : State → State} (he : exec c s = perform c f s) (hf : LawsKept s (f s)) :
      LawsKept s t := (perform_cases (he ▸ ht)).2 ▸ hf
  have steady {f : State → State} (he : exec c s = perform c f s) (hf : Steady s (f s)) :
      LawsKept s t := kept he hf.lawsKept
  have h := Steady.refl s
  cases c with
  | powerOn straps => exact kept rfl (lawsKept_of_reset rfl rfl rfl rfl rfl)
  | resetPinAssert => exact kept rfl lawsKept_assertReset
  | chipSelectDeassert straps => exact kept rfl (lawsKept_deassertSelect straps)
  | loadComplete image => exact kept rfl (lawsKept_completeLoad image)
  | loadFault image => exact kept rfl (lawsKept_faultLoad image)
  | frameStart => exact kept rfl lawsKept_takeFrameStart
  | byteEvent b => exact kept rfl (lawsKept_takeByte b)
  | frameEnd => exact kept rfl lawsKept_takeFrameEnd
  | frameJudgement => exact kept rfl lawsKept_judgeHeld
  | clearCounters => exact kept rfl lawsKept_clearCounters
  | resetPinRelease straps => exact steady rfl (h.after_releaseReset straps)
  | ppsEdge edge => exact steady rfl (h.after_takeEdge edge)
  | timeOfDayMessage chars => exact steady rfl (h.after_endTod chars)
  | localSecondBoundary => exact steady rfl (h.after_atMoment (·.after_reachBoundary))
  | slotTimeReached => exact steady rfl (h.after_atMoment (·.after_reachSlot))
  | holdoverEntry => exact steady rfl (h.after_atMoment (·.after_setClock _))
  | holdoverLimitExpiry => exact steady rfl (h.after_atMoment (·.after_expireHoldover))
  | stallExpiry n => exact steady rfl (h.after_atMoment (·.after_stallStream n))
  | closeDeadline tag => exact steady rfl (h.after_atMoment (·.after_passClose tag))
  | streamResolution => exact steady rfl h.after_resolveNext
  | closeCompletion => exact steady rfl h.after_completeClose
  | gatheringDeadline tag => exact steady rfl (h.after_atMoment (·.after_passGather tag))
  | shareExpiry tag => exact steady rfl (h.after_atMoment (·.after_passShare tag))
  | snapshotByteTaken => exact steady rfl h.after_takeSnapshotByte
  | deliveryEnd => exact steady rfl h.after_endDelivery
  | markPulseEnd => exact steady rfl (h.after_atMoment (·.after_lowerMark))
  | claimStart => exact steady rfl h.after_startClaim
  | claimResolved line => exact steady rfl (h.after_resolveClaim line)
  | foreignClaimResolved => exact steady rfl h.after_foreignClaim
  | deferIdleExpiry => exact steady rfl h.after_deferIdle
  | transmissionComplete => exact steady rfl h.after_completeSend
  | collision => exact steady rfl h.after_findMismatch
  | shareHeader bytes => exact steady rfl (h.after_takeHeader bytes)
  | linkFrameEnd key bytes => exact steady rfl (h.after_endLinkFrame key bytes)
  | silenceExpiry peer => exact steady rfl (h.after_atMoment (·.after_silencePeer peer))
  | chipSelectAssert => exact steady rfl h.after_assertSelect
  | readStatus => exact steady rfl (h.after_plainCommand (h.after_answer _))
  | readRoster => exact steady rfl (h.after_plainCommand (h.after_answer _))
  | readStream args => exact steady rfl (h.after_argumentCommand _ _ h.after_reportStream)
  | readCounters => exact steady rfl (h.after_plainCommand (h.after_answer _))
  | readLastDrop => exact steady rfl (h.after_plainCommand (h.after_answer _))
  | readResetCause =>
    exact steady rfl (h.after_plainCommand h.after_reportCause)
  | setWait args =>
    exact steady rfl (h.after_argumentCommand _ _ fun _ => (h.after_setTable _).after_answer _)
  | enableStream args =>
    exact steady rfl (h.after_argumentCommand _ _ (h.after_setPendingMember true))
  | disableStream args =>
    exact steady rfl (h.after_argumentCommand _ _ (h.after_setPendingMember false))
  | resumeClock => exact steady rfl (h.after_plainCommand h.after_resumeClock)
  | ackAttention args =>
    exact steady rfl (h.after_argumentCommand _ _ fun _ => (h.after_setPort _).after_answer _)
  | reload => exact steady rfl (h.after_plainCommand ((h.after_setPort _).after_answer _))
  | unknownCommand code =>
    exact steady rfl (h.after_plainCommand (h.after_refuseCommand codeUnknown))
  | linkIdleJudged => exact steady rfl h.after_judgeIdle

/-- Every step keeps the three laws: its command does, and a step without a command is steady. -/
theorem step_lawsKept (ht : step s = .next t) : LawsKept s t := by
  cases hp : s.pending with
  | nil =>
    rw [step_nil hp] at ht
    cases ht
    exact (Steady.refl s).after_tick.lawsKept
  | cons c rest =>
    have hc : exec c (s.setPending rest) = .next t := by simpa only [step, hp] using ht
    have h := exec_lawsKept c hc
    exact ⟨h.ring, h.buffer, h.counter⟩

/-- Settles O7. -/
theorem stepKeepsTheRingBufferAndCounterLaws : Obligations.StepKeepsTheRingBufferAndCounterLaws := by
  unfold Obligations.StepKeepsTheRingBufferAndCounterLaws
  exact ⟨fun s t hs ht => (step_lawsKept ht).ring hs,
    fun s t hm hs ht => (step_lawsKept ht).buffer hm hs,
    fun s t hs ht => (step_lawsKept ht).counter hs⟩

end Sys2Proof.Machine

/-! The outcome of a command by its operands, and the three expiries: a stream's stall, the deadline of
a queued share and a peer's silence (R53, R120, R135, R138). -/

namespace Sys2Proof.Machine

open Sys2Proof

variable {s t : State}

/-! ## The outcome of a command -/

/-- Every command is its effect, performed where its operands are well-formed. -/
theorem exec_performs (c : Instr) : ∃ effect : State → State, ∀ s, exec c s = perform c effect s := by
  cases c <;> exact ⟨_, fun _ => rfl⟩

/-- Settles O3. -/
theorem commandsCompleteOnWellFormedOperands :
    Obligations.CommandsCompleteOnWellFormedOperands := by
  unfold Obligations.CommandsCompleteOnWellFormedOperands
  intro c s
  obtain ⟨effect, he⟩ := exec_performs c
  exact ⟨fun h => ⟨effect s, (he s).trans (perform_next effect h)⟩,
    fun h => (he s).trans (perform_fault effect h)⟩

/-- A time-driven command whose event can come is its event at the event's moment. -/
theorem exec_timed {c : Instr} {due : State → Option Nat} {event : State → State} {d : Nat}
    (he : exec c s = perform c (atMoment due event) s) (hw : c.wellFormed = true)
    (hd : due s = some d) (hc : CanArrive d s) : exec c s = .next (event (momentOf d s)) := by
  rw [he, perform_next _ hw, atMoment_of_canArrive hd hc]

/-! ## The moment of an expiry -/

@[simp] theorem momentOf_loader (d : Nat) : (momentOf d s).loader = s.loader := by
  unfold momentOf; split <;> rfl
@[simp] theorem momentOf_table (d : Nat) : (momentOf d s).table = s.table := by
  unfold momentOf; split <;> rfl
@[simp] theorem momentOf_link (d : Nat) : (momentOf d s).link = s.link := by
  unfold momentOf; split <;> rfl
@[simp] theorem momentOf_monitors (d : Nat) : (momentOf d s).monitors = s.monitors := by
  unfold momentOf; split <;> rfl
@[simp] theorem momentOf_count (d : Nat) (c : Counter) : (momentOf d s).count c = s.count c := by
  unfold momentOf; split <;> rfl

theorem momentOf_health (d : Nat) :
    (momentOf d s).streams.map (·.health) = s.streams.map (·.health) := by
  unfold momentOf
  split
  · rfl
  · rw [elapse_streams, List.map_map]
    rfl

theorem momentOf_peerState (d : Nat) (i : Station) :
    (momentOf d s).gather.roster[i].state = s.gather.roster[i].state := by
  unfold momentOf
  split
  · rfl
  · simp [elapse_roster, Peer.advance]

/-! ## The stall of a stream (R53) -/

theorem stallIn_live {st : Stream} {a : Nat} (hh : st.health = .live) (ha : st.age = some a) :
    stallIn st = some (12000000 - a) := by
  simp [stallIn, hh, ha]

theorem exec_stallExpiry {n a : Nat} {st : Stream} (hn : n < 48) (hst : s.streams[n]? = some st)
    (hh : st.health = .live) (ha : st.age = some a) (hc : CanArrive (12000000 - a) s) :
    exec (.stallExpiry n) s = .next (stallStream n (momentOf (12000000 - a) s)) := by
  have hd : streamStallIn n s = some (12000000 - a) := by
    rw [streamStallIn, hst]
    exact stallIn_live hh ha
  exact exec_timed rfl (by simpa [Instr.wellFormed] using hn) hd hc

theorem examineFor_health (n : Nat) (s : State) :
    (examineFor n s).streams.map (·.health) = s.streams.map (·.health) := by
  have h := congrArg (List.map (·.2.2.1)) (examineFor_admission (c := .leap) (by decide) n s).1
  rw [List.map_map, List.map_map] at h
  exact h

/-- A stall changes the health of its stream and of no other. -/
theorem stallStream_health (n : Nat) (s : State) :
    (stallStream n s).streams.map (·.health) =
      (s.streams.map (·.health)).modify n (fun _ => .stalled) := by
  rw [stallStream, examineFor_health]
  refine List.ext_getElem? fun k => ?_
  simp only [State.setStreams_streams, updateStream, List.getElem?_map, List.getElem?_modify]
  split <;> simp [Function.comp_def]

/-! ## The deadline of a queued share (R120) -/

theorem exec_shareExpiry {tag : Tag} {q : QueuedShare} (htag : tag.wellFormed = true)
    (hq : s.link.queue.find? (fun e => e.tag == tag) = some q) (hp : q.passed = false)
    (hc : CanArrive (s.clock.now.until_ q.deadline) s) :
    exec (.shareExpiry tag) s = .next (passShare tag (momentOf (s.clock.now.until_ q.deadline) s)) := by
  have hd : shareIn tag s = some (s.clock.now.until_ q.deadline) := by
    simp [shareIn, hq, deadlineIn, hp]
  exact exec_timed rfl htag hd hc

/-! ## The silence of a peer (R135, R138) -/

theorem exec_silenceExpiry {i : Station} {a : Nat} (hp : s.gather.roster[i].state = .present)
    (ha : s.gather.roster[i].silence = some a)
    (hc : CanArrive (s.loader.shared.silenceLimit * 6000 - a) s) :
    exec (.silenceExpiry i) s =
      .next (silencePeer i (momentOf (s.loader.shared.silenceLimit * 6000 - a) s)) := by
  have hd : peerSilenceIn i s = some (s.loader.shared.silenceLimit * 6000 - a) := by
    unfold peerSilenceIn silenceIn
    rw [hp, ha]
    rfl
  exact exec_timed rfl rfl hd hc

/-- A record that a leaving leaves GATHERING is one that was. -/
theorem leaveGathering_gathering {r q : Record} (hq : q ∈ (leaveGathering r s).table.records)
    (hg : q.state = .gathering) : q ∈ s.table.records := by
  unfold leaveGathering at hq
  split at hq
  · rw [show ∀ u : State, (takeRecord u).table = u.table from
      fun u => takeRecord_frame (s := u) .table (by decide), updateRecord_eq] at hq
    obtain ⟨p, hp, rfl⟩ := List.mem_map.1 hq
    split at hg
    · cases hg
    · next hn => rw [if_neg hn]; exact hp
  · rw [reportSkip, State.setAssembler_table, bump_table, freeRecords_eq] at hq
    exact (List.mem_filter.1 hq).1

/-- A record that a judgement leaves GATHERING is one that was. -/
theorem judge_gathering {q : Record} (hq : q ∈ (judge s).table.records)
    (hg : q.state = .gathering) : q ∈ s.table.records := by
  unfold judge at hq
  generalize s.table.records.length = n at hq
  induction n generalizing s with
  | zero => exact hq
  | succ n ih =>
    unfold judgeUpTo at hq
    split at hq
    · exact leaveGathering_gathering (ih hq) hg
    · exact hq

theorem judge_roster : (judge s).gather.roster = s.gather.roster :=
  judge_frame (s := s) .roster (by decide)

/-- A peer that fell silent: its state, the count, and what no GATHERING record expects any more. -/
theorem silencePeer_effect {i : Station} (hp : s.gather.roster[i].state = .present) :
    (silencePeer i s).gather.roster[i].state = .silent ∧
      (silencePeer i s).count .peerSilent = min (s.count .peerSilent + 1) 65535 ∧
      (∀ q ∈ (silencePeer i s).table.records, q.state = .gathering → i ∉ q.expected.getD []) ∧
      ∀ j, j ≠ i → (silencePeer i s).gather.roster[j].state = s.gather.roster[j].state := by
  have hl := leavePresent_leaves .silent hp
  rw [silencePeer, hl]
  refine ⟨?_, ?_, fun q hq hg => ?_, fun j hj => ?_⟩
  · simp only [judge_roster, bump_gather, Fin.getElem_fin, Vector.getElem_set_self]
  · rw [judge_count (by decide), count_bump_same]
    rfl
  · have hq := judge_gathering hq hg
    rw [bump_table] at hq
    obtain ⟨p, -, rfl⟩ := List.mem_map.1 hq
    split
    · cases p.expected <;> simp
    · next hn => rw [if_neg hn] at hg; exact absurd hg hn
  · have hij : i.val ≠ j.val := fun h => hj (Fin.ext h.symm)
    simp only [judge_roster, bump_gather, Fin.getElem_fin, Vector.getElem_set_ne _ _ hij]

/-- Settles O33, one expiry after the other. -/
theorem streamsSharesAndPeersExpire : Obligations.StreamsSharesAndPeersExpire := by
  unfold Obligations.StreamsSharesAndPeersExpire
  refine ⟨fun s n a st hn hst hh ha hc => ?_, fun s m tag q htag hq hp hc hm => ?_,
    fun s m i a hp ha hc hm => ?_⟩
  · refine ⟨_, exec_stallExpiry hn hst hh ha hc, ?_, fun k hk => ?_⟩
    · rw [← List.getElem?_map, stallStream_health, momentOf_health]
      simp [hst]
    · rw [← List.getElem?_map, stallStream_health, momentOf_health]
      simp [Ne.symm hk]
  · rw [exec_shareExpiry htag hq hp hc, ← hm]
    have hpass := passShare_passes tag m
    have hlink : m.link = s.link := by rw [hm, momentOf_link]
    obtain ⟨hout, hin⟩ := hpass
    refine ⟨⟨_, rfl, passShare_passes tag m⟩, fun h => ?_, fun f phase htx hf => ?_⟩
    · rw [hout (by rwa [hlink]), hlink]
    · rw [hin f phase (by rwa [hlink]) hf, hlink]
  · have hstate (j : Station) : m.gather.roster[j].state = s.gather.roster[j].state := by
      rw [hm, momentOf_peerState]
    have hpm : m.gather.roster[i].state = .present := (hstate i).trans hp
    have hbefore : m.count .peerSilent = s.count .peerSilent := by rw [hm, momentOf_count]
    obtain ⟨hsilent, hcount, hexpected, hothers⟩ := silencePeer_effect hpm
    exact ⟨_, _, hm ▸ exec_silenceExpiry hp ha hc, leavePresent_leaves _ hpm, judge_judgement _,
      hsilent, hbefore ▸ hcount, hexpected, fun j hj => (hothers j hj).trans (hstate j)⟩

end Sys2Proof.Machine

/-! The completion of a close (R78 to R80, R109, R120, R147): how the records stand in the slot table,
what a judgement does to them, and that a completion is the one of R78, so that an examination is the
one of R74. -/

namespace Sys2Proof.Machine

open Sys2Proof

variable {s t : State} {r q : Record} {rs before after : List Record}

/-! ## The order of the records (R65, R79) -/

theorem older_iff {a b : Tag} : a.older b = true ↔ a.sec < b.sec ∨ a.sec = b.sec ∧ a.k < b.k := by
  simp [Tag.older]

theorem older_irrefl (a : Tag) : ¬a.older a = true := by
  rw [older_iff]; omega

theorem older_trans {a b c : Tag} (hab : a.older b = true) (hbc : b.older c = true) :
    a.older c = true := by
  rw [older_iff] at *; omega

theorem ne_of_older {a b : Tag} (h : a.older b = true) : a ≠ b := fun he =>
  older_irrefl b (he ▸ h)

theorem inOrder_iff : inOrder rs = true ↔ rs.Pairwise
    (fun r q => r.tag.older q.tag = true ∧ r.state.rank ≤ q.state.rank) := by
  induction rs with
  | nil => simp [inOrder]
  | cons r rs ih => simp [inOrder, ih, List.pairwise_cons]

/-- The order around one record. -/
theorem inOrder_split : inOrder (before ++ r :: after) = true ↔
    inOrder (before ++ after) = true ∧
    (∀ a ∈ before, a.tag.older r.tag = true ∧ a.state.rank ≤ r.state.rank) ∧
    ∀ b ∈ after, r.tag.older b.tag = true ∧ r.state.rank ≤ b.state.rank := by
  simp only [inOrder_iff, List.pairwise_append, List.pairwise_cons, List.forall_mem_cons]
  constructor
  · rintro ⟨hb, ⟨hr, ha⟩, hba⟩
    exact ⟨⟨hb, ha, fun a h => (hba a h).2⟩, fun a h => (hba a h).1, hr⟩
  · rintro ⟨⟨hb, ha, hba⟩, hbr, hr⟩
    exact ⟨hb, ⟨hr, ha⟩, fun a h => ⟨hbr a h, hba a h⟩⟩

/-- In an ordered table no other record has the tag of a record. -/
theorem tag_ne_of_inOrder (h : inOrder (before ++ r :: after) = true) :
    (∀ a ∈ before, a.tag ≠ r.tag) ∧ ∀ b ∈ after, b.tag ≠ r.tag := by
  obtain ⟨-, hb, ha⟩ := inOrder_split.1 h
  exact ⟨fun a h => ne_of_older (hb a h).1, fun b h => (ne_of_older (ha b h).1).symm⟩

/-- The record of a tag changed, in an ordered table. -/
theorem map_tag_split (h : inOrder (before ++ r :: after) = true) (f : Record → Record) :
    (before ++ r :: after).map (fun q => if q.tag = r.tag then f q else q) =
      before ++ f r :: after := by
  obtain ⟨hb, ha⟩ := tag_ne_of_inOrder h
  have hkeep : ∀ l : List Record, (∀ q ∈ l, q.tag ≠ r.tag) →
      l.map (fun q => if q.tag = r.tag then f q else q) = l := fun l hl =>
    (List.map_congr_left fun q hq => if_neg (hl q hq)).trans (List.map_id' l)
  rw [List.map_append, List.map_cons, hkeep _ hb, hkeep _ ha, if_pos rfl]

/-- The record of a tag taken out of an ordered table. -/
theorem filter_tag_split (h : inOrder (before ++ r :: after) = true) :
    (before ++ r :: after).filter (fun q => !(q.tag == r.tag)) = before ++ after := by
  obtain ⟨hb, ha⟩ := tag_ne_of_inOrder h
  rw [List.filter_append, List.filter_cons_of_neg (by simp),
    List.filter_eq_self.2 fun q hq => by simpa using hb q hq,
    List.filter_eq_self.2 fun q hq => by simpa using ha q hq]

/-! ## The records a judgement takes (R79, R80) -/

/-- The records whose close has not completed. -/
def Record.late (r : Record) : Bool := decide (2 ≤ r.state.rank)

theorem late_iff : r.late = true ↔ r.state = .opened ∨ r.state = .closing := by
  cases h : r.state <;> simp [Record.late, RecordState.rank, h]

theorem rank_zero_iff : r.state.rank = 0 ↔ r.state = .draining := by
  cases h : r.state <;> simp [RecordState.rank]

/-- The slot table's law but for the sequencer (R22, R65, R79, R85, R154, R156). -/
def HeldLaw (s : State) : Prop :=
  s.table.records.length ≤ 64 ∧ drainingCount s.table.records ≤ 16 ∧
  inOrder s.table.records = true ∧
  (∀ r ∈ s.table.records, newerThanOpened s.clock.newest r.tag = false) ∧
  ∀ t ∈ tagInDelivery s.assembler.state,
    s.table.records.head?.map (fun r => (r.tag, r.state)) = some (t, RecordState.draining)

theorem tableLaw_iff : TableLaw s ↔ HeldLaw s ∧
    s.table.records.countP (fun r => r.state == .closing) =
      if s.table.sequencer = .closing then 1 else 0 := by
  unfold TableLaw HeldLaw
  simp only [Config.maxRecords, Config.maxDraining]
  tauto

theorem HeldLaw.ordered (h : HeldLaw s) : inOrder s.table.records = true := by
  obtain ⟨-, -, ho, -⟩ := h
  exact ho

/-- The law reads the records, the newest tag opened and the assembler's state. -/
theorem HeldLaw.congr (h : HeldLaw s) (hr : t.table.records = s.table.records)
    (hn : t.clock.newest = s.clock.newest) (ha : t.assembler.state = s.assembler.state) :
    HeldLaw t := by
  unfold HeldLaw
  rw [hr, hn, ha]
  exact h

/-- A record outside DRAINING that takes another state outside DRAINING between its neighbours' ones keeps
the law. -/
theorem HeldLaw.replace {r' : Record} (h : HeldLaw s) (hs : s.table.records = before ++ r :: after)
    (ht : t.table.records = before ++ r' :: after) (hn : t.clock.newest = s.clock.newest)
    (ha : t.assembler.state = s.assembler.state) (htag : r'.tag = r.tag)
    (hd : r.state ≠ .draining) (hd' : r'.state ≠ .draining)
    (hbefore : ∀ a ∈ before, a.state.rank ≤ r'.state.rank)
    (hafter : ∀ b ∈ after, r'.state.rank ≤ b.state.rank) : HeldLaw t := by
  obtain ⟨hlen, hdrain, ho, hnew, hdel⟩ := h
  rw [hs] at hlen hdrain ho hnew hdel
  obtain ⟨hrest, hbr, hra⟩ := inOrder_split.1 ho
  unfold HeldLaw
  rw [ht, hn, ha]
  refine ⟨by simpa using hlen, ?_, ?_, fun q hq => ?_, fun t ht => ?_⟩
  · simp only [drainingCount, List.countP_append, List.countP_cons, beq_iff_eq, if_neg hd] at hdrain
    simpa only [drainingCount, List.countP_append, List.countP_cons, beq_iff_eq, if_neg hd']
      using hdrain
  · exact inOrder_split.2 ⟨hrest, fun a h => ⟨htag ▸ (hbr a h).1, hbefore a h⟩,
      fun b h => ⟨htag ▸ (hra b h).1, hafter b h⟩⟩
  · rw [List.mem_append, List.mem_cons] at hq
    rcases hq with hq | rfl | hq
    · exact hnew q (by simp [hq])
    · exact htag ▸ hnew r (by simp)
    · exact hnew q (by simp [hq])
  · have hhead := hdel t ht
    cases before with
    | nil => exact absurd (by simpa using hhead : r.tag = t ∧ r.state = .draining).2 hd
    | cons a before => simpa using hhead

/-- The record that leaves GATHERING stands behind the DRAINING ones only. -/
theorem nextToLeave_split (h : nextToLeave rs = some r) : ∃ before after,
    rs = before ++ r :: after ∧ (∀ a ∈ before, a.state = .draining) ∧ r.state = .gathering ∧
      r.complete = true := by
  obtain ⟨hf, hg, hc⟩ := nextToLeave_some h
  obtain ⟨-, before, after, hrs, hb⟩ := List.find?_eq_some_iff_append.1 hf
  exact ⟨before, after, hrs, fun a ha => by simpa using hb a ha, hg, hc⟩

@[simp] theorem takeRecord_table : (takeRecord s).table = s.table :=
  takeRecord_frame (s := s) .table (by decide)

@[simp] theorem takeRecord_clock : (takeRecord s).clock = s.clock :=
  takeRecord_frame (s := s) .clock (by decide)

/-- The records after one has left GATHERING (R79, R80). -/
theorem leaveGathering_records (hs : s.table.records = before ++ r :: after)
    (ho : inOrder s.table.records = true) :
    (leaveGathering r s).table.records =
      if drainingCount s.table.records < 16 then before ++ { r with state := .draining } :: after
      else before ++ after := by
  rw [hs] at ho
  unfold leaveGathering
  split
  · rw [takeRecord_table, updateRecord_eq, hs]
    exact map_tag_split ho _
  · rw [reportSkip, State.setAssembler_table, bump_table, freeRecords_eq, hs]
    exact filter_tag_split ho

/-- The assembler's search for a record keeps the law: the record it takes is the oldest one. -/
theorem HeldLaw.takeRecord (h : HeldLaw s) : HeldLaw (takeRecord s) := by
  rcases takeRecord_cases s with he | ⟨r, -, hf, he⟩
  · rwa [he]
  · obtain ⟨hlen, hd, ho, hnew, -⟩ := h
    have hstate : (Machine.takeRecord s).assembler.state = .delivering (compositionOf s r) 0 := by
      have hb (c : Counter) : ∀ (n : Nat) (s : State),
          (bumpTimes c n s).assembler = s.assembler := by
        intro n
        induction n with
        | zero => exact fun _ => rfl
        | succ n ih => exact fun s => by rw [bumpTimes, ih, bump_assembler]
      rw [he, compose, hb]
      rfl
    have hhead : s.table.records.head? = some r := by
      obtain ⟨hr, before, after, hrs, hb⟩ := List.find?_eq_some_iff_append.1 hf
      cases before with
      | nil => rw [hrs]; rfl
      | cons a before =>
        rw [hrs, List.cons_append, inOrder_iff, List.pairwise_cons] at ho
        obtain ⟨-, hle⟩ := ho.1 r (by simp)
        have hr0 : r.state.rank = 0 := rank_zero_iff.2 (by simpa using hr)
        have ha := rank_zero_iff.1 (Nat.le_zero.1 (hr0 ▸ hle))
        exact absurd ha (by simpa using hb a (.head _))
    have hr : r.state = .draining := by simpa using List.find?_some hf
    unfold HeldLaw
    rw [takeRecord_table, takeRecord_clock, hstate]
    refine ⟨hlen, hd, ho, hnew, fun t ht => ?_⟩
    cases ht
    rw [hhead]
    simp [compositionOf, composeRecord, hr]

/-- A record that leaves GATHERING keeps the law. -/
theorem HeldLaw.leaveGathering (h : HeldLaw s) (hn : nextToLeave s.table.records = some r) :
    HeldLaw (leaveGathering r s) := by
  obtain ⟨before, after, hs, hb, hg, -⟩ := nextToLeave_split hn
  obtain ⟨hlen, hd, ho, hnew, hdel⟩ := h
  have hrec := leaveGathering_records hs ho
  -- The record in delivery is DRAINING, and so stands among those before the one that leaves.
  have hhead : ∀ t ∈ tagInDelivery s.assembler.state, ∀ l : List Record,
      (before ++ l).head?.map (fun r => (r.tag, r.state)) = some (t, RecordState.draining) := by
    intro t ht l
    have := hdel t ht
    rw [hs] at this
    cases before with
    | nil => simp [hg] at this
    | cons a before => simpa using this
  have ho' := ho
  rw [hs, inOrder_split] at ho'
  obtain ⟨hrest, hbefore, hafter⟩ := ho'
  unfold Machine.leaveGathering at hrec ⊢
  split
  · next hroom =>
    rw [if_pos hroom, if_pos hroom, takeRecord_table] at hrec
    refine HeldLaw.takeRecord ⟨?_, ?_, ?_, ?_, ?_⟩
    · rw [hrec]; rw [hs] at hlen; simpa using hlen
    · rw [hrec]
      simp only [hs, drainingCount, Config.maxDraining, List.countP_append, List.countP_cons] at hroom ⊢
      simp only [hg] at hroom
      simp at hroom ⊢
      omega
    · rw [hrec, inOrder_split]
      refine ⟨hrest, fun a ha => ⟨(hbefore a ha).1, ?_⟩, fun b hb => ⟨(hafter b hb).1, Nat.zero_le _⟩⟩
      rw [hb a ha]
    · rw [hrec]
      intro q hq
      rw [hs] at hnew
      rcases List.mem_append.1 hq with hq | hq
      · exact hnew q (by simp [hq])
      · rcases List.mem_cons.1 hq with rfl | hq
        · exact hnew r (by simp)
        · exact hnew q (by simp [hq])
    · intro t ht
      rw [hrec]
      exact hhead t ht _
  · next hroom =>
    rw [if_neg hroom, if_neg hroom] at hrec
    have hsub : (before ++ after).Sublist s.table.records := by rw [hs]; simp
    refine ⟨?_, ?_, ?_, ?_, ?_⟩
    · rw [hrec]; exact hsub.length_le.trans hlen
    · rw [hrec]; exact hsub.countP_le.trans hd
    · rw [hrec]; exact hrest
    · rw [hrec]
      simp only [reportSkip, State.setAssembler_clock, bump_clock]
      exact fun q hq => hnew q (hsub.subset hq)
    · rw [hrec]
      intro t ht
      simp only [reportSkip, State.setAssembler_assembler, bump_assembler] at ht
      exact hhead t ht _

/-- A record that leaves GATHERING is none whose close has not completed. -/
theorem leaveGathering_late (h : HeldLaw s) (hn : nextToLeave s.table.records = some r) :
    (leaveGathering r s).table.records.filter Record.late = s.table.records.filter Record.late := by
  obtain ⟨before, after, hs, -, hg, -⟩ := nextToLeave_split hn
  rw [leaveGathering_records hs h.ordered]
  split <;> simp [hs, Record.late, RecordState.rank, hg]

theorem judgeUpTo_of_none (n : Nat) (h : nextToLeave s.table.records = none) : judgeUpTo n s = s := by
  cases n with
  | zero => rfl
  | succ n => simp [judgeUpTo, h]

/-- A judgement in which one record leaves and then none may. -/
theorem judge_of_one (h : nextToLeave s.table.records = some r)
    (hnext : nextToLeave (leaveGathering r s).table.records = none) :
    judge s = leaveGathering r s := by
  have hm := List.mem_of_find?_eq_some (nextToLeave_some h).1
  obtain ⟨n, hn⟩ := Nat.exists_eq_succ_of_ne_zero (List.length_pos_of_mem hm).ne'
  rw [judge, hn, judgeUpTo, h]
  exact judgeUpTo_of_none n hnext

/-- A judgement keeps the law, and every record whose close has not completed. -/
theorem HeldLaw.judge (h : HeldLaw s) : HeldLaw (judge s) ∧
    (judge s).table.records.filter Record.late = s.table.records.filter Record.late := by
  unfold Machine.judge
  generalize s.table.records.length = n
  induction n generalizing s with
  | zero => exact ⟨h, rfl⟩
  | succ n ih =>
    unfold judgeUpTo
    split
    · next r hr =>
      obtain ⟨hl, hf⟩ := ih (h.leaveGathering hr)
      exact ⟨hl, hf.trans (leaveGathering_late h hr)⟩
    · exact ⟨h, rfl⟩

/-- A record stays behind one that is GATHERING and not complete, and so does that one (R79). -/
theorem judge_stays (h : HeldLaw s) (hr : r ∈ s.table.records) (hq : q ∈ s.table.records)
    (hg : q.state = .gathering) (hc : q.complete = false)
    (hqr : q = r ∨ q.tag.older r.tag = true) : r ∈ (judge s).table.records := by
  unfold judge
  generalize s.table.records.length = n
  induction n generalizing s with
  | zero => exact hr
  | succ n ih =>
    unfold judgeUpTo
    split
    · next p hp =>
      obtain ⟨before, after, hs, hb, -, hpc⟩ := nextToLeave_split hp
      have ho := h.ordered
      rw [hs, inOrder_split] at ho
      obtain ⟨-, hbefore, hafter⟩ := ho
      have hqafter : q ∈ after := by
        rw [hs, List.mem_append, List.mem_cons] at hq
        rcases hq with hq | rfl | hq
        · rw [hb q hq] at hg; cases hg
        · rw [hpc] at hc; cases hc
        · exact hq
      have hpq := (hafter q hqafter).1
      have hrafter : r ∈ after := by
        rcases hqr with rfl | hqr
        · exact hqafter
        rw [hs, List.mem_append, List.mem_cons] at hr
        rcases hr with hr | rfl | hr
        · exact absurd (older_trans ((older_trans hpq hqr)) (hbefore r hr).1) (older_irrefl _)
        · exact absurd (older_trans hpq hqr) (older_irrefl _)
        · exact hr
      have hsub : ∀ x ∈ after, x ∈ (leaveGathering p s).table.records := by
        intro x hx
        rw [leaveGathering_records hs h.ordered]
        split <;> simp [hx]
      exact ih (h.leaveGathering hp) (hsub r hrafter) (hsub q hqafter)
    · exact hr

/-- A judgement counts skips and conflicts and nothing else (R80, R164). -/
theorem judge_count_other {c : Counter} (hs : c ≠ .skipped) (hc : c ≠ .codeConflict) :
    (judge s).count c = s.count c := by
  have htake (s : State) : (takeRecord s).count c = s.count c := by
    rcases takeRecord_cases s with h | ⟨r, -, -, h⟩
    · rw [h]
    · rw [h, compose]
      exact count_bumpTimes_other hc _ _
  unfold judge
  generalize s.table.records.length = n
  induction n generalizing s with
  | zero => rfl
  | succ n ih =>
    unfold judgeUpTo
    split
    · rw [ih]
      unfold leaveGathering
      split
      · exact htake _
      · exact count_bump_other hs
    · rfl

/-! ## The share handed over (R109, R120) -/

variable {share : QueuedShare}

/-- The queue after a hand-over. -/
theorem handOver_queue (share : QueuedShare) (s : State) : (handOver share s).link.queue =
    if share.passed = true then s.link.queue
    else if s.link.queue.length < 64 then s.link.queue ++ [share]
    else s.link.queue.eraseP (fun e => some e.tag ≠ s.link.sharesOut) ++ [share] := by
  unfold handOver enqueueShare
  split_ifs <;> simp

/-- A hand-over counts the share's expiry or a displacement, and nothing else. -/
theorem handOver_counts (share : QueuedShare) (s : State) :
    (handOver share s).count .shareExpired = (if share.passed = true
      then min (s.count .shareExpired + 1) 65535 else s.count .shareExpired) ∧
    (handOver share s).count .shareDisplaced =
      (if share.passed = true ∨ s.link.queue.length < 64 then s.count .shareDisplaced
       else min (s.count .shareDisplaced + 1) 65535) ∧
    ∀ c, c ≠ .shareExpired → c ≠ .shareDisplaced → (handOver share s).count c = s.count c := by
  unfold handOver enqueueShare
  by_cases hp : share.passed = true
  · simp only [hp, if_true, true_or]
    exact ⟨count_bump_same _, count_bump_other (by decide), fun c hc _ => count_bump_other hc⟩
  · by_cases hl : s.link.queue.length < Config.maxQueue
    · simp only [hp, hl, if_true, or_true]
      exact ⟨rfl, rfl, fun _ _ _ => rfl⟩
    · simp only [hp, hl, if_false]
      exact ⟨count_bump_other (by decide), count_bump_same _, fun c _ hc => count_bump_other hc⟩

theorem sharesOut_eq_some {tag : Tag} : s.link.sharesOut = some tag ↔
    ∃ f phase, s.link.tx = some ⟨.share f, phase⟩ ∧ f.tag = tag := by
  unfold Link.sharesOut
  split
  · next f phase htx =>
    refine ⟨fun h => ⟨f, phase, htx, Option.some.inj h⟩, fun ⟨f', phase', htx', h⟩ => ?_⟩
    rw [htx] at htx'
    cases htx'
    rw [h]
  · next hn =>
    exact ⟨nofun, fun ⟨f, phase, htx, _⟩ => absurd htx (hn f phase)⟩

/-- The queue's order (R109). -/
theorem QueueLaw.pairwise (h : QueueLaw s) :
    s.link.queue.Pairwise (fun a b => a.tag.older b.tag = true) := by
  obtain ⟨-, hp, -⟩ := h
  exact hp

/-- From a full queue the oldest share that is not in transmission is displaced (R109). -/
theorem eraseP_sharesOut {e : QueuedShare} {rest : List QueuedShare} (out : Option Tag)
    (hp : (e :: rest).Pairwise (fun a b => a.tag.older b.tag = true)) :
    (e :: rest).eraseP (fun x => some x.tag ≠ out) = if out = some e.tag then e :: rest.tail else rest := by
  split
  · next he =>
    rw [List.eraseP_cons_of_neg (by simp [he])]
    cases rest with
    | nil => rfl
    | cons f rest =>
      have hne : f.tag ≠ e.tag := (ne_of_older ((List.pairwise_cons.1 hp).1 f (.head _))).symm
      rw [List.eraseP_cons_of_pos (by simp [he, hne])]
      rfl
  · next he =>
    rw [List.eraseP_cons_of_pos (by simpa using Ne.symm he)]

theorem handOver_queue_sublist (share : QueuedShare) (s : State) :
    (handOver share s).link.queue.Sublist (s.link.queue ++ [share]) := by
  rw [handOver_queue]
  split_ifs
  · exact List.sublist_append_left _ _
  · exact .refl _
  · exact (List.eraseP_sublist).append_right _

theorem handOver_queue_length (h : QueueLaw s) (share : QueuedShare) :
    (handOver share s).link.queue.length ≤ 64 := by
  have hp := h.pairwise
  obtain ⟨hlen, -⟩ := h
  simp only [Config.maxQueue] at hlen
  rw [handOver_queue]
  split_ifs with _ hroom
  · exact hlen
  · simp only [List.length_append, List.length_cons, List.length_nil]; omega
  · cases hq : s.link.queue with
    | nil => simp [hq] at hroom
    | cons e rest =>
      rw [hq] at hlen hp
      rw [eraseP_sharesOut _ hp]
      split
      · cases rest with
        | nil => simp
        | cons f rest => simpa using hlen
      · simpa using hlen

/-! ## The completion of a close (R78) -/

/-- The record of a completing close once its expected set is captured and it is GATHERING (R78, R147). -/
def Record.gathered (r : Record) (expected : List Station) : Record :=
  { r with expected := some expected, state := .gathering }

/-- The node of a completing close with the share handed over and its record GATHERING, before the
judgement (R78 steps 1 to 3). -/
def closeHanded (r : Record) (s : State) : State :=
  let s1 := s.setMonitors (s.monitors.map Monitor.countDown)
  let s2 := updateRecord r.tag (fun q => { q with expected := some (presentPeers s1) }) s1
  updateRecord r.tag (fun q => { q with state := .gathering }) (handOver (outgoingShare s2 r) s2)

/-- A completion is the judgement of that node, and the sequencer IDLE. -/
theorem finishClose_eq (r : Record) (s : State) : finishClose r s = (judge (closeHanded r s)).setTable
    { (judge (closeHanded r s)).table with sequencer := .idle } := rfl

theorem closeHanded_frame (r : Record) :
    ChangesOnly [.monitors, .table, .link, .counters, .causes] s (closeHanded r s) := by
  unfold closeHanded
  dsimp only
  exact (((changes_setMonitors _).comp (updateRecord_frame _ _) (qs := [.monitors, .table])).comp
    (handOver_frame _) (qs := [.monitors, .table, .link, .counters, .causes])).comp
    (updateRecord_frame _ _)

/-- The share of a record as it is handed over, its deadline's passing with it (R76, R78). -/
theorem closeHanded_queue (r : Record) (s : State) : (closeHanded r s).link.queue =
    (handOver ⟨r.tag, outgoingCells s.streams s.gather.mem r, r.marks, r.gatherDeadline,
      r.gatherPassed⟩ s).link.queue := by
  rw [handOver_queue]
  exact handOver_queue _ _

/-- What is counted up to the judgement: the share's expiry or a displacement. -/
theorem closeHanded_counts (r : Record) (s : State) :
    (closeHanded r s).count .shareExpired = (if r.gatherPassed = true
      then min (s.count .shareExpired + 1) 65535 else s.count .shareExpired) ∧
    (closeHanded r s).count .shareDisplaced =
      (if r.gatherPassed = true ∨ s.link.queue.length < 64 then s.count .shareDisplaced
       else min (s.count .shareDisplaced + 1) 65535) ∧
    ∀ c, c ≠ .shareExpired → c ≠ .shareDisplaced → (closeHanded r s).count c = s.count c :=
  handOver_counts (outgoingShare _ r) _

theorem handOver_table (share : QueuedShare) (s : State) : (handOver share s).table = s.table :=
  handOver_frame (s := s) share .table (by decide)

/-- The records of a completing close before the judgement: its own one is GATHERING. -/
theorem closeHanded_records (hs : s.table.records = before ++ r :: after)
    (ho : inOrder s.table.records = true) :
    (closeHanded r s).table.records = before ++ r.gathered (presentPeers s) :: after := by
  have hmap : (closeHanded r s).table.records = s.table.records.map
      (fun q => if q.tag = r.tag then q.gathered (presentPeers s) else q) := by
    unfold closeHanded
    simp only [updateRecord_eq, handOver_table, List.map_map]
    refine List.map_congr_left fun q _ => ?_
    by_cases hq : q.tag = r.tag
    · simp only [Function.comp_apply, if_pos hq]; rfl
    · simp only [Function.comp_apply, if_neg hq]
  rw [hs] at ho
  rw [hmap, hs, map_tag_split ho]

/-- Where the table's law holds, the record in close stands between records whose close has completed
and OPEN ones. -/
theorem closing_split (h : TableLaw s) (hr : r ∈ s.table.records) (hc : r.state = .closing) :
    ∃ before after, s.table.records = before ++ r :: after ∧ (∀ a ∈ before, a.state.rank ≤ 1) ∧
      ∀ b ∈ after, b.state = .opened := by
  obtain ⟨before, after, hs⟩ := List.append_of_mem hr
  obtain ⟨hheld, hcount⟩ := tableLaw_iff.1 h
  have ho := hheld.ordered
  rw [hs, inOrder_split] at ho
  obtain ⟨-, hbefore, hafter⟩ := ho
  have hone : (before ++ after).countP (fun q => q.state == .closing) = 0 := by
    have : s.table.records.countP (fun q => q.state == .closing) ≤ 1 := by
      rw [hcount]; split <;> omega
    rw [hs] at this
    simp only [List.countP_append, List.countP_cons, hc] at this ⊢
    simp at this
    omega
  rw [List.countP_eq_zero] at hone
  refine ⟨before, after, hs, fun a ha => ?_, fun b hb => ?_⟩
  · have hle := (hbefore a ha).2
    have hne := hone a (by simp [ha])
    cases hst : a.state <;> simp_all [RecordState.rank]
  · have hle := (hafter b hb).2
    have hne := hone b (by simp [hb])
    cases hst : b.state <;> simp_all [RecordState.rank]

/-- The law holds before the judgement of a completing close. -/
theorem closeHanded_heldLaw (h : TableLaw s) (hr : r ∈ s.table.records) (hc : r.state = .closing) :
    HeldLaw (closeHanded r s) := by
  obtain ⟨before, after, hs, hb, ha⟩ := closing_split h hr hc
  obtain ⟨hheld, -⟩ := tableLaw_iff.1 h
  refine hheld.replace hs (closeHanded_records hs hheld.ordered)
    (congrArg Clock.newest (closeHanded_frame (s := s) r .clock (by decide)))
    (congrArg Assembler.state (closeHanded_frame (s := s) r .assembler (by decide)))
    rfl (by simp [hc]) nofun hb fun b hb => ?_
  simp [ha b hb, Record.gathered, RecordState.rank]

theorem judge_link : (judge s).link = s.link := judge_frame (s := s) .link (by decide)

/-- The records of the completion that follows whose close has not completed are the OPEN ones. -/
theorem finishClose_late (h : TableLaw s) (hr : r ∈ s.table.records) (hc : r.state = .closing) :
    (finishClose r s).table.records.filter Record.late =
      s.table.records.filter (fun q => q.state == .opened) ∧
    ∀ q ∈ (finishClose r s).table.records, q.late = true →
      q ∈ s.table.records ∧ q.state = .opened ∧ r.tag.older q.tag = true := by
  obtain ⟨before, after, hs, hb, ha⟩ := closing_split h hr hc
  obtain ⟨hheld, -⟩ := tableLaw_iff.1 h
  have ho := hheld.ordered
  have hfilter : (finishClose r s).table.records.filter Record.late = after := by
    rw [finishClose_eq, State.setTable_table, (closeHanded_heldLaw h hr hc).judge.2,
      closeHanded_records hs ho, List.filter_append, List.filter_cons_of_neg (by
        simp [Record.late, Record.gathered, RecordState.rank]),
      List.filter_eq_nil_iff.2 fun a h => by simpa [Record.late] using hb a h,
      List.filter_eq_self.2 fun b h => late_iff.2 (.inl (ha b h)), List.nil_append]
  refine ⟨?_, fun q hq hl => ?_⟩
  · rw [hfilter, hs, List.filter_append, List.filter_cons_of_neg (by simp [hc]),
      List.filter_eq_nil_iff.2 fun a h => ?_, List.filter_eq_self.2 fun b h => by simp [ha b h],
      List.nil_append]
    intro he
    have := hb a h
    simp [eq_of_beq he, RecordState.rank] at this
  · have hq : q ∈ after := hfilter ▸ List.mem_filter.2 ⟨hq, hl⟩
    rw [hs, inOrder_split] at ho
    obtain ⟨-, -, hafter⟩ := ho
    exact ⟨hs ▸ by simp [hq], ha q hq, (hafter q hq).1⟩

/-- A completion keeps the table's law, and leaves the sequencer IDLE. -/
theorem finishClose_tableLaw (h : TableLaw s) (hr : r ∈ s.table.records) (hc : r.state = .closing) :
    TableLaw (finishClose r s) := by
  refine tableLaw_iff.2 ⟨(closeHanded_heldLaw h hr hc).judge.1.congr rfl rfl rfl, ?_⟩
  rw [finishClose_eq, if_neg (by simp), ← finishClose_eq, List.countP_eq_zero]
  intro q hq he
  obtain ⟨-, ho, -⟩ := (finishClose_late h hr hc).2 q hq (late_iff.2 (.inr (eq_of_beq he)))
  rw [ho] at he
  cases he

theorem finishClose_queue (r : Record) (s : State) : (finishClose r s).link.queue =
    (handOver ⟨r.tag, outgoingCells s.streams s.gather.mem r, r.marks, r.gatherDeadline,
      r.gatherPassed⟩ s).link.queue := by
  rw [finishClose_eq, State.setTable_link, judge_link, closeHanded_queue]

theorem finishClose_clock (r : Record) : (finishClose r s).clock = s.clock :=
  finishClose_frame (s := s) r .clock (by decide)

/-- A completion keeps the queue's law (R109). -/
theorem finishClose_queueLaw (h : TableLaw s) (hl : QueueLaw s) (hr : r ∈ s.table.records)
    (hc : r.state = .closing) : QueueLaw (finishClose r s) := by
  obtain ⟨⟨-, -, -, hnew, -⟩, -⟩ := tableLaw_iff.1 h
  have hlen := handOver_queue_length hl ⟨r.tag, outgoingCells s.streams s.gather.mem r, r.marks,
    r.gatherDeadline, r.gatherPassed⟩
  have hsub := handOver_queue_sublist ⟨r.tag, outgoingCells s.streams s.gather.mem r, r.marks,
    r.gatherDeadline, r.gatherPassed⟩ s
  obtain ⟨-, hpair, hqnew, hbefore⟩ := hl
  unfold QueueLaw
  rw [finishClose_queue, finishClose_clock]
  refine ⟨hlen, List.Pairwise.sublist hsub ?_, fun q hq => ?_, fun q hq p hp hrank => ?_⟩
  · rw [List.pairwise_append]
    refine ⟨hpair, List.pairwise_singleton _ _, fun a ha b hb => ?_⟩
    rw [List.mem_singleton.1 hb]
    exact hbefore a ha r hr (by simp [hc, RecordState.rank])
  · rcases List.mem_append.1 (hsub.subset hq) with hq | hq
    · exact hqnew q hq
    · rw [List.mem_singleton.1 hq]
      exact hnew r hr
  · obtain ⟨hp, -, hrp⟩ := (finishClose_late h hr hc).2 p hp (decide_eq_true hrank)
    rcases List.mem_append.1 (hsub.subset hq) with hq | hq
    · exact hbefore q hq p hp hrank
    · rw [List.mem_singleton.1 hq]
      exact hrp

/-! ### Whether the record leaves GATHERING at once (R79, R80) -/

theorem complete_eq_false_iff : r.complete = false ↔
    r.gatherPassed = false ∧ ∃ i ∈ r.expected.getD [], r.attachments[i] = .none := by
  simp [Record.complete, -Fin.getElem_fin]

theorem mem_presentPeers {i : Station} : i ∈ presentPeers s ↔
    i ∈ s.loader.shared.stations ∧ s.gather.roster[i].state = .present := by
  simp [presentPeers, -Fin.getElem_fin]

theorem gathered_complete (h : r.gatherPassed = true ∨ ∀ i ∈ s.loader.shared.stations,
    s.gather.roster[i].state = .present → r.attachments[i] ≠ .none) :
    (r.gathered (presentPeers s)).complete = true := by
  by_contra hn
  obtain ⟨hp, i, hi, hnone⟩ := complete_eq_false_iff.1 (Bool.eq_false_iff.2 hn)
  obtain ⟨hi, hpres⟩ := mem_presentPeers.1 hi
  rcases h with hgp | hall
  · exact Bool.false_ne_true (hp.symm.trans hgp)
  · exact hall i hi hpres hnone

/-- Behind DRAINING records only, one whose close has not completed lets none leave. -/
theorem nextToLeave_append_none (hb : ∀ a ∈ before, a.state = .draining)
    (ha : ∀ q ∈ after, q.late = true) : nextToLeave (before ++ after) = none := by
  unfold nextToLeave
  rw [List.find?_append, List.find?_eq_none.2 fun a h => by simp [hb a h], Option.none_or]
  split
  · next q hq =>
    rw [if_neg fun hg => ?_]
    simpa [hg.1] using late_iff.1 (ha q (List.mem_of_find?_eq_some hq))
  · rfl

/-- A record that still waits, or stands behind one that does, is left GATHERING (R79, R147). -/
theorem finishClose_waits (h : TableLaw s) (hr : r ∈ s.table.records) (hc : r.state = .closing)
    (hw : (r.gatherPassed = false ∧ ∃ i ∈ s.loader.shared.stations,
        s.gather.roster[i].state = .present ∧ r.attachments[i] = .none) ∨
      ∃ q ∈ s.table.records, q.state = .gathering ∧ q.complete = false) :
    r.gathered (presentPeers s) ∈ (finishClose r s).table.records := by
  obtain ⟨before, after, hs, hb, ha⟩ := closing_split h hr hc
  obtain ⟨hheld, -⟩ := tableLaw_iff.1 h
  have hrec := closeHanded_records hs hheld.ordered
  have hmem : r.gathered (presentPeers s) ∈ (closeHanded r s).table.records := by rw [hrec]; simp
  have hstays {q : Record} := judge_stays (q := q) (closeHanded_heldLaw h hr hc) hmem
  rw [finishClose_eq]
  rcases hw with ⟨hp, i, hi, hpres, hnone⟩ | ⟨q, hq, hg, hqc⟩
  · refine hstays hmem rfl (complete_eq_false_iff.2 ⟨hp, i, ?_, hnone⟩) (.inl rfl)
    exact mem_presentPeers.2 ⟨hi, hpres⟩
  · have hqb : q ∈ before := by
      rw [hs, List.mem_append, List.mem_cons] at hq
      rcases hq with hq | rfl | hq
      · exact hq
      · rw [hc] at hg; cases hg
      · rw [ha q hq] at hg; cases hg
    have ho := hheld.ordered
    rw [hs, inOrder_split] at ho
    obtain ⟨-, hbefore, -⟩ := ho
    exact hstays (by rw [hrec]; simp [hqb]) hg hqc (.inr (hbefore q hqb).1)

/-- A complete record with only DRAINING ones before it leaves GATHERING at once (R79, R80). -/
theorem judge_closeHanded (h : TableLaw s) (hr : r ∈ s.table.records) (hc : r.state = .closing)
    (hfirst : s.table.records.find? (fun q => q.state != .draining) = some r)
    (hcomplete : r.gatherPassed = true ∨ ∀ i ∈ s.loader.shared.stations,
      s.gather.roster[i].state = .present → r.attachments[i] ≠ .none) :
    ∃ before after, (closeHanded r s).table.records =
        before ++ r.gathered (presentPeers s) :: after ∧
      s.table.records = before ++ r :: after ∧
      drainingCount (closeHanded r s).table.records = drainingCount s.table.records ∧
      judge (closeHanded r s) =
        leaveGathering (r.gathered (presentPeers s)) (closeHanded r s) := by
  obtain ⟨hheld, -⟩ := tableLaw_iff.1 h
  have ho := hheld.ordered
  obtain ⟨-, before, after, hs, hb⟩ := List.find?_eq_some_iff_append.1 hfirst
  have hdrain : ∀ a ∈ before, a.state = .draining := fun a ha => by simpa using hb a ha
  have hrec := closeHanded_records hs ho
  have hafter : ∀ q ∈ after, q.late = true := by
    rw [hs, inOrder_split] at ho
    obtain ⟨-, -, hle⟩ := ho
    intro q hq
    have hrank := (hle q hq).2
    rw [hc] at hrank
    exact decide_eq_true hrank
  have hnext : nextToLeave (closeHanded r s).table.records = some (r.gathered (presentPeers s)) := by
    rw [hrec]
    unfold nextToLeave
    rw [List.find?_append, List.find?_eq_none.2 fun a ha => by simp [hdrain a ha], Option.none_or,
      List.find?_cons_of_pos (by simp [Record.gathered])]
    exact if_pos ⟨rfl, gathered_complete hcomplete⟩
  refine ⟨before, after, hrec, hs, ?_, judge_of_one hnext ?_⟩
  · rw [hrec, hs]
    simp [drainingCount, Record.gathered, hc]
  · rw [leaveGathering_records hrec (closeHanded_heldLaw h hr hc).ordered]
    split
    · rw [List.append_cons]
      refine nextToLeave_append_none (fun a ha => ?_) hafter
      rcases List.mem_append.1 ha with ha | ha
      · exact hdrain a ha
      · rw [List.mem_singleton.1 ha]
    · exact nextToLeave_append_none hdrain hafter

/-! ### The completion as a whole -/

/-- What is counted besides skips and conflicts is counted before the judgement. -/
theorem finishClose_count_other (r : Record) (s : State) {c : Counter} (hs : c ≠ .skipped)
    (hc : c ≠ .codeConflict) : (finishClose r s).count c = (closeHanded r s).count c :=
  judge_count_other hs hc

theorem finishClose_opened (h : TableLaw s) (hr : r ∈ s.table.records) (hc : r.state = .closing) :
    (finishClose r s).table.records.filter (fun q => q.state == .opened) =
      s.table.records.filter (fun q => q.state == .opened) := by
  have hsub : (fun q : Record => (q.state == .opened) && q.late) = fun q => q.state == .opened := by
    funext q
    cases hq : q.state <;> simp [Record.late, hq, RecordState.rank]
  have hl := congrArg (List.filter fun q : Record => q.state == .opened) (finishClose_late h hr hc).1
  rwa [List.filter_filter, List.filter_filter, hsub, funext fun q => Bool.and_self _] at hl

theorem finishClose_monitors (r : Record) (s : State) :
    (finishClose r s).monitors = s.monitors.map Monitor.countDown := by
  have hjudge : (judge (closeHanded r s)).monitors = (closeHanded r s).monitors :=
    judge_frame .monitors (by decide)
  exact hjudge.trans (handOver_frame (s := updateRecord r.tag _ (s.setMonitors
    (s.monitors.map Monitor.countDown))) (outgoingShare _ r) .monitors (by decide))

/-- A full queue takes the share of a completing close in the place of the oldest one not in
transmission (R109). -/
theorem finishClose_displaces {e : QueuedShare} {rest : List QueuedShare} (hl : QueueLaw s)
    (hp : r.gatherPassed = false) (hq : s.link.queue = e :: rest) (hlen : rest.length = 63) :
    (finishClose r s).link.queue = (if s.link.sharesOut = some e.tag then e :: rest.tail else rest) ++
      [⟨r.tag, outgoingCells s.streams s.gather.mem r, r.marks, r.gatherDeadline, false⟩] := by
  have hpair := hl.pairwise
  rw [hq] at hpair
  rw [finishClose_queue, handOver_queue, if_neg (by simp [hp]), if_neg (by simp [hq, hlen]), hq,
    eraseP_sharesOut _ hpair, hp]

/-- A complete record, the oldest one not DRAINING, becomes DRAINING, or is skipped where 16 are
(R79, R80). -/
theorem finishClose_leaves (h : TableLaw s) (hr : r ∈ s.table.records) (hc : r.state = .closing)
    (hfirst : s.table.records.find? (fun q => q.state != .draining) = some r)
    (hcomplete : r.gatherPassed = true ∨ ∀ i ∈ s.loader.shared.stations,
      s.gather.roster[i].state = .present → r.attachments[i] ≠ .none) :
    (drainingCount s.table.records < 16 → ∃ q ∈ (finishClose r s).table.records, q.tag = r.tag ∧
      q.state = .draining ∧ q.cells = r.cells ∧ q.marks = r.marks ∧
      q.attachments = r.attachments) ∧
    (drainingCount s.table.records = 16 →
      (∀ q ∈ (finishClose r s).table.records, q.tag ≠ r.tag) ∧
      (∀ b ∈ r.blocks, b ∈ (finishClose r s).gather.free) ∧
      (finishClose r s).count .skipped = min (s.count .skipped + 1) 65535 ∧
      (finishClose r s).assembler.skipped = min (s.assembler.skipped + 1) 65535) := by
  obtain ⟨before, after, hrec, hs, hcount, hj⟩ := judge_closeHanded h hr hc hfirst hcomplete
  have ho := (closeHanded_heldLaw h hr hc).ordered
  have hleft := leaveGathering_records hrec ho
  rw [finishClose_eq, hj, State.setTable_table, hleft, hcount]
  refine ⟨fun hroom => ⟨{ r.gathered (presentPeers s) with state := .draining }, ?_, rfl, rfl, rfl,
    rfl, rfl⟩, fun hfull => ?_⟩
  · rw [if_pos hroom]
    simp
  · have hskip := (leaveGathering_leaves (r.gathered (presentPeers s)) (closeHanded r s)).2
      (by rw [hcount, hfull])
    have hasm : (closeHanded r s).assembler = s.assembler :=
      closeHanded_frame (s := s) r .assembler (by decide)
    have hsame : (closeHanded r s).count .skipped = s.count .skipped :=
      (closeHanded_counts r s).2.2 _ (by decide) (by decide)
    rw [if_neg (by omega), hskip]
    refine ⟨fun q hq => ?_, fun b hb => ?_, ?_, ?_⟩
    · obtain ⟨hb, ha⟩ := tag_ne_of_inOrder (hs ▸ (tableLaw_iff.1 h).1.ordered)
      rcases List.mem_append.1 hq with hq | hq
      · exact hb q hq
      · exact ha q hq
    · refine List.mem_append_right _ (List.mem_flatMap.2 ⟨r.gathered (presentPeers s), ?_, hb⟩)
      rw [hrec]
      simp
    · exact (count_bump_same _).trans (by rw [hsame])
    · simp [hasm]

/-- A completion is the one of R78. -/
theorem finishClose_completes (hr : r ∈ s.table.records) (hc : r.state = .closing) :
    CloseCompletes r s (finishClose r s) := by
  rintro h hl share rfl
  obtain ⟨hexp, hdis, hother⟩ := closeHanded_counts r s
  have hqueue := (finishClose_queue r s).trans (handOver_queue _ s)
  refine ⟨finishClose_tableLaw h hr hc, finishClose_queueLaw h hl hr hc, rfl,
    finishClose_opened h hr hc, finishClose_streams r, finishClose_clock r,
    finishClose_frame (s := s) r .loader (by decide), finishClose_frame (s := s) r .roster (by decide),
    finishClose_frame (s := s) r .storeMem (by decide), finishClose_monitors r s, ?_, fun hp => ⟨?_, ?_⟩,
    fun hp hroom => ⟨?_, ?_⟩, fun e rest hp hq hlen => ⟨?_, fun htx => ?_, fun f phase htx hf => ?_⟩,
    fun hw => ?_, finishClose_leaves h hr hc⟩
  · rw [finishClose_count_other r s (by decide) (by decide), hother _ (by decide) (by decide)]
  · rw [hqueue, if_pos hp]
  · rw [finishClose_count_other r s (by decide) (by decide), hexp, if_pos hp]
  · rw [hqueue, if_neg (by simp [hp]), if_pos hroom, hp]
  · rw [finishClose_count_other r s (by decide) (by decide), hdis, if_pos (.inr hroom)]
  · rw [finishClose_count_other r s (by decide) (by decide), hdis, if_neg (by simp [hp, hq, hlen])]
  · rw [finishClose_displaces hl hp hq hlen, if_neg fun ho => ?_]
    obtain ⟨f, phase, htx', hf⟩ := sharesOut_eq_some.1 ho
    exact htx f phase htx' hf
  · rw [finishClose_displaces hl hp hq hlen, if_pos (sharesOut_eq_some.2 ⟨f, phase, htx, hf⟩)]
  · exact ⟨_, finishClose_waits h hr hc hw, rfl, rfl, rfl, rfl, rfl, rfl⟩

/-! ## The examination (R74) -/

/-- Changes that open no record leave no more OPEN ones. -/
theorem countP_opened_map_le (f : Record → Record) (l : List Record)
    (h : ∀ q, (f q).state = .opened → q.state = .opened) :
    (l.map f).countP (fun q => q.state == .opened) ≤ l.countP (fun q => q.state == .opened) := by
  rw [List.countP_map]
  exact List.countP_mono_left fun q _ hq => by simpa using h q (by simpa using hq)

/-- A completion leaves no more OPEN records than there were. -/
theorem finishClose_opened_le (r : Record) (s : State) :
    (finishClose r s).table.records.countP (fun q => q.state == .opened) ≤
      s.table.records.countP (fun q => q.state == .opened) := by
  have hleave (p : Record) (u : State) :
      (leaveGathering p u).table.records.countP (fun q => q.state == .opened) ≤
        u.table.records.countP (fun q => q.state == .opened) := by
    unfold leaveGathering
    split
    · rw [takeRecord_table]
      refine countP_opened_map_le _ _ fun q hq => ?_
      split at hq
      · cases hq
      · exact hq
    · rw [reportSkip, State.setAssembler_table, bump_table]
      exact List.filter_sublist.countP_le
  have hjudge (n : Nat) : ∀ u : State,
      (judgeUpTo n u).table.records.countP (fun q => q.state == .opened) ≤
        u.table.records.countP (fun q => q.state == .opened) := by
    induction n with
    | zero => exact fun u => le_rfl
    | succ n ih =>
      intro u
      unfold judgeUpTo
      split
      · exact (ih _).trans (hleave _ _)
      · exact le_rfl
  refine (hjudge _ (closeHanded r s)).trans ?_
  unfold closeHanded
  simp only [updateRecord_eq, handOver_table, List.map_map]
  refine countP_opened_map_le _ _ fun q hq => ?_
  by_cases ht : q.tag = r.tag
  · simp only [Function.comp_apply, if_pos ht] at hq; cases hq
  · simpa only [Function.comp_apply, if_neg ht] using hq

/-- An examination is the one of R74. -/
theorem examine_examination (s : State) : Examination s (examine s) :=
  examineUpTo_examination (fun r s hr hc => ⟨finishClose_completes hr hc, finishClose_opened_le r s⟩)
    _ s List.countP_le_length

end Sys2Proof.Machine

/-! The start of a close (R57, R61, R71 to R76, R181): when a ring is final and a record ready, and what
a close deadline, a stall and an admission bring. -/

namespace Sys2Proof.Machine

open Sys2Proof

variable {s t u m : State} {r : Record} {rs before after : List Record} {tag : Tag}

/-! ## A ring that is final (R72) -/

theorem exactSource_isSome {tau : Time} {snap : Nat} {ring : List Sample} :
    (exactSource tau snap ring).isSome = true ↔ ∃ x ∈ ring, (x.t.diff tau).natAbs ≤ snap := by
  have hsome : (exactSource tau snap ring).isSome = true ↔ ring.filter (inSnap tau snap) ≠ [] := by
    unfold exactSource
    split <;> simp [*]
  have hin (x : Sample) : inSnap tau snap x = true ↔ (x.t.diff tau).natAbs ≤ snap := decide_eq_true_iff
  rw [hsome, ne_eq, List.filter_eq_nil_iff]
  simp only [hin, not_forall, not_not, exists_prop]

/-- The last sample of an ordered list is the one that no other lies behind. -/
theorem getLast?_eq_some_iff_latest {l : List Sample} {a : Sample}
    (hl : l.Pairwise (fun x y => x.t.before y.t = true)) :
    l.getLast? = some a ↔ a ∈ l ∧ ∀ y ∈ l, a.t.before y.t = false := by
  constructor
  · intro h
    obtain ⟨ys, rfl⟩ := List.getLast?_eq_some_iff.1 h
    refine ⟨by simp, fun y hy => ?_⟩
    rcases List.mem_append.1 hy with hy | hy
    · exact before_asymm ((List.pairwise_append.1 hl).2.2 y hy a (by simp))
    · rw [List.mem_singleton.1 hy]
      simp [Time.before]
  · rintro ⟨ha, hlast⟩
    obtain ⟨as, bs, rfl⟩ := List.append_of_mem ha
    cases bs with
    | nil => simp
    | cons b bs =>
      have hab := (List.pairwise_cons.1 (List.pairwise_append.1 hl).2.1).1 b (.head _)
      rw [hlast b (by simp)] at hab
      cases hab

/-- The first sample of an ordered list is the one that lies behind no other. -/
theorem head?_eq_some_iff_earliest {l : List Sample} {b : Sample}
    (hl : l.Pairwise (fun x y => x.t.before y.t = true)) :
    l.head? = some b ↔ b ∈ l ∧ ∀ y ∈ l, y.t.before b.t = false := by
  cases l with
  | nil => simp
  | cons x l =>
    obtain ⟨hx, -⟩ := List.pairwise_cons.1 hl
    rw [List.forall_mem_cons, List.mem_cons, List.head?_cons, Option.some.injEq]
    constructor
    · rintro rfl
      exact ⟨.inl rfl, by simp [Time.before], fun y hy => before_asymm (hx y hy)⟩
    · rintro ⟨rfl | hb, hxb, -⟩
      · rfl
      · rw [hx b hb] at hxb
        cases hxb

theorem earlierEnd_eq_some_iff {tau : Time} {snap : Nat} {ring : List Sample} {a : Sample}
    (h : ringOrdered ring = true) : earlierEnd tau snap ring = some a ↔
      a ∈ ring ∧ a.t.diff tau < -(snap : Int) ∧
        ∀ y ∈ ring, y.t.diff tau < -(snap : Int) → a.t.before y.t = false := by
  rw [earlierEnd, getLast?_eq_some_iff_latest ((ringOrdered_iff.1 h).filter _)]
  simp only [List.mem_filter, decide_eq_true_eq, and_imp, and_assoc]
  rfl

theorem laterEnd_eq_some_iff {tau : Time} {snap : Nat} {ring : List Sample} {b : Sample}
    (h : ringOrdered ring = true) : laterEnd tau snap ring = some b ↔
      b ∈ ring ∧ (snap : Int) < b.t.diff tau ∧
        ∀ y ∈ ring, (snap : Int) < y.t.diff tau → y.t.before b.t = false := by
  rw [laterEnd, ← List.head?_filter, head?_eq_some_iff_earliest ((ringOrdered_iff.1 h).filter _)]
  simp only [List.mem_filter, decide_eq_true_eq, and_imp, and_assoc]
  rfl

/-- What makes a ring final (R72): a sample in the snap window, or a bracket around it. -/
theorem ringFinal_iff (tau : Time) (snap period : Nat) (ring : List Sample)
    (h : ringOrdered ring = true) : ringFinal tau snap period ring = true ↔
      (∃ x ∈ ring, (x.t.diff tau).natAbs ≤ snap) ∨
      ∃ a ∈ ring, ∃ b ∈ ring, a.t.diff tau < -(snap : Int) ∧ (snap : Int) < b.t.diff tau ∧
        (∀ y ∈ ring, y.t.diff tau < -(snap : Int) → a.t.before y.t = false) ∧
        (∀ y ∈ ring, (snap : Int) < y.t.diff tau → y.t.before b.t = false) ∧
        b.t.diff a.t ≤ period + snap := by
  have hbracket : (match earlierEnd tau snap ring, laterEnd tau snap ring with
      | some a, some b => decide (b.t.diff a.t ≤ (period + snap : Nat))
      | _, _ => false) = true ↔ ∃ a b, earlierEnd tau snap ring = some a ∧
        laterEnd tau snap ring = some b ∧ b.t.diff a.t ≤ period + snap := by
    cases earlierEnd tau snap ring <;> cases laterEnd tau snap ring <;> simp
  unfold ringFinal
  rw [Bool.or_eq_true, exactSource_isSome]
  refine or_congr Iff.rfl (hbracket.trans ?_)
  simp only [earlierEnd_eq_some_iff h, laterEnd_eq_some_iff h]
  constructor
  · rintro ⟨a, b, ⟨ha, hao, hal⟩, ⟨hb, hbo, hbl⟩, hd⟩
    exact ⟨a, ha, b, hb, hao, hbo, hal, hbl, hd⟩
  · rintro ⟨a, ha, b, hb, hao, hbo, hal, hbl, hd⟩
    exact ⟨a, b, ⟨ha, hao, hal⟩, ⟨hb, hbo, hbl⟩, hd⟩

/-- What makes a record ready for early close (R72). -/
theorem readyToClose_iff (s : State) (r : Record) : readyToClose s r = true ↔
    ∀ n ∈ r.enabled, ∀ st ∈ s.streams[n]?, st.health = .live →
      ringFinal (slotTime s.loader.shared.slotRate r.tag) s.loader.shared.snapTolerance
        st.entry.rate.period st.ring = true := by
  rw [readyToClose, List.all_eq_true]
  refine forall₂_congr fun n _ => ?_
  unfold holdsBack
  cases s.streams[n]? with
  | none => simp
  | some st => simpa [Stream.period] using imp_iff_not_or.symm

/-- The readiness of a record reads the streams and the settings. -/
theorem readyToClose_congr (hs : t.streams = s.streams) (hl : t.loader = s.loader) (r : Record) :
    readyToClose t r = readyToClose s r := by
  unfold readyToClose holdsBack
  rw [hs, hl]

/-! ## Examinations that start one close or none (R73 to R76) -/

theorem startable_none_of_closing (h : s.table.sequencer = .closing) : startable s = none := by
  simp [startable, h]

theorem startable_none_of_not_ready (ho : oldestOpen s.table.records = some r)
    (hp : r.closePassed = false) (hn : readyToClose s r = false) : startable s = none := by
  unfold startable
  cases s.table.sequencer <;> simp [ho, hp, hn]

theorem examine_of_some (h : startable s = some r) : ∃ n, examine s = examineUpTo (n + 1) s := by
  have hm := (oldestOpen_some (startable_some h).2.1).1
  obtain ⟨n, hn⟩ := Nat.exists_eq_succ_of_ne_zero (List.length_pos_of_mem hm).ne'
  exact ⟨n, by rw [examine, hn]⟩

/-- A close with streams to resolve only starts (R75, R76). -/
theorem examine_starts (h : startable s = some r) (he : r.enabled ≠ []) :
    examine s = startClose r s := by
  obtain ⟨n, hn⟩ := examine_of_some h
  rw [hn, examineUpTo, h]
  exact if_neg he

theorem examineUpTo_of_none (n : Nat) (h : startable s = none) : examineUpTo n s = s := by
  cases n with
  | zero => rfl
  | succ n => simp [examineUpTo, h]

/-- The record of a close that has started. -/
def Record.closeStarted (r : Record) : Record := { r with state := .closing, cells := some [] }

/-- A close without streams completes at once, and where no record is OPEN then, that is all (R76). -/
theorem examine_completes (h : startable s = some r) (he : r.enabled = [])
    (hnone : ∀ q ∈ (finishClose r.closeStarted (startClose r s)).table.records, q.state ≠ .opened) :
    examine s = finishClose r.closeStarted (startClose r s) := by
  obtain ⟨n, hn⟩ := examine_of_some h
  rw [hn, examineUpTo, h]
  refine (if_pos he).trans (examineUpTo_of_none n ?_)
  cases hs : startable (finishClose r.closeStarted (startClose r s)) with
  | none => exact hs
  | some q =>
    obtain ⟨hq, ho⟩ := oldestOpen_some (startable_some hs).2.1
    exact absurd ho (hnone q hq)

/-- An examination for a stream, the oldest OPEN record known (R74). -/
theorem examineFor_of_oldest (h : oldestOpen s.table.records = some r) (n : Nat) :
    examineFor n s = if n ∈ r.enabled then examine s else s := by
  simp [examineFor, h]

/-- What an early close brings: the record and the sequencer CLOSING, and EARLY_CLOSE (R72, R73). -/
theorem startClose_early (hr : r ∈ s.table.records) (hp : r.closePassed = false) :
    (startClose r s).table.sequencer = .closing ∧
      (∃ q ∈ (startClose r s).table.records, q.tag = r.tag ∧ q.state = .closing ∧
        q.cells = some []) ∧
      (startClose r s).count .earlyClose = min (s.count .earlyClose + 1) 65535 := by
  refine ⟨?_, ⟨r.closeStarted, ?_, rfl, rfl, rfl⟩, ?_⟩
  · rw [startClose_starts r s _ rfl, if_neg (by simp [hp]), bump_table]
  · rw [startClose_records]
    exact List.mem_map.2 ⟨r, hr, if_pos rfl⟩
  · rw [startClose_starts r s _ rfl, if_neg (by simp [hp]), count_bump_same]
    rfl

/-! ## The table's law at the start of a close -/

/-- The place of a record in the table: its tag and its state. -/
def Record.place (r : Record) : Tag × RecordState := (r.tag, r.state)

/-- The table's law reads of the records their places. -/
theorem TableLaw.of_places (h : TableLaw s)
    (hp : t.table.records.map Record.place = s.table.records.map Record.place)
    (hq : t.table.sequencer = s.table.sequencer) (hn : t.clock.newest = s.clock.newest)
    (ha : t.assembler.state = s.assembler.state) : TableLaw t := by
  have hcount (l : List Record) (st : RecordState) : l.countP (fun r => r.state == st) =
      (l.map Record.place).countP (fun a => a.2 == st) := by rw [List.countP_map]; rfl
  have hhead (l : List Record) : l.head?.map (fun r => (r.tag, r.state)) =
      (l.map Record.place).head? := by rw [List.head?_map]; rfl
  have horder (l : List Record) : inOrder l = true ↔ (l.map Record.place).Pairwise
      (fun a b => a.1.older b.1 = true ∧ a.2.rank ≤ b.2.rank) := by
    rw [inOrder_iff, List.pairwise_map]; rfl
  have hnewest (l : List Record) (n : Option Tag) : (∀ r ∈ l, newerThanOpened n r.tag = false) ↔
      ∀ a ∈ l.map Record.place, newerThanOpened n a.1 = false := by
    rw [List.forall_mem_map]; rfl
  have hlen : t.table.records.length = s.table.records.length := by
    simpa using congrArg List.length hp
  unfold TableLaw drainingCount at *
  rwa [hlen, hcount, hcount, horder, hnewest, hhead, hp, hq, hn, ha, ← hcount, ← hcount, ← horder,
    ← hnewest, ← hhead]

/-- The start of a close keeps the table's law (R73, R79). -/
theorem TableLaw.startClose (h : TableLaw s) (hm : startable s = some r) :
    TableLaw (startClose r s) := by
  obtain ⟨hseq, hold, -⟩ := startable_some hm
  obtain ⟨hheld, hcount⟩ := tableLaw_iff.1 h
  obtain ⟨ho, before, after, hs, hb⟩ := List.find?_eq_some_iff_append.1 hold
  have ho : r.state = .opened := by simpa using ho
  rw [if_neg (by simp [hseq]), List.countP_eq_zero] at hcount
  have hrec : (Machine.startClose r s).table.records = before ++ r.closeStarted :: after := by
    rw [startClose_records, hs]
    exact map_tag_split (hs ▸ hheld.ordered) Record.closeStarted
  obtain ⟨-, -, hafter⟩ := inOrder_split.1 (hs ▸ hheld.ordered)
  have hlow : ∀ a ∈ before, a.state.rank ≤ 1 := by
    intro a ha
    have hno : a.state ≠ .opened := by simpa using hb a ha
    have hnc : a.state ≠ .closing := by simpa using hcount a (by rw [hs]; simp [ha])
    cases hst : a.state <;> simp_all [RecordState.rank]
  have hhigh : ∀ b ∈ after, b.state = .opened := by
    intro b hb
    have hle := (hafter b hb).2
    rw [ho] at hle
    cases hst : b.state <;> simp_all [RecordState.rank]
  refine tableLaw_iff.2 ⟨hheld.replace hs hrec
    (congrArg Clock.newest (startClose_frame (s := s) r .clock (by decide)))
    (congrArg Assembler.state (startClose_frame (s := s) r .assembler (by decide)))
    rfl (by simp [ho]) nofun (fun a ha => (hlow a ha).trans (Nat.le_succ 1)) fun b hb => ?_, ?_⟩
  · simp [hhigh b hb, Record.closeStarted, RecordState.rank]
  · have hb0 : before.countP (fun q => q.state == .closing) = 0 :=
      List.countP_eq_zero.2 fun a ha he => by
        have := hlow a ha
        simp [eq_of_beq he, RecordState.rank] at this
    have ha0 : after.countP (fun q => q.state == .closing) = 0 :=
      List.countP_eq_zero.2 fun b hb => by simp [hhigh b hb]
    have hclosing : (Machine.startClose r s).table.sequencer = .closing := by
      rw [startClose_starts r s _ rfl]
      split
      · rfl
      · rw [bump_table]
    rw [hrec, List.countP_append, List.countP_cons, hb0, ha0, if_pos hclosing]
    rfl

/-! ## The close deadline (R71, R73, R74) -/

/-- A record with its close deadline passed. -/
def Record.markClose (r : Record) : Record := { r with closePassed := true }

/-- The oldest OPEN record once a close deadline is marked (R71). -/
theorem oldestOpen_mark (tag : Tag) (rs : List Record) :
    oldestOpen (rs.map (fun q => if q.tag = tag then q.markClose else q)) =
      (oldestOpen rs).map (fun q => if q.tag = tag then q.markClose else q) := by
  unfold oldestOpen
  rw [List.find?_map]
  congr 2
  funext q
  simp only [Function.comp_apply]
  split <;> rfl

theorem exec_closeDeadline (htag : tag.wellFormed = true)
    (hr : recordOf tag s.table.records = some r) (hp : r.closePassed = false)
    (hc : CanArrive (s.clock.now.until_ r.closeDeadline) s) :
    exec (.closeDeadline tag) s =
      .next (passClose tag (momentOf (s.clock.now.until_ r.closeDeadline) s)) := by
  have hd : closeIn tag s = some (s.clock.now.until_ r.closeDeadline) := by
    simp [closeIn, hr, deadlineIn, hp]
  exact exec_timed rfl htag hd hc

/-- The passing of the oldest OPEN record's close deadline is marked and examined (R71, R74). -/
theorem passClose_oldest (h : oldestOpen s.table.records = some r) :
    passClose r.tag s = examine (updateRecord r.tag Record.markClose s) ∧
      oldestOpen (updateRecord r.tag Record.markClose s).table.records = some r.markClose := by
  have ho : oldestOpen (updateRecord r.tag Record.markClose s).table.records = some r.markClose := by
    rw [updateRecord_eq, oldestOpen_mark, h]
    exact congrArg some (if_pos rfl)
  refine ⟨?_, ho⟩
  unfold passClose
  dsimp only
  split
  · next q hq =>
    cases hq.symm.trans ho
    exact if_pos rfl
  · next hn => cases hn.symm.trans ho

/-- The passing of any other close deadline, and of every one in CLOSING, is only marked (R71, R74). -/
theorem passClose_marks (h : (∀ q ∈ oldestOpen s.table.records, q.tag ≠ tag) ∨
    s.table.sequencer = .closing) : passClose tag s = updateRecord tag Record.markClose s := by
  have hmay : ∀ q ∈ oldestOpen (updateRecord tag Record.markClose s).table.records, q.tag = tag →
      s.table.sequencer = .closing := by
    intro q hq ht
    rw [updateRecord_eq, oldestOpen_mark, Option.mem_def, Option.map_eq_some_iff] at hq
    obtain ⟨p, hp, rfl⟩ := hq
    refine h.resolve_left fun hall => hall p hp ?_
    split at ht
    · exact ht
    · exact ht
  unfold passClose
  dsimp only
  split
  · next q hq =>
    split
    · next ht => exact examine_of_none (startable_none_of_closing (hmay q hq ht))
    · rfl
  · rfl

/-- The sequencer may start the oldest OPEN record once its deadline has passed (R73). -/
theorem startable_marked (h : oldestOpen s.table.records = some r) (hs : s.table.sequencer = .idle) :
    startable (updateRecord r.tag Record.markClose s) = some r.markClose :=
  startable_iff.2 ⟨hs, (passClose_oldest h).2, .inl rfl⟩

/-- The close that a close deadline starts is not counted as an early one (R73, R75). -/
theorem startClose_marked (r : Record) (s : State) : startClose r.markClose s = { s with
    table := { s.table with
      sequencer := .closing
      records := s.table.records.map (fun q =>
        if q.tag = r.tag then { q with state := .closing, cells := some [] } else q) }
    streams := s.streams.mapIdx (fun n st => if n ∈ r.enabled then
      { st with horizon := some (slotTime s.loader.shared.slotRate r.tag)
                ring := st.ring.map (fun x => { x with settled := true }) } else st)
    monitors := s.monitors.map (fun m => if m.settings.mode = .off then m else
      { m with levels := m.levels.mapIdx (fun n l =>
        if n ∈ m.watch ∧ n ∉ r.enabled then .unknown else l) }) } :=
  (startClose_starts r.markClose s _ rfl).trans (if_pos rfl)

end Sys2Proof.Machine

/-! The obligation on the start of a close (R71 to R76), one event after the other. -/

namespace Sys2Proof.Machine

open Sys2Proof

variable {s t u m : State} {r : Record} {tag : Tag} {n : Nat}

/-! ## A close deadline whose close completes at once (R76, R78) -/

/-- The close started at the marked deadline of the oldest OPEN record, as it stands in the table. -/
theorem mem_startClose_marked (h : oldestOpen s.table.records = some r) :
    r.markClose.closeStarted ∈
      (startClose r.markClose (updateRecord r.tag Record.markClose s)).table.records := by
  rw [startClose_records]
  exact List.mem_map.2 ⟨r.markClose, (oldestOpen_some (passClose_oldest h).2).1, if_pos rfl⟩

/-- An OPEN record after the start of a close was OPEN before it, and is not the one in close. -/
theorem opened_of_startClose {q : Record} (hq : q ∈ (startClose r s).table.records)
    (ho : q.state = .opened) : q ∈ s.table.records ∧ q.tag ≠ r.tag := by
  rw [startClose_records] at hq
  obtain ⟨p, hp, rfl⟩ := List.mem_map.1 hq
  split at ho
  · cases ho
  · next ht => rw [if_neg ht]; exact ⟨hp, ht⟩

/-- The deadline of the only OPEN record, without streams, completes its close at once, and a station
that the record waits for keeps it GATHERING (R76, R78). -/
theorem passClose_completes (ht : TableLaw s) (hr : oldestOpen s.table.records = some r)
    (hs : s.table.sequencer = .idle) (he : r.enabled = [])
    (hsole : ∀ q ∈ s.table.records, q.state = .opened → q.tag = r.tag)
    (hg : r.gatherPassed = false)
    (hw : ∃ i ∈ s.loader.shared.stations, s.gather.roster[i].state = .present ∧
      r.attachments[i] = .none) (hroom : s.link.queue.length < 64) :
    (passClose r.tag s).table.sequencer = .idle ∧
      (passClose r.tag s).count .earlyClose = s.count .earlyClose ∧
      r.markClose.closeStarted.gathered (presentPeers s) ∈ (passClose r.tag s).table.records ∧
      (passClose r.tag s).link.queue =
        s.link.queue ++ [⟨r.tag, [], r.marks, r.gatherDeadline, false⟩] := by
  have hstart := startable_marked hr hs
  have hmem := mem_startClose_marked hr
  have hmark : TableLaw (updateRecord r.tag Record.markClose s) := by
    refine ht.of_places ?_ rfl rfl rfl
    rw [updateRecord_eq, List.map_map]
    refine List.map_congr_left fun q _ => ?_
    simp only [Function.comp_apply]
    split <;> rfl
  have hv := hmark.startClose hstart
  have hmarked := startClose_marked r (updateRecord r.tag Record.markClose s)
  generalize hvd : startClose r.markClose (updateRecord r.tag Record.markClose s) = v at *
  have hnone : ∀ q ∈ (finishClose r.markClose.closeStarted v).table.records, q.state ≠ .opened := by
    intro q hq ho
    obtain ⟨hqv, -, hold⟩ := (finishClose_late hv hmem rfl).2 q hq (late_iff.2 (.inl ho))
    obtain ⟨hqu, hne⟩ := opened_of_startClose (hvd ▸ hqv) ho
    rw [updateRecord_eq] at hqu
    obtain ⟨p, hp, rfl⟩ := List.mem_map.1 hqu
    split at hne
    · next h => exact hne h
    · next h => rw [if_neg h] at ho; exact h (hsole p hp ho)
  have hdone : passClose r.tag s = finishClose r.markClose.closeStarted v := by
    rw [(passClose_oldest hr).1, examine_completes hstart he (by rwa [hvd]), hvd]
  have hpeers : presentPeers v = presentPeers s := by rw [hmarked]; rfl
  have hlink : v.link = s.link := by rw [hmarked]; rfl
  rw [hdone]
  refine ⟨rfl, ?_, ?_, ?_⟩
  · rw [finishClose_count_other _ _ (by decide) (by decide),
      (closeHanded_counts _ v).2.2 _ (by decide) (by decide), hmarked]
    rfl
  · rw [← hpeers]
    refine finishClose_waits hv hmem rfl (.inl ⟨hg, ?_⟩)
    rw [hmarked]
    exact hw
  · have hcells : outgoingCells v.streams v.gather.mem r.markClose.closeStarted = [] := by
      simp [outgoingCells, Record.closeStarted, Record.markClose, he]
    rw [finishClose_queue, handOver_queue, hcells, hlink, if_neg, if_pos hroom]
    · exact congrArg (fun p => s.link.queue ++ [⟨r.tag, [], r.marks, r.gatherDeadline, p⟩]) hg
    · exact fun h => Bool.false_ne_true (hg.symm.trans h)

/-- The table's law does not read the time. -/
theorem TableLaw.momentOf (h : TableLaw s) (d : Nat) : TableLaw (momentOf d s) := by
  refine h.of_places (by rw [momentOf_table]) (by rw [momentOf_table]) ?_ ?_ <;>
    unfold Machine.momentOf <;> split <;> rfl

theorem presentPeers_momentOf (d : Nat) : presentPeers (momentOf d s) = presentPeers s := by
  unfold presentPeers
  rw [momentOf_loader]
  exact List.filter_congr fun i _ => by rw [momentOf_peerState]

/-! ## A close deadline that starts a close (R71, R73, R75) -/

theorem passClose_starts (hr : oldestOpen s.table.records = some r)
    (hs : s.table.sequencer = .idle) (he : r.enabled ≠ []) :
    passClose r.tag s = startClose r.markClose (updateRecord r.tag Record.markClose s) := by
  rw [(passClose_oldest hr).1, examine_starts (startable_marked hr hs) he]

/-! ## A stall and an admission (R72, R74) -/

theorem examineFor_examination (h : oldestOpen s.table.records = some r) :
    (n ∉ r.enabled → examineFor n s = s) ∧ (n ∈ r.enabled → Examination s (examineFor n s)) := by
  rw [examineFor_of_oldest h]
  refine ⟨fun hn => if_neg hn, fun hn => ?_⟩
  rw [if_pos hn]
  exact examine_examination s

/-- An examination for a stream that no close can follow. -/
theorem examineFor_waits (h : oldestOpen s.table.records = some r) (hp : r.closePassed = false)
    (hw : n ∉ r.enabled ∨ readyToClose s r = false) : examineFor n s = s := by
  rw [examineFor_of_oldest h]
  split
  · next hn =>
    exact examine_of_none (startable_none_of_not_ready h hp (hw.resolve_left (not_not_intro hn)))
  · rfl

/-- An examination for a stream that lets an early close start (R72, R73). -/
theorem examineFor_early (h : oldestOpen s.table.records = some r) (hs : s.table.sequencer = .idle)
    (hp : r.closePassed = false) (he : r.enabled ≠ []) (hn : n ∈ r.enabled)
    (hready : readyToClose s r = true) :
    (examineFor n s).table.sequencer = .closing ∧
      (∃ q ∈ (examineFor n s).table.records, q.tag = r.tag ∧ q.state = .closing ∧
        q.cells = some []) ∧
      (examineFor n s).count .earlyClose = min (s.count .earlyClose + 1) 65535 := by
  rw [examineFor_of_oldest h, if_pos hn, examine_starts (startable_iff.2 ⟨hs, h, .inr hready⟩) he]
  exact startClose_early (oldestOpen_some h).1 hp

/-- A stall is the stream STALLED and the examination for it. -/
theorem exec_stall {a : Nat} {st : Stream} (hn : n < 48) (hst : s.streams[n]? = some st)
    (hh : st.health = .live) (ha : st.age = some a) (hc : CanArrive (12000000 - a) s)
    (hm : m = momentOf (12000000 - a) s)
    (hu : u = { m with streams := m.streams.modify n (fun st => { st with health := .stalled }) }) :
    exec (.stallExpiry n) s = .next (examineFor n u) := by
  rw [exec_stallExpiry hn hst hh ha hc, ← hm, hu]
  rfl

/-- The judgement of a frame with an admitted sample: the examination for its stream, and the frame's
space released. -/
theorem exec_admission {stamp : Stamp} {f : List Byte} {code : Nat} {x : Sample} {st : Stream}
    (hck : s.intake.checker = .checking) (hf : heldFrame s.intake = (stamp, f))
    (hv : judgeFrame s f stamp = .offered n code x) (hn : s.streams[n]? = some st)
    (hr : (st.offer x).1.reason = none)
    (hu : u = { s with streams := s.streams.set n (st.offer x).2 }) :
    exec .frameJudgement s =
      .next (releaseFrame (9 + f.length) (examineFor n (bump .samplesAdmitted u))) := by
  rw [exec_frameJudgement hck hf, hv, applyVerdict, offerSample_admitted hn hr, hu]
  rfl

/-- Settles O34, one event after the other: the close deadline, a final ring, a ready record, a stall
and an admission. -/
theorem closeDeadlineStartsTheClose : Obligations.CloseDeadlineStartsTheClose := by
  unfold Obligations.CloseDeadlineStartsTheClose
  refine ⟨?_, fun tau snap period ring h => ringFinal_iff tau snap period ring h, readyToClose_iff,
    ?_, ?_, ?_, ?_⟩
  · intro s m tag r htag hrec hp hc hm
    rw [exec_closeDeadline htag hrec hp hc, ← hm]
    have hrt : r.tag = tag := (recordOf_some hrec).2
    have htab : m.table = s.table := by rw [hm, momentOf_table]
    have hload : m.loader = s.loader := by rw [hm, momentOf_loader]
    subst hrt
    refine ⟨fun ho hs he => ⟨_, rfl, ?_⟩, fun ht ho hs he hsole hg hw hroom => ⟨_, rfl, ?_⟩,
      ⟨_, rfl, passClose_passes examine_examination _ _⟩, fun h => ?_⟩
    · rw [← htab] at ho hs
      have hmem := mem_startClose_marked ho
      rw [passClose_starts ho hs he]
      refine ⟨?_, ⟨_, hmem, rfl, rfl, rfl, rfl⟩, ?_, ?_, ?_⟩
      · rw [startClose_marked]
      · rw [startClose_marked, ← hload]; rfl
      · rw [startClose_marked, ← momentOf_monitors (s := s), ← hm]; rfl
      · rw [startClose_marked, ← momentOf_count (s := s), ← hm]; rfl
    · have hlink : m.link = s.link := by rw [hm, momentOf_link]
      have hpeers : presentPeers m = presentPeers s := by rw [hm, presentPeers_momentOf]
      have hwm : ∃ i ∈ m.loader.shared.stations, m.gather.roster[i].state = .present ∧
          r.attachments[i] = .none := by
        simpa only [hm, momentOf_loader, momentOf_peerState] using hw
      obtain ⟨hidle, hcount, hgathered, hqueue⟩ := passClose_completes (hm ▸ ht.momentOf _)
        (htab ▸ ho) (htab ▸ hs) he (htab ▸ hsole) hg hwm (hlink ▸ hroom)
      refine ⟨hidle, hcount.trans (by rw [hm, momentOf_count]), ⟨_, hgathered, rfl, rfl, rfl, ?_⟩,
        hlink ▸ hqueue⟩
      exact congrArg some hpeers
    · rw [passClose_marks (by rwa [htab]), updateRecord_eq, htab]
      rfl
  · intro s m u n a st r hn hst hl ha hc hm hu hr
    have htab : u.table = s.table := by rw [hu, hm]; exact momentOf_table _
    rw [exec_stall hn hst hl ha hc hm hu]
    obtain ⟨hout, hin⟩ := examineFor_examination (n := n) (s := u) (r := r) (by rw [htab]; exact hr)
    exact ⟨fun h => congrArg Host.Outcome.next (hout h), fun h => ⟨_, rfl, hin h⟩⟩
  · intro s m u n a st r hn hst hl ha hc hm hu hr hs hp he
    have htab : u.table = s.table := by rw [hu, hm]; exact momentOf_table _
    have hcount : u.count .earlyClose = s.count .earlyClose := by rw [hu, hm]; exact momentOf_count _ _
    rw [exec_stall hn hst hl ha hc hm hu]
    rw [← htab] at hr hs
    refine ⟨fun h => congrArg Host.Outcome.next (examineFor_waits hr hp h),
      fun hin hready => ⟨_, rfl, ?_⟩⟩
    rw [← hcount]
    exact examineFor_early hr hs hp he hin hready
  · intro s u stamp f n code x st r hck hf hv hn ho hu hr
    refine ⟨_, _, exec_admission hck hf hv hn ho hu, rfl, ?_⟩
    obtain ⟨hout, hin⟩ := examineFor_examination (n := n) (r := r) (s := bump .samplesAdmitted u)
      (by rw [bump_table, hu]; exact hr)
    have hintake : (examineFor n (bump .samplesAdmitted u)).intake = s.intake := by
      rw [examineFor_intake, bump_intake, hu]
    have hkept : { releaseFrame (9 + f.length) (examineFor n (bump .samplesAdmitted u)) with
        intake := s.intake } = examineFor n (bump .samplesAdmitted u) := by
      rw [releaseFrame_eq, ← hintake]
      rfl
    rw [hkept]
    exact ⟨hout, hin⟩
  · intro s u stamp f n code x st r hck hf hv hn ho hu hr hs hp he
    refine ⟨_, exec_admission hck hf hv hn ho hu, ?_⟩
    have htab : (bump .samplesAdmitted u).table = s.table := by rw [bump_table, hu]
    have hready : readyToClose (bump .samplesAdmitted u) r = readyToClose u r :=
      readyToClose_congr (bump_streams _) (bump_loader _) r
    have hcount : (bump .samplesAdmitted u).count .earlyClose = s.count .earlyClose := by
      rw [count_bump_other (by decide), hu]
      rfl
    rw [releaseFrame_eq, ← hready, ← hcount]
    rw [← htab] at hr hs ⊢
    refine ⟨fun hw => ?_, examineFor_early hr hs hp he⟩
    rw [examineFor_waits hr hp hw]
    exact ⟨rfl, by simp, rfl⟩

end Sys2Proof.Machine

/-! The image as bytes, its listed codes and its clamped settings, and a load up to the checks of R193
(R192 to R194, R212, R218). -/

namespace Sys2Proof.Machine

open Sys2Proof

variable {image : List Byte} {strap : Station} {n off : Nat}

/-! ## The bytes of the image (R218) -/

@[simp] theorem imageBytes_length (image : List Byte) (off n : Nat) :
    (imageBytes image off n).length = n := by
  simp [imageBytes]

theorem imageField_lt (image : List Byte) (off n : Nat) : imageField image off n < 256 ^ n :=
  (beNat_lt (imageBytes image off n)).trans_eq (by rw [imageBytes_length])

/-- Inside the flash the image is its bytes. -/
theorem imageBytes_inside (h : off + n ≤ image.length) :
    imageBytes image off n = (image.drop off).take n := by
  have hlen : ((image.drop off).take n).length = n := by
    rw [List.length_take, List.length_drop]; omega
  rw [imageBytes, hlen, Nat.sub_self, List.replicate_zero, List.append_nil]

/-- Past the flash the image reads as all ones. -/
theorem imageBytes_past (n : Nat) (h : image.length ≤ off) :
    imageBytes image off n = List.replicate n 0xFF#8 := by
  simp [imageBytes, List.drop_eq_nil_of_le h]

theorem imageField_byte (image : List Byte) (off : Nat) :
    imageField image off 1 = (imageByte image off).toNat := by
  unfold imageField imageByte
  by_cases h : off < image.length
  · rw [imageBytes_inside h, List.drop_eq_getElem_cons h]
    rw [List.take_succ_cons, List.take_zero, beNat_cons]
    simp [beNat, h]
  · have h : image.length ≤ off := by omega
    rw [imageBytes_past 1 h, List.getD_eq_default _ _ h]
    rfl

/-- A bit of a byte is the bit of its value. -/
theorem imageByte_getLsbD (image : List Byte) (off i : Nat) :
    (imageByte image off).getLsbD i = (imageField image off 1).testBit i := by
  rw [imageField_byte]; rfl

/-! ## The listed codes (R212, R218) -/

theorem rateOfNat_eq_some_iff {rate : Rate} : rateOfNat n = some rate ↔ rate.perSecond = n := by
  constructor
  · intro h
    unfold rateOfNat at h
    split_ifs at h <;> cases h <;> simp [Rate.perSecond, *]
  · rintro rfl
    cases rate <;> rfl

theorem rateOfNat_eq_none_iff : rateOfNat n = none ↔ n ∉ [10, 25, 30, 50, 60, 100, 120] := by
  unfold rateOfNat
  split_ifs <;> simp [*]

theorem edgeSelectOf_eq (n : Nat) : edgeSelectOf n = [EdgeSelect.off, .rising, .falling][n]? := by
  rcases n with _ | _ | _ | n <;> simp [edgeSelectOf]

theorem quantityOf_eq (n : Nat) : quantityOf n = [Quantity.freq, .rocof, .mag0][n]? := by
  rcases n with _ | _ | _ | n <;> simp [quantityOf]

theorem edgeModeOf_eq (n : Nat) : edgeModeOf n = [EdgeMode.off, .rising, .falling, .both][n]? := by
  rcases n with _ | _ | _ | _ | n <;> simp [edgeModeOf]

theorem edgeSelectOf_eq_none_iff : edgeSelectOf n = none ↔ 2 < n := by
  rw [edgeSelectOf_eq, List.getElem?_eq_none_iff]; rfl

theorem mem_allStations (i : Station) : i ∈ allStations := by
  revert i; decide

theorem mem_stationsOf {v : Nat} {i : Station} : i ∈ stationsOf v ↔ v.testBit i.val = true := by
  simp [stationsOf, mem_allStations]

theorem stationsOf_pairwise (v : Nat) : (stationsOf v).Pairwise (· < ·) :=
  List.Pairwise.filter _ (by decide)

/-! ## The clamps (R194) -/

theorem clamp_eq {lo hi : Nat} (h : lo ≤ hi) (v : Nat) : clamp lo hi v = max lo (min v hi) := by
  unfold clamp
  split_ifs <;> omega

theorem clamp_zero (hi v : Nat) : clamp 0 hi v = min v hi := by
  rw [clamp_eq (Nat.zero_le hi), Nat.zero_max]

theorem clamps_iff {lo hi v : Nat} : clamps lo hi v = true ↔ v < lo ∨ hi < v := by
  simp [clamps]

theorem clamps_zero_iff {hi v : Nat} : clamps 0 hi v = true ↔ hi < v := by
  simp [clamps]

/-! ## The checks on the whole image and on the shared section (R192, R193) -/

/-- The end of a load that no section decides: nothing clamped, no place, no digest (R191). -/
def imageRefused (reason : FaultReason) : LoadEnd := ⟨⟨reason, none, .none, none⟩, none⟩

theorem load_of_imageFault {reason : FaultReason} (h : imageFault image = some reason) :
    load strap image = imageRefused reason := by
  simp [load, h, imageRefused]

theorem imageFault_marker (h : imageField image 0 2 ≠ 0xC16A ∨ imageField image 2 1 ≠ 1) :
    imageFault image = some .markerFault := if_pos h

theorem imageFault_length (hm : imageField image 0 2 = 0xC16A) (hv : imageField image 2 1 = 1)
    (h : imageField image 3 4 < 1494 ∨ 6870 < imageField image 3 4) :
    imageFault image = some .lengthFault :=
  (if_neg (by simp [hm, hv])).trans (if_pos h)

theorem imageFault_crc (hm : imageField image 0 2 = 0xC16A) (hv : imageField image 2 1 = 1)
    (hlo : 1494 ≤ imageField image 3 4) (hhi : imageField image 3 4 ≤ 6870)
    (h : crc32 (imageBytes image 0 (imageField image 3 4 - 4)) ≠
      BitVec.ofNat 32 (imageField image (imageField image 3 4 - 4) 4)) :
    imageFault image = some .crcFault :=
  (if_neg (by simp [hm, hv])).trans ((if_neg (not_or_intro hlo.not_gt hhi.not_gt)).trans (if_pos h))

/-- The whole image is good just where the checks of R192 pass. -/
theorem imageFault_eq_none_iff : imageFault image = none ↔
    imageField image 0 2 = 0xC16A ∧ imageField image 2 1 = 1 ∧
    1494 ≤ imageField image 3 4 ∧ imageField image 3 4 ≤ 6870 ∧
    crc32 (imageBytes image 0 (imageField image 3 4 - 4)) =
      BitVec.ofNat 32 (imageField image (imageField image 3 4 - 4) 4) := by
  unfold imageFault
  simp only [Config.minImage, Config.maxImage]
  split_ifs with hm hl hc
  · simp only [false_iff]; tauto
  · simp only [false_iff]; omega
  · simp only [false_iff]; tauto
  · rw [not_or, not_not, not_not] at hm
    rw [not_or, not_lt, not_lt] at hl
    exact iff_of_true rfl ⟨hm.1, hm.2, hl.1, hl.2, not_not.1 hc⟩

theorem load_of_slotRate (h : imageFault image = none)
    (hr : imageField image 7 1 ∉ [10, 25, 30, 50, 60, 100, 120]) :
    load strap image = imageRefused .slotRateFault := by
  simp [load, h, rateOfNat_eq_none_iff.2 hr, imageRefused]

theorem load_of_edgeSelect {rate : Rate} (h : imageFault image = none)
    (hr : rateOfNat (imageField image 7 1) = some rate) (he : 2 < imageField image 19 1) :
    load strap image = imageRefused .encodingFault := by
  simp [load, h, hr, edgeSelectOf_eq_none_iff.2 he, imageRefused]

theorem load_of_station {rate : Rate} {edge : EdgeSelect} (h : imageFault image = none)
    (hr : rateOfNat (imageField image 7 1) = some rate)
    (he : edgeSelectOf (imageField image 19 1) = some edge)
    (hs : strap ∉ stationsOf (imageField image 8 2)) :
    load strap image = imageRefused .stationFault := by
  simp only [load, h, hr, he]
  exact if_pos hs

/-- An image that passes the checks of R192 and R193 gives a slot rate, an edge select and a station set
with this station (R193). -/
theorem imagePasses_iff : ImagePasses strap image ↔ imageFault image = none ∧
    (∃ rate, rateOfNat (imageField image 7 1) = some rate) ∧
    (∃ edge, edgeSelectOf (imageField image 19 1) = some edge) ∧
    strap ∈ stationsOf (imageField image 8 2) := by
  have hrate : (∃ rate, rateOfNat (imageField image 7 1) = some rate) ↔
      imageField image 7 1 ∈ [10, 25, 30, 50, 60, 100, 120] := by
    rw [← Option.ne_none_iff_exists', ne_eq, rateOfNat_eq_none_iff, not_not]
  have hedge : (∃ edge, edgeSelectOf (imageField image 19 1) = some edge) ↔
      imageField image 19 1 ≤ 2 := by
    rw [← Option.ne_none_iff_exists', ne_eq, edgeSelectOf_eq_none_iff, not_lt]
  rw [imageFault_eq_none_iff, hrate, hedge, mem_stationsOf]
  simp only [ImagePasses, and_assoc]

/-- A load of any other image ends before its sections. -/
theorem load_of_not_passes (h : ¬ImagePasses strap image) :
    ∃ reason, load strap image = imageRefused reason := by
  cases hf : imageFault image with
  | some reason => exact ⟨_, load_of_imageFault hf⟩
  | none =>
    by_cases hr : imageField image 7 1 ∈ [10, 25, 30, 50, 60, 100, 120]
    · obtain ⟨rate, hrate⟩ := Option.ne_none_iff_exists'.1 (mt rateOfNat_eq_none_iff.1 (not_not_intro hr))
      cases he : edgeSelectOf (imageField image 19 1) with
      | none => exact ⟨_, load_of_edgeSelect hf hrate (edgeSelectOf_eq_none_iff.1 he)⟩
      | some edge =>
        refine ⟨_, load_of_station hf hrate he fun hs => h ?_⟩
        exact imagePasses_iff.2 ⟨hf, ⟨rate, hrate⟩, ⟨edge, he⟩, hs⟩
    · exact ⟨_, load_of_slotRate hf hr⟩

/-! ## The end of a load that reaches the sections (R195 to R197) -/

/-- This station's section of the image: where it begins, and what it holds (R195 to R197). -/
def readSections (strap : Station) (image : List Byte) :
    Except (FaultReason × FaultPlace) (List Entry × List MonitorSettings) :=
  match findSection image (imageField image 3 4 - 4) strap.val 0 Config.firstSection with
  | .error place => .error (.lengthFault, place)
  | .ok start =>
    match readSection image strap (stationsOf (imageField image 8 2)) start with
    | .error (reason, item) => .error (reason, ⟨strap.val, item⟩)
    | .ok held => .ok held

theorem load_of_section_error {reason : FaultReason} {place : FaultPlace}
    (hp : ImagePasses strap image) (h : readSections strap image = .error (reason, place)) :
    load strap image =
      ⟨⟨reason, some place, readClamps image, some (sharedDigest image)⟩, none⟩ := by
  obtain ⟨hf, ⟨rate, hrate⟩, ⟨edge, hedge⟩, hs⟩ := imagePasses_iff.1 hp
  have hst : (readShared image rate edge).stations = stationsOf (imageField image 8 2) := rfl
  have hd : (readShared image rate edge).digest = sharedDigest image := rfl
  cases hfind : findSection image (imageField image 3 4 - 4) strap.val 0 Config.firstSection with
  | error place =>
    simp only [readSections, hfind] at h
    cases h
    simp only [load, hf, hrate, hedge, hst, hs, hd, hfind, not_true_eq_false, if_false]
  | ok start =>
    cases hread : readSection image strap (stationsOf (imageField image 8 2)) start with
    | error e =>
      simp only [readSections, hfind, hread] at h
      cases h
      simp only [load, hf, hrate, hedge, hst, hs, hd, hfind, hread, not_true_eq_false, if_false]
    | ok held =>
      simp only [readSections, hfind, hread] at h
      cases h

theorem load_of_section_ok {held : List Entry × List MonitorSettings}
    (hp : ImagePasses strap image) (h : readSections strap image = .ok held) :
    ∃ rate edge, rateOfNat (imageField image 7 1) = some rate ∧
      edgeSelectOf (imageField image 19 1) = some edge ∧
      load strap image = ⟨⟨.none, none, readClamps image, some (sharedDigest image)⟩,
        some ⟨readShared image rate edge, held.1, held.2⟩⟩ := by
  obtain ⟨hf, ⟨rate, hrate⟩, ⟨edge, hedge⟩, hs⟩ := imagePasses_iff.1 hp
  refine ⟨rate, edge, hrate, hedge, ?_⟩
  unfold readSections at h
  split at h
  · cases h
  · next start hfind =>
    split at h
    · cases h
    · next hread => cases h; exact load_passes hf hrate hedge hs hfind hread

end Sys2Proof.Machine

/-! This station's section of the image: where it begins, its directory entries judged by the table of
R196, and its monitors (R195 to R197, R218). -/

namespace Sys2Proof.Machine

open Sys2Proof

variable {image : List Byte} {strap : Station} {n i k last off : Nat} {reason : FaultReason}

/-! ## Where the section begins (R195) -/

theorem findSection_fits (hfit : ∀ j, i ≤ j → j ≤ i + n → sectionStart image (j + 1) ≤ last) :
    findSection image last n i (sectionStart image i) = .ok (sectionStart image (i + n)) := by
  induction n generalizing i with
  | zero => exact if_neg (hfit i le_rfl le_rfl).not_gt
  | succ n ih =>
    refine (if_neg (hfit i le_rfl (by omega)).not_gt).trans ?_
    rw [show i + (n + 1) = i + 1 + n by omega]
    exact ih fun j hij hj => hfit j (by omega) (by omega)

/-- The first section that would pass the image's end is the fault place. -/
theorem findSection_passes_end (hik : i ≤ k) (hk : k ≤ i + n)
    (hfit : ∀ j, i ≤ j → j < k → sectionStart image (j + 1) ≤ last)
    (hend : last < sectionStart image (k + 1)) :
    findSection image last n i (sectionStart image i) = .error ⟨k, .none⟩ := by
  induction n generalizing i with
  | zero =>
    obtain rfl : k = i := by omega
    exact if_pos hend
  | succ n ih =>
    rcases Nat.eq_or_lt_of_le hik with rfl | hlt
    · exact if_pos hend
    · refine (if_neg (hfit i le_rfl hlt).not_gt).trans ?_
      exact ih hlt (by omega) fun j hij hj => hfit j (by omega) hj

/-! ## The first check that fails -/

variable {p : Prop} {checks : List (FaultReason × Prop)} {r : FaultReason}

theorem allPass_nil : AllPass [] := nofun

theorem allPass_cons : AllPass ((r, p) :: checks) ↔ ¬p ∧ AllPass checks := List.forall_mem_cons

theorem firstFails_nil : ¬FirstFails [] reason := by
  rintro ⟨n, p, h, -⟩
  simp at h

theorem firstFails_cons : FirstFails ((r, p) :: checks) reason ↔
    p ∧ reason = r ∨ ¬p ∧ FirstFails checks reason := by
  constructor
  · rintro ⟨n, q, hget, hq, hall⟩
    cases n with
    | zero =>
      cases hget
      exact .inl ⟨hq, rfl⟩
    | succ n =>
      obtain ⟨hp, hall⟩ := allPass_cons.1 hall
      exact .inr ⟨hp, n, q, hget, hq, hall⟩
  · rintro (⟨hp, rfl⟩ | ⟨hp, n, q, hget, hq, hall⟩)
    · exact ⟨0, p, rfl, hp, nofun⟩
    · exact ⟨n + 1, q, hget, hq, allPass_cons.2 ⟨hp, hall⟩⟩

/-- Either every check passes or one of them is the first that fails. -/
theorem firstFails_of_not_allPass (h : ¬AllPass checks) : ∃ reason, FirstFails checks reason := by
  induction checks with
  | nil => exact absurd allPass_nil h
  | cons c checks ih =>
    obtain ⟨r, p⟩ := c
    by_cases hp : p
    · exact ⟨r, firstFails_cons.2 (.inl ⟨hp, rfl⟩)⟩
    · obtain ⟨reason, hr⟩ := ih fun hall => h (allPass_cons.2 ⟨hp, hall⟩)
      exact ⟨reason, firstFails_cons.2 (.inr ⟨hp, hr⟩)⟩

/-! ## A directory entry (R196) -/

/-- The role that two role bytes give in a station set of 16 bits (R196, R218). -/
theorem roleOf_judges (v role index : Nat) (hv : v < 65536) :
    (1 < role → roleOf strap (stationsOf v) role index = .error .encodingFault) ∧
    (role = 1 → index = strap.val ∨ v.testBit index = false →
      roleOf strap (stationsOf v) role index = .error .primaryFault) ∧
    (role = 0 → roleOf strap (stationsOf v) role index = .ok .primary) ∧
    (role = 1 → ¬(index = strap.val ∨ v.testBit index = false) → ∃ p : Station, index = p.val ∧
      roleOf strap (stationsOf v) role index = .ok (.secondary p)) := by
  refine ⟨fun h => ?_, ?_, fun h => if_pos h, ?_⟩
  · unfold roleOf
    rw [if_neg (by omega), if_neg (by omega)]
  · rintro rfl hbad
    refine (if_neg (by decide)).trans ((if_pos rfl).trans ?_)
    split
    · refine if_pos (hbad.imp (fun h => Fin.ext h) fun h => ?_)
      rw [mem_stationsOf, h]
      exact Bool.false_ne_true
    · rfl
  · rintro rfl hgood
    rw [not_or, Bool.not_eq_false] at hgood
    obtain ⟨hne, hbit⟩ := hgood
    have hlt : index < 16 := by
      by_contra hge
      rw [Nat.testBit_lt_two_pow (hv.trans_le (Nat.pow_le_pow_right (n := 2) (by omega)
        (not_lt.1 hge)))] at hbit
      cases hbit
    refine ⟨⟨index, hlt⟩, rfl, (if_neg (by decide)).trans ((if_pos rfl).trans ?_)⟩
    rw [dif_pos hlt]
    refine if_neg ?_
    rintro (h | h)
    · exact hne (congrArg Fin.val h)
    · exact h (mem_stationsOf.2 hbit)

/-- The entry is what the image has at an offset (R218). -/
def EntryAt (image : List Byte) (at_ : Nat) (e : Entry) : Prop :=
  e.code = imageField image at_ 2 ∧ e.rate.perSecond = imageField image (at_ + 2) 1 ∧
  e.phasors = imageField image (at_ + 3) 1 ∧
  (e.role = .primary ↔ imageField image (at_ + 4) 1 = 0) ∧
  (∀ p, e.role = .secondary p ↔ imageField image (at_ + 4) 1 = 1 ∧
    imageField image (at_ + 5) 1 = p.val) ∧
  (e.enabledAtStart = true ↔ (imageField image (at_ + 6) 1).testBit 0 = true)

/-- The codes of the entries before a position, by the image. -/
def codesBefore (image : List Byte) (strap : Station) (k : Nat) : List Nat :=
  (List.range k).map (fun j => imageField image (entryStart image strap j) 2)

theorem mem_codesBefore {c : Nat} : c ∈ codesBefore image strap k ↔
    ∃ j, j < k ∧ imageField image (entryStart image strap j) 2 = c := by
  simp [codesBefore]

/-- The reading of an entry stops at the first check of R196 that fails. -/
theorem readEntry_fails (h : FirstFails (entryChecks image strap k) reason) :
    readEntry image strap (stationsOf (imageField image 8 2)) (codesBefore image strap k)
      (entryStart image strap k) = .error reason := by
  obtain ⟨hencoding, hprimary, -, -⟩ := roleOf_judges (strap := strap) (imageField image 8 2)
    (imageField image (entryStart image strap k + 4) 1)
    (imageField image (entryStart image strap k + 5) 1) (imageField_lt image 8 2)
  unfold entryChecks at h
  unfold readEntry
  rcases firstFails_cons.1 h with ⟨hrate, rfl⟩ | ⟨hrate, h⟩
  · simp only [rateOfNat_eq_none_iff.2 hrate]
  obtain ⟨rate, hrate⟩ := Option.ne_none_iff_exists'.1 (mt rateOfNat_eq_none_iff.1 hrate)
  simp only [hrate]
  rcases firstFails_cons.1 h with ⟨hph, rfl⟩ | ⟨hph, h⟩
  · exact if_pos hph
  rw [if_neg hph]
  rcases firstFails_cons.1 h with ⟨hcode, rfl⟩ | ⟨hcode, h⟩
  · exact if_pos hcode
  rw [if_neg hcode]
  rcases firstFails_cons.1 h with ⟨hdup, rfl⟩ | ⟨hdup, h⟩
  · exact if_pos (mem_codesBefore.2 hdup)
  rw [if_neg (mt mem_codesBefore.1 hdup)]
  rcases firstFails_cons.1 h with ⟨henc, rfl⟩ | ⟨-, h⟩
  · rw [hencoding henc]
  rcases firstFails_cons.1 h with ⟨⟨hone, hbad⟩, rfl⟩ | ⟨-, h⟩
  · rw [hprimary hone hbad]
  · exact absurd h firstFails_nil

/-- An entry that passes every check of R196 is read as the image has it. -/
theorem readEntry_passes (h : AllPass (entryChecks image strap k)) :
    ∃ e, readEntry image strap (stationsOf (imageField image 8 2)) (codesBefore image strap k)
      (entryStart image strap k) = .ok e ∧ EntryAt image (entryStart image strap k) e := by
  obtain ⟨-, -, hzero, hone⟩ := roleOf_judges (strap := strap) (imageField image 8 2)
    (imageField image (entryStart image strap k + 4) 1)
    (imageField image (entryStart image strap k + 5) 1) (imageField_lt image 8 2)
  simp only [entryChecks, allPass_cons] at h
  obtain ⟨hrate, hph, hcode, hdup, henc, hprim, -⟩ := h
  obtain ⟨rate, hrate⟩ := Option.ne_none_iff_exists'.1 (mt rateOfNat_eq_none_iff.1 hrate)
  unfold readEntry
  simp only [hrate]
  rw [if_neg hph, if_neg hcode, if_neg (mt mem_codesBefore.1 hdup)]
  have hpersec := rateOfNat_eq_some_iff.1 hrate
  have hbit := imageByte_getLsbD image (entryStart image strap k + 6) 0
  by_cases hrole : imageField image (entryStart image strap k + 4) 1 = 0
  · rw [hzero hrole]
    exact ⟨_, rfl, rfl, hpersec, rfl, iff_of_true rfl hrole, by simp [hrole], by rw [hbit]⟩
  · have hrole : imageField image (entryStart image strap k + 4) 1 = 1 := by omega
    obtain ⟨p, hp, hok⟩ := hone hrole fun hbad => hprim ⟨hrole, hbad⟩
    rw [hok]
    refine ⟨_, rfl, rfl, hpersec, rfl, by simp [hrole], fun q => ?_, by rw [hbit]⟩
    simp [hrole, hp, Fin.ext_iff]

/-! ## The directory (R196) -/

theorem entryStart_succ (image : List Byte) (strap : Station) (k : Nat) :
    entryStart image strap k + 7 = entryStart image strap (k + 1) := by
  unfold entryStart; omega

theorem codesBefore_succ {e : Entry} {done : List Entry}
    (hdone : done.map (·.code) = codesBefore image strap k)
    (he : EntryAt image (entryStart image strap k) e) :
    (done ++ [e]).map (·.code) = codesBefore image strap (k + 1) := by
  obtain ⟨hcode, -⟩ := he
  rw [List.map_append, hdone, codesBefore, codesBefore, List.range_succ, List.map_append]
  simp [hcode]

/-- The directory's reading stops at the first position where a check fails. -/
theorem readEntries_fails {pos : Nat} {done : List Entry} (hpos : pos ≤ k) (hk : k < pos + n)
    (hdone : done.map (·.code) = codesBefore image strap pos)
    (hbefore : ∀ j, pos ≤ j → j < k → AllPass (entryChecks image strap j))
    (hfail : FirstFails (entryChecks image strap k) reason) :
    readEntries image strap (stationsOf (imageField image 8 2)) n pos (entryStart image strap pos) done
      = .error (reason, .position k) := by
  induction n generalizing pos done with
  | zero => omega
  | succ n ih =>
    rw [readEntries, hdone]
    rcases Nat.eq_or_lt_of_le hpos with rfl | hlt
    · rw [readEntry_fails hfail]
    · obtain ⟨e, hread, he⟩ := readEntry_passes (hbefore pos le_rfl hlt)
      rw [hread, entryStart_succ]
      exact ih hlt (by omega) (codesBefore_succ hdone he) fun j hj => hbefore j (by omega)

/-- A directory whose entries all pass is read as the image has it. -/
theorem readEntries_passes {pos : Nat} {done : List Entry}
    (hdone : done.map (·.code) = codesBefore image strap pos)
    (hall : ∀ j, pos ≤ j → j < pos + n → AllPass (entryChecks image strap j)) :
    ∃ entries, readEntries image strap (stationsOf (imageField image 8 2)) n pos
        (entryStart image strap pos) done = .ok (done ++ entries) ∧ entries.length = n ∧
      ∀ k, ∀ e ∈ entries[k]?, EntryAt image (entryStart image strap (pos + k)) e := by
  induction n generalizing pos done with
  | zero => exact ⟨[], by rw [List.append_nil]; rfl, rfl, by simp⟩
  | succ n ih =>
    obtain ⟨e, hread, he⟩ := readEntry_passes (hall pos le_rfl (by omega))
    obtain ⟨entries, hok, hlen, hat⟩ := ih (codesBefore_succ hdone he)
      fun j hj hjn => hall j (by omega) (by omega)
    refine ⟨e :: entries, ?_, by rw [List.length_cons, hlen], fun k => ?_⟩
    · rw [readEntries, hdone, hread, entryStart_succ]
      simpa using hok
    · cases k with
      | zero => simpa using he
      | succ k => rw [List.getElem?_cons_succ, show pos + (k + 1) = pos + 1 + k by omega]; exact hat k

/-! ## The monitors (R197) -/

/-- The monitor is what the image has at an offset (R218). -/
def MonitorAt (image : List Byte) (at_ : Nat) (x : MonitorSettings) : Prop :=
  [Quantity.freq, .rocof, .mag0][imageField image at_ 1]? = some x.quantity ∧
  x.threshold = (BitVec.ofNat 32 (imageField image (at_ + 1) 4)).toInt ∧
  x.base = BitVec.ofNat 16 (imageField image (at_ + 5) 2) ∧
  x.mask = BitVec.ofNat 16 (imageField image (at_ + 7) 2) ∧
  [EdgeMode.off, .rising, .falling, .both][imageField image (at_ + 9) 1]? = some x.mode ∧
  x.blanking = imageField image (at_ + 10) 1

/-- The monitor of a quantity and an edge mode, its other settings from an offset (R218). -/
def monitorOf (image : List Byte) (at_ : Nat) (q : Quantity) (mode : EdgeMode) : MonitorSettings :=
  { quantity := q, threshold := signed32 (imageField image (at_ + 1) 4)
    base := BitVec.ofNat 16 (imageField image (at_ + 5) 2)
    mask := BitVec.ofNat 16 (imageField image (at_ + 7) 2)
    mode := mode, blanking := imageField image (at_ + 10) 1 }

theorem monitorOf_monitorAt {q : Quantity} {mode : EdgeMode}
    (hq : quantityOf (imageField image off 1) = some q)
    (hmode : edgeModeOf (imageField image (off + 9) 1) = some mode) :
    MonitorAt image off (monitorOf image off q mode) :=
  ⟨(quantityOf_eq _).symm.trans hq, rfl, rfl, rfl, (edgeModeOf_eq _).symm.trans hmode, rfl⟩

/-- A monitor's bytes are listed where they encode a quantity and an edge mode. -/
theorem monitorListed_iff : monitorListed image off ↔
    (∃ q, quantityOf (imageField image off 1) = some q) ∧
      ∃ mode, edgeModeOf (imageField image (off + 9) 1) = some mode := by
  rw [monitorListed, ← Option.ne_none_iff_exists', ← Option.ne_none_iff_exists', quantityOf_eq,
    edgeModeOf_eq, ne_eq, ne_eq, List.getElem?_eq_none_iff, List.getElem?_eq_none_iff, not_le, not_le]
  exact and_congr Nat.lt_succ_iff.symm Nat.lt_succ_iff.symm

/-- The monitors' reading stops at the first one with a value not listed. -/
theorem readMonitors_fails {done : List MonitorSettings} (hik : i ≤ k) (hk : k < i + n)
    (hbefore : ∀ j, i ≤ j → j < k → monitorListed image (off + 11 * j))
    (hfail : ¬monitorListed image (off + 11 * k)) :
    readMonitors image n i (off + 11 * i) done = .error (.encodingFault, .monitor k) := by
  induction n generalizing i done with
  | zero => omega
  | succ n ih =>
    rw [readMonitors]
    split
    · next q mode hq hmode =>
      rcases Nat.eq_or_lt_of_le hik with rfl | hlt
      · exact absurd (monitorListed_iff.2 ⟨⟨q, hq⟩, mode, hmode⟩) hfail
      · rw [show off + 11 * i + 11 = off + 11 * (i + 1) by omega]
        exact ih hlt (by omega) fun j hj => hbefore j (by omega)
    · next hnone =>
      rcases Nat.eq_or_lt_of_le hik with rfl | hlt
      · rfl
      · obtain ⟨⟨q, hq⟩, mode, hmode⟩ := monitorListed_iff.1 (hbefore i le_rfl hlt)
        exact absurd hmode (hnone q mode hq)

/-- Monitors that all have listed values are read as the image has them. -/
theorem readMonitors_passes {done : List MonitorSettings}
    (hall : ∀ j, i ≤ j → j < i + n → monitorListed image (off + 11 * j)) :
    ∃ monitors, readMonitors image n i (off + 11 * i) done = .ok (done ++ monitors) ∧
      monitors.length = n ∧ ∀ k, ∀ x ∈ monitors[k]?, MonitorAt image (off + 11 * (i + k)) x := by
  induction n generalizing i done with
  | zero => exact ⟨[], by rw [List.append_nil]; rfl, rfl, by simp⟩
  | succ n ih =>
    obtain ⟨⟨q, hq⟩, mode, hmode⟩ := monitorListed_iff.1 (hall i le_rfl (by omega))
    obtain ⟨monitors, hok, hlen, hat⟩ := ih (i := i + 1)
      (done := done ++ [monitorOf image (off + 11 * i) q mode])
      fun j hj hjn => hall j (by omega) (by omega)
    rw [readMonitors]
    simp only [hq, hmode]
    refine ⟨monitorOf image (off + 11 * i) q mode :: monitors, ?_, by rw [List.length_cons, hlen],
      fun k => ?_⟩
    · rw [show off + 11 * i + 11 = off + 11 * (i + 1) by omega,
        List.append_cons done _ monitors]
      exact hok
    · cases k with
      | zero =>
        rintro x ⟨⟩
        exact monitorOf_monitorAt hq hmode
      | succ k => rw [List.getElem?_cons_succ, show i + (k + 1) = i + 1 + k by omega]; exact hat k

/-! ## The section as a whole (R195 to R197) -/

/-- The number of entries this station's section declares (R218). -/
def declaredEntries (strap : Station) (image : List Byte) : Nat :=
  imageField image (sectionStart image strap.val + 2) 1

/-- The sections up to this station's one end inside the image, less its CRC-32 (R195). -/
def SectionsFit (strap : Station) (image : List Byte) : Prop :=
  ∀ i, i ≤ strap.val → sectionStart image (i + 1) ≤ imageField image 3 4 - 4

/-- Every check on this station's section passes (R195 to R197). -/
def SectionPasses (strap : Station) (image : List Byte) : Prop :=
  SectionsFit strap image ∧ declaredEntries strap image ≤ 48 ∧
  imageField image (sectionStart image strap.val) 2 = 91 + 7 * declaredEntries strap image ∧
  (∀ k, k < declaredEntries strap image → AllPass (entryChecks image strap k)) ∧
  ∀ m, m < 8 → monitorListed image (entryStart image strap (declaredEntries strap image) + 11 * m)

theorem readSections_passes_end (hi : i ≤ strap.val)
    (hfit : ∀ j, j < i → sectionStart image (j + 1) ≤ imageField image 3 4 - 4)
    (hend : imageField image 3 4 - 4 < sectionStart image (i + 1)) :
    readSections strap image = .error (.lengthFault, ⟨i, .none⟩) := by
  have hfind := findSection_passes_end (i := 0) (n := strap.val) (Nat.zero_le i) (by omega)
    (fun j _ => hfit j) hend
  unfold readSections
  rw [show findSection image (imageField image 3 4 - 4) strap.val 0 Config.firstSection =
    .error ⟨i, .none⟩ from hfind]

/-- Where the sections fit, this station's one decides the load. -/
theorem readSections_of_fit {result : Except (FaultReason × FaultItem) (List Entry × List MonitorSettings)}
    (h : SectionsFit strap image)
    (hread : readSection image strap (stationsOf (imageField image 8 2))
      (sectionStart image strap.val) = result) :
    readSections strap image = result.mapError (fun e => (e.1, ⟨strap.val, e.2⟩)) := by
  have hfind := findSection_fits (image := image) (last := imageField image 3 4 - 4) (i := 0)
    (n := strap.val) fun j _ hj => h j (by omega)
  rw [Nat.zero_add] at hfind
  unfold readSections
  rw [show findSection image (imageField image 3 4 - 4) strap.val 0 Config.firstSection =
    .ok (sectionStart image strap.val) from hfind]
  simp only [hread]
  cases result <;> rfl

/-! ### The checks on the section, in order -/

section
variable (hcount : declaredEntries strap image ≤ 48)
  (hlen : imageField image (sectionStart image strap.val) 2 = 91 + 7 * declaredEntries strap image)

theorem readSection_count (stations : List Station) (h : 48 < declaredEntries strap image) :
    readSection image strap stations (sectionStart image strap.val) = .error (.countFault, .none) :=
  if_pos h

include hcount

theorem readSection_length (stations : List Station)
    (h : imageField image (sectionStart image strap.val) 2 ≠ 91 + 7 * declaredEntries strap image) :
    readSection image strap stations (sectionStart image strap.val) = .error (.lengthFault, .none) :=
  (if_neg hcount.not_gt).trans (if_pos h)

include hlen

theorem readSection_of_entries_error {stations : List Station} {e : FaultReason × FaultItem}
    (hread : readEntries image strap stations (declaredEntries strap image) 0
      (entryStart image strap 0) [] = .error e) :
    readSection image strap stations (sectionStart image strap.val) = .error e := by
  refine (if_neg hcount.not_gt).trans ((if_neg (not_not_intro hlen)).trans ?_)
  split
  · next h => cases h.symm.trans hread; rfl
  · next h => cases h.symm.trans hread

theorem readSection_of_entries_ok {stations : List Station} {entries : List Entry}
    {result : Except (FaultReason × FaultItem) (List MonitorSettings)}
    (hread : readEntries image strap stations (declaredEntries strap image) 0
      (entryStart image strap 0) [] = .ok entries)
    (hmon : readMonitors image 8 0 (entryStart image strap (declaredEntries strap image)) [] =
      result) :
    readSection image strap stations (sectionStart image strap.val) =
      result.map (fun monitors => (entries, monitors)) := by
  refine (if_neg hcount.not_gt).trans ((if_neg (not_not_intro hlen)).trans ?_)
  split
  · next h => cases h.symm.trans hread
  · next h =>
    cases h.symm.trans hread
    subst hmon
    split
    · next h => exact (congrArg (Except.map _) h).symm
    · next h => exact (congrArg (Except.map _) h).symm

theorem readSection_entry (hk : k < declaredEntries strap image)
    (hbefore : ∀ j, j < k → AllPass (entryChecks image strap j))
    (hfail : FirstFails (entryChecks image strap k) reason) :
    readSection image strap (stationsOf (imageField image 8 2)) (sectionStart image strap.val) =
      .error (reason, .position k) :=
  readSection_of_entries_error hcount hlen
    (readEntries_fails (Nat.zero_le k) (by omega) rfl (fun j _ => hbefore j) hfail)

variable (hentries : ∀ k, k < declaredEntries strap image → AllPass (entryChecks image strap k))
include hentries

theorem readSection_monitor {m : Nat} (hm : m < 8)
    (hbefore : ∀ j, j < m →
      monitorListed image (entryStart image strap (declaredEntries strap image) + 11 * j))
    (hfail : ¬monitorListed image (entryStart image strap (declaredEntries strap image) + 11 * m)) :
    readSection image strap (stationsOf (imageField image 8 2)) (sectionStart image strap.val) =
      .error (.encodingFault, .monitor m) := by
  obtain ⟨entries, hread, -, -⟩ := readEntries_passes (n := declaredEntries strap image) (pos := 0)
    (done := []) rfl fun j _ hj => hentries j (by omega)
  have hmon := readMonitors_fails (n := 8) (i := 0) (done := []) (Nat.zero_le m) (by omega)
    (fun j _ => hbefore j) hfail
  exact readSection_of_entries_ok hcount hlen hread hmon

theorem readSection_passes (hmonitors : ∀ m, m < 8 →
      monitorListed image (entryStart image strap (declaredEntries strap image) + 11 * m)) :
    ∃ entries monitors, readSection image strap (stationsOf (imageField image 8 2))
        (sectionStart image strap.val) = .ok (entries, monitors) ∧
      entries.length = declaredEntries strap image ∧ monitors.length = 8 ∧
      (∀ k, ∀ e ∈ entries[k]?, EntryAt image (entryStart image strap k) e) ∧
      ∀ m, ∀ x ∈ monitors[m]?, MonitorAt image
        (entryStart image strap (declaredEntries strap image) + 11 * m) x := by
  obtain ⟨entries, hread, hel, hat⟩ := readEntries_passes (n := declaredEntries strap image) (pos := 0)
    (done := []) rfl fun j _ hj => hentries j (by omega)
  obtain ⟨monitors, hmon, hml, hmat⟩ := readMonitors_passes (n := 8) (i := 0) (done := [])
    (off := entryStart image strap (declaredEntries strap image)) fun j _ hj => hmonitors j (by omega)
  simp only [Nat.zero_add] at hat hmat
  exact ⟨entries, monitors, readSection_of_entries_ok hcount hlen hread hmon, hel, hml, hat, hmat⟩

end

/-- Below a bound, what does not hold of all numbers fails first at one of them. -/
theorem first_failing {P : Nat → Prop} {b : Nat} (h : ¬∀ k, k < b → P k) :
    ∃ k, k < b ∧ ¬P k ∧ ∀ j, j < k → P j := by
  classical
  simp only [not_forall, exists_prop] at h
  obtain ⟨hlt, hfail⟩ := Nat.find_spec h
  exact ⟨Nat.find h, hlt, hfail,
    fun j hj => not_not.1 fun hn => Nat.find_min h hj ⟨hj.trans hlt, hn⟩⟩

/-- The reading of a section that fails a check is an error. -/
theorem readSections_of_not_passes (h : ¬SectionPasses strap image) :
    ∃ e, readSections strap image = .error e := by
  by_cases hfit : SectionsFit strap image
  swap
  · obtain ⟨i, hi, hend, hbefore⟩ := first_failing
      (P := fun i => sectionStart image (i + 1) ≤ imageField image 3 4 - 4) (b := strap.val + 1)
      fun hall => hfit fun i hi => hall i (by omega)
    exact ⟨_, readSections_passes_end (by omega) hbefore (not_le.1 hend)⟩
  by_cases hcount : declaredEntries strap image ≤ 48
  swap
  · exact ⟨_, readSections_of_fit hfit (readSection_count _ (by omega))⟩
  by_cases hlen : imageField image (sectionStart image strap.val) 2 =
      91 + 7 * declaredEntries strap image
  swap
  · exact ⟨_, readSections_of_fit hfit (readSection_length hcount _ hlen)⟩
  by_cases hentries : ∀ k, k < declaredEntries strap image → AllPass (entryChecks image strap k)
  swap
  · obtain ⟨k, hk, hfail, hbefore⟩ := first_failing hentries
    obtain ⟨reason, hfail⟩ := firstFails_of_not_allPass hfail
    exact ⟨_, readSections_of_fit hfit (readSection_entry hcount hlen hk hbefore hfail)⟩
  obtain ⟨m, hm, hfail, hbefore⟩ := first_failing fun hmon => h ⟨hfit, hcount, hlen, hentries, hmon⟩
  exact ⟨_, readSections_of_fit hfit (readSection_monitor hcount hlen hentries hm hbefore hfail)⟩

end Sys2Proof.Machine

/-! The obligation on a load: what its report holds and what it hands over (R191 to R197, R218). -/

namespace Sys2Proof.Machine

open Sys2Proof

variable {image : List Byte} {strap : Station} {k : Nat} {reason : FaultReason} {place : FaultPlace}

/-! ## The load report (R191, R194) -/

/-- A load that reaches the sections reports the digest and the clamps (R191, R194). -/
theorem load_report (h : ImagePasses strap image) :
    (load strap image).report.digest = some (sharedDigest image) ∧
      (load strap image).report.clamped = readClamps image := by
  cases hs : readSections strap image with
  | error e =>
    rw [load_of_section_error h hs]
    exact ⟨rfl, rfl⟩
  | ok held =>
    obtain ⟨rate, edge, -, -, hl⟩ := load_of_section_ok h hs
    rw [hl]
    exact ⟨rfl, rfl⟩

/-- A check of the sections that fails gives the report its reason and its place. -/
theorem load_report_of_error (h : ImagePasses strap image)
    (hs : readSections strap image = .error (reason, place)) :
    (load strap image).report.reason = reason ∧ (load strap image).report.place = some place := by
  rw [load_of_section_error h hs]
  exact ⟨rfl, rfl⟩

/-- A section that fails a check gives the report the check's reason, and its place in the section. -/
theorem load_report_of_section {item : FaultItem} (h : ImagePasses strap image)
    (hfit : SectionsFit strap image)
    (hread : readSection image strap (stationsOf (imageField image 8 2))
      (sectionStart image strap.val) = .error (reason, item)) :
    (load strap image).report.reason = reason ∧
      (load strap image).report.place = some ⟨strap.val, item⟩ :=
  load_report_of_error h (readSections_of_fit hfit hread)

/-- Just the settings out of their ranges are reported (R194). -/
theorem readClamps_iff (image : List Byte) :
    ((readClamps image).defaultWait = true ↔ 2000 < imageField image 10 2) ∧
    ((readClamps image).grace = true ↔ 500 < imageField image 12 2) ∧
    ((readClamps image).silenceLimit = true ↔
      imageField image 14 2 < 20 ∨ 2000 < imageField image 14 2) ∧
    ((readClamps image).holdoverLimit = true ↔
      imageField image 16 2 < 1 ∨ 3600 < imageField image 16 2) ∧
    ((readClamps image).blanking = true ↔
      imageField image 22 2 < 100 ∨ 990 < imageField image 22 2) ∧
    ((readClamps image).lockTolerance = true ↔ 600 < imageField image 24 2) ∧
    ((readClamps image).stepLimit = true ↔
      imageField image 26 2 ≤ min (imageField image 24 2) 600 ∨ 30000 < imageField image 26 2) ∧
    ((readClamps image).snapTolerance = true ↔ 600 < imageField image 28 2) ∧
    ((readClamps image).holdLimit = true ↔ 3 < imageField image 30 1) ∧
    ((readClamps image).earlyLimit = true ↔ 10000 < imageField image 31 2) ∧
    ((readClamps image).accuracyLimit = true ↔ 15 < imageField image 33 1) := by
  refine ⟨clamps_zero_iff, clamps_zero_iff, clamps_iff, clamps_iff, clamps_iff, clamps_zero_iff, ?_,
    clamps_zero_iff, clamps_zero_iff, clamps_zero_iff, clamps_zero_iff⟩
  rw [← clamp_zero, ← Nat.lt_succ_iff]
  exact clamps_iff

/-! ## What a good load hands over (R191, R196) -/

/-- The section of a load that ends in LOADED has passed every check. -/
theorem load_loaded {w : Working} (h : (load strap image).working = some w) :
    ImagePasses strap image ∧ SectionPasses strap image := by
  by_cases hp : ImagePasses strap image
  · refine ⟨hp, ?_⟩
    by_contra hs
    obtain ⟨⟨reason, place⟩, he⟩ := readSections_of_not_passes hs
    rw [load_of_section_error hp he] at h
    cases h
  · obtain ⟨reason, he⟩ := load_of_not_passes hp
    rw [he] at h
    cases h

/-- A load that passes every check hands over what the image has (R191). -/
theorem load_of_passes (hp : ImagePasses strap image) (hs : SectionPasses strap image) :
    ∃ rate edge entries monitors, rate.perSecond = imageField image 7 1 ∧
      [EdgeSelect.off, .rising, .falling][imageField image 19 1]? = some edge ∧
      load strap image = ⟨⟨.none, none, readClamps image, some (sharedDigest image)⟩,
        some ⟨readShared image rate edge, entries, monitors⟩⟩ ∧
      entries.length = declaredEntries strap image ∧ monitors.length = 8 ∧
      (∀ k, ∀ e ∈ entries[k]?, EntryAt image (entryStart image strap k) e) ∧
      ∀ m, ∀ x ∈ monitors[m]?, MonitorAt image
        (entryStart image strap (declaredEntries strap image) + 11 * m) x := by
  obtain ⟨hfit, hcount, hlen, hentries, hmonitors⟩ := hs
  obtain ⟨entries, monitors, hread, hat⟩ := readSection_passes hcount hlen hentries hmonitors
  obtain ⟨rate, edge, hrate, hedge, hl⟩ := load_of_section_ok hp (readSections_of_fit hfit hread)
  exact ⟨rate, edge, entries, monitors, rateOfNat_eq_some_iff.1 hrate,
    (edgeSelectOf_eq _).symm.trans hedge, hl, hat⟩

/-- An entry that passes the checks of R196 is in range, and a SECONDARY one names another station of
the set. -/
theorem entryAt_in_range {e : Entry} (hall : AllPass (entryChecks image strap k))
    (he : EntryAt image (entryStart image strap k) e) :
    1 ≤ e.code ∧ e.code ≤ 65534 ∧ 1 ≤ e.phasors ∧ e.phasors ≤ 12 ∧
      ∀ p, e.role = .secondary p → p ∈ stationsOf (imageField image 8 2) ∧ p ≠ strap := by
  simp only [entryChecks, allPass_cons] at hall
  obtain ⟨-, hph, hcode, -, -, hprim, -⟩ := hall
  obtain ⟨hc, -, hp, -, hsec, -⟩ := he
  have hlt := imageField_lt image (entryStart image strap k) 2
  refine ⟨by omega, by omega, by omega, by omega, fun p hr => ?_⟩
  obtain ⟨hone, hidx⟩ := (hsec p).1 hr
  rw [hidx] at hprim
  rw [mem_stationsOf]
  refine ⟨?_, fun h => hprim ⟨hone, .inl (congrArg Fin.val h)⟩⟩
  by_contra hbit
  exact hprim ⟨hone, .inr (by simpa using hbit)⟩

/-- Entries that pass the checks of R196 have distinct codes. -/
theorem codes_nodup {entries : List Entry}
    (hall : ∀ k, k < entries.length → AllPass (entryChecks image strap k))
    (hat : ∀ k, ∀ e ∈ entries[k]?, EntryAt image (entryStart image strap k) e) :
    (entries.map (·.code)).Nodup := by
  have hcode : ∀ k (hk : k < entries.length), entries[k].code =
      imageField image (entryStart image strap k) 2 := by
    intro k hk
    obtain ⟨hc, -⟩ := hat k entries[k] (by simp)
    exact hc
  rw [List.Nodup, List.pairwise_iff_getElem]
  intro i j hi hj hij he
  rw [List.length_map] at hi hj
  rw [List.getElem_map, List.getElem_map, hcode i hi, hcode j hj] at he
  have hpass := hall j hj
  simp only [entryChecks, allPass_cons] at hpass
  obtain ⟨-, -, -, hdup, -⟩ := hpass
  exact hdup ⟨i, hij, he⟩

/-- A monitor of the image has a blanking of one byte. -/
theorem monitorAt_blanking_le {off : Nat} {x : MonitorSettings} (h : MonitorAt image off x) :
    x.blanking ≤ 255 := by
  obtain ⟨-, -, -, -, -, hb⟩ := h
  have := imageField_lt image (off + 10) 1
  omega

/-- Settles O56: the checks of R192 and R193 in their order, then the sections, then the clamps and
what is handed over. -/
theorem loadJudgesTheImageInOrder : Obligations.LoadJudgesTheImageInOrder := by
  unfold Obligations.LoadJudgesTheImageInOrder
  refine ⟨?_, ?_, ?_⟩
  · rintro strap image length rfl
    refine ⟨fun h => load_of_imageFault (imageFault_marker h), fun hm hv =>
      ⟨fun h => load_of_imageFault (imageFault_length hm hv h), fun hlo hhi =>
      ⟨fun h => load_of_imageFault (imageFault_crc hm hv hlo hhi h), fun hc => ?_⟩⟩⟩
    have hf := imageFault_eq_none_iff.2 ⟨hm, hv, hlo, hhi, hc⟩
    refine ⟨load_of_slotRate hf, fun hr => ?_⟩
    obtain ⟨rate, hrate⟩ := Option.ne_none_iff_exists'.1 (mt rateOfNat_eq_none_iff.1 (not_not_intro hr))
    refine ⟨load_of_edgeSelect hf hrate, fun he hbit => ?_⟩
    obtain ⟨edge, hedge⟩ := Option.ne_none_iff_exists'.1 (mt edgeSelectOf_eq_none_iff.1 he.not_gt)
    exact load_of_station hf hrate hedge (by simp [mem_stationsOf, hbit])
  · rintro strap image rep count last hp rfl rfl rfl
    refine ⟨(load_report hp).1, fun i hi hfit hend => ?_, fun hfit => ⟨fun hc => ?_, fun hc hl => ?_,
      fun hc hl => ⟨fun k reason hk hbefore hfail => ?_, fun hentries =>
      ⟨fun m hm hbefore hfail => ?_, fun hmonitors => ?_⟩⟩⟩⟩
    · exact load_report_of_error hp
        (readSections_passes_end hi (fun j hj => hfit (j + 1) (by omega)) hend)
    · exact load_report_of_section hp hfit (readSection_count _ hc)
    · exact load_report_of_section hp hfit (readSection_length hc _ hl)
    · exact load_report_of_section hp hfit (readSection_entry hc hl hk hbefore hfail)
    · exact load_report_of_section hp hfit (readSection_monitor hc hl hentries hm hbefore hfail)
    · obtain ⟨rate, edge, entries, monitors, -, -, hload, hel, hml, hat, hmat⟩ :=
        load_of_passes hp ⟨hfit, hc, hl, hentries, hmonitors⟩
      rw [hload]
      refine ⟨rfl, rfl, _, rfl, hel, hml, ?_, ?_⟩
      · rintro k e he at_ rfl
        exact hat k e he
      · rintro m x hx at_ rfl
        exact hmat m x hx
  · rintro strap image rep o tol hload rfl
    have hrep : rep = (load strap image).report := by rw [hload]
    have ho : o = (load strap image).working := by rw [hload]
    refine ⟨fun at_ n h => ⟨congrArg beNat (imageBytes_inside h), imageBytes_inside h⟩,
      fun at_ n h => imageBytes_past n h, fun hd => ?_, fun hd => ?_, fun w hw => ?_⟩
    · by_cases hp : ImagePasses strap image
      · rw [hrep, (load_report hp).1] at hd
        cases hd
      · obtain ⟨reason, he⟩ := load_of_not_passes hp
        rw [hrep, he]
        rfl
    · have hp : ImagePasses strap image := by
        by_contra hp
        obtain ⟨reason, he⟩ := load_of_not_passes hp
        rw [hrep, he] at hd
        exact hd rfl
      rw [hrep, (load_report hp).2]
      exact readClamps_iff image
    · obtain ⟨hp, hs⟩ := load_loaded (ho.symm.trans hw)
      obtain ⟨rate, edge, entries, monitors, hrate, hedge, hl, hel, hml, hat, hmat⟩ :=
        load_of_passes hp hs
      obtain ⟨-, hcount, -, hentries, -⟩ := hs
      obtain ⟨-, -, -, hstrap⟩ := imagePasses_iff.1 hp
      rw [hl] at hload
      cases hload
      cases hw
      have htol : clamp 0 600 (imageField image 24 2) = min (imageField image 24 2) 600 :=
        clamp_zero _ _
      refine ⟨hrate, stationsOf_pairwise _, fun i => mem_stationsOf, hstrap, clamp_zero _ _,
        clamp_zero _ _, clamp_eq (by decide) _, clamp_eq (by decide) _, ?_, hedge, rfl, ?_,
        clamp_eq (by decide) _, htol, ?_, clamp_zero _ _, clamp_zero _ _, clamp_zero _ _,
        clamp_zero _ _, rfl, rfl, hel ▸ hcount, codes_nodup (hel ▸ hentries) hat, fun e he => ?_, hml,
        fun x hx => ?_⟩
      · rw [← imageByte_getLsbD]
        rfl
      · exact Nat.le_of_lt_succ (imageField_lt image 20 2)
      · rw [← htol]
        exact clamp_eq (by rw [htol]; omega) _
      · obtain ⟨k, hk⟩ := List.mem_iff_getElem?.1 he
        have hlt : k < entries.length := (List.getElem?_eq_some_iff.1 hk).1
        exact entryAt_in_range (hentries k (hel ▸ hlt)) (hat k e hk)
      · obtain ⟨m, hm⟩ := List.mem_iff_getElem?.1 hx
        exact monitorAt_blanking_le (hmat m x hm)

end Sys2Proof.Machine

/-! How the held records move (R22, R65, R67, R71, R79, R85, R106, R138, R146): what of a record stays and
what may only grow, and that every operation of the slot table keeps the table's law and moves its records
forward. -/

namespace Sys2Proof.Machine

open Sys2Proof

variable {b s t u : State} {r r' p q : Record} {rs before after : List Record} {tag : Tag}

/-! ## A record on its way -/

theorem Record.movesTo_refl (r : Record) : r.movesTo r :=
  ⟨rfl, rfl, rfl, rfl, le_rfl, id, id, fun _ _ => rfl, fun _ => ⟨rfl, rfl, fun _ h => h⟩,
    fun _ => ⟨rfl, rfl⟩⟩

theorem Record.movesTo.trans (hrp : r.movesTo p) (hpq : p.movesTo q) : r.movesTo q := by
  obtain ⟨hc, hg, he, ha, hrank, hcp, hgp, hatt, hlate, hdrain⟩ := hrp
  obtain ⟨hc', hg', he', ha', hrank', hcp', hgp', hatt', hlate', hdrain'⟩ := hpq
  refine ⟨hc'.trans hc, hg'.trans hg, he'.trans he, ha'.trans ha, hrank'.trans hrank, hcp' ∘ hcp,
    hgp' ∘ hgp, fun i hi => ?_, fun hr => ?_, fun hr => ?_⟩
  · have hp := hatt i hi
    exact (hatt' i (hp ▸ hi)).trans hp
  · obtain ⟨hcells, hmarks, hexp⟩ := hlate hr
    obtain ⟨hcells', hmarks', hexp'⟩ := hlate' (hrank.trans hr)
    exact ⟨hcells'.trans hcells, hmarks'.trans hmarks, fun i hi => hexp i (hexp' i hi)⟩
  · obtain ⟨hatts, hexp⟩ := hdrain hr
    obtain ⟨hatts', hexp'⟩ := hdrain' (rank_zero_iff.1 (Nat.le_zero.1 (hrank.trans (by
      simp [hr, RecordState.rank]))))
    exact ⟨hatts'.trans hatts, hexp'.trans hexp⟩

/-- A record that only enters a later state moves forward. -/
theorem Record.movesTo_state {st : RecordState} (h : st.rank ≤ r.state.rank) :
    r.movesTo { r with state := st } := by
  obtain ⟨hc, hg, he, ha, -, rest⟩ := r.movesTo_refl
  exact ⟨hc, hg, he, ha, h, rest⟩

theorem Record.movesTo_markClose (r : Record) : r.movesTo r.markClose := by
  obtain ⟨hc, hg, he, ha, hrank, -, rest⟩ := r.movesTo_refl
  exact ⟨hc, hg, he, ha, hrank, fun _ => rfl, rest⟩

/-- A record with its gathering deadline passed. -/
def Record.markGather (r : Record) : Record := { r with gatherPassed := true }

theorem Record.movesTo_markGather (r : Record) : r.movesTo r.markGather := by
  obtain ⟨hc, hg, he, ha, hrank, hcp, -, rest⟩ := r.movesTo_refl
  exact ⟨hc, hg, he, ha, hrank, hcp, fun _ => rfl, rest⟩

/-- Until its close has completed a record's cells, marks and expected set are still made. -/
theorem Record.movesTo_of_late {st : RecordState} {cells : Option (List Cell)} {marks : List Mark}
    {expected : Option (List Station)} (hl : r.late = true) (h : st.rank ≤ r.state.rank) :
    r.movesTo { r with state := st, cells := cells, marks := marks, expected := expected } := by
  have hrank : 2 ≤ r.state.rank := of_decide_eq_true hl
  exact ⟨rfl, rfl, rfl, rfl, h, id, id, fun _ _ => rfl, fun hr => absurd hr (by omega),
    fun hr => absurd (rank_zero_iff.2 hr) (by omega)⟩

/-- A record that waits for one station fewer. -/
def Record.unexpecting (i : Station) (r : Record) : Record :=
  { r with expected := r.expected.map (·.filter (· ≠ i)) }

theorem mem_unexpecting {i j : Station} : j ∈ (r.unexpecting i).expected.getD [] ↔
    j ∈ r.expected.getD [] ∧ j ≠ i := by
  cases h : r.expected <;> simp [Record.unexpecting, h]

theorem Record.movesTo_unexpecting (i : Station) (h : r.state ≠ .draining) :
    r.movesTo (r.unexpecting i) :=
  ⟨rfl, rfl, rfl, rfl, le_rfl, id, id, fun _ _ => rfl,
    fun _ => ⟨rfl, rfl, fun _ hj => (mem_unexpecting.1 hj).1⟩, fun hd => absurd hd h⟩

/-- A record with an attachment made. -/
def Record.attach (i : Station) (a : Attachment) (r : Record) : Record :=
  { r with attachments := r.attachments.set i a }

theorem attach_same (i : Station) (a : Attachment) (r : Record) :
    (r.attach i a).attachments[i] = a := by simp [Record.attach]

theorem attach_other {i j : Station} (a : Attachment) (r : Record) (h : j ≠ i) :
    (r.attach i a).attachments[j] = r.attachments[j] := by
  have hij : i.val ≠ j.val := fun he => h (Fin.ext he.symm)
  simp only [Record.attach, Fin.getElem_fin, Vector.getElem_set_ne _ _ hij]

theorem Record.movesTo_attach {i : Station} (a : Attachment) (hn : r.attachments[i] = .none)
    (hd : r.state ≠ .draining) : r.movesTo (r.attach i a) := by
  refine ⟨rfl, rfl, rfl, rfl, le_rfl, id, id, fun j hj => ?_, fun _ => ⟨rfl, rfl, fun _ h => h⟩,
    fun h => absurd h hd⟩
  exact attach_other a r fun he => hj (he ▸ hn)

/-! ## The records of one state and of the next -/

/-- From one state to the next a record that stays has moved forward, one that appears is newer than the
newest tag opened before, and no tag opened before becomes newer than the newest opened. -/
structure Carried (s t : State) : Prop where
  moves : ∀ r ∈ s.table.records, ∀ q ∈ t.table.records, q.tag = r.tag → r.movesTo q
  origin : ∀ q ∈ t.table.records, (∃ r ∈ s.table.records, r.tag = q.tag) ∨
    newerThanOpened s.clock.newest q.tag = true
  newest : ∀ x, newerThanOpened s.clock.newest x = false → newerThanOpened t.clock.newest x = false

/-- No record is newer than the newest tag opened, so a record that went does not come again. -/
theorem Carried.trans (hb : ∀ r ∈ b.table.records, newerThanOpened b.clock.newest r.tag = false)
    (h : Carried b s) (h' : Carried s t) : Carried b t where
  moves := by
    intro r hr q hq ht
    rcases h'.origin q hq with ⟨p, hp, hpq⟩ | hnew
    · exact (h.moves r hr p hp (hpq.trans ht)).trans (h'.moves p hp q hq hpq.symm)
    · rw [ht, h.newest _ (hb r hr)] at hnew
      cases hnew
  origin := by
    intro q hq
    rcases h'.origin q hq with ⟨p, hp, hpq⟩ | hnew
    · exact hpq ▸ h.origin p hp
    · by_contra hno
      obtain ⟨-, hold⟩ := not_or.1 hno
      rw [h.newest _ (by simpa using hold)] at hnew
      cases hnew
  newest := fun x hx => h'.newest x (h.newest x hx)

/-- In an ordered table a tag has one record. -/
theorem eq_of_tag_eq (ho : inOrder rs = true) (hr : r ∈ rs) (hq : q ∈ rs) (h : q.tag = r.tag) :
    q = r := by
  obtain ⟨before, after, rfl⟩ := List.append_of_mem hr
  obtain ⟨hb, ha⟩ := tag_ne_of_inOrder ho
  rcases List.mem_append.1 hq with hq | hq
  · exact absurd h (hb q hq)
  · rcases List.mem_cons.1 hq with hq | hq
    · exact hq
    · exact absurd h (ha q hq)

/-- Every record changed in its place. -/
theorem Carried.of_map {f : Record → Record} (ho : inOrder s.table.records = true)
    (ht : t.table.records = s.table.records.map f)
    (hf : ∀ r ∈ s.table.records, (f r).tag = r.tag ∧ r.movesTo (f r))
    (hn : t.clock.newest = s.clock.newest) : Carried s t where
  moves := by
    intro r hr q hq htag
    rw [ht] at hq
    obtain ⟨p, hp, rfl⟩ := List.mem_map.1 hq
    obtain ⟨hkeep, hmoves⟩ := hf p hp
    exact eq_of_tag_eq ho hr hp (hkeep.symm.trans htag) ▸ hmoves
  origin := by
    intro q hq
    rw [ht] at hq
    obtain ⟨p, hp, rfl⟩ := List.mem_map.1 hq
    exact .inl ⟨p, hp, (hf p hp).1.symm⟩
  newest := fun _ hx => hn ▸ hx

/-- Records taken out, the others as they were. -/
theorem Carried.of_sublist (ho : inOrder s.table.records = true)
    (ht : t.table.records.Sublist s.table.records) (hn : t.clock.newest = s.clock.newest) :
    Carried s t where
  moves := fun r hr _ hq htag => eq_of_tag_eq ho hr (ht.subset hq) htag ▸ r.movesTo_refl
  origin := fun _ hq => .inl ⟨_, ht.subset hq, rfl⟩
  newest := fun _ hx => hn ▸ hx

/-- One record changed in its place. -/
theorem Carried.of_replace (ho : inOrder s.table.records = true)
    (hs : s.table.records = before ++ r :: after) (ht : t.table.records = before ++ r' :: after)
    (htag : r'.tag = r.tag) (hm : r.movesTo r') (hn : t.clock.newest = s.clock.newest) :
    Carried s t := by
  refine .of_map (f := fun q => if q.tag = r.tag then r' else q) ho ?_ (fun q hq => ?_) hn
  · rw [ht, hs]
    exact (map_tag_split (hs ▸ ho) fun _ => r').symm
  · split
    · next h =>
      rw [eq_of_tag_eq ho (by simp [hs]) hq h]
      exact ⟨htag, hm⟩
    · exact ⟨rfl, q.movesTo_refl⟩

/-! ## The table's law and the records together -/

/-- From one state to the next, where the table's law held it holds, and the records have moved forward. -/
def Forward (s t : State) : Prop := TableLaw s → TableLaw t ∧ Carried s t

theorem TableLaw.held (h : TableLaw s) : HeldLaw s := (tableLaw_iff.1 h).1

theorem TableLaw.ordered (h : TableLaw s) : inOrder s.table.records = true := h.held.ordered

theorem HeldLaw.opened (h : HeldLaw s) :
    ∀ r ∈ s.table.records, newerThanOpened s.clock.newest r.tag = false := by
  obtain ⟨-, -, -, hn, -⟩ := h
  exact hn

theorem Forward.trans (h : Forward s t) (h' : Forward t u) : Forward s u := fun hs =>
  let ⟨ht, hst⟩ := h hs
  let ⟨hu, htu⟩ := h' ht
  ⟨hu, hst.trans hs.held.opened htu⟩

/-- The last stretch named first, so that the state between is read off the one it leads to. -/
theorem Forward.comp (h' : Forward t u) (h : Forward s t) : Forward s u := h.trans h'

/-- What the table's law and the motion of the records read of the node. -/
def State.slots (s : State) : List Record × Sequencer × Option Tag × Option Tag :=
  (s.table.records, s.table.sequencer, s.clock.newest, tagInDelivery s.assembler.state)

/-- The same slots, with nothing in delivery that was not before. -/
theorem Forward.of_same (hr : t.table.records = s.table.records)
    (hq : t.table.sequencer = s.table.sequencer) (hn : t.clock.newest = s.clock.newest)
    (hd : ∀ x ∈ tagInDelivery t.assembler.state, x ∈ tagInDelivery s.assembler.state) :
    Forward s t := by
  intro h
  refine ⟨?_, .of_sublist h.ordered (hr ▸ List.Sublist.refl _) hn⟩
  obtain ⟨hlen, hdrain, ho, hnew, hclosing, hdel⟩ := h
  unfold TableLaw
  rw [hr, hq, hn]
  exact ⟨hlen, hdrain, ho, hnew, hclosing, fun x hx => hdel x (hd x hx)⟩

theorem Forward.of_slots (h : t.slots = s.slots) : Forward s t := by
  obtain ⟨hr, h⟩ := Prod.mk.inj h
  obtain ⟨hq, h⟩ := Prod.mk.inj h
  obtain ⟨hn, hd⟩ := Prod.mk.inj h
  exact .of_same hr hq hn fun x hx => hd ▸ hx

theorem Forward.refl (s : State) : Forward s s := .of_slots rfl

/-- A frame that lists neither the table, the clock nor the assembler leaves the slots as they are. -/
theorem ChangesOnly.slots {ps : List Part} (h : ChangesOnly ps s t)
    (ht : Part.table ∉ ps := by decide) (hc : Part.clock ∉ ps := by decide)
    (ha : Part.assembler ∉ ps := by decide) : t.slots = s.slots := by
  have ht : t.table = s.table := h .table ht
  have hc : t.clock = s.clock := h .clock hc
  have ha : t.assembler = s.assembler := h .assembler ha
  unfold State.slots
  rw [ht, hc, ha]

theorem Forward.foldl {α : Type} {f : State → α → State} (h : ∀ s a, Forward s (f s a)) :
    ∀ (l : List α) (s : State), Forward s (l.foldl f s)
  | [], s => .refl s
  | a :: l, s => (h s a).trans (Forward.foldl h l (f s a))

/-! ## The updates -/

@[simp] theorem slots_setIntake (v : Intake) : (s.setIntake v).slots = s.slots := rfl
@[simp] theorem slots_setStreams (v : List Stream) : (s.setStreams v).slots = s.slots := rfl
@[simp] theorem slots_setLink (v : Link) : (s.setLink v).slots = s.slots := rfl
@[simp] theorem slots_setGather (v : Gather) : (s.setGather v).slots = s.slots := rfl
@[simp] theorem slots_setMonitors (v : Vector Monitor 8) : (s.setMonitors v).slots = s.slots := rfl
@[simp] theorem slots_raise (c : Cause) : (raise c s).slots = s.slots := rfl
@[simp] theorem slots_bump (c : Counter) : (bump c s).slots = s.slots := (bump_frame c).slots

/-- A change of the clock that keeps the newest tag opened. -/
theorem forward_setClock {v : Clock} (h : v.newest = s.clock.newest) : Forward s (s.setClock v) :=
  .of_same rfl rfl h fun _ hx => hx

theorem forward_setAssembler {v : Assembler}
    (h : ∀ x ∈ tagInDelivery v.state, x ∈ tagInDelivery s.assembler.state) :
    Forward s (s.setAssembler v) := .of_same rfl rfl rfl h

/-- Every record changed in its place, none of them in its tag or state. -/
theorem forward_mapRecords {f : Record → Record}
    (hf : ∀ r ∈ s.table.records, (f r).place = r.place ∧ r.movesTo (f r)) :
    Forward s (withRecords (s.table.records.map f) s) := by
  intro h
  refine ⟨h.of_places ?_ rfl rfl rfl, .of_map h.ordered rfl (fun r hr => ?_) rfl⟩
  · rw [withRecords_records, List.map_map]
    exact List.map_congr_left fun r hr => (hf r hr).1
  · obtain ⟨hplace, hm⟩ := hf r hr
    exact ⟨congrArg Prod.fst hplace, hm⟩

/-- The record of a tag changed in its place. -/
theorem forward_updateRecord {f : Record → Record}
    (hf : ∀ r ∈ s.table.records, r.tag = tag → (f r).place = r.place ∧ r.movesTo (f r)) :
    Forward s (updateRecord tag f s) := by
  refine forward_mapRecords fun r hr => ?_
  split
  · next h => exact hf r hr h
  · exact ⟨rfl, r.movesTo_refl⟩

/-! ## Judgement and composition (R79, R80, R156) -/

theorem forward_takeRecord : Forward s (takeRecord s) := by
  intro h
  refine ⟨tableLaw_iff.2 ⟨h.held.takeRecord, ?_⟩, .of_sublist h.ordered ?_ (by simp)⟩
  · rw [takeRecord_table]
    exact (tableLaw_iff.1 h).2
  · rw [takeRecord_table]

theorem leaveGathering_clock (r : Record) (s : State) : (leaveGathering r s).clock = s.clock :=
  leaveGathering_frame r .clock (by decide)

theorem HeldLaw.carried_leaveGathering (h : HeldLaw s)
    (hn : nextToLeave s.table.records = some r) : Carried s (Machine.leaveGathering r s) := by
  obtain ⟨before, after, hs, -, hg, -⟩ := nextToLeave_split hn
  have hrec := leaveGathering_records hs h.ordered
  have hnew : (Machine.leaveGathering r s).clock.newest = s.clock.newest := by
    rw [leaveGathering_clock]
  split at hrec
  · refine .of_replace h.ordered hs hrec rfl (Record.movesTo_state ?_) hnew
    simp [RecordState.rank]
  · refine .of_sublist h.ordered ?_ hnew
    rw [hrec, hs]
    exact (List.Sublist.refl _).append (List.sublist_cons_self _ _)

theorem HeldLaw.carried_judge (h : HeldLaw s) : Carried s (Machine.judge s) := by
  unfold Machine.judge
  generalize s.table.records.length = n
  induction n generalizing s with
  | zero => exact .of_sublist h.ordered (.refl _) rfl
  | succ n ih =>
    unfold judgeUpTo
    split
    · next r hr =>
      exact (h.carried_leaveGathering hr).trans h.opened (ih (h.leaveGathering hr))
    · exact .of_sublist h.ordered (.refl _) rfl

theorem leaveGathering_sequencer (r : Record) (s : State) :
    (leaveGathering r s).table.sequencer = s.table.sequencer := by
  unfold leaveGathering
  split
  · rw [takeRecord_table]
    rfl
  · rw [reportSkip, State.setAssembler_table, bump_table]
    rfl

theorem judge_sequencer : (judge s).table.sequencer = s.table.sequencer := by
  unfold judge
  generalize s.table.records.length = n
  induction n generalizing s with
  | zero => rfl
  | succ n ih =>
    unfold judgeUpTo
    split
    · rw [ih, leaveGathering_sequencer]
    · rfl

/-- The record in close is one whose close has not completed. -/
theorem countP_closing_late (rs : List Record) : rs.countP (fun q => q.state == .closing) =
    (rs.filter Record.late).countP (fun q => q.state == .closing) := by
  rw [List.countP_filter]
  refine List.countP_congr fun q _ => ?_
  cases hq : q.state <;> simp [Record.late, RecordState.rank, hq]

theorem forward_judge : Forward s (judge s) := by
  intro h
  obtain ⟨hheld, hcount⟩ := tableLaw_iff.1 h
  obtain ⟨hlaw, hlate⟩ := hheld.judge
  refine ⟨tableLaw_iff.2 ⟨hlaw, ?_⟩, hheld.carried_judge⟩
  rw [countP_closing_late, hlate, ← countP_closing_late, judge_sequencer, hcount]

/-! ## The local close (R73 to R78) -/

theorem forward_startClose (hm : startable s = some r) : Forward s (startClose r s) := by
  intro h
  obtain ⟨-, hold, -⟩ := startable_some hm
  obtain ⟨hr, ho⟩ := oldestOpen_some hold
  refine ⟨h.startClose hm, .of_map h.ordered (startClose_records r s) (fun q hq => ?_)
    (congrArg Clock.newest (startClose_frame r .clock (by decide)))⟩
  split
  · next ht =>
    rw [eq_of_tag_eq h.ordered hr hq ht]
    exact ⟨rfl, Record.movesTo_of_late (late_iff.2 (.inl ho)) (by simp [ho, RecordState.rank])⟩
  · exact ⟨rfl, q.movesTo_refl⟩

theorem closeHanded_newest (r : Record) (s : State) :
    (closeHanded r s).clock.newest = s.clock.newest :=
  congrArg Clock.newest (closeHanded_frame (s := s) r .clock (by decide))

theorem forward_finishClose (hr : r ∈ s.table.records) (hc : r.state = .closing) :
    Forward s (finishClose r s) := by
  intro h
  obtain ⟨before, after, hs, -⟩ := closing_split h hr hc
  have hheld := closeHanded_heldLaw h hr hc
  have hgathered : Carried s (closeHanded r s) :=
    .of_replace h.ordered hs (closeHanded_records hs h.ordered) rfl
      (Record.movesTo_of_late (late_iff.2 (.inr hc)) (by simp [hc, RecordState.rank]))
      (closeHanded_newest r s)
  obtain ⟨hmoves, horigin, hnewest⟩ := hgathered.trans h.held.opened hheld.carried_judge
  exact ⟨finishClose_tableLaw h hr hc, hmoves, horigin, hnewest⟩

theorem forward_examine : Forward s (examine s) := by
  unfold examine
  generalize s.table.records.length = n
  induction n generalizing s with
  | zero => exact .refl s
  | succ n ih =>
    unfold examineUpTo
    cases hm : startable s with
    | none => exact .refl s
    | some r =>
      have hstart := forward_startClose hm
      have hmem : r.closeStarted ∈ (startClose r s).table.records := by
        rw [startClose_records]
        exact List.mem_map.2 ⟨r, (oldestOpen_some (startable_some hm).2.1).1, if_pos rfl⟩
      dsimp only
      split
      · exact (hstart.trans (forward_finishClose hmem rfl)).trans ih
      · exact hstart

theorem forward_examineFor (n : Nat) : Forward s (examineFor n s) := by
  unfold examineFor
  split
  · split
    · exact forward_examine
    · exact .refl s
  · exact .refl s

theorem forward_examineForAny (ns : List Nat) : Forward s (examineForAny ns s) := by
  unfold examineForAny
  split
  · split
    · exact forward_examine
    · exact .refl s
  · exact .refl s

theorem forward_completeClose : Forward s (completeClose s) := by
  unfold completeClose completable
  cases hr : closingRecord s.table.records with
  | none => exact .refl s
  | some r =>
    obtain ⟨hmem, hc⟩ := closingRecord_some hr
    dsimp only
    split_ifs
    · exact (forward_finishClose hmem hc).trans forward_examine
    · exact .refl s

/-! ## Opening a slot (R21, R22, R67, R68) -/

theorem not_newer_of_newer {n : Option Tag} {x : Tag} (hx : newerThanOpened n x = false)
    (ht : newerThanOpened n tag = true) : x.older tag = true ∧ newerThanOpened (some tag) x = false := by
  cases n with
  | none => cases hx
  | some n =>
    have hx : ¬n.older x = true := by simpa [newerThanOpened] using hx
    have ht : n.older tag = true := ht
    have hxt : x.older tag = true := by
      rw [older_iff] at *
      omega
    refine ⟨hxt, Bool.eq_false_iff.2 fun h => older_irrefl x (older_trans hxt h)⟩

/-- A newer tag is the newest opened. -/
theorem forward_setNewest (ht : newerThanOpened s.clock.newest tag = true) :
    Forward s (s.setClock { s.clock with newest := some tag }) := by
  intro h
  have hold : ∀ x, newerThanOpened s.clock.newest x = false → newerThanOpened (some tag) x = false :=
    fun x hx => (not_newer_of_newer hx ht).2
  obtain ⟨hmoves, horigin, -⟩ := Carried.of_sublist h.ordered (t := s) (.refl _) rfl
  obtain ⟨hlen, hdrain, ho, hnew, rest⟩ := h
  exact ⟨⟨hlen, hdrain, ho, fun r hr => hold _ (hnew r hr), rest⟩, hmoves, horigin, hold⟩

/-- The opening of a tag: its record stands behind all others. -/
theorem forward_open (ht : newerThanOpened s.clock.newest tag = true)
    (hroom : s.table.records.length < 64) (hr : r.tag = tag) (ho : r.state = .opened)
    (hts : t.table.records = s.table.records ++ [r]) (hq : t.table.sequencer = s.table.sequencer)
    (hn : t.clock.newest = some tag) (ha : t.assembler.state = s.assembler.state) : Forward s t := by
  intro h
  have hold := (forward_setNewest ht h).2.newest
  obtain ⟨hmoves, -, -⟩ := Carried.of_sublist h.ordered (t := s) (.refl _) rfl
  obtain ⟨hlen, hdrain, hord, hnew, hclosing, hdel⟩ := h
  have hbehind : ∀ q ∈ s.table.records, q.tag.older tag = true := fun q hq =>
    (not_newer_of_newer (hnew q hq) ht).1
  refine ⟨⟨?_, ?_, ?_, fun q hqm => ?_, ?_, fun x hx => ?_⟩, fun p hp q hqm htag => ?_,
    fun q hqm => ?_, fun x hx => hn ▸ hold x hx⟩
  · rw [hts]
    simpa [Config.maxRecords] using hroom
  · rw [hts]
    simpa [drainingCount, ho] using hdrain
  · rw [hts, inOrder_split]
    refine ⟨by simpa using hord, fun q hqm => ⟨hr ▸ hbehind q hqm, ?_⟩, nofun⟩
    rw [ho]
    cases q.state <;> decide
  · rw [hn]
    rw [hts, List.mem_append, List.mem_singleton] at hqm
    rcases hqm with hqm | rfl
    · exact hold _ (hnew q hqm)
    · exact hr ▸ Bool.eq_false_iff.2 (older_irrefl _)
  · rw [hts, hq, List.countP_append, hclosing]
    simp [ho]
  · rw [ha] at hx
    have hhead := hdel x hx
    rw [hts]
    cases hrec : s.table.records with
    | nil => simp [hrec] at hhead
    | cons q rest => simpa [hrec] using hhead
  · rw [hts, List.mem_append, List.mem_singleton] at hqm
    rcases hqm with hqm | rfl
    · exact hmoves p hp q hqm htag
    · exact absurd (hr.symm.trans htag).symm (ne_of_older (hbehind p hp))
  · rw [hts, List.mem_append, List.mem_singleton] at hqm
    rcases hqm with hqm | rfl
    · exact .inl ⟨q, hqm, rfl⟩
    · exact .inr (hr ▸ ht)

theorem forward_reportSkip : Forward s (reportSkip s) := forward_setAssembler fun _ hx => hx

theorem forward_openTag (ht : newerThanOpened s.clock.newest tag = true) :
    Forward s (openTag tag s) := by
  unfold openTag
  dsimp only
  split
  · next hroom =>
    have hopen := forward_open (r := newRecord (s.setClock { s.clock with newest := some tag }) tag)
      (t := (s.setClock { s.clock with newest := some tag }).setTable { s.table with
        records := s.table.records ++ [newRecord (s.setClock { s.clock with newest := some tag }) tag]
        afterStep := false }) ht hroom rfl rfl rfl rfl rfl rfl
    split
    · exact hopen.trans forward_examine
    · exact hopen
  · exact ((forward_setNewest ht).trans (.of_slots (slots_bump _))).trans forward_reportSkip

theorem forward_evaluate : Forward s (evaluate s) := by
  unfold evaluate
  dsimp only
  split
  · next h =>
    simp only [Bool.and_eq_true] at h
    exact forward_openTag h.2
  · exact .refl s

/-! ## Abandonment (R82) -/

theorem slots_bumpTimes (c : Counter) (n : Nat) (s : State) : (bumpTimes c n s).slots = s.slots :=
  (bumpTimes_frame c n s).slots

theorem HeldLaw.filter_opened (h : HeldLaw s)
    (hr : t.table.records = s.table.records.filter (fun r => !(r.state == .opened)))
    (hn : t.clock.newest = s.clock.newest) (ha : t.assembler.state = s.assembler.state) :
    HeldLaw t := by
  obtain ⟨hlen, hdrain, ho, hnew, hdel⟩ := h
  have hsub : t.table.records.Sublist s.table.records := hr ▸ List.filter_sublist
  refine ⟨hsub.length_le.trans hlen, hsub.countP_le.trans hdrain,
    inOrder_iff.2 ((inOrder_iff.1 ho).sublist hsub), fun q hq => ?_, fun x hx => ?_⟩
  · rw [hn]
    exact hnew q (hsub.subset hq)
  · rw [ha] at hx
    have hhead := hdel x hx
    rw [hr]
    cases hrec : s.table.records with
    | nil => simp [hrec] at hhead
    | cons q rest =>
      have hd : q.tag = x ∧ q.state = .draining := by simpa [hrec] using hhead
      rw [List.filter_cons_of_pos (by simp [hd.2])]
      simpa using hd

theorem forward_abandonOpen : Forward s (abandonOpen s) := by
  intro h
  obtain ⟨hheld, hcount⟩ := tableLaw_iff.1 h
  have habandon := abandonOpen_abandons s _ rfl
  have hn : (fun r : Record => decide (r.state ≠ .opened)) = fun r => !(r.state == .opened) :=
    funext fun r => by cases r.state <;> rfl
  rw [hn] at habandon
  have hslots := slots_bumpTimes .recordsAbandoned
    (s.table.records.filter (fun r => decide (r.state = .opened))).length s
  obtain ⟨-, hrest⟩ := Prod.mk.inj hslots
  have hclock : (abandonOpen s).clock = s.clock := abandonOpen_frame .clock (by decide)
  have hasm : (abandonOpen s).assembler = s.assembler := abandonOpen_frame .assembler (by decide)
  have hrec : (abandonOpen s).table.records =
      s.table.records.filter (fun r => !(r.state == .opened)) := by rw [habandon]
  have hseq : (abandonOpen s).table.sequencer = s.table.sequencer := by rw [habandon]
  refine ⟨tableLaw_iff.2 ⟨hheld.filter_opened hrec (by rw [hclock]) (by rw [hasm]), ?_⟩,
    .of_sublist h.ordered (hrec ▸ List.filter_sublist) (by rw [hclock])⟩
  rw [hrec, hseq, ← hcount, List.countP_filter]
  refine List.countP_congr fun q _ => ?_
  cases hq : q.state <;> simp

theorem forward_enterStopped : Forward s (enterStopped s) :=
  ((forward_abandonOpen.trans (.of_slots (slots_setLink _))).trans
    (.of_slots (slots_raise .clockStopped))).trans (forward_setClock rfl)

end Sys2Proof.Machine

/-! The table's law and the motion of the records at every step (R65, R71, R79, R85, R106, R138, R146):
the events of the slot table, the clock, the roster and the assembler move the records forward, a reset
leaves none, and every other command leaves the slots as they are. -/

namespace Sys2Proof.Machine

open Sys2Proof

variable {s t u : State} {r q : Record} {tag : Tag}

/-! ## Deadlines (R71, R120, R136) -/

theorem forward_passClose (tag : Tag) : Forward s (passClose tag s) := by
  have hmark : Forward s (updateRecord tag Record.markClose s) :=
    forward_updateRecord fun r _ _ => ⟨rfl, r.movesTo_markClose⟩
  unfold passClose
  dsimp only
  split
  · split
    · exact hmark.trans forward_examine
    · exact hmark
  · exact hmark

theorem slots_updatePeer (i : Station) (f : Peer → Peer) : (updatePeer i f s).slots = s.slots := rfl

theorem forward_unexpect (i : Station) : Forward s (unexpect i s) := by
  refine forward_mapRecords fun r _ => ?_
  split
  · next hg => exact ⟨rfl, r.movesTo_unexpecting i (by simp [hg])⟩
  · exact ⟨rfl, r.movesTo_refl⟩

theorem forward_leavePresent (i : Station) (next : PeerState) :
    Forward s (leavePresent i next s) := by
  unfold leavePresent
  split
  · exact (Forward.of_slots (by simp [slots_updatePeer])).trans (forward_unexpect i)
  · exact .of_slots (slots_updatePeer _ _)

theorem forward_countMiss (s : State) (i : Station) : Forward s (countMiss s i) := by
  unfold countMiss
  dsimp only
  split
  · exact (Forward.of_slots (slots_updatePeer _ _)).trans (forward_leavePresent _ _)
  · exact .of_slots (slots_updatePeer _ _)

theorem forward_passGather (tag : Tag) : Forward s (passGather tag s) := by
  have hmark : Forward s (updateRecord tag Record.markGather s) :=
    forward_updateRecord fun r _ _ => ⟨rfl, r.movesTo_markGather⟩
  unfold passGather
  dsimp only
  split
  · split
    · exact (hmark.trans (Forward.foldl forward_countMiss _ _)).trans forward_judge
    · exact hmark
  · exact hmark

theorem forward_passReached : Forward s (passReached s) := by
  have hclose (s : State) (tag : Tag) : Forward s (passCloseIfReached tag s) := by
    unfold passCloseIfReached
    split
    · split
      · exact forward_passClose tag
      · exact .refl s
    · exact .refl s
  have hgather (s : State) (tag : Tag) : Forward s (passGatherIfReached tag s) := by
    unfold passGatherIfReached
    split
    · split
      · exact forward_passGather tag
      · exact .refl s
    · exact .refl s
  have hshare (s : State) (tag : Tag) : Forward s (passShareIfReached tag s) := by
    unfold passShareIfReached
    split
    · split
      · exact .of_slots (passShare_frame tag).slots
      · exact .refl s
    · exact .refl s
  exact (Forward.foldl (fun s tag => (hclose s tag).trans (hgather _ tag)) _ s).trans
    (Forward.foldl hshare _ _)

/-! ## The second boundary and the station clock (R2, R8 to R21) -/

theorem slots_recomputeWait : (recomputeWait s).slots = s.slots := rfl

theorem forward_deliverBoundary : Forward s (deliverBoundary s) := by
  have hunlock : Forward s (if decide (s.clock.state = .stepping) = true then
      s.setClock { s.clock with state := .locked } else s) := by
    split
    · exact forward_setClock rfl
    · exact .refl s
  unfold deliverBoundary
  dsimp only
  have hexamined : Forward s (examineForAny (losingLive s.streams) (queueBeacon (recomputeWait
      (copyEnableSets (if decide (s.clock.state = .stepping) = true then
        s.setClock { s.clock with state := .locked } else s))))) :=
    (forward_examineForAny _).comp ((Forward.of_slots queueBeacon_frame.slots).comp
      ((Forward.of_slots slots_recomputeWait).comp
        ((Forward.of_slots copyEnableSets_frame.slots).comp hunlock)))
  by_cases hs : decide (s.clock.state = .stepping) = true
  · rw [if_pos hs] at hexamined
    rw [if_pos hs, if_pos hs]
    exact hexamined.trans forward_evaluate
  · rw [if_neg hs] at hexamined
    rw [if_neg hs, if_neg hs]
    exact hexamined

theorem forward_reachBoundary : Forward s (reachBoundary s) :=
  (forward_setClock (v := { s.clock with boundaryDue := false }) rfl).trans forward_deliverBoundary

theorem forward_reachSlot : Forward s (reachSlot s) :=
  (forward_setClock (v := { s.clock with slotDue := false }) rfl).trans forward_evaluate

theorem forward_expireHoldover : Forward s (expireHoldover s) := by
  unfold expireHoldover
  split
  · exact forward_enterStopped
  · exact forward_setClock rfl

theorem forward_endTod (chars : List TodChar) : Forward s (endTod chars s) := by
  unfold endTod
  split
  · unfold takeTod
    split
    · exact forward_setClock rfl
    · exact (forward_setClock (v := { s.clock with pendingTod := none }) rfl).trans
        (.of_slots (slots_bump _))
  · exact .refl s

theorem forward_settleDue : Forward s (settleDue s) := by
  have hboundary : Forward s (if s.clock.boundaryDue then reachBoundary s else s) := by
    split
    · exact forward_reachBoundary
    · exact .refl s
  have hslot (u : State) : Forward u (if u.clock.slotDue then reachSlot u else u) := by
    split
    · exact forward_reachSlot
    · exact .refl u
  exact (hboundary.trans (hslot _)).trans forward_passReached

theorem forward_afterSet (before : Time) (locks : Bool) : Forward s (afterSet before locks s) := by
  have hboundary : Forward s (if s.clock.now.sec ≠ before.sec then deliverBoundary s else s) := by
    split
    · exact forward_deliverBoundary
    · exact .refl s
  unfold afterSet
  dsimp only
  split
  · exact (hboundary.trans forward_passReached).trans forward_evaluate
  · exact hboundary.trans forward_passReached

theorem forward_stepTo (second : Nat) : Forward s (stepTo second s) := by
  unfold stepTo
  dsimp only
  split
  · exact forward_passReached.comp (forward_enterStopped.comp (forward_setClock rfl))
  · have hnotice : Forward s (match newestOpenTag s.table.records with
        | some t => placeNotice ⟨.stepped, t⟩ (abandonOpen s)
        | none => abandonOpen s) := by
      split
      · exact forward_abandonOpen.trans (.of_slots (slots_setLink _))
      · exact forward_abandonOpen
    exact forward_passReached.comp (Forward.comp (forward_setClock rfl) hnotice)

theorem forward_phaseSet (second : Nat) : Forward s (phaseSet second s) := by
  unfold phaseSet
  dsimp only
  split
  · exact (forward_afterSet _ _).comp (forward_setClock rfl)
  · exact (forward_afterSet _ _).comp (forward_setClock rfl)

theorem forward_edgeAcquiring : Forward s (edgeAcquiring s) := by
  unfold edgeAcquiring
  dsimp only
  split
  · exact (forward_afterSet _ _).comp (forward_setClock rfl)
  · exact (forward_afterSet _ _).comp (forward_setClock rfl)

theorem forward_edgeDisciplined : Forward s (edgeDisciplined s) := by
  have hleap (decided : Decided) : Forward s (if decided = .leap then
      bump .leap (s.setClock (consumeTod s.clock)) else s.setClock (consumeTod s.clock)) := by
    have hconsume : Forward s (s.setClock (consumeTod s.clock)) := forward_setClock rfl
    split
    · exact hconsume.trans (.of_slots (slots_bump _))
    · exact hconsume
  unfold edgeDisciplined
  dsimp only
  split
  · exact (hleap _).trans (forward_stepTo _)
  · exact (hleap _).trans (forward_stepTo _)
  · exact ((hleap _).trans (.of_slots (slots_bump _))).trans (forward_phaseSet _)
  · exact (hleap _).trans (forward_phaseSet _)

theorem forward_takeEdge (edge : Transition) : Forward s (takeEdge edge s) := by
  have hage : Forward s ((settleDue s).setClock { (settleDue s).clock with edgeAge := some 0 }) :=
    forward_settleDue.trans (forward_setClock rfl)
  unfold takeEdge acceptEdge
  dsimp only
  split_ifs
  · exact .of_slots (slots_bump _)
  · split
    · exact hage.trans forward_edgeAcquiring
    · exact hage.trans (forward_setClock rfl)
    · exact hage.trans forward_edgeDisciplined
    · exact hage.trans forward_edgeDisciplined
    · exact hage.trans forward_edgeDisciplined
  · exact .refl s

/-! ## The snapshot port (R81, R155, R156, R168) -/

theorem forward_takeSnapshotByte : Forward s (takeSnapshotByte s) := by
  unfold takeSnapshotByte
  split
  · next c n hc =>
    split
    · refine forward_setAssembler fun x hx => ?_
      rw [hc]
      exact hx
    · exact .refl s
  · exact .refl s
  · exact .refl s

/-- A busy assembler takes no record. -/
theorem takeRecord_of_busy (h : s.assembler.state ≠ .idle) : takeRecord s = s := if_neg h

/-- The node with the assembler's state replaced. -/
def State.setDelivery (a : AssemblerState) (s : State) : State :=
  s.setAssembler { s.assembler with state := a }

theorem bump_setDelivery (c : Counter) (a : AssemblerState) :
    bump c (s.setDelivery a) = (bump c s).setDelivery a := by
  unfold bump
  rw [show (s.setDelivery a).count c = s.count c from rfl]
  dsimp only
  split <;> rfl

/-- A judgement beside a busy assembler reads and changes nothing of what the assembler does. -/
theorem judge_setDelivery {a : AssemblerState} (ha : a ≠ .idle) (hs : s.assembler.state ≠ .idle) :
    judge (s.setDelivery a) = (judge s).setDelivery a ∧
      (judge s).assembler.state = s.assembler.state := by
  have hleave (r : Record) {s : State} (hs : s.assembler.state ≠ .idle) :
      leaveGathering r (s.setDelivery a) = (leaveGathering r s).setDelivery a ∧
        (leaveGathering r s).assembler.state = s.assembler.state := by
    unfold leaveGathering
    rw [show (s.setDelivery a).table = s.table from rfl]
    split
    · have hbusy : (updateRecord r.tag (fun q => { q with state := .draining }) s).assembler.state ≠
          .idle := hs
      rw [takeRecord_of_busy hbusy]
      exact ⟨takeRecord_of_busy ha, rfl⟩
    · refine ⟨?_, by simp [reportSkip, freeRecords_eq]⟩
      rw [show freeRecords (fun q => q.tag == r.tag) (s.setDelivery a) =
        (freeRecords (fun q => q.tag == r.tag) s).setDelivery a from rfl, bump_setDelivery]
      rfl
  unfold judge
  rw [show (s.setDelivery a).table = s.table from rfl]
  generalize s.table.records.length = n
  induction n generalizing s with
  | zero => exact ⟨rfl, rfl⟩
  | succ n ih =>
    unfold judgeUpTo
    rw [show (s.setDelivery a).table = s.table from rfl]
    cases nextToLeave s.table.records with
    | none => exact ⟨rfl, rfl⟩
    | some r =>
      obtain ⟨he, hstate⟩ := hleave r hs
      obtain ⟨hj, hj'⟩ := ih (s := leaveGathering r s) (hstate ▸ hs)
      dsimp only
      rw [he]
      exact ⟨hj, hj'.trans hstate⟩

/-- The record in delivery is the oldest one, and when the delivery ends it alone goes (R81, R154). -/
theorem TableLaw.delivered (h : TableLaw s) (hx : tag ∈ tagInDelivery s.assembler.state) :
    ∃ r rest, s.table.records = r :: rest ∧ r.tag = tag ∧ r.state = .draining ∧
      s.table.records.filter (fun q => !(q.tag == tag)) = rest := by
  have ho := h.ordered
  obtain ⟨-, -, -, -, -, hdel⟩ := h
  have hhead := hdel tag hx
  cases hrec : s.table.records with
  | nil => simp [hrec] at hhead
  | cons r rest =>
    obtain ⟨rfl, hd⟩ : r.tag = tag ∧ r.state = .draining := by simpa [hrec] using hhead
    rw [hrec] at ho
    exact ⟨r, rest, rfl, rfl, hd, filter_tag_split (before := []) ho⟩

/-- The delivered record gone, with nothing in delivery. -/
theorem forward_freeDelivered {c : Composition} {n : Nat}
    (hc : s.assembler.state = .delivering c n)
    (ht : t.table.records = s.table.records.filter (fun q => !(q.tag == c.tag)))
    (hq : t.table.sequencer = s.table.sequencer) (hn : t.clock.newest = s.clock.newest)
    (ha : tagInDelivery t.assembler.state = none) : Forward s t := by
  intro h
  obtain ⟨r, rest, hrec, -, hd, hfilter⟩ := h.delivered (tag := c.tag) (by simp [hc, tagInDelivery])
  rw [hfilter] at ht
  have hsub : t.table.records.Sublist s.table.records := by rw [ht, hrec]; exact rest.sublist_cons_self r
  refine ⟨?_, .of_sublist h.ordered hsub hn⟩
  obtain ⟨hlen, hdrain, ho, hnew, hclosing, -⟩ := h
  refine ⟨hsub.length_le.trans hlen, hsub.countP_le.trans hdrain,
    inOrder_iff.2 ((inOrder_iff.1 ho).sublist hsub), fun q hqm => hn ▸ hnew q (hsub.subset hqm), ?_,
    fun x hx => ?_⟩
  · rw [hq, ← hclosing, ht, hrec]
    simp [hd]
  · rw [ha] at hx
    cases hx

theorem forward_finishDelivery {c : Composition} {n : Nat}
    (hc : s.assembler.state = .delivering c n) : Forward s (finishDelivery c s) := by
  have hbusy : (freeRecords (fun r => r.tag == c.tag) (bump .snapshotsDelivered s)).assembler.state ≠
      .idle := by
    simp [freeRecords_eq, hc]
  -- The judgement is taken beside a closed assembler, for which the law holds.
  have hjudge := (judge_setDelivery (a := .closed) nofun hbusy).1
  have hfree : Forward s ((freeRecords (fun r => r.tag == c.tag)
      (bump .snapshotsDelivered s)).setDelivery .closed) := by
    refine forward_freeDelivered hc ?_ ?_ ?_ rfl
    all_goals simp [State.setDelivery, freeRecords_eq]
  have hidle : Forward ((judge (freeRecords (fun r => r.tag == c.tag)
      (bump .snapshotsDelivered s))).setDelivery .closed)
      ((judge (freeRecords (fun r => r.tag == c.tag)
        (bump .snapshotsDelivered s))).setDelivery .idle) := .of_slots rfl
  exact ((hfree.trans (hjudge ▸ forward_judge)).trans hidle).trans forward_takeRecord

theorem forward_endDelivery : Forward s (endDelivery s) := by
  unfold endDelivery
  split
  · next c n hc =>
    split
    · exact forward_finishDelivery hc
    · exact .refl s
  · exact .refl s
  · exact .refl s

theorem slots_lowerMark : (lowerMark s).slots = s.slots := rfl

/-! ## The roster and the receiver (R132 to R148) -/

theorem forward_silencePeer (i : Station) : Forward s (silencePeer i s) :=
  (forward_leavePresent _ _).trans forward_judge

@[simp] theorem slots_heard (i : Station) (c : ClockState) : (heard i c s).slots = s.slots := rfl

theorem slots_enterPresent (i : Station) : (enterPresent i s).slots = s.slots := rfl

theorem slots_dropReception : (dropReception s).slots = s.slots := by
  unfold dropReception
  split <;> rfl

theorem forward_mismatch (i : Station) : Forward s (mismatch i s) :=
  ((Forward.of_slots (slots_bump _)).trans (forward_leavePresent _ _)).trans forward_judge

theorem forward_takeBeacon (i : Station) (f : BeaconFrame) : Forward s (takeBeacon i f s) := by
  have hheard : Forward s (updatePeer i (fun p => { p with
      lastEffective := some (f.wait.toNat, f.grace.toNat), lastBeacon := some f.second })
      (heard i f.clock s)) := .of_slots rfl
  have henter (u : State) : Forward u (enterPresent i u) := .of_slots (slots_enterPresent i)
  unfold takeBeacon
  dsimp only
  split
  · exact hheard.trans (forward_mismatch i)
  · split
    · exact hheard.trans (henter _)
    · exact hheard.trans (henter _)
    · exact hheard.trans (henter _)
    · exact hheard.trans ((forward_leavePresent _ _).trans forward_judge)
    · exact hheard

theorem forward_abandonAttachments (i : Station) (x : Tag) :
    Forward s (withRecords (s.table.records.map (abandonAttachment i x)) s) := by
  refine forward_mapRecords fun r _ => ?_
  unfold abandonAttachment
  split
  · next h =>
    obtain ⟨hd, -, hn⟩ := h
    exact ⟨rfl, (r.movesTo_attach .abandoned hn hd).trans (Record.movesTo_unexpecting i hd)⟩
  · exact ⟨rfl, r.movesTo_refl⟩

theorem forward_takeNotice (i : Station) (n : Notice) : Forward s (takeNotice i n s) := by
  have hheard (c : ClockState) : Forward s (heard i c s) := .of_slots (slots_heard i c)
  unfold takeNotice
  dsimp only
  split
  · exact .of_slots (slots_updatePeer _ _)
  · split
    · split
      · exact (hheard _).trans ((forward_leavePresent _ _).trans forward_judge)
      · exact hheard _
    · exact ((hheard _).trans (forward_abandonAttachments i n.tag)).trans forward_judge

/-- A share is accepted where its record is held, not DRAINING, and has no attachment yet (R142). -/
theorem matchShare_accepted {i : Station} (h : matchShare s i tag = .accepted) :
    ∃ r, recordOf tag s.table.records = some r ∧ r.state ≠ .draining ∧ r.attachments[i] = .none := by
  unfold matchShare at h
  split at h
  · cases h
  · split at h
    · next r hr =>
      split_ifs at h with hd hn
      exact ⟨r, hr, hd, not_not.1 hn⟩
    · split at h
      · split at h <;> cases h
      · cases h

/-- What an accepted share makes of its record's attachment: STORED with the reception's blocks, or LOST
without (R143). -/
def attachmentOf (length : Nat) (s : State) : Attachment :=
  if receivedBlocks s = [] then .lost else .stored (receivedBlocks s) length

/-- The node with an accepted share attached and counted, before any judgement (R133, R143). -/
def attachShare (i : Station) (tag : Tag) (length : Nat) (s : State) : State :=
  updatePeer i (fun p => { p with misses := 0 })
    (updateRecord tag (Record.attach i (attachmentOf length s))
      (bump (if receivedBlocks s = [] then .shareLost else .sharesStored)
        (s.setGather { s.gather with reception := none })))

theorem attachShare_records (i : Station) (tag : Tag) (length : Nat) (s : State) :
    (attachShare i tag length s).table.records = s.table.records.map
      (fun q => if q.tag = tag then q.attach i (attachmentOf length s) else q) := by
  rw [attachShare, updateRecord_eq, bump_table]
  rfl

/-- An accepted share is judged where its record is GATHERING (R143). -/
theorem acceptShare_of_record {i : Station} (length : Nat)
    (hr : recordOf tag s.table.records = some r) : acceptShare i tag length s =
      if r.state = .gathering then judge (attachShare i tag length s)
      else attachShare i tag length s := by
  have hm : recordOf tag (attachShare i tag length s).table.records =
      some (r.attach i (attachmentOf length s)) := by
    rw [attachShare_records, recordOf_map (f := Record.attach i _) (fun _ => rfl), hr]
    rfl
  have he : acceptShare i tag length s = match recordOf tag
      (attachShare i tag length s).table.records with
    | some r => if r.state = .gathering then judge (attachShare i tag length s)
        else attachShare i tag length s
    | none => attachShare i tag length s := rfl
  rw [he, hm]
  rfl

/-- The share attached to its record, which is held, not DRAINING, and has no attachment yet. -/
theorem forward_attachShare {i : Station} (length : Nat) (hr : recordOf tag s.table.records = some r)
    (hd : r.state ≠ .draining) (hn : r.attachments[i] = .none) :
    Forward s (attachShare i tag length s) := by
  intro hs
  obtain ⟨hmem, rfl⟩ := recordOf_some hr
  refine (Forward.of_slots (slots_updatePeer _ _)).comp ((forward_updateRecord fun q hq ht => ?_).comp
    (.of_slots ((slots_bump _).trans (slots_setGather _)))) hs
  rw [bump_table] at hq
  rw [eq_of_tag_eq hs.ordered hmem hq ht]
  exact ⟨rfl, r.movesTo_attach _ hn hd⟩

theorem forward_acceptShare {i : Station} (length : Nat) (h : matchShare s i tag = .accepted) :
    Forward s (acceptShare i tag length s) := by
  obtain ⟨r, hr, hd, hn⟩ := matchShare_accepted h
  have hattach := forward_attachShare length hr hd hn
  rw [acceptShare_of_record length hr]
  split
  · exact hattach.trans forward_judge
  · exact hattach

theorem forward_settleMatch (i : Station) (tag : Tag) (length : Nat) :
    Forward s (settleMatch i tag length s) := by
  have hrefuse (c : Counter) : Forward s (refuseShare c s) :=
    .of_slots (slots_dropReception.trans (slots_bump c))
  unfold settleMatch
  split
  · exact hrefuse _
  · exact hrefuse _
  · exact hrefuse _
  · exact hrefuse _
  · next h => exact forward_acceptShare length h

theorem forward_takeShare (i : Station) (f : ShareFrame) (length : Nat) :
    Forward s (takeShare i f length s) := by
  have hheard : Forward s (heard i f.clock s) := .of_slots (slots_heard i f.clock)
  have henter (u : State) : Forward u (enterPresent i u) := .of_slots (slots_enterPresent i)
  unfold takeShare
  dsimp only
  split
  · exact (hheard.trans (forward_mismatch i)).trans (.of_slots slots_dropReception)
  · split
    · exact .of_slots (slots_dropReception.trans (slots_bump _))
    · exact (hheard.trans (henter _)).trans (forward_settleMatch i _ _)
    · exact (hheard.trans (henter _)).trans (forward_settleMatch i _ _)
    · exact hheard.trans (forward_settleMatch i _ _)
    · exact hheard.trans (.of_slots slots_dropReception)
    · exact hheard.trans (.of_slots slots_dropReception)

theorem forward_receiveFrame (key : ClaimKey) (bytes : List Byte) :
    Forward s (receiveFrame key bytes s) := by
  have hbump (c : Counter) : Forward s (bump c s) := .of_slots (slots_bump c)
  unfold receiveFrame
  dsimp only
  split
  · exact (hbump _).trans (.of_slots slots_dropReception)
  · next f _ =>
    split
    · exact (hbump _).trans (.of_slots slots_dropReception)
    · split
      · exact ((hbump _).trans (.of_slots (slots_raise _))).trans (.of_slots slots_dropReception)
      · cases f with
        | notice n => exact (hbump _).trans (forward_takeNotice _ n)
        | beacon f => exact (hbump _).trans (forward_takeBeacon _ f)
        | share x => exact (hbump _).trans (forward_takeShare _ x _)

theorem slots_foreignClaim : (foreignClaim s).slots = s.slots := by
  unfold foreignClaim
  split <;> rfl

theorem slots_impliedClaim : (impliedClaim s).slots = s.slots := by
  unfold impliedClaim
  split
  · exact slots_foreignClaim
  · rfl

theorem slots_handHeader (header : List Byte) : (handHeader header s).slots = s.slots := by
  unfold handHeader
  dsimp only
  split_ifs <;> rfl

theorem slots_takeHeader (bytes : List Byte) : (takeHeader bytes s).slots = s.slots := by
  unfold takeHeader
  dsimp only
  split
  · split
    · exact (slots_handHeader _).trans slots_impliedClaim
    · rfl
  · rfl

theorem slots_gatherBytes {bytes : List Byte} (h : gatherBytes bytes s = some t) :
    t.slots = s.slots := by
  unfold gatherBytes at h
  split at h
  · split at h
    · cases h
      rfl
    · cases h
  · split at h
    · cases h
      rfl
    · cases h
      exact slots_handHeader _

theorem slots_countFrame (key : ClaimKey) (bytes : List Byte) :
    (countFrame key bytes s).slots = s.slots := by
  unfold countFrame
  split
  · exact slots_bump _
  · exact slots_bump _

theorem slots_judgeIdle : (judgeIdle s).slots = s.slots := by
  unfold judgeIdle
  split <;> rfl

theorem forward_takeFrame (key : ClaimKey) (bytes : List Byte) :
    Forward s (takeFrame key bytes s) := by
  unfold takeFrame
  dsimp only
  split
  · split
    · next hg =>
      exact ((Forward.of_slots (slots_gatherBytes hg)).trans (forward_receiveFrame key bytes)).trans
        (.of_slots (slots_setLink _))
    · exact .refl s
  · exact .of_slots ((slots_setLink _).trans (slots_countFrame key bytes))
  · exact .refl s

theorem forward_endLinkFrame (key : ClaimKey) (bytes : List Byte) :
    Forward s (endLinkFrame key bytes s) := by
  have hclaim : Forward s (impliedClaim s) := .of_slots slots_impliedClaim
  unfold endLinkFrame
  dsimp only
  split
  · exact hclaim.trans (forward_takeFrame key bytes)
  · exact hclaim.trans (.of_slots slots_judgeIdle)
  · exact hclaim.trans (.of_slots slots_judgeIdle)
  · exact .refl s

/-! ## The directory, the resolutions and the monitors (R53, R76, R87, R179) -/

theorem forward_stallStream (n : Nat) : Forward s (stallStream n s) :=
  (Forward.of_slots (slots_setStreams _)).trans (forward_examineFor n)

/-- A record with one more mark. -/
def Record.addMark (m : Mark) (r : Record) : Record := { r with marks := r.marks ++ [m] }

/-- One monitor on one stored cell at most adds a mark to the record's list (R176 to R179). -/
theorem judgeCell_slots (pos : Nat) (c : Cell) (tag : Tag) (s : State) (i : Fin 8) :
    (judgeCell pos c tag s i).slots = s.slots ∨
      ∃ m, (judgeCell pos c tag s i).slots = (updateRecord tag (Record.addMark m) s).slots := by
  have hfire (m : Mark) (u : State) : (offerMark tag m u).slots = u.slots ∨
      (offerMark tag m u).slots = (updateRecord tag (Record.addMark m) u).slots := by
    unfold offerMark
    split
    · exact .inl rfl
    · split
      · exact .inr (slots_bump _)
      · exact .inl (slots_bump _)
  unfold judgeCell
  dsimp only
  split
  · exact .inl rfl
  · split
    · exact .inl rfl
    · split
      · exact .inl (slots_setMonitors _)
      · next d _ =>
        split_ifs
        · exact .inl (slots_setMonitors _)
        · exact (hfire ⟨i.val, c.code, d⟩ _).imp id fun h => ⟨_, h⟩
        · exact .inl (slots_bump _)

/-- The monitors' judgement of a cell stored in a record whose close has not completed (R176). -/
theorem forward_evaluateCell (pos : Nat) (c : Cell)
    (hl : ∀ r ∈ s.table.records, r.tag = tag → r.late = true) :
    Forward s (evaluateCell pos c tag s) := by
  unfold evaluateCell
  generalize monitorNumbers = is
  induction is generalizing s with
  | nil => exact .refl s
  | cons i is ih =>
    rcases judgeCell_slots pos c tag s i with h | ⟨m, h⟩
    · refine (Forward.of_slots h).trans (ih ?_)
      rw [(Prod.mk.inj h).1]
      exact hl
    · have hmark : Forward s (updateRecord tag (Record.addMark m) s) :=
        forward_updateRecord fun r hr ht => ⟨rfl, Record.movesTo_of_late (hl r hr ht) le_rfl⟩
      refine (hmark.trans (.of_slots h)).trans (ih fun r hr ht => ?_)
      rw [(Prod.mk.inj h).1, updateRecord_eq] at hr
      obtain ⟨q, hq, rfl⟩ := List.mem_map.1 hr
      split at ht
      · next hqt => rw [if_pos hqt]; exact hl q hq hqt
      · next hqt => exact absurd ht hqt

theorem nextResolution_some {cs : List Cell} {pos : Nat} (h : nextResolution s = some (r, cs, pos)) :
    closingRecord s.table.records = some r := by
  unfold nextResolution at h
  split at h
  · cases h
  · next hr =>
    split at h
    · cases h
      exact hr
    · cases h

/-- A record with its cells so far. -/
def Record.storeCells (cs : List Cell) (r : Record) : Record := { r with cells := some cs }

theorem forward_resolveNext : Forward s (resolveNext s) := by
  intro hs
  unfold resolveNext
  split
  · exact Forward.refl s hs
  · next r cs pos hn =>
    obtain ⟨hr, hc⟩ := closingRecord_some (nextResolution_some hn)
    have hlate : ∀ q ∈ s.table.records, q.tag = r.tag → q.late = true := fun q hq ht =>
      late_iff.2 (.inr (eq_of_tag_eq hs.ordered hr hq ht ▸ hc))
    split
    · exact Forward.refl s hs
    · next st _ =>
      have hstore : Forward s (updateRecord r.tag (Record.storeCells (cs ++ [cellOf s r st])) s) :=
        forward_updateRecord fun q hq ht =>
          ⟨rfl, Record.movesTo_of_late (st := q.state) (hlate q hq ht) le_rfl⟩
      refine hstore.trans (forward_evaluateCell pos _ fun q hq ht => ?_) hs
      rw [updateRecord_eq] at hq
      obtain ⟨p, hp, rfl⟩ := List.mem_map.1 hq
      split at ht
      · next hpt => rw [if_pos hpt]; exact hlate p hp hpt
      · next hpt => exact absurd ht hpt

/-! ## The intake unit -/

theorem slots_recordDrop (code : Nat) (reason : DropReason) (stamp : Time) :
    (recordDrop code reason stamp s).slots = s.slots := by
  unfold recordDrop
  dsimp only
  split
  · exact (slots_setIntake _).trans (slots_bump _)
  · rfl

theorem slots_checkerTake : (checkerTake s).slots = s.slots := by
  unfold checkerTake
  split <;> rfl

theorem slots_takeFrameStart : (takeFrameStart s).slots = s.slots := by
  unfold takeFrameStart beginFrame
  dsimp only
  split
  · rfl
  · split
    · split
      · exact (slots_setIntake _).trans (slots_bump _)
      · exact (slots_setIntake _).trans ((slots_recordDrop _ _ _).trans (slots_bump _))
    · exact slots_bump _
    all_goals rfl

theorem slots_takeByte (b : Byte) : (takeByte b s).slots = s.slots := by
  unfold takeByte
  split
  · split
    · split_ifs
      · exact (slots_setIntake _).trans (slots_recordDrop _ _ _)
      · exact (slots_setIntake _).trans (slots_recordDrop _ _ _)
      · rfl
    all_goals rfl
  · rfl

theorem slots_takeFrameEnd : (takeFrameEnd s).slots = s.slots := by
  unfold takeFrameEnd
  dsimp only
  split
  · split
    · exact slots_checkerTake
    all_goals rfl
  · rfl

theorem forward_judgeHeld : Forward s (judgeHeld s) := by
  have hoffer (n code : Nat) (x : Sample) : Forward s (offerSample n code x s) := by
    unfold offerSample
    split
    · exact .refl s
    · dsimp only
      split
      · exact .of_slots (slots_recordDrop _ _ _)
      · exact (forward_examineFor n).comp (.of_slots ((slots_bump _).trans (slots_setStreams _)))
  have hrelease (n : Nat) (u : State) : Forward u (releaseFrame n u) :=
    .of_slots (slots_checkerTake.trans (slots_setIntake _))
  unfold judgeHeld
  split
  · dsimp only
    refine (hrelease _ _).comp ?_
    split
    · exact .of_slots (slots_recordDrop _ _ _)
    · exact hoffer _ _ _
  · exact .refl s

/-! ## The transmitter -/

theorem slots_withdrawShare (tag : Tag) : (withdrawShare tag s).slots = s.slots :=
  (withdrawShare_frame tag).slots

theorem slots_returnFrame (f : OutFrame) (m : Medium) : (returnFrame f m s).slots = s.slots := by
  unfold returnFrame expireReturned
  split
  · split
    · split
      · exact slots_withdrawShare _
      · rfl
    · rfl
  · rfl
  · rfl

theorem slots_collide (f : OutFrame) (m : Medium) : (collide f m s).slots = s.slots := by
  have hback (v : Link) : (returnFrame f m (bump .collision (s.setLink v))).slots = s.slots :=
    (slots_returnFrame f m).trans (slots_bump _)
  unfold collide
  dsimp only
  split
  · exact (slots_raise _).trans ((slots_setLink _).trans (hback _))
  · exact hback _

theorem slots_startClaim : (startClaim s).slots = s.slots := by
  unfold startClaim
  split
  · split <;> rfl
  · rfl

theorem slots_resolveClaim (line : ClaimKey) : (resolveClaim line s).slots = s.slots := by
  unfold resolveClaim
  split
  · split
    · rfl
    · exact slots_returnFrame _ _
    · exact slots_collide _ _
  · rfl
  · rfl

theorem slots_deferIdle : (deferIdle s).slots = s.slots := by
  unfold deferIdle
  split <;> rfl

theorem slots_completeSend : (completeSend s).slots = s.slots := by
  unfold completeSend
  split
  · exact (slots_bump _).trans (slots_setLink _)
  · rfl
  · rfl

theorem slots_findMismatch : (findMismatch s).slots = s.slots := by
  unfold findMismatch
  split
  · exact slots_collide _ _
  · exact slots_collide _ _
  · rfl

/-! ## Loads (R198, R199) -/

theorem forward_completeLoad (image : List Byte) : Forward s (completeLoad image s) := by
  unfold completeLoad
  split
  · exact .of_same rfl rfl rfl nofun
  · exact .refl s

theorem slots_faultLoad (image : List Byte) : (faultLoad image s).slots = s.slots := by
  unfold faultLoad
  split <;> rfl

theorem slots_releaseReset (straps : Station) : (releaseReset straps s).slots = s.slots := by
  unfold releaseReset
  split <;> rfl

/-! ## The service port -/

theorem slots_assertSelect : (assertSelect s).slots = s.slots := by
  unfold assertSelect
  dsimp only
  split_ifs <;> rfl

theorem slots_cutShort : (cutShort s).slots = s.slots := by
  unfold cutShort
  split
  · rfl
  · exact slots_bump _

theorem slots_refuseCommand (code : Byte) : (refuseCommand code s).slots = s.slots := slots_bump _

/-- A command without arguments moves the records forward where carrying it out does. -/
theorem forward_plainCommand {carryOut : State → State} (h : Forward s (carryOut s)) :
    Forward s (plainCommand carryOut s) := by
  unfold plainCommand takeCommand
  split_ifs
  · exact .of_slots rfl
  · exact h
  · exact .refl s

/-- A command with arguments moves the records forward where carrying it out does. -/
theorem forward_argumentCommand (code : Byte) (bytes : List Byte)
    {carryOut : List Byte → State → State} (h : ∀ args, Forward s (carryOut args s)) :
    Forward s (argumentCommand code bytes carryOut s) := by
  unfold argumentCommand takeCommand
  dsimp only
  split
  · exact .refl s
  · split_ifs
    · exact .of_slots rfl
    · exact h _
    · exact .of_slots rfl

theorem slots_reportStream (args : List Byte) : (reportStream args s).slots = s.slots := by
  unfold reportStream
  split
  · rfl
  · exact slots_refuseCommand _

theorem slots_setPendingMember (member : Bool) (args : List Byte) :
    (setPendingMember member args s).slots = s.slots := by
  unfold setPendingMember
  split
  · rfl
  · exact slots_refuseCommand _

theorem forward_resumeClock : Forward s (resumeClock s) := by
  unfold resumeClock
  split
  · exact .of_same rfl rfl rfl fun _ h => h
  · exact .of_slots (slots_refuseCommand _)

/-! ## The passage of time -/

theorem slots_elapse (k : Nat) : (elapse k s).slots = s.slots := rfl

theorem forward_atMoment {due : State → Option Nat} {event : State → State}
    (h : ∀ s, Forward s (event s)) : Forward s (atMoment due event s) := by
  rcases atMoment_cases due event s with he | ⟨d, -, -, he⟩
  · rw [he]
    exact .refl s
  · rw [he]
    refine (h _).comp ?_
    unfold momentOf
    split
    · exact .refl s
    · exact .of_slots (slots_elapse d)

theorem forward_tickLater : Forward s (tickLater s) := by
  unfold tickLater
  split
  · exact forward_stallStream _
  · split
    · exact forward_passClose _
    · split
      · exact forward_passGather _
      · split
        · exact .of_slots (passShare_frame _).slots
        · split
          · exact forward_silencePeer _
          · exact .of_slots (slots_elapse 1)

theorem forward_tick : Forward s (tick s) := by
  unfold tick
  split_ifs
  · exact .of_slots rfl
  · exact forward_reachBoundary
  · exact forward_reachSlot
  · exact .of_slots slots_lowerMark
  · exact forward_endDelivery
  · exact forward_setClock rfl
  · exact forward_expireHoldover
  · exact forward_tickLater

/-! ## Resets (R86, R189) -/

/-- A step leads to a node whose table keeps the law, its records those of before moved forward. -/
def Steps (s t : State) : Prop := TableLaw s → TableLaw t ∧
  ∀ r ∈ s.table.records, ∀ q ∈ t.table.records, q.tag = r.tag → r.movesTo q

theorem Forward.steps (h : Forward s t) : Steps s t := fun hs =>
  let ⟨ht, hc⟩ := h hs
  ⟨ht, hc.moves⟩

/-- A reset leaves no record, the sequencer IDLE and nothing in delivery. -/
theorem steps_of_reset (hr : t.table = .reset) (ha : t.assembler = .reset) : Steps s t := by
  refine fun _ => ⟨⟨?_, ?_, ?_, ?_, ?_, ?_⟩, ?_⟩
  all_goals simp [hr, ha, Table.reset, Assembler.reset, drainingCount, inOrder, tagInDelivery]

theorem steps_assertReset : Steps s (assertReset s) := by
  unfold assertReset
  split
  · exact (Forward.refl s).steps
  · exact steps_of_reset rfl rfl

theorem steps_deassertSelect (straps : Station) : Steps s (deassertSelect straps s) := by
  have hpins (u : State) (h : u.slots = (s.setPins { s.pins with chipSelect := false }).slots) :
      Steps s u := (Forward.of_slots h).steps
  unfold deassertSelect
  dsimp only
  split
  · split
    · refine hpins _ ?_
      rw [meetReload_eq]
      rfl
    · split
      · exact hpins _ slots_cutShort
      · exact hpins _ slots_cutShort
      · split
        · exact steps_of_reset rfl rfl
        · exact hpins _ rfl
      · exact hpins _ rfl
      · exact hpins _ rfl
  · exact (Forward.refl s).steps

/-! ## The step -/

/-- Every command keeps the table's law and moves the records forward; a reset leaves none. -/
theorem exec_steps (c : Instr) (ht : exec c s = .next t) : Steps s t := by
  have steps {f : State → State} (he : exec c s = perform c f s) (hf : Steps s (f s)) :
      Steps s t := (perform_cases (he ▸ ht)).2 ▸ hf
  have forward {f : State → State} (he : exec c s = perform c f s) (hf : Forward s (f s)) :
      Steps s t := steps he hf.steps
  have same {f : State → State} (he : exec c s = perform c f s)
      (hf : (f s).slots = s.slots) : Steps s t := forward he (.of_slots hf)
  cases c with
  | powerOn straps => exact steps rfl (steps_of_reset rfl rfl)
  | resetPinAssert => exact steps rfl steps_assertReset
  | chipSelectDeassert straps => exact steps rfl (steps_deassertSelect straps)
  | resetPinRelease straps => exact same rfl (slots_releaseReset straps)
  | loadComplete image => exact forward rfl (forward_completeLoad image)
  | loadFault image => exact same rfl (slots_faultLoad image)
  | ppsEdge edge => exact forward rfl (forward_takeEdge edge)
  | timeOfDayMessage chars => exact forward rfl (forward_endTod chars)
  | localSecondBoundary => exact forward rfl (forward_atMoment fun _ => forward_reachBoundary)
  | slotTimeReached => exact forward rfl (forward_atMoment fun _ => forward_reachSlot)
  | holdoverEntry => exact forward rfl (forward_atMoment fun _ => forward_setClock rfl)
  | holdoverLimitExpiry => exact forward rfl (forward_atMoment fun _ => forward_expireHoldover)
  | frameStart => exact same rfl slots_takeFrameStart
  | byteEvent b => exact same rfl (slots_takeByte b)
  | frameEnd => exact same rfl slots_takeFrameEnd
  | frameJudgement => exact forward rfl forward_judgeHeld
  | stallExpiry n => exact forward rfl (forward_atMoment fun _ => forward_stallStream n)
  | closeDeadline tag => exact forward rfl (forward_atMoment fun _ => forward_passClose tag)
  | streamResolution => exact forward rfl forward_resolveNext
  | closeCompletion => exact forward rfl forward_completeClose
  | gatheringDeadline tag => exact forward rfl (forward_atMoment fun _ => forward_passGather tag)
  | shareExpiry tag =>
    exact forward rfl (forward_atMoment fun _ => .of_slots (passShare_frame tag).slots)
  | snapshotByteTaken => exact forward rfl forward_takeSnapshotByte
  | deliveryEnd => exact forward rfl forward_endDelivery
  | markPulseEnd => exact forward rfl (forward_atMoment fun _ => .of_slots slots_lowerMark)
  | claimStart => exact same rfl slots_startClaim
  | claimResolved line => exact same rfl (slots_resolveClaim line)
  | foreignClaimResolved => exact same rfl slots_foreignClaim
  | deferIdleExpiry => exact same rfl slots_deferIdle
  | transmissionComplete => exact same rfl slots_completeSend
  | collision => exact same rfl slots_findMismatch
  | shareHeader bytes => exact same rfl (slots_takeHeader bytes)
  | linkFrameEnd key bytes => exact forward rfl (forward_endLinkFrame key bytes)
  | silenceExpiry peer => exact forward rfl (forward_atMoment fun _ => forward_silencePeer peer)
  | chipSelectAssert => exact same rfl slots_assertSelect
  | readStatus => exact forward rfl (forward_plainCommand (.of_slots rfl))
  | readRoster => exact forward rfl (forward_plainCommand (.of_slots rfl))
  | readStream args =>
    exact forward rfl (forward_argumentCommand _ _ fun _ => .of_slots (slots_reportStream _))
  | readCounters => exact forward rfl (forward_plainCommand (.of_slots rfl))
  | readLastDrop => exact forward rfl (forward_plainCommand (.of_slots rfl))
  | readResetCause => exact forward rfl (forward_plainCommand (.of_slots rfl))
  | clearCounters => exact forward rfl (forward_plainCommand (.of_slots rfl))
  | setWait args => exact forward rfl (forward_argumentCommand _ _ fun _ => .of_slots rfl)
  | enableStream args =>
    exact forward rfl (forward_argumentCommand _ _ fun _ => .of_slots (slots_setPendingMember _ _))
  | disableStream args =>
    exact forward rfl (forward_argumentCommand _ _ fun _ => .of_slots (slots_setPendingMember _ _))
  | resumeClock => exact forward rfl (forward_plainCommand forward_resumeClock)
  | ackAttention args => exact forward rfl (forward_argumentCommand _ _ fun _ => .of_slots rfl)
  | reload => exact forward rfl (forward_plainCommand (.of_slots rfl))
  | unknownCommand code =>
    exact forward rfl (forward_plainCommand (.of_slots (slots_refuseCommand _)))
  | linkIdleJudged => exact same rfl slots_judgeIdle

theorem step_steps (ht : step s = .next t) : Steps s t := by
  cases hp : s.pending with
  | nil =>
    rw [step_nil hp] at ht
    cases ht
    exact forward_tick.steps
  | cons c rest =>
    have hc : exec c (s.setPending rest) = .next t := by simpa only [step, hp] using ht
    exact exec_steps (s := s.setPending rest) c hc

/-- Settles O6: every step keeps the table's law. -/
theorem stepKeepsTheTableLaw : Obligations.StepKeepsTheTableLaw := by
  unfold Obligations.StepKeepsTheTableLaw
  exact fun s t hs ht => (step_steps ht hs).1

/-- Settles O12: every step moves the held records forward. -/
theorem recordsOnlyMoveForward : Obligations.RecordsOnlyMoveForward := by
  unfold Obligations.RecordsOnlyMoveForward
  exact fun s t hs ht => (step_steps ht hs).2

end Sys2Proof.Machine

/-! The close runs on: a resolution stores its cell and the monitors judge it, and a completion hands the
share over and examines the next record (R73, R74, R76, R78, R87, R176). -/

namespace Sys2Proof.Machine

open Sys2Proof

variable {s t u : State} {r q : Record} {tag : Tag}

/-- A command with operands the outside world can send is its effect. -/
theorem exec_next {c : Instr} {effect : State → State} (he : exec c s = perform c effect s)
    (hw : c.wellFormed = true) : exec c s = .next (effect s) := he.trans (perform_next effect hw)

/-! ## A resolution (R76, R87, R176) -/

/-- A resolution of the record in close, its next stream known. -/
theorem resolveNext_eq {cs : List Cell} {pos : Nat} {st : Stream}
    (hr : closingRecord s.table.records = some r) (hcs : r.cells = some cs)
    (hpos : r.enabled[cs.length]? = some pos) (hst : s.streams[pos]? = some st) :
    resolveNext s = evaluateCell pos (cellOf s r st) r.tag
      (updateRecord r.tag (Record.storeCells (cs ++ [cellOf s r st])) s) := by
  have hn : nextResolution s = some (r, cs, pos) := by simp [nextResolution, hr, hcs, hpos]
  unfold resolveNext
  simp only [hn, hst]
  rfl

theorem judgeCell_streams (pos : Nat) (c : Cell) (tag : Tag) (s : State) (i : Fin 8) :
    (judgeCell pos c tag s i).streams = s.streams := by
  have hoffer (m : Mark) (u : State) : (offerMark tag m u).streams = u.streams := by
    unfold offerMark
    split
    · rfl
    · split
      · exact bump_streams _
      · exact bump_streams _
  unfold judgeCell
  dsimp only
  split
  · rfl
  · split
    · rfl
    · split
      · rfl
      · split_ifs
        · rfl
        · exact hoffer _ _
        · exact bump_streams _

theorem evaluateCell_streams (pos : Nat) (c : Cell) (tag : Tag) (s : State) :
    (evaluateCell pos c tag s).streams = s.streams := by
  unfold evaluateCell
  generalize monitorNumbers = is
  induction is generalizing s with
  | nil => rfl
  | cons i is ih => exact (ih _).trans (judgeCell_streams pos c tag s i)

/-- The monitors leave a record as it is but for marks behind its own. -/
theorem evaluateCell_record (pos : Nat) (c : Cell) (hr : r ∈ s.table.records) (ht : r.tag = tag) :
    ∃ more, { r with marks := r.marks ++ more } ∈ (evaluateCell pos c tag s).table.records := by
  unfold evaluateCell
  generalize monitorNumbers = is
  induction is generalizing s r with
  | nil => exact ⟨[], by simpa using hr⟩
  | cons i is ih =>
    rcases judgeCell_slots pos c tag s i with h | ⟨m, h⟩
    · exact ih (by rw [(Prod.mk.inj h).1]; exact hr) ht
    · have hm : r.addMark m ∈ (judgeCell pos c tag s i).table.records := by
        rw [(Prod.mk.inj h).1, updateRecord_eq]
        exact List.mem_map.2 ⟨r, hr, if_pos ht⟩
      obtain ⟨more, hmore⟩ := ih hm ht
      exact ⟨m :: more, by simpa [Record.addMark] using hmore⟩

/-- Settles O35. -/
theorem resolutionStoresTheCell : Obligations.ResolutionStoresTheCell := by
  unfold Obligations.ResolutionStoresTheCell
  intro s r cs pos st c hr hcs hpos hst hcell
  obtain rfl : c = cellOf s r st := hcell
  obtain ⟨hmem, hc⟩ := closingRecord_some hr
  have hstored : r.storeCells (cs ++ [cellOf s r st]) ∈
      (updateRecord r.tag (Record.storeCells (cs ++ [cellOf s r st])) s).table.records := by
    rw [updateRecord_eq]
    exact List.mem_map.2 ⟨r, hmem, if_pos rfl⟩
  obtain ⟨more, hmarks⟩ := evaluateCell_record (tag := r.tag) pos (cellOf s r st) hstored rfl
  refine ⟨resolveNext s, exec_next rfl rfl, ?_, ?_, ?_⟩
  · rw [resolveNext_eq hr hcs hpos hst]
    rfl
  · rw [resolveNext_eq hr hcs hpos hst]
    exact evaluateCell_streams _ _ _ _
  · rw [resolveNext_eq hr hcs hpos hst]
    exact ⟨_, hmarks, rfl, hc, rfl, rfl, more, rfl⟩

/-! ## A completion (R73, R74, R76, R78) -/

theorem exec_closeCompletion (hr : closingRecord s.table.records = some r)
    (hl : (r.cells.getD []).length = r.enabled.length) :
    exec .closeCompletion s = .next (examine (finishClose r s)) := by
  have hc : completable s = some r := by simp [completable, hr, hl]
  refine (exec_next (effect := completeClose) rfl rfl).trans ?_
  simp [completeClose, hc]

/-- A completion leaves the oldest OPEN record what it was. -/
theorem finishClose_oldestOpen (h : TableLaw s) (hr : r ∈ s.table.records) (hc : r.state = .closing) :
    oldestOpen (finishClose r s).table.records = oldestOpen s.table.records := by
  unfold oldestOpen
  rw [← List.head?_filter, ← List.head?_filter, finishClose_opened h hr hc]

/-- The start of a close, its deadline passed or not: the record and the sequencer CLOSING, and
EARLY_CLOSE counted where the deadline has not passed (R72, R73). -/
theorem startClose_effect (hr : r ∈ s.table.records) :
    (startClose r s).table.sequencer = .closing ∧
      (∃ q ∈ (startClose r s).table.records, q.tag = r.tag ∧ q.state = .closing ∧
        q.cells = some []) ∧
      (startClose r s).count .earlyClose = if r.closePassed = true then s.count .earlyClose
        else min (s.count .earlyClose + 1) 65535 := by
  by_cases hp : r.closePassed = true
  · have hstart := (startClose_starts r s _ rfl).trans (if_pos hp)
    refine ⟨by rw [hstart], ⟨r.closeStarted, ?_, rfl, rfl, rfl⟩, by rw [if_pos hp, hstart]; rfl⟩
    rw [startClose_records]
    exact List.mem_map.2 ⟨r, hr, if_pos rfl⟩
  · rw [if_neg hp]
    exact startClose_early hr (by simpa using hp)

/-- Settles O37: the completion is the one of R78, and leaves the sequencer IDLE and the oldest OPEN record
as it was, so that the examination starts that record's close or none. -/
theorem closeCompletionHandsOver : Obligations.CloseCompletionHandsOver := by
  unfold Obligations.CloseCompletionHandsOver
  intro s r hs hl hr hlen
  obtain ⟨hmem, hc⟩ := closingRecord_some hr
  have hold := finishClose_oldestOpen hs hmem hc
  have hready (q : Record) : readyToClose (finishClose r s) q = readyToClose s q :=
    readyToClose_congr (finishClose_streams r) (finishClose_frame (s := s) r .loader (by decide)) q
  have hcount : (finishClose r s).count .earlyClose = s.count .earlyClose := by
    rw [finishClose_count_other r s (by decide) (by decide),
      (closeHanded_counts r s).2.2 _ (by decide) (by decide)]
  refine ⟨finishClose r s, _, exec_closeCompletion hr hlen, finishClose_completes hmem hc,
    examine_examination _, fun q hq => ⟨fun hp hn => ?_, fun hmay he => ?_⟩, fun hnone => ?_⟩
  · exact examine_of_none (startable_none_of_not_ready (hold.trans hq) hp ((hready q).trans hn))
  · have hmay : startable (finishClose r s) = some q :=
      startable_iff.2 ⟨rfl, hold.trans hq, hmay.imp id (hready q).trans⟩
    rw [examine_starts hmay he, ← hcount]
    exact startClose_effect (oldestOpen_some (hold.trans hq)).1
  · refine examine_of_none ?_
    unfold startable
    rw [hold, show oldestOpen s.table.records = none from hnone]
    split <;> simp_all

end Sys2Proof.Machine

/-! What a judgement leaves as it is and what becomes of the record that is judged first (R79, R80), and
with it the end of a delivery and the passing of a gathering deadline (R71, R81, R136, R155 to R157, R168,
R169). -/

namespace Sys2Proof.Machine

open Sys2Proof

variable {s t u m : State} {r q : Record} {rs before after : List Record} {tag : Tag}

/-! ## A judgement, one leaving after the other (R79) -/

/-- What every leaving keeps, a judgement keeps. -/
theorem judgeUpTo_keeps {P : State → Prop}
    (h : ∀ (s : State) (r : Record), P s → nextToLeave s.table.records = some r →
      P (leaveGathering r s)) (n : Nat) : ∀ s : State, P s → P (judgeUpTo n s) := by
  induction n with
  | zero => exact fun _ hs => hs
  | succ n ih =>
    intro s hs
    unfold judgeUpTo
    split
    · next r hr => exact ih _ (h s r hs hr)
    · exact hs

/-- A leaving gives the free list blocks and takes none (R141). -/
theorem leaveGathering_free {b : Block} (r : Record) (hb : b ∈ s.gather.free) :
    b ∈ (leaveGathering r s).gather.free := by
  unfold leaveGathering
  split
  · rw [show (takeRecord _).gather.free = _ from takeRecord_frame (s := updateRecord r.tag _ s)
      .freeList (by decide)]
    exact hb
  · simpa [reportSkip, freeRecords_eq] using Or.inl hb

theorem judgeUpTo_free {b : Block} (n : Nat) (hb : b ∈ s.gather.free) :
    b ∈ (judgeUpTo n s).gather.free :=
  judgeUpTo_keeps (P := fun s => b ∈ s.gather.free) (fun _ r h _ => leaveGathering_free r h) n s hb

/-- A leaving brings no tag into the table. -/
theorem leaveGathering_tags (r : Record) (hq : ∀ q ∈ s.table.records, q.tag ≠ tag) :
    ∀ q ∈ (leaveGathering r s).table.records, q.tag ≠ tag := by
  unfold leaveGathering
  split
  · rw [takeRecord_table, updateRecord_eq]
    intro q hqm
    obtain ⟨p, hp, rfl⟩ := List.mem_map.1 hqm
    split
    · exact hq p hp
    · exact hq p hp
  · rw [reportSkip, State.setAssembler_table, bump_table, freeRecords_eq]
    exact fun q hqm => hq q (List.mem_filter.1 hqm).1

theorem judgeUpTo_tags (n : Nat) (hq : ∀ q ∈ s.table.records, q.tag ≠ tag) :
    ∀ q ∈ (judgeUpTo n s).table.records, q.tag ≠ tag :=
  judgeUpTo_keeps (P := fun s => ∀ q ∈ s.table.records, q.tag ≠ tag)
    (fun _ r h _ => leaveGathering_tags r h) n s hq

/-- A leaving leaves every record that is not GATHERING. -/
theorem HeldLaw.leaveGathering_stays (h : HeldLaw s) (hn : nextToLeave s.table.records = some r)
    (hq : q ∈ s.table.records) (hg : q.state ≠ .gathering) :
    q ∈ (Machine.leaveGathering r s).table.records := by
  obtain ⟨before, after, hs, -, hgr, -⟩ := nextToLeave_split hn
  rw [leaveGathering_records hs h.ordered]
  rw [hs, List.mem_append, List.mem_cons] at hq
  rcases hq with hq | rfl | hq
  · split <;> simp [hq]
  · exact absurd hgr hg
  · split <;> simp [hq]

theorem HeldLaw.judgeUpTo_stays (h : HeldLaw s) (n : Nat) (hq : q ∈ s.table.records)
    (hg : q.state ≠ .gathering) : q ∈ (judgeUpTo n s).table.records :=
  (judgeUpTo_keeps (P := fun s => HeldLaw s ∧ q ∈ s.table.records)
    (fun _ _ ⟨h, hq⟩ hn => ⟨h.leaveGathering hn, h.leaveGathering_stays hn hq hg⟩) n s ⟨h, hq⟩).2

/-- A judgement in which a record may leave begins with its leaving. -/
theorem judge_begins (h : nextToLeave s.table.records = some r) :
    ∃ n, judge s = judgeUpTo n (leaveGathering r s) := by
  have hm := List.mem_of_find?_eq_some (nextToLeave_some h).1
  obtain ⟨n, hn⟩ := Nat.exists_eq_succ_of_ne_zero (List.length_pos_of_mem hm).ne'
  exact ⟨n, by rw [judge, hn, judgeUpTo, h]⟩

/-- What becomes of the record that a judgement takes first: DRAINING, or skipped and freed when 16 are
(R79, R80, R141). -/
theorem judge_first (h : HeldLaw s) (hn : nextToLeave s.table.records = some r) :
    (drainingCount s.table.records < 16 →
      { r with state := .draining } ∈ (judge s).table.records) ∧
    (drainingCount s.table.records = 16 → (∀ q ∈ (judge s).table.records, q.tag ≠ r.tag) ∧
      ∀ b ∈ r.blocks, b ∈ (judge s).gather.free) := by
  obtain ⟨before, after, hs, -⟩ := nextToLeave_split hn
  obtain ⟨n, hj⟩ := judge_begins hn
  have hrec := leaveGathering_records hs h.ordered
  rw [hj]
  refine ⟨fun hroom => (h.leaveGathering hn).judgeUpTo_stays n ?_ nofun, fun hfull => ⟨?_, ?_⟩⟩
  · rw [hrec, if_pos hroom]
    simp
  · refine judgeUpTo_tags n fun q hq => ?_
    rw [hrec, if_neg (by omega)] at hq
    obtain ⟨hb, ha⟩ := tag_ne_of_inOrder (hs ▸ h.ordered)
    exact (List.mem_append.1 hq).elim (hb q) (ha q)
  · intro b hb
    refine judgeUpTo_free n ?_
    rw [(leaveGathering_leaves r s).2 (by omega)]
    refine List.mem_append_right _ (List.mem_flatMap.2 ⟨r, ?_, hb⟩)
    simp [hs]

/-! ## The assembler looks for a record (R156, R157) -/

theorem compose_assembler (r : Record) (s : State) :
    (compose r s).assembler.state = .delivering (compositionOf s r) 0 ∧
      (compose r s).assembler.skipped = 0 := by
  have h : (compose r s).assembler = _ := bumpTimes_frame .codeConflict _ _ .assembler (by decide)
  rw [h]
  exact ⟨rfl, rfl⟩

theorem takeRecord_some (hs : s.assembler.state = .idle)
    (hr : s.table.records.find? (fun q => q.state == .draining) = some r) :
    takeRecord s = compose r s := by
  simp [takeRecord, hs, hr]

theorem takeRecord_none (hr : s.table.records.find? (fun q => q.state == .draining) = none) :
    takeRecord s = s := by
  unfold takeRecord
  rw [hr]
  split <;> rfl

/-! ## The end of a delivery (R81, R156, R168) -/

/-- The node at the end of a delivery with the delivered record freed, before any judgement. -/
def deliveredFreed (c : Composition) (s : State) : State :=
  freeRecords (fun r => r.tag == c.tag) (bump .snapshotsDelivered s)

theorem deliveredFreed_eq (c : Composition) (s : State) : deliveredFreed c s =
    { bump .snapshotsDelivered s with
      table := { s.table with
        records := s.table.records.filter (fun q => decide (q.tag ≠ c.tag)) }
      gather := { s.gather with free := s.gather.free ++
        (s.table.records.filter (fun q => decide (q.tag = c.tag))).flatMap Record.blocks } } := by
  have hne : (fun q : Record => decide (q.tag ≠ c.tag)) = fun q => !(q.tag == c.tag) :=
    funext fun q => by by_cases h : q.tag = c.tag <;> simp [h]
  have heq : (fun q : Record => decide (q.tag = c.tag)) = fun q => q.tag == c.tag :=
    funext fun q => by by_cases h : q.tag = c.tag <;> simp [h]
  rw [deliveredFreed, freeRecords_eq, bump_table, bump_gather, hne, heq]

theorem finishDelivery_eq (c : Composition) (s : State) : finishDelivery c s =
    takeRecord ((judge (deliveredFreed c s)).setDelivery .idle) := rfl

theorem exec_deliveryEnd {c : Composition} {taken : Nat}
    (hs : s.assembler.state = .delivering c taken) (hl : c.length ≤ taken + 1) :
    exec .deliveryEnd s = .next (finishDelivery c s) := by
  refine (exec_next (effect := endDelivery) rfl rfl).trans ?_
  simp [endDelivery, hs, hl]

theorem deliveredFreed_assembler (c : Composition) (s : State) :
    (deliveredFreed c s).assembler = s.assembler := bump_assembler _

/-- A judgement beside a busy assembler changes its skipped count at most. -/
theorem judge_assembler (h : s.assembler.state ≠ .idle) :
    (judge s).assembler = { s.assembler with skipped := (judge s).assembler.skipped } := by
  have hleave (u : State) (r : Record) (hu : ∃ n, u.assembler = { s.assembler with skipped := n }) :
      ∃ n, (leaveGathering r u).assembler = { s.assembler with skipped := n } := by
    obtain ⟨n, hn⟩ := hu
    unfold leaveGathering
    split
    · rw [takeRecord_of_busy (by simpa [updateRecord_eq, hn] using h)]
      exact ⟨n, hn⟩
    · refine ⟨satInc n, ?_⟩
      simp [reportSkip, freeRecords_eq, hn]
  obtain ⟨n, hn⟩ := judgeUpTo_keeps (P := fun u => ∃ n, u.assembler = { s.assembler with skipped := n })
    (fun u r hu _ => hleave u r hu) s.table.records.length s ⟨_, rfl⟩
  have hj : (judge s).assembler = { s.assembler with skipped := n } := hn
  rw [hj]

/-- A node without a GATHERING record has none to judge. -/
theorem judge_of_no_gathering (h : ∀ r ∈ s.table.records, r.state ≠ .gathering) : judge s = s := by
  refine judge_of_none ?_
  cases hn : nextToLeave s.table.records with
  | none => rfl
  | some r =>
    obtain ⟨hf, hg, -⟩ := nextToLeave_some hn
    exact absurd hg (h r (List.mem_of_find?_eq_some hf))

/-- What the assembler holds after a delivery's end: the oldest DRAINING record's composition, made of the
node as the judgement leaves it, or nothing. -/
theorem finishDelivery_assembler (c : Composition) (s : State) :
    (∀ q, (judge (deliveredFreed c s)).table.records.find? (fun q => q.state == .draining) = some q →
      (finishDelivery c s).assembler.state =
          .delivering (compositionOf (judge (deliveredFreed c s)) q) 0 ∧
        (finishDelivery c s).assembler.skipped = 0) ∧
    ((judge (deliveredFreed c s)).table.records.find? (fun q => q.state == .draining) = none →
      (finishDelivery c s).assembler.state = .idle) := by
  rw [finishDelivery_eq]
  refine ⟨fun q hq => ?_, fun hn => ?_⟩
  · rw [takeRecord_some (s := (judge (deliveredFreed c s)).setDelivery .idle) rfl hq]
    exact compose_assembler q _
  · rw [takeRecord_none (s := (judge (deliveredFreed c s)).setDelivery .idle) hn]
    rfl

theorem finishDelivery_table (c : Composition) (s : State) :
    (finishDelivery c s).table = (judge (deliveredFreed c s)).table := by
  rw [finishDelivery_eq, takeRecord_table]
  rfl

theorem finishDelivery_free (c : Composition) (s : State) :
    (finishDelivery c s).gather.free = (judge (deliveredFreed c s)).gather.free :=
  takeRecord_frame (s := (judge (deliveredFreed c s)).setDelivery .idle) .freeList (by decide)

theorem finishDelivery_count (c : Composition) (s : State) :
    (finishDelivery c s).count .snapshotsDelivered =
      min (s.count .snapshotsDelivered + 1) 65535 := by
  rw [finishDelivery_eq, takeRecord_count (by decide)]
  exact (judge_count (s := deliveredFreed c s) (by decide)).trans (count_bump_same _)

/-- The delivered record's tag is gone. -/
theorem finishDelivery_tags (c : Composition) (s : State) :
    ∀ q ∈ (finishDelivery c s).table.records, q.tag ≠ c.tag := by
  rw [finishDelivery_table]
  refine judgeUpTo_tags _ fun q hq => ?_
  rw [deliveredFreed_eq] at hq
  simpa using (List.mem_filter.1 hq).2

/-- The delivered record's blocks are free again (R141). -/
theorem finishDelivery_blocks {c : Composition} (hr : r ∈ s.table.records) (ht : r.tag = c.tag) :
    ∀ b ∈ r.blocks, b ∈ (finishDelivery c s).gather.free := by
  intro b hb
  rw [finishDelivery_free]
  refine judgeUpTo_free _ ?_
  rw [deliveredFreed_eq]
  exact List.mem_append_right _ (List.mem_flatMap.2 ⟨r, List.mem_filter.2 ⟨hr, by simpa using ht⟩, hb⟩)

/-- With no GATHERING record the composition is that of the node before the delivery's end. -/
theorem compositionOf_deliveredFreed (c : Composition)
    (h : ∀ r ∈ s.table.records, r.state ≠ .gathering) (q : Record) :
    compositionOf (judge (deliveredFreed c s)) q = compositionOf s q := by
  rw [judge_of_no_gathering, deliveredFreed_eq]
  · simp [compositionOf]
  · intro r hr
    rw [deliveredFreed_eq] at hr
    exact h r (List.mem_filter.1 hr).1

/-! ## The end of the MARK pulse (R169) -/

theorem exec_markPulseEnd {a : Nat} (ha : s.assembler.mark = some a) (hc : CanArrive (60 - a) s) :
    exec .markPulseEnd s = .next (lowerMark (momentOf (60 - a) s)) := by
  have hd : markIn s = some (60 - a) := by simp [markIn, ha, Config.markPulse]
  exact exec_timed rfl rfl hd hc

/-- Settles O40. -/
theorem deliveryAndMarkPulseEnd : Obligations.DeliveryAndMarkPulseEnd := by
  unfold Obligations.DeliveryAndMarkPulseEnd
  refine ⟨fun s c taken hs => ⟨fun hl u hu => ?_, fun hlt => ?_, fun hl => ?_⟩,
    fun s m a ha hc hm => ⟨hm ▸ exec_markPulseEnd ha hc, rfl⟩⟩
  · rw [← deliveredFreed_eq] at hu
    subst hu
    have hbusy : (deliveredFreed c s).assembler.state ≠ .idle := by
      rw [deliveredFreed_assembler, hs]
      nofun
    refine ⟨judge (deliveredFreed c s), judge_judgement _, ?_, fun q hq => ?_,
      exec_deliveryEnd hs hl⟩
    · rw [← deliveredFreed_assembler c s]
      exact judge_assembler hbusy
    · exact ⟨_, exec_deliveryEnd hs hl, ((finishDelivery_assembler c s).1 q hq).1,
        finishDelivery_table c s⟩
  · refine (exec_next (effect := takeSnapshotByte) rfl rfl).trans ?_
    simp only [takeSnapshotByte, hs, if_pos hlt]
    rfl
  · obtain ⟨hsome, hnone⟩ := finishDelivery_assembler c s
    refine ⟨_, exec_deliveryEnd hs hl, finishDelivery_count c s, finishDelivery_tags c s,
      fun r hr ht => finishDelivery_blocks hr ht, fun q hq => ?_, fun hn => ?_⟩
    · rw [finishDelivery_table] at hq
      obtain ⟨hstate, hskipped⟩ := hsome q hq
      exact ⟨_, hstate, rfl, hskipped, fun hg => compositionOf_deliveredFreed c hg q⟩
    · rw [finishDelivery_table] at hn
      exact hnone hn

end Sys2Proof.Machine

/-! The gathering deadline of a record (R71, R136, R138): the misses counted station by station, the entries
that fall silent, and the judgement that follows. -/

namespace Sys2Proof.Machine

open Sys2Proof

variable {s t m : State} {r q : Record} {tag : Tag} {i j : Station}

/-! ## One miss (R136) -/

/-- A missed deadline makes the entry SILENT: it is PRESENT and the miss is its fourth (R136). -/
def State.falls (s : State) (i : Station) : Bool :=
  decide (3 ≤ s.gather.roster[i].misses ∧ s.gather.roster[i].state = .present)

/-- An entry with a deadline missed (R136). -/
def Peer.missed (p : Peer) : Peer :=
  { p with
    misses := min (p.misses + 1) 4
    state := if 3 ≤ p.misses ∧ p.state = .present then .silent else p.state }

/-- What a miss changes: the entry, and where it falls silent the count and the expected sets. -/
theorem countMiss_effect (s : State) (i : Station) :
    (countMiss s i).gather.roster = s.gather.roster.set i s.gather.roster[i].missed ∧
    (countMiss s i).table.records = (if s.falls i then s.table.records.map
      (fun r => if r.state = .gathering then r.unexpecting i else r) else s.table.records) ∧
    (countMiss s i).count .peerSilent = (if s.falls i then min (s.count .peerSilent + 1) 65535
      else s.count .peerSilent) := by
  obtain ⟨hfalls, hstays⟩ := countMiss_counted i s _ rfl
  by_cases hf : 3 ≤ s.gather.roster[i].misses ∧ s.gather.roster[i].state = .present
  · have he := hfalls hf
    unfold LeavesPresent at he
    rw [he, State.falls, decide_eq_true hf, bump_gather, bump_table, count_bump_same]
    have hmissed : s.gather.roster[i].missed = { s.gather.roster[i] with
        misses := min (s.gather.roster[i].misses + 1) 4, state := .silent } := by
      simp only [Peer.missed, if_pos hf]
    rw [hmissed]
    exact ⟨by simp, rfl, rfl⟩
  · rw [hstays hf, State.falls, decide_eq_false hf]
    refine ⟨?_, rfl, rfl⟩
    simp only [Peer.missed, if_neg hf]

theorem countMiss_peer_same (s : State) (i : Station) :
    (countMiss s i).gather.roster[i] = s.gather.roster[i].missed := by
  rw [(countMiss_effect s i).1]
  simp

theorem countMiss_peer_other (s : State) (h : j ≠ i) :
    (countMiss s i).gather.roster[j] = s.gather.roster[j] := by
  have hij : i.val ≠ j.val := fun he => h (Fin.ext he.symm)
  rw [(countMiss_effect s i).1]
  simp only [Fin.getElem_fin, Vector.getElem_set_ne _ _ hij]

/-! ## The misses of one deadline (R136, R138) -/

/-- A record that waits for none of these stations any more. -/
def Record.unexpectingAll (gone : List Station) (r : Record) : Record :=
  { r with expected := r.expected.map (·.filter (· ∉ gone)) }

theorem mem_unexpectingAll {gone : List Station} : i ∈ (r.unexpectingAll gone).expected.getD [] ↔
    i ∈ r.expected.getD [] ∧ i ∉ gone := by
  cases h : r.expected <;> simp [Record.unexpectingAll, h]

theorem unexpectingAll_nil (r : Record) : r.unexpectingAll [] = r := by
  simp [Record.unexpectingAll]

theorem unexpectingAll_cons (i : Station) (gone : List Station) (r : Record) :
    r.unexpectingAll (i :: gone) = (r.unexpecting i).unexpectingAll gone := by
  cases h : r.expected with
  | none => simp [Record.unexpectingAll, Record.unexpecting, h]
  | some l =>
    simp only [Record.unexpectingAll, Record.unexpecting, h, Option.map_some, List.filter_filter,
      List.mem_cons, not_or, Bool.decide_and]
    congr 2
    exact List.filter_congr fun j _ => Bool.and_comm _ _

/-- The GATHERING records wait for none of these stations any more. -/
def unexpectAll (gone : List Station) (rs : List Record) : List Record :=
  rs.map fun r => if r.state = .gathering then r.unexpectingAll gone else r

theorem unexpectAll_cons (i : Station) (gone : List Station) (rs : List Record) :
    unexpectAll (i :: gone) rs = unexpectAll gone
      (rs.map fun r => if r.state = .gathering then r.unexpecting i else r) := by
  unfold unexpectAll
  rw [List.map_map]
  refine List.map_congr_left fun r _ => ?_
  simp only [Function.comp_apply]
  split
  · next hg => rw [if_pos (show (r.unexpecting i).state = _ from hg), unexpectingAll_cons]
  · rfl

theorem unexpectAll_nil (rs : List Record) : unexpectAll [] rs = rs := by
  unfold unexpectAll
  refine (List.map_congr_left fun r _ => ?_).trans (List.map_id' rs)
  rw [unexpectingAll_nil, ite_self]

/-- What the misses of one deadline change, each station counted once. -/
theorem countMisses_effect (is : List Station) : ∀ s : State, is.Nodup →
    (∀ j, (is.foldl countMiss s).gather.roster[j] =
      if j ∈ is then s.gather.roster[j].missed else s.gather.roster[j]) ∧
    (is.foldl countMiss s).table.records = unexpectAll (is.filter s.falls) s.table.records ∧
    (is.foldl countMiss s).count .peerSilent = (if is.filter s.falls = [] then s.count .peerSilent
      else min (s.count .peerSilent + (is.filter s.falls).length) 65535) := by
  induction is with
  | nil => exact fun s _ => ⟨fun _ => rfl, (unexpectAll_nil _).symm, rfl⟩
  | cons i is ih =>
    intro s hnodup
    obtain ⟨hi, his⟩ := List.nodup_cons.1 hnodup
    obtain ⟨hroster, hrecords, hcount⟩ := ih (countMiss s i) his
    obtain ⟨-, hrec, hcnt⟩ := countMiss_effect s i
    have hgone : is.filter (countMiss s i).falls = is.filter s.falls :=
      List.filter_congr fun j hj => by
        unfold State.falls
        rw [countMiss_peer_other s fun he : j = i => hi (he ▸ hj)]
    rw [hgone] at hrecords hcount
    rw [List.foldl_cons]
    refine ⟨fun j => ?_, ?_, ?_⟩
    · rw [hroster]
      by_cases hj : j = i
      · subst hj
        rw [if_neg hi, if_pos (List.mem_cons_self), countMiss_peer_same]
      · rw [countMiss_peer_other s hj]
        simp [hj]
    · rw [hrecords, hrec]
      by_cases hf : s.falls i = true
      · rw [List.filter_cons_of_pos hf, if_pos hf, unexpectAll_cons]
      · rw [List.filter_cons_of_neg hf, if_neg hf]
    · rw [hcount, hcnt]
      by_cases hf : s.falls i = true
      · rw [List.filter_cons_of_pos hf, if_pos hf, if_neg (List.cons_ne_nil _ _), List.length_cons]
        split
        · next hnil => simp [hnil]
        · omega
      · rw [List.filter_cons_of_neg hf, if_neg hf]

/-! ## The passing of a gathering deadline (R71, R136) -/

/-- The node at a gathering deadline with the record marked and the misses counted, before the
judgement (R71, R136, R138). -/
def missesCounted (r : Record) (s : State) : State :=
  r.missing.foldl countMiss (updateRecord r.tag Record.markGather s)

theorem passGather_of_gathering (hr : recordOf tag s.table.records = some r)
    (hg : r.state = .gathering) : passGather tag s = judge (missesCounted r s) := by
  obtain ⟨-, rfl⟩ := recordOf_some hr
  have hm : recordOf r.tag (updateRecord r.tag Record.markGather s).table.records =
      some r.markGather := by
    rw [updateRecord_eq]
    exact (recordOf_map (f := Record.markGather) (fun _ => rfl) _).trans (by rw [hr]; rfl)
  have he : passGather r.tag s = match recordOf r.tag
      (updateRecord r.tag Record.markGather s).table.records with
    | some q => if q.state = .gathering then
        judge (q.missing.foldl countMiss (updateRecord r.tag Record.markGather s))
        else updateRecord r.tag Record.markGather s
    | none => updateRecord r.tag Record.markGather s := rfl
  rw [he, hm]
  exact if_pos hg

theorem missesCounted_law (r : Record) (h : TableLaw s) : TableLaw (missesCounted r s) :=
  ((Forward.foldl forward_countMiss _ _).comp
    (forward_updateRecord (f := Record.markGather) fun q _ _ => ⟨rfl, q.movesTo_markGather⟩) h).1

/-- A record as a gathering deadline leaves it before the judgement. -/
def Record.deadlinePassed (tag : Tag) (gone : List Station) (r : Record) : Record :=
  if r.state = .gathering then (if r.tag = tag then r.markGather else r).unexpectingAll gone
  else if r.tag = tag then r.markGather else r

theorem deadlinePassed_state (tag : Tag) (gone : List Station) (r : Record) :
    (r.deadlinePassed tag gone).state = r.state := by
  unfold Record.deadlinePassed
  split_ifs <;> rfl

/-- The stations that a gathering deadline makes SILENT (R136). -/
def goneAt (r : Record) (s : State) : List Station := r.missing.filter s.falls

theorem missesCounted_effect (r : Record) (s : State) (hn : r.missing.Nodup) :
    (∀ j, (missesCounted r s).gather.roster[j] =
      if j ∈ r.missing then s.gather.roster[j].missed else s.gather.roster[j]) ∧
    (missesCounted r s).table.records =
      s.table.records.map (Record.deadlinePassed r.tag (goneAt r s)) ∧
    (missesCounted r s).count .peerSilent = (if goneAt r s = [] then s.count .peerSilent
      else min (s.count .peerSilent + (goneAt r s).length) 65535) := by
  obtain ⟨hroster, hrecords, hcount⟩ :=
    countMisses_effect r.missing (updateRecord r.tag Record.markGather s) hn
  refine ⟨hroster, hrecords.trans ?_, hcount⟩
  unfold unexpectAll
  rw [updateRecord_eq, List.map_map]
  refine List.map_congr_left fun q _ => ?_
  simp only [Function.comp_apply, Record.deadlinePassed]
  have hstate : (if q.tag = r.tag then q.markGather else q).state = q.state := by split <;> rfl
  rw [hstate]
  rfl

/-- The record of the deadline as it stands before the judgement. -/
theorem deadlinePassed_own (hg : r.state = .gathering) (gone : List Station) :
    r.deadlinePassed r.tag gone = r.markGather.unexpectingAll gone := by
  rw [Record.deadlinePassed, if_pos hg, if_pos rfl]

/-- The record of the deadline is complete, and leaves first where all before it are DRAINING. -/
theorem nextToLeave_missesCounted (hn : r.missing.Nodup) (hg : r.state = .gathering)
    (hf : s.table.records.find? (fun q => q.state != .draining) = some r) :
    nextToLeave (missesCounted r s).table.records =
      some (r.markGather.unexpectingAll (goneAt r s)) := by
  have hfind : (missesCounted r s).table.records.find? (fun q => q.state != .draining) =
      some (r.markGather.unexpectingAll (goneAt r s)) := by
    rw [(missesCounted_effect r s hn).2.1, List.find?_map]
    have hcomp : (fun q : Record => q.state != .draining) ∘ Record.deadlinePassed r.tag (goneAt r s) =
        fun q => q.state != .draining := by
      funext q
      simp only [Function.comp_apply, deadlinePassed_state]
    rw [hcomp, hf, Option.map_some, deadlinePassed_own hg]
  unfold nextToLeave
  rw [hfind]
  exact if_pos ⟨hg, rfl⟩

theorem missesCounted_draining (r : Record) (s : State) (hn : r.missing.Nodup) :
    drainingCount (missesCounted r s).table.records = drainingCount s.table.records := by
  rw [(missesCounted_effect r s hn).2.1, drainingCount, List.countP_map]
  refine List.countP_congr fun q _ => ?_
  simp only [Function.comp_apply, deadlinePassed_state]

/-- A record behind one that still waits stays GATHERING at its deadline (R79). -/
theorem passGather_waits (h : TableLaw s) (hr : r ∈ s.table.records) (hg : r.state = .gathering)
    (hn : r.missing.Nodup) (hq : q ∈ s.table.records) (hqg : q.state = .gathering)
    (hold : q.tag.older r.tag = true) (hp : q.gatherPassed = false)
    (hw : ∃ i ∈ q.missing, i ∉ goneAt r s) :
    r.markGather.unexpectingAll (goneAt r s) ∈ (judge (missesCounted r s)).table.records := by
  obtain ⟨-, hrec, -⟩ := missesCounted_effect r s hn
  have hmem : r.markGather.unexpectingAll (goneAt r s) ∈ (missesCounted r s).table.records := by
    rw [hrec, ← deadlinePassed_own hg]
    exact List.mem_map_of_mem hr
  have hqs : q.deadlinePassed r.tag (goneAt r s) = q.unexpectingAll (goneAt r s) := by
    rw [Record.deadlinePassed, if_pos hqg, if_neg (ne_of_older hold)]
  have hqm : q.unexpectingAll (goneAt r s) ∈ (missesCounted r s).table.records := by
    rw [hrec, ← hqs]
    exact List.mem_map_of_mem hq
  obtain ⟨i, hi, hstill⟩ := hw
  obtain ⟨hexp, hnone⟩ := List.mem_filter.1 hi
  refine judge_stays (missesCounted_law r h).held hmem hqm hqg ?_ (.inr hold)
  exact complete_eq_false_iff.2 ⟨hp, i, mem_unexpectingAll.2 ⟨hexp, hstill⟩, eq_of_beq hnone⟩

/-- No GATHERING record waits for a station that a deadline has made SILENT (R138). -/
theorem judge_missesCounted_expected (hn : r.missing.Nodup) (hi : i ∈ goneAt r s)
    (hq : q ∈ (judge (missesCounted r s)).table.records) (hg : q.state = .gathering) :
    i ∉ q.expected.getD [] := by
  have hq := judge_gathering hq hg
  rw [(missesCounted_effect r s hn).2.1] at hq
  obtain ⟨p, -, rfl⟩ := List.mem_map.1 hq
  rw [deadlinePassed_state] at hg
  rw [Record.deadlinePassed, if_pos hg]
  exact fun he => (mem_unexpectingAll.1 he).2 hi

/-! ## The command -/

theorem momentOf_misses (d : Nat) (i : Station) :
    (momentOf d s).gather.roster[i].misses = s.gather.roster[i].misses := by
  unfold momentOf
  split
  · rfl
  · simp [elapse_roster, Peer.advance]

theorem momentOf_falls (d : Nat) (i : Station) : (momentOf d s).falls i = s.falls i := by
  unfold State.falls
  rw [momentOf_misses, momentOf_peerState]

theorem momentOf_goneAt (d : Nat) (r : Record) : goneAt r (momentOf d s) = goneAt r s :=
  List.filter_congr fun i _ => momentOf_falls d i

theorem exec_gatheringDeadline (htag : tag.wellFormed = true)
    (hr : recordOf tag s.table.records = some r) (hp : r.gatherPassed = false)
    (hc : CanArrive (s.clock.now.until_ r.gatherDeadline) s) :
    exec (.gatheringDeadline tag) s =
      .next (passGather tag (momentOf (s.clock.now.until_ r.gatherDeadline) s)) := by
  have hd : gatherIn tag s = some (s.clock.now.until_ r.gatherDeadline) := by
    simp [gatherIn, hr, deadlineIn, hp]
  exact exec_timed rfl htag hd hc

/-- Settles O39: the deadline is marked, and for a GATHERING record the misses are counted and the
records judged. -/
theorem gatheringDeadlineCountsMisses : Obligations.GatheringDeadlineCountsMisses := by
  unfold Obligations.GatheringDeadlineCountsMisses
  refine ⟨fun s m tag r htag hr hg hp hc hm => ?_, fun s m tag r htag hs hr hg hp hn hc hm => ?_⟩
  · have hrm : recordOf tag m.table.records = some r := by rw [hm, momentOf_table, hr]
    rw [exec_gatheringDeadline htag hr hp hc, ← hm, (passGather_passes tag m r hrm _ rfl).1 hg, hm,
      momentOf_table]
  · have hrm : recordOf tag m.table.records = some r := by rw [hm, momentOf_table, hr]
    have hpass := passGather_of_gathering hrm hg
    obtain ⟨hmem, rfl⟩ := recordOf_some hrm
    have hlaw : TableLaw m := hm ▸ hs.momentOf _
    have htable : m.table = s.table := by rw [hm, momentOf_table]
    have hgone : goneAt r m = goneAt r s := by rw [hm, momentOf_goneAt]
    obtain ⟨hroster, -, hcount⟩ := missesCounted_effect r m hn
    have hpeer (j : Station) : (passGather r.tag m).gather.roster[j] =
        if j ∈ r.missing then m.gather.roster[j].missed else m.gather.roster[j] := by
      rw [hpass, judge_roster]
      exact hroster j
    have hmisses (j : Station) : m.gather.roster[j].misses = s.gather.roster[j].misses := by
      rw [hm, momentOf_misses]
    have hstate (j : Station) : m.gather.roster[j].state = s.gather.roster[j].state := by
      rw [hm, momentOf_peerState]
    have hsilent : (passGather r.tag m).count .peerSilent = (if goneAt r s = []
        then s.count .peerSilent else min (s.count .peerSilent + (goneAt r s).length) 65535) := by
      rw [hpass, judge_count (by decide), hcount, hgone, hm, momentOf_count]
    refine ⟨_, hm ▸ exec_gatheringDeadline htag hr hp hc, passGather_passes r.tag m, ?_,
      fun i hi => ?_, fun i hi => ?_, fun hf => ?_, ?_⟩
    · rintro gone rfl
      refine ⟨fun he => hsilent.trans (if_pos he), fun he => hsilent.trans (if_neg he),
        fun i hi q hq hqg => ?_⟩
      rw [hpass] at hq
      exact judge_missesCounted_expected hn (hgone ▸ hi) hq hqg
    · rw [hpeer, if_pos hi, ← hmisses, ← hstate]
      exact ⟨rfl, rfl⟩
    · rw [hpeer, if_neg hi, hmisses, hstate]
      exact ⟨rfl, rfl⟩
    · rw [← htable] at hf ⊢
      obtain ⟨hroom, hfull⟩ := judge_first (missesCounted_law r hlaw).held
        (nextToLeave_missesCounted hn hg hf)
      rw [missesCounted_draining r m hn] at hroom hfull
      rw [hpass]
      exact ⟨fun h => ⟨_, hroom h, rfl, rfl⟩, hfull⟩
    · rintro ⟨q, hq, hqg, hold, hqp, i, hi, hstill⟩
      rw [hpass]
      refine ⟨_, passGather_waits hlaw hmem hg hn (htable ▸ hq) hqg hold hqp ⟨i, hi, fun hin => ?_⟩,
        rfl, hg, rfl, rfl⟩
      rw [hgone] at hin
      obtain ⟨hmissing, hfalls⟩ := List.mem_filter.1 hin
      obtain ⟨hthree, -⟩ := of_decide_eq_true hfalls
      rcases hstill with hno | hfew
      · exact hno hmissing
      · omega

end Sys2Proof.Machine

/-! A share that is accepted (R121, R133, R136, R139 to R143): its bytes stand in the reception's blocks, its
sender is heard, its record holds the attachment, and a GATHERING record is judged (R79, R80). -/

namespace Sys2Proof.Machine

open Sys2Proof

variable {s t u : State} {r q : Record} {rec : Reception} {key : ClaimKey} {b : List Byte}
  {f : ShareFrame} {i : Station} {tag : Tag} {length : Nat}

/-! ## The frame up to the matching (R121, R126, R133) -/

/-- The bytes that check 3 reads as a share are a share (R124). -/
theorem parseShare_of_checkForm (h : checkForm key b = .ok (.share f)) : parseShare b = some f := by
  unfold checkForm at h
  split_ifs at h
  split at h
  · cases h
  · next g hg =>
    cases h
    unfold parseLinkFrame at hg
    split at hg
    · cases hg
    · split_ifs at hg
      · obtain ⟨n, -, hn⟩ := Option.map_eq_some_iff.1 hg
        cases hn
      · obtain ⟨x, hx, he⟩ := Option.map_eq_some_iff.1 hg
        cases he
        exact hx
      · obtain ⟨n, -, hn⟩ := Option.map_eq_some_iff.1 hg
        cases hn

/-- The node as a share reaches the matching: the frame counted and its bytes in the reception's blocks, and
all else but the roster as it was (R121, R126). -/
structure ShareArrives (s : State) (rec : Reception) (b : List Byte) (u : State) : Prop where
  table : u.table = s.table
  clock : u.clock = s.clock
  assembler : u.assembler = s.assembler
  free : u.gather.free = s.gather.free
  reception : u.gather.reception = some rec
  mem : u.gather.mem = storeWrite s.gather.mem rec.blocks b
  received : u.count .linkFramesReceived = min (s.count .linkFramesReceived + 1) 65535
  counts : ∀ c, c ≠ .linkFramesReceived → u.count c = s.count c

/-- The roster's entries are no business of the arrival. -/
theorem ShareArrives.updatePeer (h : ShareArrives s rec b u) (i : Station) (g : Peer → Peer) :
    ShareArrives s rec b (updatePeer i g u) :=
  ⟨h.table, h.clock, h.assembler, h.free, h.reception, h.mem, h.received, h.counts⟩

/-- The bytes of a frame whose header was handed, in the reception's blocks. -/
def storeFrame (rec : Reception) (b : List Byte) (s : State) : State :=
  s.setGather { s.gather with mem := storeWrite s.gather.mem rec.blocks b }

theorem gatherBytes_handed (hrec : s.gather.reception = some rec)
    (hh : shareHeaderOf b = some rec.header) : gatherBytes b s = some (storeFrame rec b s) := by
  unfold gatherBytes
  rw [hrec]
  exact if_pos hh.symm

theorem endLinkFrame_share (hl : s.loader.state = .loaded) (hm : s.link.medium = .foreign)
    (hrec : s.gather.reception = some rec) (hh : shareHeaderOf b = some rec.header)
    (hf : checkForm key b = .ok (.share f)) (hi : keyStation key ∈ s.loader.shared.stations)
    (hstrap : keyStation key ≠ s.loader.strap) :
    endLinkFrame key b s =
      (takeShare (keyStation key) f b.length (bump .linkFramesReceived (storeFrame rec b s))).setLink
        { (takeShare (keyStation key) f b.length
            (bump .linkFramesReceived (storeFrame rec b s))).link with medium := .idle } := by
  have hreceive : receiveFrame key b (storeFrame rec b s) =
      takeShare (keyStation key) f b.length (bump .linkFramesReceived (storeFrame rec b s)) := by
    unfold receiveFrame
    rw [hf]
    exact (if_neg (not_not.2 hi)).trans (if_neg hstrap)
  have hclaim : impliedClaim s = s := by simp [impliedClaim, hm]
  unfold endLinkFrame takeFrame
  simp only [hclaim, hm, hl, gatherBytes_handed hrec hh, hreceive]

theorem agrees_of_eq {rate : Byte} {digest : BitVec 32}
    (hr : rate.toNat = s.loader.shared.slotRate.perSecond) (hd : digest = s.loader.shared.digest) :
    agrees s rate digest = true := by
  have hb : rate = slotRateByte s := by
    unfold slotRateByte
    rw [← hr, BitVec.ofNat_toNat, BitVec.setWidth_eq]
  simp [agrees, hb, hd]

theorem heard_peer (i : Station) (c : ClockState) (s : State) : (heard i c s).gather.roster[i] =
    { s.gather.roster[i] with silence := some 0, lastClock := some c } := by
  simp [heard, updatePeer, State.setGather]

theorem enterPresent_peer (i : Station) (s : State) : (enterPresent i s).gather.roster[i] =
    { s.gather.roster[i] with state := .present, misses := 0 } := by
  simp [enterPresent, updatePeer, State.setGather]

theorem counted_arrives (hrec : s.gather.reception = some rec) (b : List Byte) :
    ShareArrives s rec b (bump .linkFramesReceived (storeFrame rec b s)) where
  table := bump_table _
  clock := bump_clock _
  assembler := bump_assembler _
  free := by rw [bump_gather]; rfl
  reception := by rw [bump_gather]; exact hrec
  mem := by rw [bump_gather]; rfl
  received := count_bump_same _
  counts := fun _ hc => count_bump_other hc

/-- A share that agrees, from a peer whose shares are matched, is matched with its sender PRESENT
(R133, R138, R142). -/
theorem takeShare_matches (ha : agrees s f.slotRate f.digest = true)
    (hp : s.gather.roster[i].state = .present ∨ s.gather.roster[i].state = .unheard ∨
      s.gather.roster[i].state = .silent) (length : Nat) :
    takeShare i f length s = settleMatch i f.tag length
      (if s.gather.roster[i].state = .present then heard i f.clock s
        else enterPresent i (heard i f.clock s)) := by
  have hstate : (heard i f.clock s).gather.roster[i].state = s.gather.roster[i].state := by
    rw [heard_peer]
  unfold takeShare
  simp only [ha, hstate]
  rcases hp with hp | hp | hp
  all_goals simp only [hp]; rfl

/-- What reaches the matching, with the sender's entry as R133 leaves it. -/
theorem takeShare_arrives (hrec : s.gather.reception = some rec)
    (hr : f.slotRate.toNat = s.loader.shared.slotRate.perSecond)
    (hd : f.digest = s.loader.shared.digest)
    (hp : s.gather.roster[i].state = .present ∨ s.gather.roster[i].state = .unheard ∨
      s.gather.roster[i].state = .silent) (b : List Byte) (length : Nat) :
    ∃ u, ShareArrives s rec b u ∧
      (u.gather.roster[i].state = .present ∧ u.gather.roster[i].silence = some 0 ∧
        u.gather.roster[i].lastClock = some f.clock) ∧
      takeShare i f length (bump .linkFramesReceived (storeFrame rec b s)) =
        settleMatch i f.tag length u := by
  have hpeer : (bump .linkFramesReceived (storeFrame rec b s)).gather.roster = s.gather.roster := by
    rw [bump_gather]
    rfl
  have hagrees : agrees (bump .linkFramesReceived (storeFrame rec b s)) f.slotRate f.digest = true := by
    apply agrees_of_eq
    all_goals rw [bump_loader]; assumption
  have hmatch := takeShare_matches hagrees (hpeer ▸ hp) length
  have hheard : ShareArrives s rec b
      (heard i f.clock (bump .linkFramesReceived (storeFrame rec b s))) :=
    (counted_arrives hrec b).updatePeer i _
  have hentered : ShareArrives s rec b
      (enterPresent i (heard i f.clock (bump .linkFramesReceived (storeFrame rec b s)))) :=
    hheard.updatePeer i _
  split at hmatch
  · next hpres =>
    refine ⟨_, hheard, ?_, hmatch⟩
    rw [heard_peer]
    exact ⟨hpres, rfl, rfl⟩
  · refine ⟨_, hentered, ?_, hmatch⟩
    rw [enterPresent_peer, heard_peer]
    exact ⟨rfl, rfl, rfl⟩

/-! ## The acceptance (R139, R142, R143) -/

theorem receivedBlocks_of_reception (h : s.gather.reception = some rec) :
    receivedBlocks s = rec.blocks := by
  simp [receivedBlocks, h]

/-- A share of a tag opened whose record is held, not DRAINING and without it is accepted (R142). -/
theorem matchShare_of_record (hn : newerThanOpened s.clock.newest tag = false)
    (hr : recordOf tag s.table.records = some r) (hd : r.state ≠ .draining)
    (ha : r.attachments[i] = .none) : matchShare s i tag = .accepted := by
  unfold matchShare
  rw [if_neg (by simp [hn]), hr]
  exact (if_neg hd).trans (if_neg (not_not.2 ha))

/-- The blocks of a record are those of its attachments. -/
theorem mem_blocks {k : Block} : k ∈ r.blocks ↔ ∃ j : Station, k ∈ r.attachments[j].blocks := by
  unfold Record.blocks
  rw [List.mem_flatMap]
  constructor
  · rintro ⟨a, ha, hk⟩
    obtain ⟨n, hn, rfl⟩ := List.mem_iff_getElem.1 ha
    exact ⟨⟨n, by simpa using hn⟩, by simpa using hk⟩
  · rintro ⟨j, hj⟩
    exact ⟨r.attachments[j], by simp, hj⟩

/-- An attachment made adds its blocks to those of the record. -/
theorem mem_blocks_attach {k : Block} {a : Attachment} (hn : r.attachments[i] = .none)
    (hk : k ∈ r.blocks ∨ k ∈ a.blocks) : k ∈ (r.attach i a).blocks := by
  rw [mem_blocks] at *
  rcases hk with ⟨j, hj⟩ | hk
  · have hji : j ≠ i := by
      rintro rfl
      rw [hn] at hj
      cases hj
    exact ⟨j, by rwa [attach_other a r hji]⟩
  · exact ⟨i, by rwa [attach_same]⟩

/-- An attachment made completes the record or leaves it waiting for another station (R79). -/
theorem attach_complete {a : Attachment} (ha : a ≠ .none) (h : r.gatherPassed = true ∨
    ∀ j ∈ r.expected.getD [], j ≠ i → r.attachments[j] ≠ .none) : (r.attach i a).complete = true := by
  by_contra hn
  obtain ⟨hp, j, hj, hnone⟩ := complete_eq_false_iff.1 (Bool.eq_false_iff.2 hn)
  have hji : j ≠ i := by
    rintro rfl
    exact ha ((attach_same j a r).symm.trans hnone)
  rw [attach_other a r hji] at hnone
  rcases h with hgp | hall
  · exact Bool.false_ne_true (hp.symm.trans hgp)
  · exact hall j hj hji hnone

theorem attach_waits (a : Attachment) (hp : r.gatherPassed = false)
    (h : ∃ j ∈ r.expected.getD [], j ≠ i ∧ r.attachments[j] = .none) :
    (r.attach i a).complete = false := by
  obtain ⟨j, hj, hji, hnone⟩ := h
  exact complete_eq_false_iff.2 ⟨hp, j, hj, by rwa [attach_other a r hji]⟩

theorem attachmentOf_ne_none (length : Nat) (s : State) : attachmentOf length s ≠ .none := by
  unfold attachmentOf
  split <;> nofun

theorem attachShare_frame (i : Station) (tag : Tag) (length : Nat) (s : State) :
    ChangesOnly [.roster, .reception, .table, .counters, .causes] s (attachShare i tag length s) :=
  (((changes_setReception none).comp (bump_frame _) (qs := [.reception, .counters, .causes])).comp
    (updateRecord_frame _ _) (qs := [.reception, .table, .counters, .causes])).comp (updatePeer_frame _ _)

theorem attachShare_peer (i : Station) (tag : Tag) (length : Nat) (s : State) :
    (attachShare i tag length s).gather.roster[i] = { s.gather.roster[i] with misses := 0 } := by
  have hg : (attachShare i tag length s).gather.roster =
      s.gather.roster.set i { s.gather.roster[i] with misses := 0 } := by
    unfold attachShare Machine.updatePeer
    simp [updateRecord_eq]
  rw [hg]
  simp

theorem attachShare_reception (i : Station) (tag : Tag) (length : Nat) (s : State) :
    (attachShare i tag length s).gather.reception = none := by
  unfold attachShare Machine.updatePeer
  simp [updateRecord_eq]

theorem attachShare_count (i : Station) (tag : Tag) (length : Nat) (s : State) :
    (receivedBlocks s ≠ [] → (attachShare i tag length s).count .sharesStored =
      min (s.count .sharesStored + 1) 65535) ∧
    (receivedBlocks s = [] → (attachShare i tag length s).count .shareLost =
      min (s.count .shareLost + 1) 65535) ∧
    ∀ c, c ≠ .sharesStored → c ≠ .shareLost →
      (attachShare i tag length s).count c = s.count c := by
  have hc (c : Counter) : (attachShare i tag length s).count c =
      (bump (if receivedBlocks s = [] then .shareLost else .sharesStored)
        (s.setGather { s.gather with reception := none })).count c := rfl
  refine ⟨fun h => ?_, fun h => ?_, fun c hst hlo => ?_⟩
  · rw [hc, if_neg h, count_bump_same]
    rfl
  · rw [hc, if_pos h, count_bump_same]
    rfl
  · rw [hc, count_bump_other]
    · rfl
    · split
      · exact hlo
      · exact hst

/-! ## The judgement of the record (R79, R80) -/

/-- The record with the share stands in the table. -/
theorem mem_attachShare (hr : r ∈ s.table.records) (i : Station) (length : Nat) :
    r.attach i (attachmentOf length s) ∈ (attachShare i r.tag length s).table.records := by
  rw [attachShare_records]
  exact List.mem_map.2 ⟨r, hr, if_pos rfl⟩

/-- A record that still waits, or stands behind one that does, stays GATHERING (R79). -/
theorem judge_attachShare_waits (hlaw : HeldLaw (attachShare i r.tag length s))
    (hr : r ∈ s.table.records) (hg : r.state = .gathering)
    (hw : (r.gatherPassed = false ∧ ∃ j ∈ r.expected.getD [], j ≠ i ∧ r.attachments[j] = .none) ∨
      ∃ q ∈ s.table.records, q.state = .gathering ∧ q.tag.older r.tag = true ∧ q.complete = false) :
    r.attach i (attachmentOf length s) ∈ (judge (attachShare i r.tag length s)).table.records := by
  have hmem := mem_attachShare hr i length
  rcases hw with ⟨hp, hw⟩ | ⟨q, hq, hqg, hold, hqc⟩
  · exact judge_stays hlaw hmem hmem hg (attach_waits _ hp hw) (.inl rfl)
  · refine judge_stays (q := q) hlaw hmem ?_ hqg hqc (.inr hold)
    rw [attachShare_records]
    exact List.mem_map.2 ⟨q, hq, if_neg (ne_of_older hold)⟩

/-- The oldest record not DRAINING leaves first once the share completes it (R79). -/
theorem nextToLeave_attachShare (hg : r.state = .gathering)
    (hf : s.table.records.find? (fun q => q.state != .draining) = some r)
    (hc : r.gatherPassed = true ∨ ∀ j ∈ r.expected.getD [], j ≠ i → r.attachments[j] ≠ .none) :
    nextToLeave (attachShare i r.tag length s).table.records =
      some (r.attach i (attachmentOf length s)) := by
  have hfind : (attachShare i r.tag length s).table.records.find? (fun q => q.state != .draining) =
      some (r.attach i (attachmentOf length s)) := by
    rw [attachShare_records, List.find?_map]
    have hcomp : (fun q : Record => q.state != .draining) ∘
        (fun q => if q.tag = r.tag then q.attach i (attachmentOf length s) else q) =
        fun q => q.state != .draining := by
      funext q
      simp only [Function.comp_apply]
      split <;> rfl
    rw [hcomp, hf, Option.map_some, if_pos rfl]
  unfold nextToLeave
  rw [hfind]
  exact if_pos ⟨hg, attach_complete (attachmentOf_ne_none _ _) hc⟩

theorem attachShare_draining (i : Station) (tag : Tag) (length : Nat) (s : State) :
    drainingCount (attachShare i tag length s).table.records = drainingCount s.table.records := by
  rw [attachShare_records, drainingCount, List.countP_map]
  refine List.countP_congr fun q _ => ?_
  simp only [Function.comp_apply]
  split <;> rfl

/-- Where the record is skipped and no other is complete, one skip is counted (R80). -/
theorem judge_skips_one (h : HeldLaw s) (hn : nextToLeave s.table.records = some r)
    (hfull : drainingCount s.table.records = 16)
    (hothers : ∀ q ∈ s.table.records, q.tag ≠ r.tag → q.state = .gathering → q.complete = false) :
    (judge s).count .skipped = min (s.count .skipped + 1) 65535 := by
  obtain ⟨before, after, hs, -⟩ := nextToLeave_split hn
  have hrec := leaveGathering_records hs h.ordered
  rw [if_neg (by omega)] at hrec
  have hnone : nextToLeave (leaveGathering r s).table.records = none := by
    cases hq : nextToLeave (leaveGathering r s).table.records with
    | none => rfl
    | some q =>
      obtain ⟨hf, hg, hc⟩ := nextToLeave_some hq
      have hmem := List.mem_of_find?_eq_some hf
      obtain ⟨hb, ha⟩ := tag_ne_of_inOrder (hs ▸ h.ordered)
      rw [hrec] at hmem
      have hother := hothers q (by
        rw [hs]
        rcases List.mem_append.1 hmem with hq | hq
        · simp [hq]
        · simp [hq]) ((List.mem_append.1 hmem).elim (hb q) (ha q)) hg
      rw [hc] at hother
      cases hother
  rw [judge_of_one hn hnone, (leaveGathering_leaves r s).2 (by omega)]
  exact count_bump_same _

/-! ## The command -/

/-- The node once an accepted share is taken: a GATHERING record judged, and the line idle. -/
def shareTaken (i : Station) (r : Record) (length : Nat) (s : State) : State :=
  (if r.state = .gathering then judge (attachShare i r.tag length s)
    else attachShare i r.tag length s).setLink
    { (if r.state = .gathering then judge (attachShare i r.tag length s)
        else attachShare i r.tag length s).link with medium := .idle }

theorem shareTaken_frame (i : Station) (r : Record) (length : Nat) (s : State) :
    ChangesOnly (.link :: judgeParts) (attachShare i r.tag length s) (shareTaken i r length s) :=
  ((ChangesOnly.ite judge_frame (ChangesOnly.refl _ _)).comp (changes_setLink _))

theorem shareTaken_count {c : Counter} (hc : c ∉ examineCounters) (i : Station) (r : Record)
    (length : Nat) (s : State) :
    (shareTaken i r length s).count c = (attachShare i r.tag length s).count c := by
  have h : (shareTaken i r length s).count c = (if r.state = .gathering
      then judge (attachShare i r.tag length s) else attachShare i r.tag length s).count c := rfl
  rw [h]
  split
  · exact judge_count hc
  · rfl

theorem shareTaken_of_gathering (hg : r.state = .gathering) (i : Station) (length : Nat) (s : State) :
    (shareTaken i r length s).table = (judge (attachShare i r.tag length s)).table ∧
      (shareTaken i r length s).gather = (judge (attachShare i r.tag length s)).gather ∧
      (shareTaken i r length s).counters = (judge (attachShare i r.tag length s)).counters := by
  unfold shareTaken
  rw [if_pos hg]
  exact ⟨rfl, rfl, rfl⟩

theorem shareTaken_of_not_gathering (hg : r.state ≠ .gathering) (i : Station) (length : Nat)
    (s : State) : (shareTaken i r length s).table = (attachShare i r.tag length s).table ∧
      (shareTaken i r length s).gather = (attachShare i r.tag length s).gather := by
  unfold shareTaken
  rw [if_neg hg]
  exact ⟨rfl, rfl⟩

/-- A matching share's frame end, from its arrival at the matching on (R121, R142, R143). -/
theorem exec_linkFrameEnd_accepted (hl : s.loader.state = .loaded) (hm : s.link.medium = .foreign)
    (hrec : s.gather.reception = some rec) (hh : shareHeaderOf b = some rec.header)
    (hf : checkForm key b = .ok (.share f)) (hi : keyStation key ∈ s.loader.shared.stations)
    (hstrap : keyStation key ≠ s.loader.strap)
    (hmatch : takeShare (keyStation key) f b.length (bump .linkFramesReceived (storeFrame rec b s)) =
      settleMatch (keyStation key) f.tag b.length u) (hu : ShareArrives s rec b u)
    (hn : newerThanOpened s.clock.newest f.tag = false)
    (hr : recordOf f.tag s.table.records = some r) (hd : r.state ≠ .draining)
    (ha : r.attachments[keyStation key] = .none) :
    exec (.linkFrameEnd key b) s = .next (shareTaken (keyStation key) r b.length u) := by
  obtain ⟨-, htag⟩ := recordOf_some hr
  rw [← hu.table] at hr
  rw [← hu.clock] at hn
  have hsettle : settleMatch (keyStation key) f.tag b.length u =
      acceptShare (keyStation key) f.tag b.length u := by
    unfold settleMatch
    rw [matchShare_of_record hn hr hd ha]
  rw [exec_next (effect := endLinkFrame key b) rfl rfl,
    endLinkFrame_share hl hm hrec hh hf hi hstrap, hmatch, hsettle, acceptShare_of_record _ hr,
    ← htag, shareTaken]

/-- What the acceptance leaves in the roster, the counters and the store (R121, R133, R136, R143). -/
theorem shareTaken_effect (hu : ShareArrives s rec b u) (r : Record) (i : Station) :
    (shareTaken i r b.length u).gather.reception = none ∧
    (shareTaken i r b.length u).gather.roster[i] = { u.gather.roster[i] with misses := 0 } ∧
    (shareTaken i r b.length u).gather.mem = storeWrite s.gather.mem rec.blocks b ∧
    (shareTaken i r b.length u).count .linkFramesReceived =
      min (s.count .linkFramesReceived + 1) 65535 ∧
    (rec.blocks ≠ [] → (shareTaken i r b.length u).count .sharesStored =
      min (s.count .sharesStored + 1) 65535) ∧
    (rec.blocks = [] → (shareTaken i r b.length u).count .shareLost =
      min (s.count .shareLost + 1) 65535) := by
  have hframe := shareTaken_frame i r b.length u
  have hreception : (shareTaken i r b.length u).gather.reception =
      (attachShare i r.tag b.length u).gather.reception := hframe .reception (by decide)
  have hroster : (shareTaken i r b.length u).gather.roster =
      (attachShare i r.tag b.length u).gather.roster := hframe .roster (by decide)
  have hmem : (shareTaken i r b.length u).gather.mem =
      (attachShare i r.tag b.length u).gather.mem := hframe .storeMem (by decide)
  have hattach : (attachShare i r.tag b.length u).gather.mem = u.gather.mem :=
    attachShare_frame i r.tag b.length u .storeMem (by decide)
  obtain ⟨hstored, hlost, hother⟩ := attachShare_count i r.tag b.length u
  rw [receivedBlocks_of_reception hu.reception] at hstored hlost
  refine ⟨hreception.trans (attachShare_reception _ _ _ _), ?_, hmem.trans (hattach.trans hu.mem),
    ?_, fun h => ?_, fun h => ?_⟩
  · rw [hroster, attachShare_peer]
  · rw [shareTaken_count (by decide), hother _ (by decide) (by decide), hu.received]
  · rw [shareTaken_count (by decide), hstored h, hu.counts _ (by decide)]
  · rw [shareTaken_count (by decide), hlost h, hu.counts _ (by decide)]

/-- What becomes of a GATHERING record that a share is accepted for (R79, R80, R141). -/
theorem shareTaken_judged (hlaw : HeldLaw (attachShare i r.tag length s))
    (hr : r ∈ s.table.records) (hg : r.state = .gathering) (hn : r.attachments[i] = .none) :
    ((r.gatherPassed = false ∧ ∃ j ∈ r.expected.getD [], j ≠ i ∧ r.attachments[j] = .none) ∨
        (∃ q ∈ s.table.records, q.state = .gathering ∧ q.tag.older r.tag = true ∧
          q.complete = false) →
      r.attach i (attachmentOf length s) ∈ (shareTaken i r length s).table.records) ∧
    (s.table.records.find? (fun q => q.state != .draining) = some r →
      (r.gatherPassed = true ∨ ∀ j ∈ r.expected.getD [], j ≠ i → r.attachments[j] ≠ .none) →
      (drainingCount s.table.records < 16 →
        { r.attach i (attachmentOf length s) with state := .draining } ∈
          (shareTaken i r length s).table.records) ∧
      (drainingCount s.table.records = 16 →
        (∀ q ∈ (shareTaken i r length s).table.records, q.tag ≠ r.tag) ∧
        (∀ k, k ∈ r.blocks ∨ k ∈ (attachmentOf length s).blocks →
          k ∈ (shareTaken i r length s).gather.free) ∧
        ((∀ q ∈ s.table.records, q.tag ≠ r.tag → q.state = .gathering → q.complete = false) →
          (shareTaken i r length s).count .skipped =
            min ((attachShare i r.tag length s).count .skipped + 1) 65535))) := by
  obtain ⟨htable, hgather, hcounters⟩ := shareTaken_of_gathering hg i length s
  rw [htable, hgather]
  refine ⟨judge_attachShare_waits hlaw hr hg, fun hf hc => ?_⟩
  have hnext := nextToLeave_attachShare (length := length) (s := s) hg hf hc
  have hcount := attachShare_draining i r.tag length s
  obtain ⟨hroom, hfull⟩ := judge_first hlaw hnext
  rw [hcount] at hroom hfull
  refine ⟨hroom, fun h => ⟨(hfull h).1, fun k hk => (hfull h).2 k (mem_blocks_attach hn hk),
    fun hothers => ?_⟩⟩
  have hskips := judge_skips_one hlaw hnext (hcount.trans h) fun q hq ht hqg => ?_
  · rw [← hskips, State.count, hcounters]
    rfl
  · rw [attachShare_records] at hq
    obtain ⟨p, hp, rfl⟩ := List.mem_map.1 hq
    split at ht
    · next h => exact absurd h ht
    · next h =>
      rw [if_neg h] at hqg ⊢
      exact hothers p hp h hqg

/-- Settles O50: the share arrives at the matching, is attached, and its GATHERING record is judged. -/
theorem acceptedShareIsStored : Obligations.AcceptedShareIsStored := by
  unfold Obligations.AcceptedShareIsStored
  intro s key b i f rec r a hs hmem hl hm hrec hh hf hi hist hstrap hrate hdig hp hn hr hd hatt ha
  subst hi
  obtain ⟨u, hu, ⟨hpres, hsil, hclk⟩, hmatch⟩ := takeShare_arrives hrec hrate hdig hp b b.length
  obtain ⟨hrm, htag⟩ := recordOf_some hr
  have hru : recordOf r.tag u.table.records = some r := by rw [hu.table, htag, hr]
  have hslots : u.slots = s.slots := by
    unfold State.slots
    rw [hu.table, hu.clock, hu.assembler]
  have hlaw := ((Forward.of_slots hslots).trans (forward_attachShare b.length hru hd hatt) hs).1.held
  have hblocks := receivedBlocks_of_reception hu.reception
  have hattachment : attachmentOf b.length u = a := by rw [ha, attachmentOf, hblocks]
  obtain ⟨hreception, hpeer, hstore, hreceived, hstored, hlost⟩ :=
    shareTaken_effect hu r (keyStation key)
  have hmemu : r ∈ u.table.records := hu.table ▸ hrm
  refine ⟨_, exec_linkFrameEnd_accepted hl hm hrec hh hf hist hstrap hmatch hu hn hr hd hatt,
    hreception, rfl, ?_, ?_, ?_, ?_, hreceived, fun x hx => ?_, fun h => ⟨hstored h, fun hnd hlen => ?_⟩,
    hlost, fun ho => ?_, fun hg => ?_⟩
  · rw [hpeer]; exact hpres
  · rw [hpeer]
  · rw [hpeer]; exact hsil
  · rw [hpeer]; exact hclk
  · rw [hstore]
    exact memRead_storeWrite_other _ _ _ hmem.2 hx
  · have hread := storeRead_storeWrite rec.blocks b hmem.2 hnd hlen
    rw [hstore]
    refine ⟨hread, ?_⟩
    rw [storedShare, hread]
    exact parseShare_of_checkForm hf
  · have hng : r.state ≠ .gathering := by rcases ho with ho | ho <;> simp [ho]
    obtain ⟨htable, hgather⟩ := shareTaken_of_not_gathering hng (keyStation key) b.length u
    have hfree : (attachShare (keyStation key) r.tag b.length u).gather.free = u.gather.free :=
      attachShare_frame _ _ _ _ .freeList (by decide)
    rw [hgather, htable, hfree, hu.free, ← hattachment]
    exact ⟨rfl, _, mem_attachShare hmemu _ _, htag, rfl, rfl⟩
  · obtain ⟨hwaits, hleaves⟩ := shareTaken_judged hlaw hmemu hg hatt
    have hskipped : (attachShare (keyStation key) r.tag b.length u).count .skipped =
        s.count .skipped := by
      rw [(attachShare_count _ _ _ u).2.2 _ (by decide) (by decide), hu.counts _ (by decide)]
    rw [hattachment, hu.table, htag] at hwaits
    rw [hattachment, hu.table, hskipped, htag] at hleaves
    refine ⟨fun hw => ⟨_, hwaits hw, htag, hg, rfl⟩, fun hfirst hc => ?_⟩
    obtain ⟨hroom, hfull⟩ := hleaves hfirst hc
    refine ⟨fun h => ⟨_, hroom h, htag, rfl, rfl⟩, fun h => ?_⟩
    obtain ⟨hgone, hfree, hskip⟩ := hfull h
    refine ⟨hgone, fun k hk => hfree k ((List.mem_append.1 hk).imp id fun hk => ?_), hskip⟩
    rw [ha, if_neg (List.ne_nil_of_mem hk)]
    exact hk

end Sys2Proof.Machine

/-! The four cases of a resolution in their order (R90 to R93, R102, R103): which sample of the snap window
is the source, which two samples are the bracket, and the cell of each case. -/

namespace Sys2Proof.Machine

open Sys2Proof

variable {x y a b : Sample} {tau : Time} {snap : Nat} {view l : List Sample} {c : ResolverSettings}

/-! ## The source of an EXACT cell (R92) -/

/-- `x` comes before `y` as a source: it is nearer to τ, or as near and not later. -/
def Preferred (tau : Time) (x y : Sample) : Prop :=
  (offset tau x).natAbs < (offset tau y).natAbs ∨
    (offset tau x).natAbs = (offset tau y).natAbs ∧ y.t.before x.t = false

theorem nearer_of_preferred (h : Preferred tau x y) : nearer tau x y = x :=
  if_neg (by unfold Preferred at h; omega)

/-- An earlier sample gives way only to a nearer one. -/
theorem nearer_of_preferred_later (h : Preferred tau y x) (hxy : x.t.before y.t = true) :
    nearer tau x y = y := by
  refine if_pos (h.resolve_right ?_)
  rw [hxy]
  exact fun ⟨_, hlater⟩ => nomatch hlater

theorem nearer_eq_or (tau : Time) (x y : Sample) : nearer tau x y = x ∨ nearer tau x y = y := by
  unfold nearer
  split <;> simp

/-- In an ordered list the search ends at the sample preferred to every other. -/
theorem foldl_nearer_of_preferred (hord : (a :: l).Pairwise (fun x y => x.t.before y.t = true))
    (hx : x ∈ a :: l) (hp : ∀ y ∈ a :: l, Preferred tau x y) : l.foldl (nearer tau) a = x := by
  induction l generalizing a with
  | nil => exact (List.mem_singleton.1 hx).symm
  | cons b l ih =>
    obtain ⟨ha, hl⟩ := List.pairwise_cons.1 hord
    have hsub : (a :: l).Sublist (a :: b :: l) := (List.sublist_cons_self b l).cons_cons a
    have hx' : x ∈ nearer tau a b :: l := by
      rcases List.mem_cons.1 hx with rfl | hx
      · rw [nearer_of_preferred (hp b (by simp))]
        exact .head _
      · rcases List.mem_cons.1 hx with rfl | hx
        · rw [nearer_of_preferred_later (hp a (.head _)) (ha x (.head _))]
          exact .head _
        · exact .tail _ hx
    rw [List.foldl_cons]
    rcases nearer_eq_or tau a b with h | h <;> rw [h] at hx' ⊢
    · exact ih (hord.sublist hsub) hx' fun y hy => hp y (hsub.subset hy)
    · exact ih hl hx' fun y hy => hp y (.tail _ hy)

theorem exactSource_of_preferred (h : ringOrdered view = true) (hx : x ∈ view)
    (hs : (offset tau x).natAbs ≤ snap) (hp : ∀ y ∈ view, Preferred tau x y) :
    exactSource tau snap view = some x := by
  have hord := (ringOrdered_iff.1 h).filter (inSnap tau snap)
  have hmem : x ∈ view.filter (inSnap tau snap) := List.mem_filter.2 ⟨hx, decide_eq_true hs⟩
  have hpref : ∀ y ∈ view.filter (inSnap tau snap), Preferred tau x y :=
    fun y hy => hp y (List.mem_filter.1 hy).1
  unfold exactSource
  cases hf : view.filter (inSnap tau snap) with
  | nil =>
    rw [hf] at hmem
    cases hmem
  | cons a l =>
    rw [hf] at hord hmem hpref
    exact congrArg some (foldl_nearer_of_preferred hord hmem hpref)

theorem exactSource_eq_none (hout : ∀ y ∈ view, snap < (offset tau y).natAbs) :
    exactSource tau snap view = none := by
  rw [← Option.not_isSome_iff_eq_none, exactSource_isSome]
  rintro ⟨y, hy, hle⟩
  exact absurd hle (not_le.2 (hout y hy))

/-! ## The bracket (R93) -/

theorem offset_of_earlierEnd (h : earlierEnd tau snap view = some a) : offset tau a < -(snap : Int) :=
  of_decide_eq_true (List.mem_filter.1 (List.mem_of_getLast? h)).2

theorem offset_of_laterEnd (h : laterEnd tau snap view = some b) : (snap : Int) < offset tau b :=
  by
  simpa using List.find?_some h

/-- Where the snap window is empty, the newest sample before τ is the earlier end. -/
theorem earlierEnd_of_newest (h : ringOrdered view = true)
    (hout : ∀ y ∈ view, snap < (offset tau y).natAbs) (ha : a ∈ view) (hneg : offset tau a < 0)
    (hnew : ∀ y ∈ view, offset tau y < 0 → a.t.before y.t = false) :
    earlierEnd tau snap view = some a := by
  have hfar := hout a ha
  refine (earlierEnd_eq_some_iff h).2 ⟨ha, show offset tau a < _ by omega, fun y hy hlt => ?_⟩
  exact hnew y hy (show y.t.diff tau < 0 by omega)

/-- Where the snap window is empty, the oldest sample after τ is the later end. -/
theorem laterEnd_of_oldest (h : ringOrdered view = true)
    (hout : ∀ y ∈ view, snap < (offset tau y).natAbs) (hb : b ∈ view) (hpos : 0 < offset tau b)
    (hold : ∀ y ∈ view, 0 < offset tau y → y.t.before b.t = false) :
    laterEnd tau snap view = some b := by
  have hfar := hout b hb
  refine (laterEnd_eq_some_iff h).2 ⟨hb, show _ < offset tau b by omega, fun y hy hlt => ?_⟩
  exact hold y hy (show 0 < y.t.diff tau by omega)

theorem earlierEnd_eq_none (hpos : ∀ y ∈ view, 0 < offset tau y) :
    earlierEnd tau snap view = none := by
  rw [Option.eq_none_iff_forall_ne_some]
  intro a ha
  have hearly := offset_of_earlierEnd ha
  have hlate := hpos a (List.mem_filter.1 (List.mem_of_getLast? ha)).1
  omega

/-! ## The cell of each case (R90) -/

theorem resolve_exact (hx : exactSource c.tau c.snap view = some x) :
    resolve c view = copyCell c.code .exact x := by
  simp only [resolve, hx]

theorem resolve_bracket (hx : exactSource c.tau c.snap view = none)
    (ha : earlierEnd c.tau c.snap view = some a) (hb : laterEnd c.tau c.snap view = some b)
    (hd : b.t.diff a.t ≤ 2 * c.period) :
    resolve c view = roleClearCell c.code .interpolated (a.invalid || b.invalid)
      (a.suspect || b.suspect) (some (interpolateValues c.tau a b)) := by
  simp only [resolve, hx, ha, hb, if_pos hd]

/-- Without a bracket of at most two periods the hold limit decides (R102, R103). -/
theorem resolve_unbracketed (hx : exactSource c.tau c.snap view = none)
    (ha : earlierEnd c.tau c.snap view = some a)
    (hwide : ∀ b, laterEnd c.tau c.snap view = some b → 2 * c.period < b.t.diff a.t) :
    resolve c view = if c.tau.diff a.t ≤ c.hold * c.period then copyCell c.code .held a
      else roleClearCell c.code .absent false false none := by
  cases hb : laterEnd c.tau c.snap view with
  | none => simp only [resolve, hx, ha, hb]
  | some b => simp only [resolve, hx, ha, hb, if_neg (not_le.2 (hwide b hb))]

theorem resolve_without_earlier (hx : exactSource c.tau c.snap view = none)
    (ha : earlierEnd c.tau c.snap view = none) :
    resolve c view = roleClearCell c.code .absent false false none := by
  simp only [resolve, hx, ha]

/-- An INTERPOLATED cell is that of its bracket's two ends. -/
theorem resolve_of_interpolated (hq : (resolve c view).quality = .interpolated) :
    ∃ a b, earlierEnd c.tau c.snap view = some a ∧ laterEnd c.tau c.snap view = some b ∧
      resolve c view = roleClearCell c.code .interpolated (a.invalid || b.invalid)
        (a.suspect || b.suspect) (some (interpolateValues c.tau a b)) := by
  cases hx : exactSource c.tau c.snap view with
  | some x =>
    rw [resolve_exact hx] at hq
    cases hq
  | none =>
    cases ha : earlierEnd c.tau c.snap view with
    | none =>
      rw [resolve_without_earlier hx ha] at hq
      cases hq
    | some a =>
      by_cases hb : ∃ b, laterEnd c.tau c.snap view = some b ∧ b.t.diff a.t ≤ 2 * c.period
      · obtain ⟨b, hb, hd⟩ := hb
        exact ⟨a, b, rfl, hb, resolve_bracket hx ha hb hd⟩
      · rw [resolve_unbracketed hx ha fun b h => not_le.1 fun hd => hb ⟨b, h, hd⟩] at hq
        split at hq <;> cases hq

/-- Settles O18, case by case in the resolver's order. -/
theorem resolverTakesTheFirstCase : Obligations.ResolverTakesTheFirstCase := by
  unfold Obligations.ResolverTakesTheFirstCase
  intro c view h
  refine ⟨fun x hx hs hp => resolve_exact (exactSource_of_preferred h hx hs hp), fun hout => ?_⟩
  have hnone := exactSource_eq_none hout
  refine ⟨fun a ha hneg hnew => ?_,
    fun hpos => resolve_without_earlier hnone (earlierEnd_eq_none hpos)⟩
  have hearly := earlierEnd_of_newest h hout ha hneg hnew
  refine ⟨fun b hb hpos hold => resolve_bracket hnone hearly (laterEnd_of_oldest h hout hb hpos hold),
    fun hwide => ?_⟩
  have hcell := resolve_unbracketed hnone hearly fun b hb => hwide b
    (List.mem_of_find?_eq_some hb) (by have := offset_of_laterEnd hb; omega)
  exact ⟨fun hle => hcell.trans (if_pos hle), fun hgt => hcell.trans (if_neg (not_le.2 hgt))⟩

end Sys2Proof.Machine

/-! Interpolation in a bracket (R94 to R101): the weight and the linear interpolation with their ranges, the
predicted rotation and the angle that turns nearest to it, and what an INTERPOLATED cell takes from its
bracket. -/

namespace Sys2Proof.Machine

open Sys2Proof

variable {x d v0 v1 w n p f : Int} {a0 a1 : Nat} {a b : Sample} {tau : Time} {snap : Nat}
  {view : List Sample} {c : ResolverSettings} {v : CellValues}

/-! ## The weight (R94) -/

theorem weight_eq_fdiv (hd : 0 < d) : weight x d = (x * 65536 + d.fdiv 2).fdiv d := by
  rw [Int.fdiv_eq_ediv_of_nonneg _ hd.le, Int.fdiv_eq_ediv_of_nonneg _ (by decide)]
  rfl

/-- The weight reaches `n` where the dividend reaches `n` times the span. -/
theorem le_weight_iff (hd : 0 < d) : n ≤ weight x d ↔ n * d ≤ x * 65536 + d / 2 :=
  Int.le_ediv_iff_mul_le hd

theorem weight_range (hx : 0 < x) (hxd : x < d) : 0 ≤ weight x d ∧ weight x d ≤ 65536 := by
  have hd : 0 < d := hx.trans hxd
  have hover := le_weight_iff (n := 65537) (x := x) hd
  exact ⟨(le_weight_iff hd).2 (by omega), by omega⟩

theorem weight_eq_zero_iff (hx : 0 < x) (hxd : x < d) :
    weight x d = 0 ↔ x * 65536 < d - d / 2 := by
  have hone := le_weight_iff (n := 1) (x := x) (hx.trans hxd)
  have hrange := weight_range hx hxd
  omega

theorem weight_eq_full_iff (hx : 0 < x) (hxd : x < d) :
    weight x d = 65536 ↔ 65536 * (d - x) ≤ d / 2 := by
  have hfull := le_weight_iff (n := 65536) (x := x) (hx.trans hxd)
  have hrange := weight_range hx hxd
  omega

/-! ## The linear interpolation (R95) -/

/-- A difference scaled by a weight and rounded lies between 0 and the difference. -/
theorem scaled_range (h0 : 0 ≤ w) (h1 : w ≤ 65536) :
    min 0 d ≤ (d * w + 32768) / 65536 ∧ (d * w + 32768) / 65536 ≤ max 0 d := by
  rcases le_total 0 d with hd | hd
  · have hlow : 0 ≤ d * w := Int.mul_nonneg hd h0
    have hhigh : d * w ≤ d * 65536 := Int.mul_le_mul_of_nonneg_left h1 hd
    omega
  · have hlow : d * 65536 ≤ d * w := Int.mul_le_mul_of_nonpos_left hd h1
    have hhigh : d * w ≤ 0 := Int.mul_nonpos_of_nonpos_of_nonneg hd h0
    omega

theorem interpolate_range (h0 : 0 ≤ w) (h1 : w ≤ 65536) :
    min v0 v1 ≤ interpolate v0 v1 w ∧ interpolate v0 v1 w ≤ max v0 v1 := by
  have hscaled := scaled_range (d := v1 - v0) h0 h1
  unfold interpolate
  omega

/-- The magnitudes of interpolated phasors are the interpolated magnitudes. -/
theorem zipWith_interpolatePhasor_mag (h0 : 0 ≤ w) (h1 : w ≤ 65536) (ps qs : List Phasor) :
    (List.zipWith (interpolatePhasor p w) ps qs).map (fun r => (r.mag : Int)) =
      List.zipWith (fun r q => interpolate r.mag q.mag w) ps qs := by
  have hmag (r q : Phasor) :
      ((interpolatePhasor p w r q).mag : Int) = interpolate r.mag q.mag w := by
    have hrange := interpolate_range (v0 := r.mag) (v1 := q.mag) h0 h1
    exact Int.toNat_of_nonneg (by omega)
  simp only [List.map_zipWith, hmag]

theorem zipWith_interpolatePhasor_ang (ps qs : List Phasor) :
    (List.zipWith (interpolatePhasor p w) ps qs).map (·.ang) =
      List.zipWith (fun r q => interpolateAngle p w r.ang q.ang) ps qs :=
  List.map_zipWith

/-! ## The bracket of an INTERPOLATED cell (R89, R93) -/

theorem diff_add_diff (s t u : Time) : s.diff t + t.diff u = s.diff u := by
  unfold Time.diff
  ring

theorem neg_diff (s t : Time) : -s.diff t = t.diff s := by
  unfold Time.diff
  ring

/-- The slot time lies within the bracket. -/
theorem bracket_encloses (ha : earlierEnd tau snap view = some a)
    (hb : laterEnd tau snap view = some b) :
    0 < tau.diff a.t ∧ tau.diff a.t < b.t.diff a.t := by
  have hearly := offset_of_earlierEnd ha
  have hlate := offset_of_laterEnd hb
  have hflip := neg_diff a.t tau
  have hspan := diff_add_diff b.t tau a.t
  unfold offset at hearly hlate
  omega

theorem values_of_interpolated (hq : (resolve c view).quality = .interpolated)
    (hv : (resolve c view).values = some v) :
    ∃ a b, earlierEnd c.tau c.snap view = some a ∧ laterEnd c.tau c.snap view = some b ∧
      v = interpolateValues c.tau a b := by
  obtain ⟨a, b, ha, hb, hcell⟩ := resolve_of_interpolated hq
  rw [hcell] at hv
  exact ⟨a, b, ha, hb, (Option.some.inj hv).symm⟩

/-- Settles O15: the weight's bounds and ends by where it reaches 0, 1, 65,536 and 65,537. -/
theorem interpolationStaysBetweenItsEndpoints : Obligations.InterpolationStaysBetweenItsEndpoints := by
  unfold Obligations.InterpolationStaysBetweenItsEndpoints
  refine ⟨fun x d hx hxd => ?_, fun v0 v1 w h0 h1 => ?_, fun c view v hq hv => ?_⟩
  · have hzero := weight_eq_zero_iff hx hxd
    have hfull := weight_eq_full_iff hx hxd
    obtain ⟨hlow, hhigh⟩ := weight_range hx hxd
    refine ⟨weight_eq_fdiv (hx.trans hxd), hlow, hhigh, ?_⟩
    rw [Int.fdiv_eq_ediv_of_nonneg d (by decide)]
    exact ⟨hzero, hfull, by omega, by omega⟩
  · rw [Int.fdiv_eq_ediv_of_nonneg _ (by decide)]
    exact ⟨rfl, interpolate_range h0 h1⟩
  · obtain ⟨a, b, ha, hb, rfl⟩ := values_of_interpolated hq hv
    obtain ⟨hx, hxd⟩ := bracket_encloses ha hb
    obtain ⟨hlow, hhigh⟩ := weight_range hx hxd
    exact ⟨a, b, ha, hb, hx, hxd, rfl, rfl, zipWith_interpolatePhasor_mag hlow hhigh _ _⟩

/-! ## The prediction (R96, R97) -/

theorem averageFreq_range (ha : -32768 ≤ a.freq) (ha' : a.freq ≤ 32767) (hb : -32768 ≤ b.freq)
    (hb' : b.freq ≤ 32767) : -32768 ≤ averageFreq a b ∧ averageFreq a b ≤ 32767 := by
  unfold averageFreq
  split <;> omega

theorem freq_mul_span_range (hf : -32768 ≤ f) (hf' : f ≤ 32767) (hd : 0 ≤ d) (hd' : d ≤ 1200000) :
    -39321600000 ≤ f * d ∧ f * d ≤ 39320400000 := by
  have hlow : -32768 * d ≤ f * d := Int.mul_le_mul_of_nonneg_right hf hd
  have hhigh : f * d ≤ 32767 * d := Int.mul_le_mul_of_nonneg_right hf' hd
  omega

/-! ## The unwrapped difference and the angle (R98, R99) -/

theorem unwrapped_eq (p : Int) (a0 a1 : Nat) : unwrapped p a0 a1 =
    ((a1 : Int) - a0) % 65536 + 65536 * ((p - ((a1 : Int) - a0) % 65536 + 32768) / 65536) :=
  rfl

theorem interpolateAngle_eq (p w : Int) (a0 a1 : Nat) : (interpolateAngle p w a0 a1 : Int) =
    ((a0 : Int) + (unwrapped p a0 a1 * w + 32768) / 65536) % 65536 :=
  Int.toNat_of_nonneg (Int.emod_nonneg _ (by decide))

theorem interpolateAngle_lt (p w : Int) (a0 a1 : Nat) : interpolateAngle p w a0 a1 < 65536 := by
  have hangle := interpolateAngle_eq p w a0 a1
  omega

theorem interpolateAngle_zero (h0 : a0 < 65536) : interpolateAngle p 0 a0 a1 = a0 := by
  have hangle := interpolateAngle_eq p 0 a0 a1
  rw [Int.mul_zero] at hangle
  omega

/-- At full weight the whole unwrapped difference is added, which is that of the angles but for whole
turns. -/
theorem interpolateAngle_full (h1 : a1 < 65536) : interpolateAngle p 65536 a0 a1 = a1 := by
  have hangle := interpolateAngle_eq p 65536 a0 a1
  have hturns : (unwrapped p a0 a1 * 65536 + 32768) / 65536 = unwrapped p a0 a1 := by omega
  rw [hturns, unwrapped_eq] at hangle
  omega

/-- Settles O16: the unwrapped difference is the prediction, up to the remainder of the division that
counts the turns. -/
theorem angleTurnsNearestThePrediction : Obligations.AngleTurnsNearestThePrediction := by
  unfold Obligations.AngleTurnsNearestThePrediction
  simp only [Int.fdiv_eq_ediv_of_nonneg _ (show (0 : Int) ≤ 2 by decide),
    Int.fdiv_eq_ediv_of_nonneg _ (show (0 : Int) ≤ 65536 by decide),
    Int.fdiv_eq_ediv_of_nonneg _ (show (0 : Int) ≤ 6000000000 by decide),
    Int.fmod_eq_emod_of_nonneg _ (show (0 : Int) ≤ 65536 by decide)]
  refine ⟨fun a b => ?_, fun f d hf hf' hd hd' => ?_, fun p a0 a1 _ _ => ?_,
    fun p w a0 a1 ha0 ha1 h0 h1 => ?_, fun c view v hq hv => ?_⟩
  · refine ⟨fun ha hb => ?_, fun ha hb => ?_, fun ha hb => ?_, fun ha hb => ?_, averageFreq_range⟩
    all_goals simp only [averageFreq, ha, hb]
  · have hproduct := freq_mul_span_range hf hf' hd hd'
    exact ⟨rfl, by omega, by unfold predictedRotation; omega⟩
  · refine ⟨_, rfl, unwrapped_eq p a0 a1, ?_⟩
    rw [unwrapped_eq]
    omega
  · obtain ⟨hlow, hhigh⟩ := scaled_range (d := unwrapped p a0 a1) h0 h1
    refine ⟨interpolateAngle_eq p w a0 a1, hlow, hhigh, interpolateAngle_lt p w a0 a1, ?_, ?_⟩
    · rintro rfl
      exact interpolateAngle_zero ha0
    · rintro rfl
      exact interpolateAngle_full ha1
  · obtain ⟨a, b, ha, hb, rfl⟩ := values_of_interpolated hq hv
    exact ⟨a, b, ha, hb, rfl, zipWith_interpolatePhasor_ang _ _⟩

/-! ## The digital word and the flags (R100, R101) -/

/-- Settles O17: the cell is that of its bracket's two ends. -/
theorem interpolatedCellTakesWordAndFlags : Obligations.InterpolatedCellTakesWordAndFlags := by
  unfold Obligations.InterpolatedCellTakesWordAndFlags
  intro c view hq
  obtain ⟨a, b, ha, hb, hcell⟩ := resolve_of_interpolated hq
  rw [hcell]
  exact ⟨a, b, _, ha, hb, rfl, fun hw => if_pos hw, fun hw => if_neg (not_lt.2 hw),
    Bool.or_eq_true_iff, Bool.or_eq_true_iff⟩

end Sys2Proof.Machine

/-! The order of the share queue at every step (R109, R120): what the tags in the queue owe to the records of
the slot table, that every event leaves the queue as it is, takes shares out of it, or is a completion that
puts one behind all others, and that a reset empties it. -/

namespace Sys2Proof.Machine

open Sys2Proof

variable {s t u : State} {r q : Record} {tag : Tag}

/-! ## The queue's law by the tags in the queue (R109) -/

/-- The tags of the queued shares, in queue order. -/
def State.queued (s : State) : List Tag := s.link.queue.map (·.tag)

theorem queueLaw_iff : QueueLaw s ↔ s.queued.length ≤ 64 ∧
    s.queued.Pairwise (fun a b => a.older b = true) ∧
    (∀ x ∈ s.queued, newerThanOpened s.clock.newest x = false) ∧
    ∀ x ∈ s.queued, ∀ r ∈ s.table.records, r.late = true → x.older r.tag = true := by
  simp [QueueLaw, State.queued, Config.maxQueue, Record.late, List.pairwise_map]

/-- Where the records only move forward and no share joins the queue, the queue keeps its order: a record
whose close has not completed had its place before, or is newer than every tag opened then. -/
theorem QueueLaw.of_carried (h : QueueLaw s) (hc : Carried s t) (hq : t.queued.Sublist s.queued) :
    QueueLaw t := by
  obtain ⟨hlen, hpair, hnew, hbefore⟩ := queueLaw_iff.1 h
  refine queueLaw_iff.2 ⟨hq.length_le.trans hlen, hpair.sublist hq,
    fun x hx => hc.newest x (hnew x (hq.subset hx)), fun x hx r hr hl => ?_⟩
  rcases hc.origin r hr with ⟨p, hp, htag⟩ | hnewer
  · obtain ⟨-, -, -, -, hrank, -⟩ := hc.moves p hp r hr htag.symm
    exact htag ▸ hbefore x (hq.subset hx) p hp (decide_eq_true ((of_decide_eq_true hl).trans hrank))
  · exact (not_newer_of_newer (hnew x (hq.subset hx)) hnewer).1

/-- From one state to the next the table's law is kept, and with it the queue's. -/
def KeepsQueue (s t : State) : Prop := TableLaw s → TableLaw t ∧ (QueueLaw s → QueueLaw t)

theorem KeepsQueue.trans (h : KeepsQueue s t) (h' : KeepsQueue t u) : KeepsQueue s u := fun hs =>
  let ⟨ht, hq⟩ := h hs
  let ⟨hu, hq'⟩ := h' ht
  ⟨hu, hq' ∘ hq⟩

/-- The last stretch named first, so that the state between is read off the one it leads to. -/
theorem KeepsQueue.comp (h' : KeepsQueue t u) (h : KeepsQueue s t) : KeepsQueue s u := h.trans h'

theorem KeepsQueue.of_sublist (hf : Forward s t) (hq : t.queued.Sublist s.queued) : KeepsQueue s t :=
  fun hs =>
    let ⟨ht, hc⟩ := hf hs
    ⟨ht, fun h => h.of_carried hc hq⟩

theorem KeepsQueue.of_queued (hf : Forward s t) (hq : t.queued = s.queued) : KeepsQueue s t :=
  .of_sublist hf (hq ▸ .refl _)

theorem KeepsQueue.of_link (hf : Forward s t) (hl : t.link = s.link) : KeepsQueue s t :=
  .of_queued hf (by rw [State.queued, hl]; rfl)

theorem KeepsQueue.refl (s : State) : KeepsQueue s s := .of_link (.refl s) rfl

theorem KeepsQueue.foldl {α : Type} {f : State → α → State} (h : ∀ s a, KeepsQueue s (f s a)) :
    ∀ (l : List α) (s : State), KeepsQueue s (l.foldl f s)
  | [], s => .refl s
  | a :: l, s => (h s a).trans (KeepsQueue.foldl h l (f s a))

theorem ChangesOnly.link {ps : List Part} (h : ChangesOnly ps s t)
    (hp : Part.link ∉ ps := by decide) : t.link = s.link := h .link hp

/-- The clock changed, but not in the newest tag opened. -/
theorem keepsQueue_setClock {v : Clock} (h : v.newest = s.clock.newest) :
    KeepsQueue s (s.setClock v) := .of_link (forward_setClock h) rfl

/-- Changes of the slots' other parts that leave the link alone. -/
theorem keepsQueue_of_slots (hs : t.slots = s.slots) (hl : t.link = s.link) : KeepsQueue s t :=
  .of_link (.of_slots hs) hl

/-! ## The local close (R73 to R78) -/

theorem keepsQueue_finishClose (hr : r ∈ s.table.records) (hc : r.state = .closing) :
    KeepsQueue s (finishClose r s) := fun h =>
  ⟨finishClose_tableLaw h hr hc, fun hl => finishClose_queueLaw h hl hr hc⟩

theorem keepsQueue_examine : KeepsQueue s (examine s) := by
  unfold examine
  generalize s.table.records.length = n
  induction n generalizing s with
  | zero => exact .refl s
  | succ n ih =>
    unfold examineUpTo
    cases hm : startable s with
    | none => exact .refl s
    | some r =>
      have hstart : KeepsQueue s (startClose r s) :=
        .of_link (forward_startClose hm) (startClose_frame r).link
      have hmem : r.closeStarted ∈ (startClose r s).table.records := by
        rw [startClose_records]
        exact List.mem_map.2 ⟨r, (oldestOpen_some (startable_some hm).2.1).1, if_pos rfl⟩
      dsimp only
      split
      · exact (hstart.trans (keepsQueue_finishClose hmem rfl)).trans ih
      · exact hstart

theorem keepsQueue_examineFor (n : Nat) : KeepsQueue s (examineFor n s) := by
  unfold examineFor
  split
  · split
    · exact keepsQueue_examine
    · exact .refl s
  · exact .refl s

theorem keepsQueue_examineForAny (ns : List Nat) : KeepsQueue s (examineForAny ns s) := by
  unfold examineForAny
  split
  · split
    · exact keepsQueue_examine
    · exact .refl s
  · exact .refl s

theorem keepsQueue_completeClose : KeepsQueue s (completeClose s) := by
  unfold completeClose completable
  cases hr : closingRecord s.table.records with
  | none => exact .refl s
  | some r =>
    obtain ⟨hmem, hc⟩ := closingRecord_some hr
    dsimp only
    split_ifs
    · exact (keepsQueue_finishClose hmem hc).trans keepsQueue_examine
    · exact .refl s

theorem keepsQueue_openTag (ht : newerThanOpened s.clock.newest tag = true) :
    KeepsQueue s (openTag tag s) := by
  unfold openTag
  dsimp only
  split
  · next hroom =>
    have hopen : KeepsQueue s ((s.setClock { s.clock with newest := some tag }).setTable { s.table with
        records := s.table.records ++ [newRecord (s.setClock { s.clock with newest := some tag }) tag]
        afterStep := false }) :=
      .of_link (forward_open ht hroom rfl rfl rfl rfl rfl rfl) rfl
    split
    · exact hopen.trans keepsQueue_examine
    · exact hopen
  · exact .of_link (((forward_setNewest ht).trans (.of_slots (slots_bump _))).trans
      forward_reportSkip) (bump_link _)

theorem keepsQueue_evaluate : KeepsQueue s (evaluate s) := by
  unfold evaluate
  dsimp only
  split
  · next h =>
    simp only [Bool.and_eq_true] at h
    exact keepsQueue_openTag h.2
  · exact .refl s

/-! ## Deadlines (R71, R120, R136) -/

theorem queued_withdrawShare (tag : Tag) (s : State) :
    (withdrawShare tag s).queued.Sublist s.queued := by
  rw [withdrawShare, State.queued, bump_link]
  exact List.filter_sublist.map _

/-- A share whose deadline passes is withdrawn, or keeps its place in transmission (R120). -/
theorem queued_passShare (tag : Tag) (s : State) : (passShare tag s).queued.Sublist s.queued := by
  unfold passShare
  split
  · have hmap : (s.link.queue.map fun e => if e.tag = tag then { e with passed := true } else e).map
        (·.tag) = s.link.queue.map (·.tag) := by
      rw [List.map_map]
      refine List.map_congr_left fun e _ => ?_
      simp only [Function.comp_apply]
      split <;> rfl
    rw [State.queued, State.setLink_link, hmap]
    exact .refl _
  · exact queued_withdrawShare tag s

theorem keepsQueue_passShare (tag : Tag) : KeepsQueue s (passShare tag s) :=
  .of_sublist (.of_slots (passShare_frame tag).slots) (queued_passShare tag s)

theorem keepsQueue_passClose (tag : Tag) : KeepsQueue s (passClose tag s) := by
  have hmark : KeepsQueue s (updateRecord tag Record.markClose s) :=
    .of_link (forward_updateRecord fun r _ _ => ⟨rfl, r.movesTo_markClose⟩) rfl
  unfold passClose
  dsimp only
  split
  · split
    · exact hmark.trans keepsQueue_examine
    · exact hmark
  · exact hmark

theorem keepsQueue_passGather (tag : Tag) : KeepsQueue s (passGather tag s) :=
  .of_link (forward_passGather tag) (passGather_frame tag).link

theorem keepsQueue_passReached : KeepsQueue s (passReached s) := by
  have hclose (s : State) (tag : Tag) : KeepsQueue s (passCloseIfReached tag s) := by
    unfold passCloseIfReached
    split
    · split
      · exact keepsQueue_passClose tag
      · exact .refl s
    · exact .refl s
  have hgather (s : State) (tag : Tag) : KeepsQueue s (passGatherIfReached tag s) := by
    unfold passGatherIfReached
    split
    · split
      · exact keepsQueue_passGather tag
      · exact .refl s
    · exact .refl s
  have hshare (s : State) (tag : Tag) : KeepsQueue s (passShareIfReached tag s) := by
    unfold passShareIfReached
    split
    · split
      · exact keepsQueue_passShare tag
      · exact .refl s
    · exact .refl s
  exact (KeepsQueue.foldl (fun s tag => (hclose s tag).trans (hgather _ tag)) _ s).trans
    (KeepsQueue.foldl hshare _ _)

/-! ## The second boundary and the station clock (R2, R8 to R21) -/

theorem keepsQueue_deliverBoundary : KeepsQueue s (deliverBoundary s) := by
  have hunlock : KeepsQueue s (if decide (s.clock.state = .stepping) = true then
      s.setClock { s.clock with state := .locked } else s) := by
    split
    · exact keepsQueue_setClock rfl
    · exact .refl s
  have hexamined : KeepsQueue s (examineForAny (losingLive s.streams) (queueBeacon (recomputeWait
      (copyEnableSets (if decide (s.clock.state = .stepping) = true then
        s.setClock { s.clock with state := .locked } else s))))) :=
    (keepsQueue_examineForAny _).comp ((KeepsQueue.of_queued (.of_slots queueBeacon_frame.slots) rfl).comp
      ((keepsQueue_of_slots slots_recomputeWait rfl).comp
        ((keepsQueue_of_slots copyEnableSets_frame.slots rfl).comp hunlock)))
  unfold deliverBoundary
  dsimp only
  by_cases hs : decide (s.clock.state = .stepping) = true
  · rw [if_pos hs] at hexamined
    rw [if_pos hs, if_pos hs]
    exact hexamined.trans keepsQueue_evaluate
  · rw [if_neg hs] at hexamined
    rw [if_neg hs, if_neg hs]
    exact hexamined

theorem keepsQueue_reachBoundary : KeepsQueue s (reachBoundary s) :=
  (keepsQueue_setClock (v := { s.clock with boundaryDue := false }) rfl).trans
    keepsQueue_deliverBoundary

theorem keepsQueue_reachSlot : KeepsQueue s (reachSlot s) :=
  (keepsQueue_setClock (v := { s.clock with slotDue := false }) rfl).trans keepsQueue_evaluate

/-- A notice leaves the queue alone. -/
theorem keepsQueue_placeNotice (n : Notice) : KeepsQueue s (placeNotice n s) :=
  .of_queued (.of_slots (slots_setLink _)) rfl

theorem keepsQueue_abandonOpen : KeepsQueue s (abandonOpen s) :=
  .of_link forward_abandonOpen abandonOpen_frame.link

theorem keepsQueue_enterStopped : KeepsQueue s (enterStopped s) :=
  ((keepsQueue_abandonOpen.trans (keepsQueue_placeNotice _)).trans
    (keepsQueue_of_slots (slots_raise .clockStopped) rfl)).trans (keepsQueue_setClock rfl)

theorem keepsQueue_expireHoldover : KeepsQueue s (expireHoldover s) := by
  unfold expireHoldover
  split
  · exact keepsQueue_enterStopped
  · exact keepsQueue_setClock rfl

theorem endTod_link (chars : List TodChar) (s : State) : (endTod chars s).link = s.link := by
  unfold endTod takeTod
  split
  · split
    · rfl
    · exact bump_link _
  · rfl

theorem keepsQueue_settleDue : KeepsQueue s (settleDue s) := by
  have hboundary : KeepsQueue s (if s.clock.boundaryDue then reachBoundary s else s) := by
    split
    · exact keepsQueue_reachBoundary
    · exact .refl s
  have hslot (u : State) : KeepsQueue u (if u.clock.slotDue then reachSlot u else u) := by
    split
    · exact keepsQueue_reachSlot
    · exact .refl u
  exact (hboundary.trans (hslot _)).trans keepsQueue_passReached

theorem keepsQueue_afterSet (before : Time) (locks : Bool) :
    KeepsQueue s (afterSet before locks s) := by
  have hboundary : KeepsQueue s (if s.clock.now.sec ≠ before.sec then deliverBoundary s else s) := by
    split
    · exact keepsQueue_deliverBoundary
    · exact .refl s
  unfold afterSet
  dsimp only
  split
  · exact (hboundary.trans keepsQueue_passReached).trans keepsQueue_evaluate
  · exact hboundary.trans keepsQueue_passReached

theorem keepsQueue_stepTo (second : Nat) : KeepsQueue s (stepTo second s) := by
  unfold stepTo
  dsimp only
  split
  · exact keepsQueue_passReached.comp (keepsQueue_enterStopped.comp (keepsQueue_setClock rfl))
  · have hnotice : KeepsQueue s (match newestOpenTag s.table.records with
        | some t => placeNotice ⟨.stepped, t⟩ (abandonOpen s)
        | none => abandonOpen s) := by
      split
      · exact keepsQueue_abandonOpen.trans (keepsQueue_placeNotice _)
      · exact keepsQueue_abandonOpen
    exact keepsQueue_passReached.comp (KeepsQueue.comp (keepsQueue_setClock rfl) hnotice)

theorem keepsQueue_phaseSet (second : Nat) : KeepsQueue s (phaseSet second s) := by
  unfold phaseSet
  dsimp only
  split
  · exact (keepsQueue_afterSet _ _).comp (keepsQueue_setClock rfl)
  · exact (keepsQueue_afterSet _ _).comp (keepsQueue_setClock rfl)

theorem keepsQueue_edgeAcquiring : KeepsQueue s (edgeAcquiring s) := by
  unfold edgeAcquiring
  dsimp only
  split
  · exact (keepsQueue_afterSet _ _).comp (keepsQueue_setClock rfl)
  · exact (keepsQueue_afterSet _ _).comp (keepsQueue_setClock rfl)

theorem keepsQueue_bump (c : Counter) : KeepsQueue s (bump c s) :=
  keepsQueue_of_slots (slots_bump c) (bump_link c)

theorem keepsQueue_edgeDisciplined : KeepsQueue s (edgeDisciplined s) := by
  have hleap (decided : Decided) : KeepsQueue s (if decided = .leap then
      bump .leap (s.setClock (consumeTod s.clock)) else s.setClock (consumeTod s.clock)) := by
    have hconsume : KeepsQueue s (s.setClock (consumeTod s.clock)) := keepsQueue_setClock rfl
    split
    · exact hconsume.trans (keepsQueue_bump _)
    · exact hconsume
  unfold edgeDisciplined
  dsimp only
  split
  · exact (hleap _).trans (keepsQueue_stepTo _)
  · exact (hleap _).trans (keepsQueue_stepTo _)
  · exact ((hleap _).trans (keepsQueue_bump _)).trans (keepsQueue_phaseSet _)
  · exact (hleap _).trans (keepsQueue_phaseSet _)

theorem keepsQueue_takeEdge (edge : Transition) : KeepsQueue s (takeEdge edge s) := by
  have hage : KeepsQueue s
      ((settleDue s).setClock { (settleDue s).clock with edgeAge := some 0 }) :=
    keepsQueue_settleDue.trans (keepsQueue_setClock rfl)
  unfold takeEdge acceptEdge
  dsimp only
  split_ifs
  · exact keepsQueue_bump _
  · split
    · exact hage.trans keepsQueue_edgeAcquiring
    · exact hage.trans (keepsQueue_setClock rfl)
    · exact hage.trans keepsQueue_edgeDisciplined
    · exact hage.trans keepsQueue_edgeDisciplined
    · exact hage.trans keepsQueue_edgeDisciplined
  · exact .refl s

/-! ## The directory, the monitors and the snapshot port -/

theorem keepsQueue_stallStream (n : Nat) : KeepsQueue s (stallStream n s) :=
  (keepsQueue_of_slots (slots_setStreams _) rfl).trans (keepsQueue_examineFor n)

theorem judgeCell_link (pos : Nat) (c : Cell) (tag : Tag) (s : State) (i : Fin 8) :
    (judgeCell pos c tag s i).link = s.link := by
  have hoffer (m : Mark) (u : State) : (offerMark tag m u).link = u.link := by
    unfold offerMark
    split
    · rfl
    · split
      · exact bump_link _
      · exact bump_link _
  unfold judgeCell
  dsimp only
  split
  · rfl
  · split
    · rfl
    · split
      · rfl
      · split_ifs
        · rfl
        · exact hoffer _ _
        · exact bump_link _

theorem evaluateCell_link (pos : Nat) (c : Cell) (tag : Tag) (s : State) :
    (evaluateCell pos c tag s).link = s.link := by
  unfold evaluateCell
  generalize monitorNumbers = is
  induction is generalizing s with
  | nil => rfl
  | cons i is ih => exact (ih _).trans (judgeCell_link pos c tag s i)

theorem resolveNext_link : (resolveNext s).link = s.link := by
  unfold resolveNext
  split
  · rfl
  · split
    · rfl
    · exact evaluateCell_link _ _ _ _

@[simp] theorem takeRecord_link : (takeRecord s).link = s.link := takeRecord_frame.link

theorem takeSnapshotByte_link : (takeSnapshotByte s).link = s.link := by
  unfold takeSnapshotByte
  split
  · split <;> rfl
  · rfl
  · rfl

theorem endDelivery_link : (endDelivery s).link = s.link := by
  have hfinish (c : Composition) : (finishDelivery c s).link = s.link := by
    unfold finishDelivery
    rw [takeRecord_link, State.setAssembler_link, judge_link, freeRecords_eq]
    exact bump_link _
  unfold endDelivery
  split
  · split
    · exact hfinish _
    · rfl
  · rfl
  · rfl

/-! ## The intake unit -/

theorem recordDrop_link (code : Nat) (reason : DropReason) (stamp : Time) :
    (recordDrop code reason stamp s).link = s.link := by
  unfold recordDrop
  dsimp only
  split
  · exact bump_link _
  · rfl

theorem checkerTake_link : (checkerTake s).link = s.link := by
  unfold checkerTake
  split <;> rfl

theorem takeFrameStart_link : (takeFrameStart s).link = s.link := by
  unfold takeFrameStart beginFrame
  dsimp only
  split
  · rfl
  · split
    · split
      · exact bump_link _
      · exact (State.setIntake_link _ _).trans ((recordDrop_link _ _ _).trans (bump_link _))
    · exact bump_link _
    all_goals rfl

theorem takeByte_link (b : Byte) : (takeByte b s).link = s.link := by
  unfold takeByte
  split
  · split
    · split_ifs
      · exact (State.setIntake_link _ _).trans (recordDrop_link _ _ _)
      · exact (State.setIntake_link _ _).trans (recordDrop_link _ _ _)
      · rfl
    all_goals rfl
  · rfl

theorem takeFrameEnd_link : (takeFrameEnd s).link = s.link := by
  unfold takeFrameEnd
  dsimp only
  split
  · split
    · exact checkerTake_link
    all_goals rfl
  · rfl

theorem keepsQueue_judgeHeld : KeepsQueue s (judgeHeld s) := by
  have hoffer (n code : Nat) (x : Sample) : KeepsQueue s (offerSample n code x s) := by
    unfold offerSample
    split
    · exact .refl s
    · dsimp only
      split
      · exact keepsQueue_of_slots (slots_recordDrop _ _ _) (recordDrop_link _ _ _)
      · exact (keepsQueue_examineFor n).comp ((keepsQueue_bump _).comp
          (keepsQueue_of_slots (slots_setStreams _) rfl))
  have hrelease (n : Nat) (u : State) : KeepsQueue u (releaseFrame n u) :=
    keepsQueue_of_slots (slots_checkerTake.trans (slots_setIntake _)) checkerTake_link
  unfold judgeHeld
  split
  · dsimp only
    refine (hrelease _ _).comp ?_
    split
    · exact keepsQueue_of_slots (slots_recordDrop _ _ _) (recordDrop_link _ _ _)
    · exact hoffer _ _ _
  · exact .refl s

/-! ## The transmitter (R112 to R120) -/

theorem queued_returnFrame (f : OutFrame) (m : Medium) (s : State) :
    (returnFrame f m s).queued.Sublist s.queued := by
  unfold returnFrame expireReturned
  split
  · split
    · split
      · exact queued_withdrawShare _ _
      · exact .refl _
    · exact .refl _
  · exact .refl _
  · exact .refl _

theorem queued_collide (f : OutFrame) (m : Medium) (s : State) :
    (collide f m s).queued.Sublist s.queued := by
  have hback (run : Nat) : (returnFrame f m (bump .collision (s.setLink { s.link with
      collisionRun := run, deferFlag := true }))).queued.Sublist s.queued := by
    refine (queued_returnFrame f m _).trans ?_
    rw [State.queued, bump_link]
    exact .refl _
  unfold collide
  dsimp only
  split
  · exact hback _
  · exact hback _

theorem queued_startClaim : (startClaim s).queued = s.queued := by
  unfold startClaim
  split
  · split <;> rfl
  · rfl

theorem queued_resolveClaim (line : ClaimKey) : (resolveClaim line s).queued.Sublist s.queued := by
  unfold resolveClaim
  split
  · split
    · exact .refl _
    · exact queued_returnFrame _ _ _
    · exact queued_collide _ _ _
  · exact .refl _
  · exact .refl _

theorem queued_foreignClaim : (foreignClaim s).queued = s.queued := by
  unfold foreignClaim
  split <;> rfl

theorem queued_deferIdle : (deferIdle s).queued = s.queued := by
  unfold deferIdle
  split <;> rfl

theorem queued_completeSend : (completeSend s).queued.Sublist s.queued := by
  unfold completeSend
  split
  · next f _ =>
    rw [State.queued, bump_link]
    cases f with
    | share x => exact List.filter_sublist.map _
    | notice n => exact .refl _
    | beacon b => exact .refl _
  · exact .refl _
  · exact .refl _

theorem queued_findMismatch : (findMismatch s).queued.Sublist s.queued := by
  unfold findMismatch
  split
  · exact queued_collide _ _ _
  · exact queued_collide _ _ _
  · exact .refl _

theorem queued_judgeIdle : (judgeIdle s).queued = s.queued := by
  unfold judgeIdle
  split <;> rfl

/-! ## The receiver (R121 to R144) -/

@[simp] theorem leavePresent_link (i : Station) (next : PeerState) :
    (leavePresent i next s).link = s.link := (leavePresent_frame i next).link

theorem dropReception_link : (dropReception s).link = s.link := by
  unfold dropReception
  split <;> rfl

theorem mismatch_link (i : Station) : (mismatch i s).link = s.link := by
  rw [mismatch, judge_link, leavePresent_link, bump_link]

theorem takeBeacon_link (i : Station) (f : BeaconFrame) : (takeBeacon i f s).link = s.link := by
  unfold takeBeacon
  dsimp only
  split
  · exact mismatch_link i
  · split
    · rfl
    · rfl
    · rfl
    · rw [judge_link, leavePresent_link]
      rfl
    · rfl

theorem takeNotice_link (i : Station) (n : Notice) : (takeNotice i n s).link = s.link := by
  unfold takeNotice
  dsimp only
  split
  · rfl
  · split
    · split
      · rw [judge_link, leavePresent_link]
        rfl
      · rfl
    · rw [judge_link]
      rfl

theorem acceptShare_link (i : Station) (tag : Tag) (length : Nat) :
    (acceptShare i tag length s).link = s.link := by
  have hattach : (attachShare i tag length s).link = s.link := (attachShare_frame i tag length s).link
  have he : acceptShare i tag length s = match recordOf tag
      (attachShare i tag length s).table.records with
    | some r => if r.state = .gathering then judge (attachShare i tag length s)
        else attachShare i tag length s
    | none => attachShare i tag length s := rfl
  rw [he]
  split
  · split
    · rw [judge_link, hattach]
    · exact hattach
  · exact hattach

theorem settleMatch_link (i : Station) (tag : Tag) (length : Nat) :
    (settleMatch i tag length s).link = s.link := by
  have hrefuse (c : Counter) : (refuseShare c s).link = s.link :=
    dropReception_link.trans (bump_link c)
  unfold settleMatch
  split
  · exact hrefuse _
  · exact hrefuse _
  · exact hrefuse _
  · exact hrefuse _
  · exact acceptShare_link _ _ _

theorem takeShare_link (i : Station) (f : ShareFrame) (length : Nat) :
    (takeShare i f length s).link = s.link := by
  unfold takeShare
  dsimp only
  split
  · exact dropReception_link.trans (mismatch_link i)
  · split
    · exact dropReception_link.trans (bump_link _)
    · exact settleMatch_link _ _ _
    · exact settleMatch_link _ _ _
    · exact settleMatch_link _ _ _
    · exact dropReception_link
    · exact dropReception_link

theorem receiveFrame_link (key : ClaimKey) (bytes : List Byte) :
    (receiveFrame key bytes s).link = s.link := by
  unfold receiveFrame
  dsimp only
  split
  · exact dropReception_link.trans (bump_link _)
  · next f _ =>
    split
    · exact dropReception_link.trans (bump_link _)
    · split
      · exact dropReception_link.trans (bump_link _)
      · cases f with
        | notice n => exact (takeNotice_link _ n).trans (bump_link _)
        | beacon f => exact (takeBeacon_link _ f).trans (bump_link _)
        | share x => exact (takeShare_link _ x _).trans (bump_link _)

theorem countFrame_link (key : ClaimKey) (bytes : List Byte) :
    (countFrame key bytes s).link = s.link := by
  unfold countFrame
  split
  · exact bump_link _
  · exact bump_link _

theorem handHeader_link (header : List Byte) : (handHeader header s).link = s.link := by
  unfold handHeader
  dsimp only
  split_ifs <;> rfl

theorem gatherBytes_link {bytes : List Byte} (h : gatherBytes bytes s = some t) :
    t.link = s.link := by
  unfold gatherBytes at h
  split at h
  · split at h
    · cases h
      rfl
    · cases h
  · split at h
    · cases h
      rfl
    · cases h
      exact handHeader_link _

theorem queued_impliedClaim : (impliedClaim s).queued = s.queued := by
  unfold impliedClaim
  split
  · exact queued_foreignClaim
  · rfl

theorem queued_takeHeader (bytes : List Byte) : (takeHeader bytes s).queued = s.queued := by
  unfold takeHeader
  dsimp only
  split
  · split
    · rw [State.queued, handHeader_link]
      exact queued_impliedClaim
    · rfl
  · rfl

theorem queued_takeFrame (key : ClaimKey) (bytes : List Byte) :
    (takeFrame key bytes s).queued = s.queued := by
  unfold takeFrame
  dsimp only
  split
  · split
    · next hg =>
      rw [State.queued, State.setLink_link, receiveFrame_link, gatherBytes_link hg]
      rfl
    · rfl
  · rw [State.queued, State.setLink_link, countFrame_link]
    rfl
  · rfl

theorem queued_endLinkFrame (key : ClaimKey) (bytes : List Byte) :
    (endLinkFrame key bytes s).queued = s.queued := by
  unfold endLinkFrame
  dsimp only
  split
  · exact (queued_takeFrame key bytes).trans queued_impliedClaim
  · exact queued_judgeIdle.trans queued_impliedClaim
  · exact queued_judgeIdle.trans queued_impliedClaim
  · rfl

/-! ## Loads and the service port -/

theorem queued_completeLoad (image : List Byte) : (completeLoad image s).queued = s.queued := by
  unfold completeLoad
  split <;> rfl

theorem faultLoad_link (image : List Byte) : (faultLoad image s).link = s.link := by
  unfold faultLoad
  split <;> rfl

theorem releaseReset_link (straps : Station) : (releaseReset straps s).link = s.link := by
  unfold releaseReset
  split <;> rfl

theorem assertSelect_link : (assertSelect s).link = s.link := by
  unfold assertSelect
  dsimp only
  split_ifs <;> rfl

theorem cutShort_link : (cutShort s).link = s.link := by
  unfold cutShort
  split
  · rfl
  · exact bump_link _

theorem refuseCommand_link (code : Byte) : (refuseCommand code s).link = s.link := bump_link _

theorem plainCommand_link {carryOut : State → State} (h : (carryOut s).link = s.link) :
    (plainCommand carryOut s).link = s.link := by
  unfold plainCommand takeCommand
  split_ifs
  · rfl
  · exact h
  · rfl

theorem argumentCommand_link (code : Byte) (bytes : List Byte) {carryOut : List Byte → State → State}
    (h : ∀ args, (carryOut args s).link = s.link) :
    (argumentCommand code bytes carryOut s).link = s.link := by
  unfold argumentCommand takeCommand
  dsimp only
  split
  · rfl
  · split_ifs
    · rfl
    · exact h _
    · rfl

theorem reportStream_link (args : List Byte) : (reportStream args s).link = s.link := by
  unfold reportStream
  split
  · rfl
  · exact refuseCommand_link _

theorem setPendingMember_link (member : Bool) (args : List Byte) :
    (setPendingMember member args s).link = s.link := by
  unfold setPendingMember
  split
  · rfl
  · exact refuseCommand_link _

theorem resumeClock_link : (resumeClock s).link = s.link := by
  unfold resumeClock
  split
  · rfl
  · exact refuseCommand_link _

/-! ## The passage of time -/

theorem keepsQueue_atMoment {due : State → Option Nat} {event : State → State}
    (h : ∀ s, KeepsQueue s (event s)) : KeepsQueue s (atMoment due event s) := by
  rcases atMoment_cases due event s with he | ⟨d, -, -, he⟩
  · rw [he]
    exact .refl s
  · rw [he]
    refine (h _).comp (keepsQueue_of_slots ?_ (momentOf_link d))
    unfold momentOf
    split
    · rfl
    · exact slots_elapse d

theorem keepsQueue_silencePeer (i : Station) : KeepsQueue s (silencePeer i s) :=
  .of_link (forward_silencePeer i) (judge_link.trans (leavePresent_link i _))

theorem keepsQueue_tickLater : KeepsQueue s (tickLater s) := by
  unfold tickLater
  split
  · exact keepsQueue_stallStream _
  · split
    · exact keepsQueue_passClose _
    · split
      · exact keepsQueue_passGather _
      · split
        · exact keepsQueue_passShare _
        · split
          · exact keepsQueue_silencePeer _
          · exact keepsQueue_of_slots (slots_elapse 1) rfl

theorem keepsQueue_tick : KeepsQueue s (tick s) := by
  unfold tick
  split_ifs
  · exact keepsQueue_of_slots rfl rfl
  · exact keepsQueue_reachBoundary
  · exact keepsQueue_reachSlot
  · exact keepsQueue_of_slots slots_lowerMark rfl
  · exact .of_link forward_endDelivery endDelivery_link
  · exact keepsQueue_setClock rfl
  · exact keepsQueue_expireHoldover
  · exact keepsQueue_tickLater

/-! ## Resets (R129, R189) -/

/-- A step leads to a node whose queue keeps its law. -/
def QueueStays (s t : State) : Prop := TableLaw s → QueueLaw s → QueueLaw t

theorem KeepsQueue.stays (h : KeepsQueue s t) : QueueStays s t := fun hs => (h hs).2

/-- A reset leaves nothing queued. -/
theorem queueStays_of_reset (hl : t.link = .reset) : QueueStays s t := fun _ _ =>
  queueLaw_iff.2 (by simp [State.queued, hl, Link.reset])

theorem queueStays_assertReset : QueueStays s (assertReset s) := by
  unfold assertReset
  split
  · exact (KeepsQueue.refl s).stays
  · exact queueStays_of_reset rfl

theorem queueStays_deassertSelect (straps : Station) : QueueStays s (deassertSelect straps s) := by
  have hpins (u : State) (h : u.slots = (s.setPins { s.pins with chipSelect := false }).slots)
      (hl : u.link = s.link) : QueueStays s u := (keepsQueue_of_slots (s := s) h hl).stays
  unfold deassertSelect
  dsimp only
  split
  · split
    · rw [meetReload_eq]
      exact hpins _ rfl rfl
    · split
      · exact hpins _ slots_cutShort cutShort_link
      · exact hpins _ slots_cutShort cutShort_link
      · split
        · exact queueStays_of_reset rfl
        · exact hpins _ rfl rfl
      · exact hpins _ rfl rfl
      · exact hpins _ rfl rfl
  · exact (KeepsQueue.refl s).stays

/-! ## The step -/

/-- Every command keeps the queue's law. -/
theorem exec_queueStays (c : Instr) (ht : exec c s = .next t) : QueueStays s t := by
  have stays {f : State → State} (he : exec c s = perform c f s) (hf : QueueStays s (f s)) :
      QueueStays s t := (perform_cases (he ▸ ht)).2 ▸ hf
  have keeps {f : State → State} (he : exec c s = perform c f s) (hf : KeepsQueue s (f s)) :
      QueueStays s t := stays he hf.stays
  have thins {f : State → State} (he : exec c s = perform c f s) (hf : (f s).slots = s.slots)
      (hq : (f s).queued.Sublist s.queued) : QueueStays s t := keeps he (.of_sublist (.of_slots hf) hq)
  have same {f : State → State} (he : exec c s = perform c f s) (hf : (f s).slots = s.slots)
      (hq : (f s).queued = s.queued) : QueueStays s t := keeps he (.of_queued (.of_slots hf) hq)
  have quiet {f : State → State} (he : exec c s = perform c f s) (hf : Forward s (f s))
      (hl : (f s).link = s.link) : QueueStays s t := keeps he (.of_link hf hl)
  cases c with
  | powerOn straps => exact stays rfl (queueStays_of_reset rfl)
  | resetPinAssert => exact stays rfl queueStays_assertReset
  | chipSelectDeassert straps => exact stays rfl (queueStays_deassertSelect straps)
  | resetPinRelease straps =>
    exact quiet rfl (.of_slots (slots_releaseReset straps)) (releaseReset_link straps)
  | loadComplete image =>
    exact keeps rfl (.of_queued (forward_completeLoad image) (queued_completeLoad image))
  | loadFault image => exact quiet rfl (.of_slots (slots_faultLoad image)) (faultLoad_link image)
  | ppsEdge edge => exact keeps rfl (keepsQueue_takeEdge edge)
  | timeOfDayMessage chars => exact quiet rfl (forward_endTod chars) (endTod_link chars s)
  | localSecondBoundary => exact keeps rfl (keepsQueue_atMoment fun _ => keepsQueue_reachBoundary)
  | slotTimeReached => exact keeps rfl (keepsQueue_atMoment fun _ => keepsQueue_reachSlot)
  | holdoverEntry => exact keeps rfl (keepsQueue_atMoment fun _ => keepsQueue_setClock rfl)
  | holdoverLimitExpiry =>
    exact keeps rfl (keepsQueue_atMoment fun _ => keepsQueue_expireHoldover)
  | frameStart => exact quiet rfl (.of_slots slots_takeFrameStart) takeFrameStart_link
  | byteEvent b => exact quiet rfl (.of_slots (slots_takeByte b)) (takeByte_link b)
  | frameEnd => exact quiet rfl (.of_slots slots_takeFrameEnd) takeFrameEnd_link
  | frameJudgement => exact keeps rfl keepsQueue_judgeHeld
  | stallExpiry n => exact keeps rfl (keepsQueue_atMoment fun _ => keepsQueue_stallStream n)
  | closeDeadline tag => exact keeps rfl (keepsQueue_atMoment fun _ => keepsQueue_passClose tag)
  | streamResolution => exact quiet rfl forward_resolveNext resolveNext_link
  | closeCompletion => exact keeps rfl keepsQueue_completeClose
  | gatheringDeadline tag =>
    exact keeps rfl (keepsQueue_atMoment fun _ => keepsQueue_passGather tag)
  | shareExpiry tag => exact keeps rfl (keepsQueue_atMoment fun _ => keepsQueue_passShare tag)
  | snapshotByteTaken => exact quiet rfl forward_takeSnapshotByte takeSnapshotByte_link
  | deliveryEnd => exact quiet rfl forward_endDelivery endDelivery_link
  | markPulseEnd =>
    exact keeps rfl (keepsQueue_atMoment fun _ => keepsQueue_of_slots slots_lowerMark rfl)
  | claimStart => exact same rfl slots_startClaim queued_startClaim
  | claimResolved line => exact thins rfl (slots_resolveClaim line) (queued_resolveClaim line)
  | foreignClaimResolved => exact same rfl slots_foreignClaim queued_foreignClaim
  | deferIdleExpiry => exact same rfl slots_deferIdle queued_deferIdle
  | transmissionComplete => exact thins rfl slots_completeSend queued_completeSend
  | collision => exact thins rfl slots_findMismatch queued_findMismatch
  | shareHeader bytes => exact same rfl (slots_takeHeader bytes) (queued_takeHeader bytes)
  | linkFrameEnd key bytes =>
    exact keeps rfl (.of_queued (forward_endLinkFrame key bytes) (queued_endLinkFrame key bytes))
  | silenceExpiry peer => exact keeps rfl (keepsQueue_atMoment fun _ => keepsQueue_silencePeer peer)
  | chipSelectAssert => exact quiet rfl (.of_slots slots_assertSelect) assertSelect_link
  | readStatus => exact quiet rfl (forward_plainCommand (.of_slots rfl)) (plainCommand_link rfl)
  | readRoster => exact quiet rfl (forward_plainCommand (.of_slots rfl)) (plainCommand_link rfl)
  | readStream args =>
    exact quiet rfl (forward_argumentCommand _ _ fun _ => .of_slots (slots_reportStream _))
      (argumentCommand_link _ _ fun _ => reportStream_link _)
  | readCounters => exact quiet rfl (forward_plainCommand (.of_slots rfl)) (plainCommand_link rfl)
  | readLastDrop => exact quiet rfl (forward_plainCommand (.of_slots rfl)) (plainCommand_link rfl)
  | readResetCause => exact quiet rfl (forward_plainCommand (.of_slots rfl)) (plainCommand_link rfl)
  | clearCounters => exact quiet rfl (forward_plainCommand (.of_slots rfl)) (plainCommand_link rfl)
  | setWait args =>
    exact quiet rfl (forward_argumentCommand _ _ fun _ => .of_slots rfl)
      (argumentCommand_link _ _ fun _ => rfl)
  | enableStream args =>
    exact quiet rfl (forward_argumentCommand _ _ fun _ => .of_slots (slots_setPendingMember _ _))
      (argumentCommand_link _ _ fun _ => setPendingMember_link _ _)
  | disableStream args =>
    exact quiet rfl (forward_argumentCommand _ _ fun _ => .of_slots (slots_setPendingMember _ _))
      (argumentCommand_link _ _ fun _ => setPendingMember_link _ _)
  | resumeClock =>
    exact quiet rfl (forward_plainCommand forward_resumeClock) (plainCommand_link resumeClock_link)
  | ackAttention args =>
    exact quiet rfl (forward_argumentCommand _ _ fun _ => .of_slots rfl)
      (argumentCommand_link _ _ fun _ => rfl)
  | reload => exact quiet rfl (forward_plainCommand (.of_slots rfl)) (plainCommand_link rfl)
  | unknownCommand code =>
    exact quiet rfl (forward_plainCommand (.of_slots (slots_refuseCommand _)))
      (plainCommand_link (refuseCommand_link _))
  | linkIdleJudged => exact same rfl slots_judgeIdle queued_judgeIdle

/-- Settles O9: every step keeps the queue's law. -/
theorem stepKeepsTheQueueLaw : Obligations.StepKeepsTheQueueLaw := by
  unfold Obligations.StepKeepsTheQueueLaw
  intro s t hs hq ht
  cases hp : s.pending with
  | nil =>
    rw [step_nil hp] at ht
    cases ht
    exact keepsQueue_tick.stays hs hq
  | cons c rest =>
    have hc : exec c (s.setPending rest) = .next t := by simpa only [step, hp] using ht
    exact exec_queueStays (s := s.setPending rest) c hc hs hq

end Sys2Proof.Machine

/-! The levels of the link's line (R107, R114, R118): the number that levels carry, where two lists of levels
first differ and which of them carries the lower number, the line of a claim phase, and what a transmission
is made of and read as. -/

namespace Sys2Proof.Machine

open Sys2Proof

variable {a b l read : List LineLevel} {d e : LineLevel} {m n : Nat}

/-! ## The number that levels carry -/

theorem levelsNat_from (l : List LineLevel) : ∀ n,
    l.foldl (fun n l => 2 * n + l.bit) n = n * 2 ^ l.length + levelsNat l := by
  induction l with
  | nil => intro n; simp [levelsNat]
  | cons d l ih =>
    intro n
    simp only [levelsNat, List.foldl_cons, List.length_cons, Nat.mul_zero, Nat.zero_add]
    rw [ih, ih d.bit]
    ring

theorem levelsNat_cons (d : LineLevel) (l : List LineLevel) :
    levelsNat (d :: l) = d.bit * 2 ^ l.length + levelsNat l := by
  rw [show levelsNat (d :: l) = l.foldl (fun n l => 2 * n + l.bit) (2 * 0 + d.bit) from rfl,
    levelsNat_from, Nat.mul_zero, Nat.zero_add]

theorem levelsNat_lt (l : List LineLevel) : levelsNat l < 2 ^ l.length := by
  induction l with
  | nil => simp [levelsNat]
  | cons d l ih =>
    rw [levelsNat_cons, List.length_cons, Nat.pow_succ]
    cases d
    · simp only [LineLevel.bit]; omega
    · simp only [LineLevel.bit]; omega

theorem bit_ofBit (n i : Nat) : (LineLevel.ofBit (n.testBit i)).bit = n / 2 ^ i % 2 := by
  rw [Nat.testBit_eq_decide_div_mod_eq]
  by_cases h : n / 2 ^ i % 2 = 1
  · simp [h, LineLevel.ofBit, LineLevel.bit]
  · simp [h, LineLevel.ofBit, LineLevel.bit]; omega

/-- The levels of a key carry the key. -/
theorem levelsNat_keyLevels (k : ClaimKey) : levelsNat (keyLevels k) = k.toNat := by
  have hk := k.isLt
  have hbit (i : Nat) (hi : i < 6) : (LineLevel.ofBit k[i]).bit = k.toNat / 2 ^ i % 2 := bit_ofBit _ _
  simp only [keyLevels, levelsNat, List.map_cons, List.map_nil, List.foldl_cons, List.foldl_nil, hbit]
  omega

/-- The levels of a byte carry the byte. -/
theorem levelsNat_byteLevels (x : Byte) : levelsNat (byteLevels x) = x.toNat := by
  have hx := x.isLt
  have hbit (i : Nat) (hi : i < 8) : (LineLevel.ofBit x[i]).bit = x.toNat / 2 ^ i % 2 := bit_ofBit _ _
  simp only [byteLevels, levelsNat, List.map_cons, List.map_nil, List.foldl_cons, List.foldl_nil, hbit]
  omega

theorem levelsNat_claimLevels (k : ClaimKey) : levelsNat (claimLevels k) = k.toNat := by
  rw [claimLevels, levelsNat_cons, levelsNat_keyLevels]
  simp [LineLevel.bit]

@[simp] theorem keyLevels_length (k : ClaimKey) : (keyLevels k).length = 6 := rfl

@[simp] theorem byteLevels_length (x : Byte) : (byteLevels x).length = 8 := rfl

/-! ## Where two lists of levels first differ (R114, R118) -/

theorem firstDifference_eq_none :
    firstDifference a b = none ↔ ∀ k, k < a.length → k < b.length → a[k]? = b[k]? := by
  induction a generalizing b with
  | nil => simp [firstDifference]
  | cons d a ih =>
    cases b with
    | nil => simp [firstDifference]
    | cons e b =>
      simp only [firstDifference]
      split_ifs with he
      · rw [Option.map_eq_none_iff, ih]
        constructor
        · intro h k ha hb
          cases k with
          | zero => simp [he]
          | succ k => simpa using h k (by simpa using ha) (by simpa using hb)
        · intro h k ha hb
          simpa using h (k + 1) (by simpa using ha) (by simpa using hb)
      · refine ⟨nofun, fun h => absurd ?_ he⟩
        simpa using h 0 (by simp) (by simp)

theorem firstDifference_eq_some (hpre : ∀ k < m, a[k]? = b[k]?) (ha : a[m]? = some d)
    (hb : b[m]? = some e) (hne : d ≠ e) : firstDifference a b = some m := by
  cases h : firstDifference a b with
  | none =>
    have hsame := firstDifference_eq_none.1 h m (List.getElem?_eq_some_iff.1 ha).1
      (List.getElem?_eq_some_iff.1 hb).1
    rw [ha, hb] at hsame
    exact absurd (Option.some.inj hsame) hne
  | some n =>
    obtain ⟨hpre', d', e', ha', hb', hne'⟩ := firstDifference_some h
    rcases Nat.lt_trichotomy n m with hlt | rfl | hlt
    · have hsame := hpre n hlt
      rw [ha', hb'] at hsame
      exact absurd (Option.some.inj hsame) hne'
    · rfl
    · have hsame := hpre' m hlt
      rw [ha, hb] at hsame
      exact absurd (Option.some.inj hsame) hne

/-- Of two lists of levels as long as each other the one that is recessive where they first differ carries
the higher number. -/
theorem levelsNat_of_firstDifference (h : firstDifference a b = some m) (hlen : a.length = b.length) :
    (a[m]? = some .recessive → levelsNat b < levelsNat a) ∧
    (a[m]? = some .dominant → levelsNat a < levelsNat b) := by
  induction a generalizing b m with
  | nil => cases h
  | cons d a ih =>
    cases b with
    | nil => cases h
    | cons e b =>
      have hlen' : a.length = b.length := by simpa using hlen
      have ha := levelsNat_lt a
      have hb := levelsNat_lt b
      simp only [firstDifference] at h
      rw [levelsNat_cons, levelsNat_cons, hlen']
      rw [hlen'] at ha
      split_ifs at h with he
      · obtain ⟨n, hn, rfl⟩ := Option.map_eq_some_iff.1 h
        obtain ⟨hrec, hdom⟩ := ih hn hlen'
        rw [he]
        exact ⟨fun hm => Nat.add_lt_add_left (hrec (by simpa using hm)) _,
          fun hm => Nat.add_lt_add_left (hdom (by simpa using hm)) _⟩
      · cases h
        cases d
        · cases e
          · exact absurd rfl he
          · simp only [LineLevel.bit]
            exact ⟨nofun, fun _ => by omega⟩
        · cases e
          · simp only [LineLevel.bit]
            exact ⟨fun _ => by omega, nofun⟩
          · exact absurd rfl he

theorem eq_of_firstDifference (h : firstDifference a b = none) (hlen : a.length = b.length) :
    a = b := by
  refine List.ext_getElem? fun k => ?_
  by_cases hk : k < a.length
  · exact firstDifference_eq_none.1 h k hk (hlen ▸ hk)
  · rw [List.getElem?_eq_none (by omega), List.getElem?_eq_none (by omega)]

/-- Levels as many as each other that carry the same number are the same. -/
theorem levelsNat_inj (h : levelsNat a = levelsNat b) (hlen : a.length = b.length) : a = b := by
  refine eq_of_firstDifference ?_ hlen
  cases hd : firstDifference a b with
  | none => rfl
  | some m =>
    obtain ⟨hrec, hdom⟩ := levelsNat_of_firstDifference hd hlen
    obtain ⟨-, d, -, hm, -⟩ := firstDifference_some hd
    cases d
    · exact absurd (hdom hm) (by omega)
    · exact absurd (hrec hm) (by omega)

theorem keyLevels_inj {k k' : ClaimKey} (h : keyLevels k = keyLevels k') : k = k' := by
  apply BitVec.eq_of_toNat_eq
  rw [← levelsNat_keyLevels, ← levelsNat_keyLevels, h]

/-! ## How a claim ends (R114) -/

/-- A claim is won with the key read back, lost to a lower key and a line fault under a higher one. -/
theorem claimEnd_keyLevels (key line : ClaimKey) : claimEnd (keyLevels key) (keyLevels line) =
    if line = key then .won else if line < key then .lost else .lineFault := by
  unfold claimEnd
  cases h : firstDifference (keyLevels key) (keyLevels line) with
  | none =>
    have he := keyLevels_inj (eq_of_firstDifference h rfl)
    rw [if_pos he.symm]
  | some m =>
    obtain ⟨hrec, hdom⟩ := levelsNat_of_firstDifference h rfl
    obtain ⟨-, d, e, hd, -, -⟩ := firstDifference_some h
    simp only [levelsNat_keyLevels] at hrec hdom
    have hne : (keyLevels key)[m]? = some .dominant ∨ (keyLevels key)[m]? = some .recessive := by
      cases d
      · exact .inl hd
      · exact .inr hd
    rcases hne with hm | hm
    · have hlt := hdom hm
      rw [if_neg (by rintro rfl; omega), if_neg (by rw [BitVec.lt_def]; omega)]
      simp [hm]
    · have hlt := hrec hm
      rw [if_neg (by rintro rfl; omega), if_pos (by rw [BitVec.lt_def]; omega)]
      simp [hm]

/-- A station that has read its own levels so far drives its next one. -/
theorem drivenAfter_take (h : n ≤ l.length) : drivenAfter l (l.take n) = l.getD n .recessive := by
  have hnone : firstDifference l (l.take n) = none := by
    refine firstDifference_eq_none.2 fun k _ hk => ?_
    have hkn := hk.trans_le (List.length_take_le n l)
    rw [List.getElem?_take_of_lt hkn]
  rw [drivenAfter_none hnone, List.length_take_of_le h]

/-- A station that reads a difference in its claim drives recessive from the next bit on (R114). -/
theorem drivenAfter_lost (h : firstDifference l read = some m) (hm : m < 7) :
    drivenAfter l read = .recessive := by
  obtain ⟨-, -, e, -, hread, -⟩ := firstDifference_some h
  have hlt := (List.getElem?_eq_some_iff.1 hread).1
  rw [drivenAfter_some h, stopsAt, if_pos hm, if_neg (by omega)]

/-- Where the lowest key's next level is recessive no station drives a dominant one (R114). -/
theorem drivenAfter_of_lowest {k key : ClaimKey} (hle : key ≤ k) (hn : n < 7)
    (hr : (claimLevels key)[n]? = some .recessive) :
    drivenAfter (claimLevels k) ((claimLevels key).take n) = .recessive := by
  cases h : firstDifference (claimLevels k) ((claimLevels key).take n) with
  | some m =>
    obtain ⟨-, d, -, hd, -⟩ := firstDifference_some h
    exact drivenAfter_lost h (by simpa using (List.getElem?_eq_some_iff.1 hd).1)
  | none =>
    rw [drivenAfter_none h, List.length_take_of_le (by simpa using hn.le)]
    by_contra hdom
    have hk : (claimLevels k)[n]? = some .dominant := by
      rw [List.getD_eq_getElem _ _ (by simpa using hn)] at hdom
      rw [List.getElem?_eq_getElem (by simpa using hn)]
      cases hl : (claimLevels k)[n]'(by simpa using hn) with
      | dominant => rfl
      | recessive => exact absurd hl hdom
    have hfirst : firstDifference (claimLevels k) (claimLevels key) = some n := by
      refine firstDifference_eq_some (fun j hj => ?_) hk hr nofun
      have hsame := firstDifference_eq_none.1 h j (by simp; omega) (by simp; omega)
      rwa [List.getElem?_take_of_lt hj] at hsame
    have hlt := (levelsNat_of_firstDifference hfirst rfl).2 hk
    rw [levelsNat_claimLevels, levelsNat_claimLevels] at hlt
    rw [BitVec.le_def] at hle
    omega

/-- The line of a claim phase is, bit by bit, the claim of the lowest key (R107, R114). -/
theorem claimLine_eq_take {keys : List ClaimKey} {key : ClaimKey} (hmem : key ∈ keys)
    (hle : ∀ k ∈ keys, key ≤ k) (hn : n ≤ 7) : claimLine keys n = (claimLevels key).take n := by
  induction n with
  | zero => simp [claimLine]
  | succ n ih =>
    have hlt : n < (claimLevels key).length := by simpa using hn
    have hline : lineLevel (keys.map fun k => drivenAfter (claimLevels k) ((claimLevels key).take n)) =
        (claimLevels key)[n] := by
      cases hd : (claimLevels key)[n] with
      | dominant =>
        refine (lineLevel_dominant _).2 (List.mem_map.2 ⟨key, hmem, ?_⟩)
        rw [drivenAfter_take hlt.le, List.getD_eq_getElem _ _ hlt, hd]
      | recessive =>
        have hr : (claimLevels key)[n]? = some .recessive := by rw [List.getElem?_eq_getElem hlt, hd]
        refine if_neg fun hc => ?_
        obtain ⟨k, hk, he⟩ := List.mem_map.1 (by simpa using hc)
        rw [drivenAfter_of_lowest (hle k hk) (by omega) hr] at he
        cases he
    rw [claimLine, ih (by omega), hline, List.take_succ_eq_append_getElem hlt]

end Sys2Proof.Machine

/-! The transmitter (R107, R111 to R120, R129, R130): what a claim offers, how a frame leaves transmission
without completing, what a collision leaves, and the line's events for a station that drives nothing. -/

namespace Sys2Proof.Machine

open Sys2Proof

variable {s t : State} {m : Medium} {f : OutFrame} {x : ShareFrame} {q : QueuedShare}

/-! ## The claim (R111 to R113, R130) -/

theorem mayClaim_iff {l : Link} : mayClaim l = true ↔
    l.state = .active ∧ l.deferFlag = false ∧ l.medium = .idle ∧ l.tx = none := by
  simp [mayClaim, and_assoc]

theorem exec_claimStart : exec .claimStart s = .next (startClaim s) := exec_next rfl rfl

theorem startClaim_offers (h : mayClaim s.link = true) (hf : offeredFrame s = some f) :
    startClaim s = s.setLink { s.link.offer f with tx := some ⟨f, .claiming⟩, medium := .own } := by
  unfold startClaim
  rw [if_pos h, hf]

theorem startClaim_of_nothing (h : offeredFrame s = none) : startClaim s = s := by
  unfold startClaim
  rw [h]
  exact ite_self s

/-- Settles O43, by what is pending. -/
theorem claimOffersByPriority : Obligations.ClaimOffersByPriority := by
  unfold Obligations.ClaimOffersByPriority
  intro s beacon share hbeacon hshare
  rw [exec_claimStart]
  refine ⟨fun h => congrArg _ ?_, fun hst hd hm htx => ?_⟩
  · by_cases hmay : mayClaim s.link = true
    · obtain ⟨hst, hd, hm, htx⟩ := mayClaim_iff.1 hmay
      have hnothing : s.link.notice = none ∧ s.link.queue = [] ∧ s.link.beacon = none := by
        simpa [hst, hd, hm, htx] using h
      obtain ⟨hn, hq, hb⟩ := hnothing
      exact startClaim_of_nothing (by simp [offeredFrame, hn, hq, hb])
    · exact if_neg hmay
  · have hmay := mayClaim_iff.2 ⟨hst, hd, hm, htx⟩
    refine ⟨fun n hn => congrArg _ ?_, fun q rest hn hq => congrArg _ ?_, fun b hn hq hb => congrArg _ ?_⟩
    · rw [startClaim_offers (f := .notice n) hmay (by simp [offeredFrame, hn])]
      rfl
    · rw [startClaim_offers (f := share q) hmay (by simp [offeredFrame, hn, hq, hshare, shareNow,
        slotRateByte]), hshare]
      rfl
    · rw [startClaim_offers (f := beacon b) hmay (by simp [offeredFrame, hn, hq, hb, hbeacon, beaconNow,
        slotRateByte]), hbeacon]
      rfl

/-! ## A frame that leaves transmission without completing (R112, R120) -/

theorem giveBack_notice (n : Notice) (l : Link) : l.giveBack (.notice n) =
    { l with tx := none, notice := some (l.notice.getD n) } := by
  cases h : l.notice <;> simp [Link.giveBack, h]

theorem giveBack_beacon (b : BeaconFrame) (l : Link) : l.giveBack (.beacon b) =
    { l with tx := none, beacon := some (l.beacon.getD b.second) } := by
  cases h : l.beacon <;> simp [Link.giveBack, h]

theorem giveBack_share (x : ShareFrame) (l : Link) : l.giveBack (.share x) = { l with tx := none } := rfl

theorem returnFrame_notice (n : Notice) (m : Medium) (s : State) : returnFrame (.notice n) m s =
    { s with link := { s.link with tx := none, medium := m, notice := some (s.link.notice.getD n) } } := by
  rw [returnFrame, giveBack_notice]
  rfl

theorem returnFrame_beacon (b : BeaconFrame) (m : Medium) (s : State) : returnFrame (.beacon b) m s =
    { s with link := { s.link with
      tx := none, medium := m, beacon := some (s.link.beacon.getD b.second) } } := by
  rw [returnFrame, giveBack_beacon]
  rfl

/-- A share whose deadline has not passed stays where it is in the queue. -/
theorem returnFrame_share_kept (m : Medium)
    (h : ∀ q, s.link.queue.find? (fun e => e.tag == x.tag) = some q → q.passed = false) :
    returnFrame (.share x) m s = { s with link := { s.link with tx := none, medium := m } } := by
  unfold returnFrame expireReturned
  simp only [giveBack_share, State.setLink_link]
  split
  · next q hq =>
    rw [if_neg (by simp [h q hq])]
    rfl
  · rfl

/-- A share whose deadline passed in transmission is withdrawn (R120). -/
theorem returnFrame_share_passed (m : Medium)
    (hq : s.link.queue.find? (fun e => e.tag == x.tag) = some q) (hp : q.passed = true) :
    returnFrame (.share x) m s = bump .shareExpired { s with link := { s.link with
      tx := none, medium := m
      queue := s.link.queue.filter (fun e => decide (e.tag ≠ x.tag)) } } := by
  unfold returnFrame expireReturned
  simp only [giveBack_share, State.setLink_link, hq]
  exact if_pos hp

/-- A share's place in the queue: its deadline passed in transmission, or not. -/
theorem share_passed_or_kept (x : ShareFrame) (s : State) :
    (∀ q, s.link.queue.find? (fun e => e.tag == x.tag) = some q → q.passed = false) ∨
    ∃ q, s.link.queue.find? (fun e => e.tag == x.tag) = some q ∧ q.passed = true := by
  cases hq : s.link.queue.find? (fun e => e.tag == x.tag) with
  | none => exact .inl nofun
  | some q =>
    cases hp : q.passed with
    | false => exact .inl fun _ h => Option.some.inj h ▸ hp
    | true => exact .inr ⟨q, rfl, hp⟩

/-- What every returned frame leaves, whichever it is. -/
theorem returnFrame_leaves (f : OutFrame) (m : Medium) (s : State) :
    (returnFrame f m s).table = s.table ∧ (returnFrame f m s).link.tx = none ∧
    (returnFrame f m s).link.medium = m ∧ (returnFrame f m s).link.state = s.link.state ∧
    (returnFrame f m s).link.deferFlag = s.link.deferFlag ∧
    (returnFrame f m s).link.collisionRun = s.link.collisionRun ∧
    (∀ c, c ≠ .shareExpired → (returnFrame f m s).count c = s.count c) ∧
    ((∀ x, f ≠ .share x) → (returnFrame f m s).count .shareExpired = s.count .shareExpired) := by
  cases f with
  | notice n =>
    rw [returnFrame_notice]
    exact ⟨rfl, rfl, rfl, rfl, rfl, rfl, fun _ _ => rfl, fun _ => rfl⟩
  | beacon b =>
    rw [returnFrame_beacon]
    exact ⟨rfl, rfl, rfl, rfl, rfl, rfl, fun _ _ => rfl, fun _ => rfl⟩
  | share x =>
    rcases share_passed_or_kept x s with h | ⟨q, hq, hp⟩
    · rw [returnFrame_share_kept m h]
      exact ⟨rfl, rfl, rfl, rfl, rfl, rfl, fun _ _ => rfl, fun _ => rfl⟩
    · rw [returnFrame_share_passed m hq hp]
      simp only [bump_table, bump_link, true_and]
      exact ⟨fun c hc => count_bump_other hc, fun h => absurd rfl (h x)⟩

/-! ## A collision (R118, R119) -/

/-- The node of a collision, counted and its frame returned, before it is muted (R118, R120). -/
def collided (f : OutFrame) (m : Medium) (s : State) : State :=
  returnFrame f m (bump .collision (s.setLink { s.link with
    collisionRun := min (s.link.collisionRun + 1) 3, deferFlag := true }))

theorem collide_eq (f : OutFrame) (m : Medium) (s : State) : collide f m s =
    if s.link.collisionRun < 2 then collided f m s
    else raise .indexClash ((collided f m s).setLink { (collided f m s).link with state := .muted }) := by
  have hrun : Config.collisionLimit ≤ min (s.link.collisionRun + 1) Config.collisionLimit ↔
      ¬s.link.collisionRun < 2 := by
    simp only [Config.collisionLimit]
    omega
  unfold collide
  simp only [hrun, ite_not]
  rfl

/-- The node before its frame is returned: one collision counted, its run and the defer flag set. -/
theorem collided_leaves (f : OutFrame) (m : Medium) (s : State) :
    (collided f m s).table = s.table ∧ (collided f m s).link.tx = none ∧
    (collided f m s).link.medium = m ∧ (collided f m s).link.state = s.link.state ∧
    (collided f m s).link.deferFlag = true ∧
    (collided f m s).link.collisionRun = min (s.link.collisionRun + 1) 3 ∧
    (collided f m s).count .collision = min (s.count .collision + 1) 65535 ∧
    ((∀ x, f ≠ .share x) → (collided f m s).count .shareExpired = s.count .shareExpired) := by
  obtain ⟨htable, htx, hmedium, hstate, hdefer, hrun, hcount, hexpired⟩ :=
    returnFrame_leaves f m (bump .collision (s.setLink { s.link with
      collisionRun := min (s.link.collisionRun + 1) 3, deferFlag := true }))
  rw [bump_table] at htable
  rw [bump_link] at hstate hdefer hrun
  exact ⟨htable, htx, hmedium, hstate, hdefer, hrun,
    (hcount .collision (by decide)).trans (count_bump_same _),
    fun h => (hexpired h).trans (count_bump_other (by decide))⟩

/-- A muting collision changes the link's state and the causes, and nothing else. -/
theorem collide_keeps (f : OutFrame) (m : Medium) (s : State) : ∃ st,
    (collide f m s).link = { (collided f m s).link with state := st } ∧
    (collide f m s).table = (collided f m s).table ∧
    (collide f m s).counters = (collided f m s).counters ∧
    (s.link.collisionRun < 2 → st = s.link.state) ∧
    (¬s.link.collisionRun < 2 → st = .muted ∧ (collide f m s).port.causes.indexClash = true) := by
  obtain ⟨-, -, -, hstate, -⟩ := collided_leaves f m s
  rw [collide_eq]
  by_cases h : s.link.collisionRun < 2
  · rw [if_pos h]
    exact ⟨s.link.state, by rw [← hstate], rfl, rfl, fun _ => rfl, fun hn => absurd h hn⟩
  · rw [if_neg h]
    exact ⟨.muted, rfl, rfl, rfl, fun hl => absurd hl h, fun _ => ⟨rfl, rfl⟩⟩

theorem exec_collision : exec .collision s = .next (findMismatch s) := exec_next rfl rfl

/-- The line after a collision, by how far the frame had come (R118). -/
def mediumAfter : TxPhase → Medium
  | .claiming => .foreign
  | .transmitting => .own

theorem findMismatch_eq {phase : TxPhase} (h : s.link.tx = some ⟨f, phase⟩) :
    findMismatch s = collide f (mediumAfter phase) s := by
  unfold findMismatch
  rw [h]
  cases phase <;> rfl

/-! ## The end of a claim (R112, R114, R120) -/

theorem exec_claimResolved (line : ClaimKey) :
    exec (.claimResolved line) s = .next (resolveClaim line s) := exec_next rfl rfl

theorem resolveClaim_eq {key : ClaimKey} (line : ClaimKey) (h : s.link.tx = some ⟨f, .claiming⟩)
    (hk : key = f.key s.loader.strap) : resolveClaim line s =
      if line = key then s.setLink { s.link with tx := some ⟨f, .transmitting⟩ }
      else if line < key then returnFrame f .foreign s else collide f .foreign s := by
  unfold resolveClaim
  simp only [h, ← hk, claimEnd_keyLevels]
  split_ifs <;> rfl

/-- Settles O44: the line carries the lowest key, and a claim ends by how the key on it compares. -/
theorem claimResolvesByTheLowestKey : Obligations.ClaimResolvesByTheLowestKey := by
  unfold Obligations.ClaimResolvesByTheLowestKey
  refine ⟨fun keys key hmem hle => ?_, fun s f line key htx hkey => ?_⟩
  · have hline := claimLine_eq_take hmem hle (n := 7) le_rfl
    rw [List.take_of_length_le (by simp)] at hline
    refine ⟨hline, fun k hk => ?_⟩
    rw [hline, show (claimLevels key).drop 1 = keyLevels key from rfl, claimEnd_keyLevels]
    by_cases h : k = key
    · rw [if_pos h.symm, if_pos h]
    · rw [if_neg (Ne.symm h), if_pos (BitVec.lt_of_le_ne (hle k hk) (Ne.symm h)), if_neg h]
  · have hends := resolveClaim_eq line htx hkey
    rw [exec_claimResolved]
    refine ⟨fun h => ?_, fun h => ?_, fun h => ?_⟩
    · rw [hends, if_pos h]
      rfl
    · rw [hends, if_neg (BitVec.ne_of_lt h), if_pos h]
      refine ⟨?_, ?_, ?_, ?_⟩
      · rintro n rfl
        rw [returnFrame_notice]
      · rintro b rfl
        rw [returnFrame_beacon]
      · rintro x rfl hkept
        rw [returnFrame_share_kept .foreign hkept]
      · rintro x q rfl hq hp
        rw [returnFrame_share_passed .foreign hq hp]
    · obtain ⟨-, htx', -, -, hdefer, -, hcount, -⟩ := collided_leaves f .foreign s
      obtain ⟨st, hlink, -, hcounters, -⟩ := collide_keeps f .foreign s
      rw [hends, if_neg (BitVec.ne_of_lt h).symm, if_neg (BitVec.lt_asymm h), exec_collision,
        findMismatch_eq htx]
      refine ⟨rfl, _, rfl, ?_, ?_, ?_⟩
      · rw [hlink]; exact htx'
      · rw [hlink]; exact hdefer
      · rw [← hcount]
        exact congrArg (·[Counter.collision.index]) hcounters

/-! ## A transmission's end (R115, R117 to R120) -/

theorem exec_transmissionComplete (h : s.link.tx = some ⟨f, .transmitting⟩) :
    exec .transmissionComplete s = .next (bump .linkFramesSent (s.setLink { s.link with
      tx := none, collisionRun := 0, deferFlag := true, queue := sentQueue f s.link.queue })) := by
  rw [exec_next (effect := completeSend) rfl rfl, completeSend, h]

/-- What of the pending frames a collision changes: the returned one is back in its place, and a share whose
deadline passed is withdrawn and counted (R112, R120). -/
theorem collided_pending (f : OutFrame) (m : Medium) (s : State) :
    (∀ n, f = .notice n → (collided f m s).link.notice = some (s.link.notice.getD n) ∧
      (collided f m s).link.queue = s.link.queue ∧ (collided f m s).link.beacon = s.link.beacon) ∧
    (∀ b, f = .beacon b → (collided f m s).link.beacon = some (s.link.beacon.getD b.second) ∧
      (collided f m s).link.queue = s.link.queue ∧ (collided f m s).link.notice = s.link.notice) ∧
    (∀ x, f = .share x → (collided f m s).link.notice = s.link.notice ∧
      (collided f m s).link.beacon = s.link.beacon ∧
      ((∀ q, s.link.queue.find? (fun e => e.tag == x.tag) = some q → q.passed = false) →
        (collided f m s).link.queue = s.link.queue ∧
        (collided f m s).count .shareExpired = s.count .shareExpired) ∧
      (∀ q, s.link.queue.find? (fun e => e.tag == x.tag) = some q → q.passed = true →
        (collided f m s).link.queue = s.link.queue.filter (fun e => decide (e.tag ≠ x.tag)) ∧
        (collided f m s).count .shareExpired = min (s.count .shareExpired + 1) 65535)) := by
  have hlink : (bump .collision (s.setLink { s.link with
      collisionRun := min (s.link.collisionRun + 1) 3, deferFlag := true })).link = { s.link with
        collisionRun := min (s.link.collisionRun + 1) 3, deferFlag := true } := bump_link _
  have hcount : (bump .collision (s.setLink { s.link with
      collisionRun := min (s.link.collisionRun + 1) 3, deferFlag := true })).count .shareExpired =
        s.count .shareExpired := count_bump_other (by decide)
  refine ⟨?_, ?_, ?_⟩
  · rintro n rfl
    rw [collided, returnFrame_notice, hlink]
    exact ⟨rfl, rfl, rfl⟩
  · rintro b rfl
    rw [collided, returnFrame_beacon, hlink]
    exact ⟨rfl, rfl, rfl⟩
  · rintro x rfl
    have hkeeps (h : ∀ q, s.link.queue.find? (fun e => e.tag == x.tag) = some q → q.passed = false) :=
      returnFrame_share_kept (x := x) m (by rw [hlink]; exact h)
    have hexpires {q : QueuedShare} (hq : s.link.queue.find? (fun e => e.tag == x.tag) = some q) :=
      returnFrame_share_passed (x := x) (q := q) m (by rw [hlink]; exact hq)
    refine ⟨?_, ?_, fun h => ?_, fun q hq hp => ?_⟩
    · rcases share_passed_or_kept x s with h | ⟨q, hq, hp⟩
      · rw [collided, hkeeps h, hlink]
      · rw [collided, hexpires hq hp, bump_link, hlink]
    · rcases share_passed_or_kept x s with h | ⟨q, hq, hp⟩
      · rw [collided, hkeeps h, hlink]
      · rw [collided, hexpires hq hp, bump_link, hlink]
    · rw [collided, hkeeps h, hlink]
      exact ⟨rfl, hcount⟩
    · rw [collided, hexpires hq hp, bump_link, hlink, count_bump_same]
      exact ⟨rfl, by rw [← hcount]; rfl⟩

/-- Settles O45: a completion, and a collision up to the muting. -/
theorem transmissionsCompleteOrCollide : Obligations.TransmissionsCompleteOrCollide := by
  unfold Obligations.TransmissionsCompleteOrCollide
  refine ⟨fun s f htx => ?_, fun s f phase htx hrun => ?_⟩
  · rw [exec_transmissionComplete htx]
    refine ⟨?_, fun hn => ?_⟩
    · rintro x rfl
      rfl
    · cases f with
      | share x => exact absurd rfl (hn x)
      | notice n => rfl
      | beacon b => rfl
  · rw [exec_collision, findMismatch_eq htx]
    obtain ⟨htable, htx', hm, -, hdefer, hruns, hcount, hexpired⟩ :=
      collided_leaves f (mediumAfter phase) s
    obtain ⟨hnotice, hbeacon, hshare⟩ := collided_pending f (mediumAfter phase) s
    obtain ⟨st, hlink, htable', hcounters, hlow, hhigh⟩ := collide_keeps f (mediumAfter phase) s
    have hcounts (c : Counter) : (collide f (mediumAfter phase) s).count c =
        (collided f (mediumAfter phase) s).count c :=
      congrArg (·[c.index]) hcounters
    simp only [hlink, hcounts, htable', exists_eq_left', Host.Outcome.next.injEq]
    refine ⟨htable, hm.trans (by cases phase <;> rfl), hcount, hruns.trans (by omega), hdefer, htx',
      hnotice, hbeacon, hshare, hexpired, hlow, fun h => ?_⟩
    obtain ⟨hmuted, hclash⟩ := hhigh (by omega)
    exact ⟨hmuted, hclash, by simp [State.attn, hclash]⟩

/-! ## A station that drives nothing (R107, R115, R129) -/

/-- Settles O46. -/
theorem lineEventsClearTheDeferFlag : Obligations.LineEventsClearTheDeferFlag := by
  unfold Obligations.LineEventsClearTheDeferFlag
  intro s htx
  refine ⟨fun hm => ⟨?_, ?_⟩, fun hm hr => ?_⟩
  · have hclaim : foreignClaim s = s.setLink { s.link with
        deferFlag := false, medium := if s.listens then .foreign else .unsynced } :=
      if_pos (by simpa [htx] using hm)
    rw [exec_next (effect := foreignClaim) rfl rfl, hclaim]
    cases hl : s.loader.state <;> simp [State.listens, hl, State.setLink]
  · rw [exec_next (effect := deferIdle) rfl rfl, deferIdle, if_pos (by simpa [htx] using hm)]
    rfl
  · rw [exec_next (effect := judgeIdle) rfl rfl, judgeIdle, if_pos (by simpa [htx, hr] using hm)]
    rfl

end Sys2Proof.Machine

/-! A share header handed to the gatherer (R121, R140). -/

namespace Sys2Proof.Machine

open Sys2Proof

variable {s : State} {h : List Byte}

/-- A station that drives nothing and reads a foreign frame has its claim behind it (R107). -/
theorem impliedClaim_of_foreign (hm : s.link.medium = .foreign) : impliedClaim s = s :=
  if_neg (by rw [hm]; decide)

/-! ## The peer a header is wanted from (R65, R140) -/

/-- Every slot rate fits a byte, so that the byte says the rate. -/
theorem slotRateByte_toNat (s : State) : (slotRateByte s).toNat = s.loader.shared.slotRate.perSecond := by
  unfold slotRateByte
  cases s.loader.shared.slotRate <;> rfl

theorem agrees_iff {rate : Byte} {digest : BitVec 32} : agrees s rate digest = true ↔
    rate.toNat = s.loader.shared.slotRate.perSecond ∧ digest = s.loader.shared.digest := by
  refine ⟨fun ha => ?_, fun ⟨hr, hd⟩ => agrees_of_eq hr hd⟩
  obtain ⟨hr, hd⟩ : rate = slotRateByte s ∧ digest = s.loader.shared.digest := by simpa [agrees] using ha
  exact ⟨hr ▸ slotRateByte_toNat s, hd⟩

theorem configuredPeer_eq_some {n : Nat} {i : Station} : configuredPeer s n = some i ↔
    n = i.val ∧ i ∈ s.loader.shared.stations ∧ i ≠ s.loader.strap := by
  unfold configuredPeer
  split
  · next hn =>
    rw [Option.ite_none_right_eq_some, Option.some.injEq, and_comm]
    constructor
    · rintro ⟨rfl, hi⟩
      exact ⟨rfl, hi⟩
    · rintro ⟨rfl, hi⟩
      exact ⟨rfl, hi⟩
  · next hn => exact ⟨nofun, fun ⟨he, _⟩ => absurd (he ▸ i.isLt) hn⟩

theorem headerWanted_iff : headerWanted s h = true ↔ ∃ i : Station, field h 1 1 = i.val ∧
    i ∈ s.loader.shared.stations ∧ i ≠ s.loader.strap ∧ s.gather.roster[i].state ≠ .mismatched ∧
    field h 9 1 = s.loader.shared.slotRate.perSecond ∧
    BitVec.ofNat 32 (field h 10 4) = s.loader.shared.digest := by
  have hpeer (i : Station) := configuredPeer_eq_some (s := s) (n := field h 1 1) (i := i)
  unfold headerWanted frameSender
  cases hc : configuredPeer s (field h 1 1) with
  | none =>
    refine ⟨nofun, fun ⟨i, hs, hi, hstrap, _⟩ => ?_⟩
    rw [(hpeer i).2 ⟨hs, hi, hstrap⟩] at hc
    cases hc
  | some j =>
    obtain ⟨hs, hj, hstrap⟩ := (hpeer j).1 hc
    simp only [Bool.and_eq_true, bne_iff_ne, agrees_iff, getD_toNat]
    refine ⟨fun ⟨hm, hr, hd⟩ => ⟨j, hs, hj, hstrap, hm, hr, hd⟩, fun ⟨i, hi, _, _, hm, hr, hd⟩ => ?_⟩
    cases Fin.ext (hs.symm.trans hi)
    exact ⟨hm, hr, hd⟩

/-! ## A header in the first of its blocks (R121, R139) -/

/-- A write of no bytes changes nothing. -/
theorem storeWrite_nil (m : Memory) (blocks : List Block) : storeWrite m blocks [] = m := by
  induction blocks with
  | nil => rfl
  | cons b bs ih => exact ih

/-- Bytes that one block holds go into the first block. -/
theorem storeWrite_short (m : Memory) (b : Block) (bs : List Block) (hl : h.length ≤ 64) :
    storeWrite m (b :: bs) h = memWriteRun m (64 * b.toNat) h := by
  rw [storeWrite, List.drop_eq_nil_of_le hl, storeWrite_nil, List.take_of_length_le hl, blockBase,
    Nat.mul_comm]

/-! ## The header taken -/

theorem shareHeaderOf_header (hl : h.length = 17) (hk : field h 0 1 = 17) (hmin : 21 ≤ field h 2 2)
    (hmax : field h 2 2 ≤ 3509) : shareHeaderOf h = some h := by
  have hkind : frameKind h = some kindShare := by simp [frameKind, hk, kindShare]
  unfold shareHeaderOf
  rw [if_pos ⟨hl.ge, hkind, hmin, hmax⟩, List.take_of_length_le hl.le]

theorem exec_shareHeader (hr : s.running = true) (hm : s.link.medium = .foreign)
    (hrec : s.gather.reception = none) (hl : h.length = 17) (hh : shareHeaderOf h = some h) :
    exec (.shareHeader h) s = .next (handHeader h s) := by
  have htake : takeHeader h s = handHeader h s := by
    unfold takeHeader
    simp only [impliedClaim_of_foreign hm, hh]
    exact if_pos (by simp [hr, hm, hrec])
  rw [exec_next (effect := takeHeader h) rfl (by simp [Instr.wellFormed, hl]), htake]

theorem handHeader_room (hw : headerWanted s h = true)
    (hb : blocksFor (field h 2 2) ≤ s.gather.free.length) :
    handHeader h s = { s with gather := { s.gather with
      free := s.gather.free.drop (blocksFor (field h 2 2))
      mem := storeWrite s.gather.mem (s.gather.free.take (blocksFor (field h 2 2))) h
      reception := some ⟨h, s.gather.free.take (blocksFor (field h 2 2)), false⟩ } } := by
  unfold handHeader frameLength
  rw [if_pos hw, if_pos (List.length_take_of_le hb)]
  rfl

theorem handHeader_short (hw : headerWanted s h = true)
    (hb : s.gather.free.length < blocksFor (field h 2 2)) :
    handHeader h s = { s with gather := { s.gather with reception := some ⟨h, [], true⟩ } } := by
  unfold handHeader frameLength
  rw [if_pos hw, if_neg (by rw [List.length_take]; omega)]
  rfl

theorem handHeader_unwanted (hw : ¬headerWanted s h = true) :
    handHeader h s = { s with gather := { s.gather with reception := some ⟨h, [], false⟩ } } := by
  unfold handHeader
  rw [if_neg hw]
  rfl

/-- Settles O49, by whether the header is wanted and has room. -/
theorem shareHeaderTakesBlocks : Obligations.ShareHeaderTakesBlocks := by
  unfold Obligations.ShareHeaderTakesBlocks
  intro s h b wanted hmem hr hm hrec hl hk hmin hmax hb hwanted
  rw [exec_shareHeader hr hm hrec hl (shareHeaderOf_header hl hk hmin hmax)]
  rw [← headerWanted_iff] at hwanted
  obtain rfl : b = blocksFor (field h 2 2) := hb
  refine ⟨fun hw hroom => ?_, fun hw hfull => ?_, fun hw => ?_⟩
  · have hpos : 0 < blocksFor (field h 2 2) := by simp only [blocksFor, Config.blockSize]; omega
    obtain ⟨first, rest, hfree⟩ := List.exists_cons_of_length_pos (hpos.trans_le hroom)
    have hwritten : storeWrite s.gather.mem (s.gather.free.take (blocksFor (field h 2 2))) h =
        memWriteRun s.gather.mem (64 * first.toNat) h := by
      rw [hfree, List.take_cons hpos, storeWrite_short _ _ _ (by omega)]
    have hread (a : Nat) := memRead_memWriteRun h (64 * first.toNat) a hmem.2
    rw [handHeader_room (hwanted.1 hw) hroom]
    refine ⟨_, first, by rw [hfree]; rfl, rfl, fun k hk => ?_, fun a ha => ?_⟩
    · rw [hwritten, hread, if_pos (by omega), Nat.add_sub_cancel_left]
    · rw [hwritten, hread, if_neg fun hin => ha (a - 64 * first.toNat) (by omega) (by omega)]
  · rw [handHeader_short (hwanted.1 hw) hfull]
  · rw [handHeader_unwanted (hw ∘ hwanted.2)]

end Sys2Proof.Machine

/-! A link frame judged at its end (R122 to R127, R141): what check 3 reads, and what a frame that fails a
check leaves. -/

namespace Sys2Proof.Machine

open Sys2Proof

variable {s : State} {key : ClaimKey} {b : List Byte} {c : Counter} {rec : Reception}

/-! ## Encoded values (R212) -/

theorem clockOf_eq_some {n : Nat} {k : ClockState} : clockOf n = some k ↔ clockCode k = n := by
  unfold clockOf
  cases k <;> simp only [clockCode] <;> (split_ifs <;> simp <;> omega)

theorem clockOf_eq_none {n : Nat} : clockOf n = none ↔ 4 < n := by
  unfold clockOf
  split_ifs <;> simp <;> omega

theorem noticeOf_eq_some {n : Nat} {k : NoticeKind} : noticeOf n = some k ↔ noticeCode k = n := by
  unfold noticeOf
  cases k <;> simp only [noticeCode] <;> (split_ifs <;> simp <;> omega)

theorem noticeOf_eq_none {n : Nat} : noticeOf n = none ↔ n ≠ 1 ∧ n ≠ 2 := by
  unfold noticeOf
  split_ifs <;> simp <;> omega

/-- A 32-bit field is the word that it says. -/
theorem ofNat_field (o : Nat) : (BitVec.ofNat 32 (field b o 4)).toNat = field b o 4 :=
  Nat.mod_eq_of_lt (field_lt b o 4)

/-! ## Notices and beacons (R124, R216) -/

theorem parseNotice_eq_none : parseNotice b = none ↔
    b.length ≠ 14 ∨ (field b 4 1 ≠ 1 ∧ field b 4 1 ≠ 2) := by
  rw [← noticeOf_eq_none]
  unfold parseNotice
  split
  · next h => simp [h]
  · next h => cases hk : noticeOf (field b 4 1) <;> simp [not_not.1 h]

theorem parseNotice_reads {n : Notice} (h : parseNotice b = some n) :
    noticeCode n.kind = field b 4 1 ∧ n.tag = ⟨field b 5 4, field b 9 1⟩ := by
  unfold parseNotice at h
  split at h
  · cases h
  · cases hk : noticeOf (field b 4 1) with
    | none => simp [hk] at h
    | some k =>
      simp only [hk, Option.some.injEq] at h
      subst h
      exact ⟨noticeOf_eq_some.1 hk, rfl⟩

/-- The clock state of a beacon is in the low three bits of its byte (R216). -/
theorem beaconClock_eq : ((b.getD 4 0).setWidth 3).toNat = field b 4 1 % 8 := by
  rw [BitVec.toNat_setWidth, getD_toNat]

theorem parseBeacon_eq_none : parseBeacon b = none ↔ b.length ≠ 26 ∨ 4 < field b 4 1 % 8 := by
  rw [← clockOf_eq_none]
  unfold parseBeacon
  simp only [beaconClock_eq]
  split
  · next h => simp [h]
  · next h => cases hk : clockOf (field b 4 1 % 8) <;> simp [not_not.1 h]

theorem parseBeacon_reads {f : BeaconFrame} (h : parseBeacon b = some f) :
    clockCode f.clock = field b 4 1 % 8 ∧ f.second = ⟨field b 18 4, (field b 4 1).testBit 7⟩ ∧
    f.slotRate.toNat = field b 5 1 ∧ f.digest.toNat = field b 6 4 ∧ f.wait.toNat = field b 10 4 ∧
    f.grace.toNat = field b 14 4 := by
  unfold parseBeacon at h
  simp only [beaconClock_eq] at h
  split at h
  · cases h
  · cases hk : clockOf (field b 4 1 % 8) with
    | none => simp [hk] at h
    | some k =>
      simp only [hk, Option.some.injEq] at h
      subst h
      exact ⟨clockOf_eq_some.1 hk, by rw [getLsbD_field], getD_toNat b 5, ofNat_field _, ofNat_field _,
        ofNat_field _⟩

/-! ## Shares (R124, R216) -/

/-- A share of a form that check 3 lets pass: its counts, its clock state, its cells and marks, and the
length that its counts give. -/
structure ShareForm (b : List Byte) : Prop where
  cells : field b 15 1 ≤ 48
  marks : field b 16 1 ≤ 8
  clock : field b 14 1 ≤ 4
  cellForms : ∀ k < field b 15 1, CellForm b (cellStart b k)
  markForms : ∀ k < field b 16 1, field b (cellStart b (field b 15 1) + 4 * k + 3) 1 = 1 ∨
    field b (cellStart b (field b 15 1) + 4 * k + 3) 1 = 2
  length : b.length = cellStart b (field b 15 1) + 4 * field b 16 1 + 4

theorem not_shareForm_iff : ¬ShareForm b ↔
    48 < field b 15 1 ∨ 8 < field b 16 1 ∨ 4 < field b 14 1 ∨
    (∃ k < field b 15 1, ¬CellForm b (cellStart b k)) ∨
    (∃ k < field b 16 1, field b (cellStart b (field b 15 1) + 4 * k + 3) 1 ≠ 1 ∧
      field b (cellStart b (field b 15 1) + 4 * k + 3) 1 ≠ 2) ∨
    b.length ≠ cellStart b (field b 15 1) + 4 * field b 16 1 + 4 := by
  constructor
  · intro h
    by_contra hno
    push Not at hno
    obtain ⟨h1, h2, h3, h4, h5, h6⟩ := hno
    exact h ⟨h1, h2, h3, h4, fun k hk => or_iff_not_imp_left.2 (h5 k hk), h6⟩
  · rintro (h | h | h | ⟨k, hk, h⟩ | ⟨k, hk, h⟩ | h) hf
    · exact absurd hf.cells (by omega)
    · exact absurd hf.marks (by omega)
    · exact absurd hf.clock (by omega)
    · exact h (hf.cellForms k hk)
    · exact (hf.markForms k hk).elim h.1 h.2
    · exact h hf.length

/-- A share is read only if it is long enough, its counts are within bounds, its clock state is listed, and
its cells and marks are read to the end of its body. -/
theorem parseShare_eq_some {f : ShareFrame} : parseShare b = some f ↔
    21 ≤ b.length ∧ field b 15 1 ≤ 48 ∧ field b 16 1 ≤ 8 ∧ clockOf (field b 14 1) = some f.clock ∧
    (∃ rest, parseCells (field b 15 1) ((b.take (b.length - 4)).drop 17) = some (f.cells, rest) ∧
      parseMarks (field b 16 1) rest = some (f.marks, [])) ∧
    f.tag = tagAt b 4 ∧ f.slotRate = b.getD 9 0 ∧ f.digest = BitVec.ofNat 32 (field b 10 4) := by
  unfold parseShare
  simp only [Config.minShare]
  split
  · next h =>
    refine ⟨nofun, ?_⟩
    rintro ⟨h1, h2, h3, -⟩
    omega
  · next h =>
    simp only [not_or, not_lt] at h
    obtain ⟨h1, h2, h3⟩ := h
    cases hc : clockOf (field b 14 1) with
    | none => simp
    | some k =>
      rcases hp : parseCells (field b 15 1) ((b.take (b.length - 4)).drop 17) with _ | ⟨cs, rest⟩
      · simp
      · rcases hm : parseMarks (field b 16 1) rest with _ | ⟨ms, _ | _⟩
        · simp [hm]
        · obtain ⟨tag, rate, digest, clock, cells, marks⟩ := f
          simp only [hm, h1, h2, h3, Option.some.injEq, Prod.mk.injEq, ShareFrame.mk.injEq, true_and]
          constructor
          · rintro ⟨rfl, rfl, rfl, rfl, rfl, rfl⟩
            exact ⟨rfl, ⟨rest, ⟨rfl, rfl⟩, hm⟩, rfl, rfl, rfl⟩
          · rintro ⟨rfl, ⟨_, ⟨rfl, rfl⟩, hm'⟩, rfl, rfl, rfl⟩
            rw [hm] at hm'
            cases hm'
            exact ⟨rfl, rfl, rfl, rfl, rfl, rfl⟩
        · simp [hm]

/-- A share that is read has its form, and is what it says. -/
theorem parseShare_reads {f : ShareFrame} (h : parseShare b = some f) : ShareForm b ∧
    f.tag = ⟨field b 4 4, field b 8 1⟩ ∧ f.slotRate.toNat = field b 9 1 ∧ f.digest.toNat = field b 10 4 ∧
    clockCode f.clock = field b 14 1 ∧ f.cells.length = field b 15 1 ∧ f.marks.length = field b 16 1 ∧
    (∀ k c, f.cells[k]? = some c → CellReads b (cellStart b k) c) ∧
    ∀ k m, f.marks[k]? = some m → ∀ at_, at_ = cellStart b (field b 15 1) + 4 * k →
      m.monitor = field b at_ 1 ∧ m.code = field b (at_ + 1) 2 ∧
      directionCode m.direction = field b (at_ + 3) 1 := by
  obtain ⟨hmin, hcells, hmarks, hclock, ⟨rest, hcs, hms⟩, htag, hrate, hdigest⟩ := parseShare_eq_some.1 h
  have hstart : cellStart b 0 = 17 := rfl
  obtain ⟨hforms, hend, hrest, hcount, hreads⟩ :=
    (parseCells_at b (Nat.sub_le _ 4) (field b 15 1) 0 (by omega)).1 _ _ hcs
  simp only [Nat.zero_add] at hforms hend hrest hreads
  subst hrest
  obtain ⟨hdirections, hend', hnil, hcount', hreads'⟩ :=
    (parseMarks_at b (Nat.sub_le _ 4) (field b 16 1) _ hend).1 _ _ hms
  have hlength : b.length = cellStart b (field b 15 1) + 4 * field b 16 1 + 4 := by
    have hover := List.drop_eq_nil_iff.1 hnil.symm
    rw [List.length_take] at hover
    omega
  have hcode := clockOf_eq_some.1 hclock
  refine ⟨⟨hcells, hmarks, ?_, hforms, hdirections, hlength⟩, htag, ?_, ?_, hcode, hcount, hcount',
    hreads, fun k m hm at_ hat => hat ▸ hreads' k m hm⟩
  · rw [← hcode]
    cases f.clock <;> decide
  · rw [hrate, getD_toNat]
  · rw [hdigest, ofNat_field]

/-- Bytes of a share's form are read as a share. -/
theorem parseShare_of_form (h : ShareForm b) : ∃ f, parseShare b = some f := by
  have hlength := h.length
  have hstart : cellStart b 0 = 17 := rfl
  have hmono := cellStart_mono b 0 (field b 15 1)
  rw [Nat.zero_add] at hmono
  have hbody := parseCells_at b (Nat.sub_le _ 4) (field b 15 1) 0 (by omega)
  simp only [Nat.zero_add] at hbody
  obtain ⟨cs, hcs⟩ := hbody.2 h.cellForms (by omega)
  obtain ⟨ms, hms⟩ := (parseMarks_at b (Nat.sub_le _ 4) (field b 16 1) _ (by omega)).2 h.markForms
    (by omega)
  obtain ⟨k, hk⟩ : ∃ k, clockOf (field b 14 1) = some k :=
    Option.ne_none_iff_exists'.1 (clockOf_eq_none.not.2 (by have := h.clock; omega))
  have hover : (b.take (b.length - 4)).drop (cellStart b (field b 15 1) + 4 * field b 16 1) = [] :=
    List.drop_eq_nil_of_le (by rw [List.length_take]; omega)
  rw [hover] at hms
  exact ⟨⟨_, _, _, k, cs, ms⟩, parseShare_eq_some.2
    ⟨by omega, h.cells, h.marks, hk, ⟨_, hcs, hms⟩, rfl, rfl, rfl⟩⟩

theorem parseShare_eq_none : parseShare b = none ↔ ¬ShareForm b := by
  rw [Option.eq_none_iff_forall_ne_some]
  constructor
  · intro hno hf
    obtain ⟨f, hs⟩ := parseShare_of_form hf
    exact hno f hs
  · exact fun hf f hs => hf (parseShare_reads hs).1

/-! ## Check 3 whole (R124) -/

/-- The format number, and the claim key's class and index, agree with the frame's header. -/
def HeaderAgrees (key : ClaimKey) (b : List Byte) : Prop :=
  field b 0 1 / 16 = 1 ∧ key.toNat / 16 = field b 0 1 % 16 ∧ key.toNat % 16 = field b 1 1

theorem parseLinkFrame_disagrees (h : ¬HeaderAgrees key b) : parseLinkFrame key b = none := by
  unfold parseLinkFrame frameKind frameSender
  by_cases hf : field b 0 1 / 16 = 1
  · rw [if_pos hf]
    refine if_pos ?_
    by_contra hno
    push Not at hno
    exact h ⟨hf, hno⟩
  · rw [if_neg hf]

theorem parseLinkFrame_agrees (h : HeaderAgrees key b) : parseLinkFrame key b =
    if field b 0 1 % 16 = 0 then (parseNotice b).map .notice
    else if field b 0 1 % 16 = 1 then (parseShare b).map .share
    else if field b 0 1 % 16 = 2 then (parseBeacon b).map .beacon
    else none := by
  obtain ⟨hf, hclass, hindex⟩ := h
  unfold parseLinkFrame frameKind frameSender
  rw [if_pos hf]
  exact if_neg (by simp [hclass, hindex])

theorem badForm_of_disagrees (h : ¬HeaderAgrees key b) : BadForm key b := by
  unfold HeaderAgrees at h
  unfold BadForm
  tauto

theorem badForm_agrees (h : HeaderAgrees key b) : BadForm key b ↔
    2 < field b 0 1 % 16 ∨
    (field b 0 1 % 16 = 0 ∧ (b.length ≠ 14 ∨ (field b 4 1 ≠ 1 ∧ field b 4 1 ≠ 2))) ∨
    (field b 0 1 % 16 = 2 ∧ (b.length ≠ 26 ∨ 4 < field b 4 1 % 8)) ∨
    (field b 0 1 % 16 = 1 ∧ ¬ShareForm b) := by
  obtain ⟨hf, hclass, hindex⟩ := h
  simp only [BadForm, hf, hclass, hindex, ne_eq, not_true_eq_false, false_or, not_shareForm_iff]

theorem parseLinkFrame_eq_none : parseLinkFrame key b = none ↔ BadForm key b := by
  by_cases h : HeaderAgrees key b
  · rw [parseLinkFrame_agrees h, badForm_agrees h]
    split_ifs with h0 h1 h2
    · simp [h0, parseNotice_eq_none]
    · simp [h1, parseShare_eq_none]
    · simp [h2, parseBeacon_eq_none]
    · exact ⟨fun _ => .inl (by omega), fun _ => rfl⟩
  · exact ⟨fun _ => badForm_of_disagrees h, fun _ => parseLinkFrame_disagrees h⟩

theorem parseLinkFrame_reads {f : LinkFrame} (hp : parseLinkFrame key b = some f) : FrameReads b f := by
  by_cases h : HeaderAgrees key b
  · rw [parseLinkFrame_agrees h] at hp
    split_ifs at hp with h0 h1 h2
    · obtain ⟨n, hn, rfl⟩ := Option.map_eq_some_iff.1 hp
      exact ⟨h0, parseNotice_reads hn⟩
    · obtain ⟨x, hx, rfl⟩ := Option.map_eq_some_iff.1 hp
      exact ⟨h1, (parseShare_reads hx).2⟩
    · obtain ⟨x, hx, rfl⟩ := Option.map_eq_some_iff.1 hp
      exact ⟨h2, parseBeacon_reads hx⟩
  · rw [parseLinkFrame_disagrees h] at hp
    cases hp

/-! ## Checks 1 to 3 (R122 to R124) -/

theorem checkForm_badLength (h : b.length < 14 ∨ 3509 < b.length ∨ field b 2 2 ≠ b.length) :
    checkForm key b = .error .linkBadLength := if_pos h

theorem checkForm_badCrc (h : ¬(b.length < 14 ∨ 3509 < b.length ∨ field b 2 2 ≠ b.length))
    (hc : crc32 (b.take (b.length - 4)) ≠ BitVec.ofNat 32 (field b (b.length - 4) 4)) :
    checkForm key b = .error .linkBadCrc := (if_neg h).trans (if_pos hc)

/-- A frame of a good length and CRC-32 is judged by its kind and form. -/
theorem checkForm_parse (h : ¬(b.length < 14 ∨ 3509 < b.length ∨ field b 2 2 ≠ b.length))
    (hc : crc32 (b.take (b.length - 4)) = BitVec.ofNat 32 (field b (b.length - 4) 4)) :
    checkForm key b = match parseLinkFrame key b with
      | none => .error .linkBadKind
      | some f => .ok f := (if_neg h).trans (if_neg (not_not.2 hc))

theorem checkForm_badKind (h : ¬(b.length < 14 ∨ 3509 < b.length ∨ field b 2 2 ≠ b.length))
    (hc : crc32 (b.take (b.length - 4)) = BitVec.ofNat 32 (field b (b.length - 4) 4))
    (hbad : BadForm key b) : checkForm key b = .error .linkBadKind := by
  rw [checkForm_parse h hc, parseLinkFrame_eq_none.2 hbad]

theorem checkForm_good (h : ¬(b.length < 14 ∨ 3509 < b.length ∨ field b 2 2 ≠ b.length))
    (hc : crc32 (b.take (b.length - 4)) = BitVec.ofNat 32 (field b (b.length - 4) 4))
    (hgood : ¬BadForm key b) : ∃ f, checkForm key b = .ok f ∧ FrameReads b f := by
  obtain ⟨f, hf⟩ := Option.ne_none_iff_exists'.1 (parseLinkFrame_eq_none.not.2 hgood)
  exact ⟨f, by rw [checkForm_parse h hc, hf], parseLinkFrame_reads hf⟩

/-- Checks 1 to 3 know three counters, and the clash of check 5 is none of them. -/
theorem checkForm_error (h : checkForm key b = .error c) : c ≠ .indexClash := by
  unfold checkForm at h
  split_ifs at h
  · cases h; decide
  · cases h; decide
  · split at h
    · cases h; decide
    · cases h

/-! ## The frame's end (R121, R122 to R127, R141) -/

/-- The node with an idle line. -/
def quiet (s : State) : State := { s with link := { s.link with medium := .idle } }

theorem quiet_eq (s : State) : s.setLink { s.link with medium := .idle } = quiet s := rfl

theorem exec_linkFrameEnd_loaded {u : State} (hl : s.loader.state = .loaded)
    (hm : s.link.medium = .foreign) (hu : gatherBytes b s = some u) :
    exec (.linkFrameEnd key b) s = .next (quiet (receiveFrame key b u)) := by
  rw [exec_next (effect := endLinkFrame key b) rfl rfl]
  unfold endLinkFrame takeFrame
  simp only [impliedClaim_of_foreign hm, hm, hl, hu, quiet_eq]

theorem exec_linkFrameEnd_fault (hl : s.loader.state = .fault) (hm : s.link.medium = .foreign) :
    exec (.linkFrameEnd key b) s = .next (quiet (countFrame key b s)) := by
  rw [exec_next (effect := endLinkFrame key b) rfl rfl]
  unfold endLinkFrame takeFrame
  simp only [impliedClaim_of_foreign hm, hm, hl, quiet_eq]

theorem receiveFrame_error (h : checkForm key b = .error c) (s : State) :
    receiveFrame key b s = dropReception (bump c s) := by
  unfold receiveFrame
  rw [h]

theorem receiveFrame_stranger {f : LinkFrame} (h : checkForm key b = .ok f)
    (hi : keyStation key ∉ s.loader.shared.stations) :
    receiveFrame key b s = dropReception (bump .stranger s) := by
  unfold receiveFrame
  rw [h]
  exact if_pos hi

theorem receiveFrame_clash {f : LinkFrame} (h : checkForm key b = .ok f)
    (hi : keyStation key ∈ s.loader.shared.stations) (hstrap : keyStation key = s.loader.strap) :
    receiveFrame key b s = dropReception (raise .indexClash (bump .indexClash s)) := by
  unfold receiveFrame
  rw [h]
  exact (if_neg (not_not.2 hi)).trans (if_pos hstrap)

theorem dropReception_none (h : s.gather.reception = none) : dropReception s = s := by
  unfold dropReception
  rw [h]

theorem dropReception_some (h : s.gather.reception = some rec) : dropReception s =
    { s with gather := { s.gather with free := s.gather.free ++ rec.blocks, reception := none } } := by
  unfold dropReception
  rw [h]
  rfl

/-- A bump leaves the link as it was, so that the idle line is the bumped node's. -/
theorem quiet_bump (c : Counter) (s : State) :
    quiet (bump c s) = { bump c s with link := { s.link with medium := .idle } } := by
  rw [quiet, bump_link]

/-- A frame that is no share's and fails a check is counted, and nothing else. -/
theorem exec_linkFrameEnd_counted (hl : s.loader.state = .loaded) (hm : s.link.medium = .foreign)
    (hrec : s.gather.reception = none) (hh : shareHeaderOf b = none)
    (h : receiveFrame key b s = dropReception (bump c s)) :
    exec (.linkFrameEnd key b) s =
      .next { bump c s with link := { s.link with medium := .idle } } := by
  have hgather : gatherBytes b s = some s := by
    unfold gatherBytes
    rw [hrec, hh]
  rw [exec_linkFrameEnd_loaded hl hm hgather, h, dropReception_none (by rw [bump_gather]; exact hrec),
    quiet_bump]

/-- What a share that fails a check leaves: its blocks returned, and its count. -/
theorem dropReception_stored (u : State) (hc : u.count c = min (s.count c + 1) 65535)
    (hg : u.gather = (storeFrame rec b s).gather) (htable : u.table = s.table)
    (hrec : s.gather.reception = some rec) :
    (quiet (dropReception u)).count c = min (s.count c + 1) 65535 ∧
    (quiet (dropReception u)).port = u.port ∧
    (quiet (dropReception u)).gather.free = s.gather.free ++ rec.blocks ∧
    (quiet (dropReception u)).gather.reception = none ∧
    (quiet (dropReception u)).gather.roster = s.gather.roster ∧
    (quiet (dropReception u)).table = s.table := by
  have hu : u.gather.reception = some rec := hg ▸ hrec
  rw [dropReception_some hu]
  refine ⟨hc, rfl, ?_, rfl, ?_, htable⟩
  · show u.gather.free ++ _ = _
    rw [hg]
    rfl
  · show u.gather.roster = _
    rw [hg]
    rfl

/-- The counters, the causes and the blocks at the end of a share that fails one of the five checks. -/
theorem share_fails (hl : s.loader.state = .loaded) (hm : s.link.medium = .foreign)
    (hrec : s.gather.reception = some rec) (hh : shareHeaderOf b = some rec.header) {u : State}
    (hu : receiveFrame key b (storeFrame rec b s) = dropReception u)
    (hc : u.count c = min (s.count c + 1) 65535) (hg : u.gather = (storeFrame rec b s).gather)
    (htable : u.table = s.table) (hclash : c = .indexClash → u.port.causes.indexClash = true) :
    ∃ t, exec (.linkFrameEnd key b) s = .next t ∧ t.count c = min (s.count c + 1) 65535 ∧
      (c = .indexClash → t.port.causes.indexClash = true) ∧
      t.gather.free = s.gather.free ++ rec.blocks ∧ t.gather.reception = none ∧
      t.gather.roster = s.gather.roster ∧ t.table = s.table := by
  obtain ⟨hcount, hport, hrest⟩ := dropReception_stored u hc hg htable hrec
  rw [exec_linkFrameEnd_loaded hl hm (gatherBytes_handed hrec hh), hu]
  exact ⟨_, rfl, hcount, by rwa [hport], hrest⟩

/-- Settles O48, by the first check that fails. -/
theorem badLinkFramesAreCounted : Obligations.BadLinkFramesAreCounted := by
  unfold Obligations.BadLinkFramesAreCounted
  refine ⟨fun key b => ⟨parseLinkFrame_eq_none, fun f => parseLinkFrame_reads, fun hmin hmax hlen =>
      ⟨fun hcrc => ?_, fun hcrc => ⟨fun hbad => ?_, fun hgood => ?_⟩⟩, fun h => checkForm_badLength h⟩,
    fun s key b hm hrec hh hl => ⟨fun h => ?_, fun hmin hmax hlen => ⟨fun hcrc => ?_, fun hcrc =>
      ⟨fun hbad => ?_, fun hgood => ⟨fun hi => ?_, fun hi hstrap => ?_⟩⟩⟩⟩,
    fun s key b c hm hl hc => ?_, fun s key b rec c hl hm hrec hh hfail => ?_⟩
  · exact checkForm_badCrc (by omega) hcrc
  · exact checkForm_badKind (by omega) hcrc hbad
  · exact checkForm_good (by omega) hcrc hgood
  · exact exec_linkFrameEnd_counted hl hm hrec hh (receiveFrame_error (checkForm_badLength h) s)
  · exact exec_linkFrameEnd_counted hl hm hrec hh (receiveFrame_error (checkForm_badCrc (by omega) hcrc) s)
  · exact exec_linkFrameEnd_counted hl hm hrec hh
      (receiveFrame_error (checkForm_badKind (by omega) hcrc hbad) s)
  · obtain ⟨f, hf, -⟩ := checkForm_good (key := key) (by omega) hcrc hgood
    exact exec_linkFrameEnd_counted hl hm hrec hh (receiveFrame_stranger hf hi)
  · obtain ⟨f, hf, -⟩ := checkForm_good (key := key) (by omega) hcrc hgood
    have hgather : gatherBytes b s = some s := by
      unfold gatherBytes
      rw [hrec, hh]
    rw [exec_linkFrameEnd_loaded hl hm hgather, receiveFrame_clash hf hi hstrap,
      dropReception_none (by rw [raise_gather, bump_gather]; exact hrec)]
    exact ⟨_, rfl, count_bump_same _, rfl, congrArg (fun l : Link => { l with medium := .idle }) (bump_link _),
      bump_gather _, bump_table _⟩
  · rw [exec_linkFrameEnd_fault hl hm]
    have hcount : countFrame key b s = bump c s := by
      subst hc
      unfold countFrame
      by_cases hlen : b.length < 14 ∨ 3509 < b.length ∨ field b 2 2 ≠ b.length
      · rw [checkForm_badLength hlen, if_pos hlen]
      · by_cases hcrc : crc32 (b.take (b.length - 4)) = BitVec.ofNat 32 (field b (b.length - 4) 4)
        · rw [checkForm_parse hlen hcrc, if_neg hlen, if_neg (not_not.2 hcrc)]
          cases parseLinkFrame key b <;> rfl
        · rw [checkForm_badCrc hlen hcrc, if_neg hlen, if_pos hcrc]
    rw [hcount, quiet_bump]
  · rcases hfail with hf | ⟨f, hf, ⟨hi, rfl⟩ | ⟨hi, hstrap, rfl⟩⟩
    · exact share_fails hl hm hrec hh (receiveFrame_error hf _) (count_bump_same _) (bump_gather _)
        (bump_table _) fun hclash => absurd hclash (checkForm_error hf)
    · exact share_fails hl hm hrec hh (receiveFrame_stranger hf hi) (count_bump_same _) (bump_gather _)
        (bump_table _) nofun
    · exact share_fails hl hm hrec hh (receiveFrame_clash hf hi hstrap) (count_bump_same _)
        (bump_gather _) (bump_table _) fun _ => rfl

end Sys2Proof.Machine

/-! A transmission on the line (R107, R114, R117, R118): the levels that it is made of, what reads them, and
what a station drives of it. -/

namespace Sys2Proof.Machine

open Sys2Proof

variable {key : ClaimKey} {bytes : List Byte} {levels read own : List LineLevel}

/-! ## Pieces of one length in a row -/

/-- Where pieces of one length stand in a row, each begins at its number times the length. -/
theorem drop_flatMap {α β : Type} {g : α → List β} {w : Nat} (hw : ∀ x, (g x).length = w) (xs : List α)
    (n : Nat) : (xs.flatMap g).drop (w * n) = (xs.drop n).flatMap g := by
  induction n generalizing xs with
  | zero => rfl
  | succ n ih =>
    cases xs with
    | nil => simp
    | cons x xs =>
      rw [List.flatMap_cons, Nat.mul_succ, Nat.add_comm, ← List.drop_drop, List.drop_left' (hw x), ih]
      rfl

/-- Piece `n` of a row, and what follows it. -/
theorem drop_flatMap_get {α β : Type} {g : α → List β} {w n : Nat} {xs : List α} {x : α}
    (hw : ∀ x, (g x).length = w) (hx : xs[n]? = some x) :
    (xs.flatMap g).drop (w * n) = g x ++ (xs.drop (n + 1)).flatMap g := by
  obtain ⟨hn, rfl⟩ := List.getElem?_eq_some_iff.1 hx
  rw [drop_flatMap hw, List.drop_eq_getElem_cons hn, List.flatMap_cons]

/-! ## The form of a transmission (R107, R117) -/

theorem transmissionLevels_length (key : ClaimKey) (bytes : List Byte) :
    (transmissionLevels key bytes).length = 7 + 10 * bytes.length := by
  rw [transmissionLevels, List.length_append, claimLevels_length, characters_length]

theorem transmissionLevels_claim {i : Nat} (h : i < 7) :
    (transmissionLevels key bytes)[i]? = (claimLevels key)[i]? :=
  List.getElem?_append_left (by simpa using h)

/-- Character `n` of a transmission stands at its ten bits. -/
theorem transmissionLevels_character {n r : Nat} {x : Byte} (hx : bytes[n]? = some x) (hr : r < 10) :
    (transmissionLevels key bytes)[7 + (10 * n + r)]? = (characterLevels x)[r]? := by
  rw [transmissionLevels, List.getElem?_append_right (by simp), claimLevels_length,
    Nat.add_sub_cancel_left, ← List.getElem?_drop,
    drop_flatMap_get (w := 10) characterLevels_length hx, List.getElem?_append_left (by simpa using hr)]

/-- The start bits keep the line from more than nine recessive bits in a row. -/
theorem transmissionLevels_dominant {i : Nat} (h : i + 10 ≤ 7 + 10 * bytes.length) :
    ∃ j < 10, (transmissionLevels key bytes)[i + j]? = some .dominant := by
  have hn : (i + 2) / 10 < bytes.length := by omega
  refine ⟨7 + 10 * ((i + 2) / 10) - i, by omega, ?_⟩
  rw [show i + (7 + 10 * ((i + 2) / 10) - i) = 7 + (10 * ((i + 2) / 10) + 0) by omega,
    transmissionLevels_character (List.getElem?_eq_getElem hn) (by omega)]
  rfl

theorem claimLevels_key {i : Nat} (h : i < 6) : (claimLevels key)[1 + i]? =
    some (if key.getLsbD (5 - i) then .recessive else .dominant) := by
  interval_cases i <;> rfl

theorem characterLevels_bit (x : Byte) {i : Nat} (h : i < 8) : (characterLevels x)[1 + i]? =
    some (if x.getLsbD (7 - i) then .recessive else .dominant) := by
  interval_cases i <;> rfl

/-! ## What a transmission is read as (R107, R121) -/

theorem readCharacters_append (x : Byte) (rest : List LineLevel) :
    readCharacters (characterLevels x ++ rest) = (readCharacters rest).map (x :: ·) := by
  have hread : readCharacters (characterLevels x ++ rest) =
      (readCharacters rest).map (BitVec.ofNat 8 (levelsNat (byteLevels x)) :: ·) := rfl
  rw [hread, levelsNat_byteLevels, BitVec.ofNat_toNat, BitVec.setWidth_eq]

theorem readCharacters_characters (bytes : List Byte) :
    readCharacters (bytes.flatMap characterLevels) = some bytes := by
  induction bytes with
  | nil => rfl
  | cons x bytes ih => rw [List.flatMap_cons, readCharacters_append, ih]; rfl

theorem readTransmission_append (key : ClaimKey) (rest : List LineLevel) :
    readTransmission (claimLevels key ++ rest) = (readCharacters rest).map fun bytes => (key, bytes) := by
  have hread : readTransmission (claimLevels key ++ rest) =
      (readCharacters rest).map fun bytes => (BitVec.ofNat 6 (levelsNat (keyLevels key)), bytes) := rfl
  rw [hread, levelsNat_keyLevels, BitVec.ofNat_toNat, BitVec.setWidth_eq]

theorem readTransmission_transmission (key : ClaimKey) (bytes : List Byte) :
    readTransmission (transmissionLevels key bytes) = some (key, bytes) := by
  rw [transmissionLevels, readTransmission_append, readCharacters_characters]
  rfl

/-- Eight levels are those of the byte that they carry. -/
theorem byteLevels_levelsNat {l : List LineLevel} (h : l.length = 8) :
    byteLevels (BitVec.ofNat 8 (levelsNat l)) = l := by
  refine levelsNat_inj ?_ (by rw [byteLevels_length, h])
  rw [levelsNat_byteLevels]
  exact Nat.mod_eq_of_lt (h ▸ levelsNat_lt l)

/-- Six levels are those of the key that they carry. -/
theorem keyLevels_levelsNat {l : List LineLevel} (h : l.length = 6) :
    keyLevels (BitVec.ofNat 6 (levelsNat l)) = l := by
  refine levelsNat_inj ?_ (by rw [keyLevels_length, h])
  rw [levelsNat_keyLevels]
  exact Nat.mod_eq_of_lt (h ▸ levelsNat_lt l)

/-- Only a row of characters is read as the bytes that they carry. -/
theorem eq_of_readCharacters (h : readCharacters levels = some bytes) :
    levels = bytes.flatMap characterLevels := by
  induction levels using readCharacters.induct generalizing bytes with
  | case1 =>
    cases h
    rfl
  | case2 start b7 b6 b5 b4 b3 b2 b1 b0 stop rest ends ih =>
    rw [readCharacters, if_pos ends] at h
    obtain ⟨bs, hbs, rfl⟩ := Option.map_eq_some_iff.1 h
    obtain ⟨rfl, rfl⟩ := ends
    rw [List.flatMap_cons, characterLevels, byteLevels_levelsNat rfl, ← ih hbs]
    rfl
  | case3 start b7 b6 b5 b4 b3 b2 b1 b0 stop rest ends =>
    rw [readCharacters, if_neg ends] at h
    cases h
  | case4 l hnil hcons =>
    rw [readCharacters] at h
    · cases h
    · exact hnil
    · exact hcons

/-- Only its own levels are read as a transmission. -/
theorem eq_of_readTransmission (h : readTransmission levels = some (key, bytes)) :
    levels = transmissionLevels key bytes := by
  unfold readTransmission at h
  split at h
  · next start k5 k4 k3 k2 k1 k0 rest =>
    split_ifs at h with hstart
    obtain ⟨bs, hbs, he⟩ := Option.map_eq_some_iff.1 h
    cases he
    rw [transmissionLevels, claimLevels, keyLevels_levelsNat rfl, ← eq_of_readCharacters hbs, hstart]
    rfl
  · cases h

/-! ## What a station drives (R107, R114, R118) -/

/-- While its frame is in the claim a station drives the claim, and past it the whole transmission. -/
theorem drives_eq {s : State} {f : OutFrame} {phase : TxPhase}
    (hown : own = transmissionLevels (f.key s.loader.strap)
      (match phase with
        | .claiming => []
        | .transmitting => f.bytes s.loader.strap))
    (h : s.link.tx = some ⟨f, phase⟩) : s.drives read = drivenAfter own read := by
  subst hown
  cases phase with
  | claiming => simp only [State.drives, h]; rfl
  | transmitting => simp only [State.drives, h]

theorem drivenAfter_same (h : ∀ k, k < read.length → k < own.length → read[k]? = own[k]?) :
    drivenAfter own read = own.getD read.length .recessive :=
  drivenAfter_none (firstDifference_eq_none.2 fun k ho hr => (h k hr ho).symm)

/-- The first difference is the bit that reads differently after bits that read the same. -/
theorem firstDifference_of_mismatch {m : Nat} (hr : m < read.length) (ho : m < own.length)
    (hne : read[m]? ≠ own[m]?) (hpre : ∀ k < m, read[k]? = own[k]?) :
    firstDifference own read = some m := by
  rw [List.getElem?_eq_getElem hr, List.getElem?_eq_getElem ho] at hne
  exact firstDifference_eq_some (fun k hk => (hpre k hk).symm) (List.getElem?_eq_getElem ho)
    (List.getElem?_eq_getElem hr) fun he => hne (congrArg some he.symm)

theorem stopsAt_character (c : Nat) {i : Nat} (h : i < 10) :
    stopsAt (7 + 10 * c + i) = 7 + 10 * (c + 1) := by
  unfold stopsAt
  rw [if_neg (by omega)]
  omega

theorem lineLevel_recessive (drivers : List LineLevel) :
    lineLevel drivers = .recessive ↔ ∀ l ∈ drivers, l = .recessive := by
  have hdominant := lineLevel_dominant drivers
  constructor
  · intro h l hl
    cases l with
    | recessive => rfl
    | dominant =>
      rw [hdominant.2 hl] at h
      cases h
  · intro h
    cases hline : lineLevel drivers with
    | recessive => rfl
    | dominant => exact absurd (h _ (hdominant.1 hline)) nofun

end Sys2Proof.Machine

/-! Every link frame a station can send is read back as it is (R112, R122 to R124, R213, R216): its fields
from their bytes, its cells and marks one after another, and its claim key. -/

namespace Sys2Proof.Machine

open Sys2Proof

variable {sender : Station} {key : ClaimKey} {b pre rest : List Byte} {off w n : Nat}

/-! ## A field in a row of fields -/

theorem beBytes_one (n : Nat) : beBytes 1 n = [BitVec.ofNat 8 n] := by simp [beBytes]

/-- A byte is a field of one byte. -/
theorem beBytes_toNat (x : Byte) : beBytes 1 x.toNat = [x] := by simp [beBytes_one]

/-- A field after other bytes. -/
theorem field_skip (h : pre.length ≤ off) : field (pre ++ rest) off w = field rest (off - pre.length) w := by
  unfold field
  rw [List.drop_append, List.drop_eq_nil_of_le h, List.nil_append]

/-- The field that bytes begin with. -/
theorem field_first (h : n < 256 ^ w) : field (beBytes w n ++ rest) 0 w = n := by
  simpa using field_append [] rest w n h

theorem field_skip_beBytes {v m : Nat} (h : v ≤ off) :
    field (beBytes v m ++ rest) off w = field rest (off - v) w := by
  rw [field_skip (by simpa using h), beBytes_length]

/-- The byte at an offset is the one-byte field there. -/
theorem getD_eq_ofNat (b : List Byte) (o : Nat) : b.getD o 0 = BitVec.ofNat 8 (field b o 1) := by
  rw [← getD_toNat, BitVec.ofNat_toNat, BitVec.setWidth_eq]

theorem word_lt (x : BitVec 32) : x.toNat < 256 ^ 4 := x.isLt

theorem byte_lt (x : Byte) : x.toNat < 256 ^ 1 := x.isLt

theorem noticeCode_lt (k : NoticeKind) : noticeCode k < 256 ^ 1 := by cases k <;> decide

theorem clockCode_lt (k : ClockState) : clockCode k < 5 := by cases k <;> decide

theorem qualityCode_lt (q : Quality) : qualityCode q < 256 ^ 1 := by cases q <;> decide

theorem directionCode_lt (d : Direction) : directionCode d < 256 ^ 1 := by cases d <;> decide

theorem tag_lt {t : Tag} (h : t.wellFormed = true) : t.sec < 256 ^ 4 ∧ t.k < 256 ^ 1 := by
  simp only [Tag.wellFormed, Config.lastSecond, Bool.and_eq_true, decide_eq_true_eq] at h
  omega

/-- Bit `i` of a bit set is its flag `i`. -/
theorem testBit_bitsNat (flags : List Bool) (i : Nat) : (bitsNat flags).testBit i = flags.getD i false := by
  induction flags generalizing i with
  | nil => simp [bitsNat]
  | cons f flags ih =>
    cases i with
    | zero =>
      rw [Nat.testBit_zero]
      cases f
      · simp [bitsNat]
      · simp [bitsNat, Nat.add_mod]
    | succ i =>
      have hhalf : ((if f = true then 1 else 0) + 2 * bitsNat flags) / 2 = bitsNat flags := by
        split <;> omega
      rw [Nat.testBit_succ, bitsNat, hhalf, ih]
      rfl

theorem bitsNat_lt (flags : List Bool) : bitsNat flags < 2 ^ flags.length := by
  induction flags with
  | nil => exact Nat.one_pos
  | cons f flags ih =>
    rw [bitsNat, List.length_cons, Nat.pow_succ]
    split <;> omega

/-- The two's complement value of a number of 16 bits gives the number back (R212). -/
theorem signed16_unsigned16 {v : Int} (hl : -32768 ≤ v) (hh : v ≤ 32767) :
    signed16 (unsigned16 v) = v := by
  unfold signed16 unsigned16
  rw [BitVec.ofNat_toNat, BitVec.setWidth_eq, BitVec.toInt_ofInt, Int.bmod_eq_of_le (by omega) (by omega)]

theorem unsigned16_lt (v : Int) : unsigned16 v < 256 ^ 2 := (BitVec.ofInt 16 v).isLt

/-! ## Cells (R212, R216) -/

@[simp] theorem phasorBytes_length (p : Phasor) : (phasorBytes p).length = 5 := by simp [phasorBytes]

theorem phasors_length (ps : List Phasor) : (ps.flatMap phasorBytes).length = 5 * ps.length := by
  induction ps with
  | nil => rfl
  | cons p ps ih =>
    rw [List.flatMap_cons, List.length_append, ih, phasorBytes_length, List.length_cons]
    omega

theorem cellBytes_length (c : Cell) : (cellBytes c).length = c.size := by
  unfold cellBytes Cell.size
  cases c.values with
  | none => simp
  | some v => simp only [List.length_append, beBytes_length, phasors_length]; omega

/-- Phasors are read back from where they stand. -/
theorem phasorsAt_phasors {ps : List Phasor} (h : ∀ p ∈ ps, Phasor.fits p = true) (pre rest : List Byte) :
    phasorsAt (pre ++ (ps.flatMap phasorBytes ++ rest)) pre.length ps.length = ps := by
  induction ps generalizing pre with
  | nil => rfl
  | cons p ps ih =>
    obtain ⟨hmag, hang⟩ : p.mag < 16777216 ∧ p.ang < 65536 := by simpa [Phasor.fits] using h p (by simp)
    have hnext := ih (fun q hq => h q (by simp [hq])) (pre ++ phasorBytes p)
    rw [List.length_append, phasorBytes_length] at hnext
    rw [List.flatMap_cons, List.length_cons, phasorsAt, List.append_assoc, field_skip le_rfl,
      field_skip (Nat.le_add_right _ _), Nat.sub_self, Nat.add_sub_cancel_left, ← List.append_assoc pre,
      hnext]
    simp only [phasorBytes, List.append_assoc]
    rw [field_first hmag, field_skip_beBytes le_rfl, Nat.sub_self, field_first hang]

/-- A cell without values is read from six bytes. -/
theorem parseCell_absent (hlen : 6 ≤ b.length) (hq : field b 2 1 = 3) (hn : field b 5 1 = 0) :
    parseCell b = some (⟨field b 0 2, .absent, (field b 3 1).testBit 0, (field b 3 1).testBit 1,
      (field b 3 1).testBit 2, (field b 3 1).testBit 3, field b 4 1, none⟩, b.drop 6) := by
  unfold parseCell
  simp only [if_neg (Nat.not_lt.2 hlen), getLsbD_field, hq, hn]
  rfl

/-- A cell with values is read from the bytes that its phasor count gives. -/
theorem parseCell_values {q : Quality} {n : Nat} (hn : field b 5 1 = n) (hmin : 1 ≤ n) (hmax : n ≤ 12)
    (hlen : 12 + 5 * n ≤ b.length) (hq : qualityCode q = field b 2 1) (hne : q ≠ .absent) :
    parseCell b = some (⟨field b 0 2, q, (field b 3 1).testBit 0, (field b 3 1).testBit 1,
      (field b 3 1).testBit 2, (field b 3 1).testBit 3, field b 4 1, some ⟨phasorsAt b 6 n,
        signed16 (field b (6 + 5 * n) 2), signed16 (field b (8 + 5 * n) 2),
        BitVec.ofNat 16 (field b (10 + 5 * n) 2)⟩⟩, b.drop (12 + 5 * n)) := by
  subst hn
  have hshort : ¬b.length < 6 := by omega
  have hcount : ¬(field b 5 1 = 0 ∨ 12 < field b 5 1 ∨ b.length < 12 + 5 * field b 5 1) := by omega
  unfold parseCell
  simp only [if_neg hshort, getLsbD_field, qualityOf_some.2 hq]
  cases q with
  | absent => exact absurd rfl hne
  | exact => exact if_neg hcount
  | interpolated => exact if_neg hcount
  | held => exact if_neg hcount

/-- The bytes of a cell before its phasor count. -/
def cellHead (c : Cell) : List Byte :=
  beBytes 2 c.code ++ beBytes 1 (qualityCode c.quality) ++ beBytes 1 c.flags ++ beBytes 1 c.primary

/-- The bytes of a cell after its phasors. -/
def cellTail (v : CellValues) : List Byte :=
  beBytes 2 (unsigned16 v.freq) ++ beBytes 2 (unsigned16 v.rocof) ++ beBytes 2 v.digital.toNat

theorem cellBytes_none {c : Cell} (h : c.values = none) : cellBytes c = cellHead c ++ [0] := by
  unfold cellBytes
  rw [h]
  rfl

theorem cellBytes_some {c : Cell} {v : CellValues} (h : c.values = some v) : cellBytes c =
    cellHead c ++ (beBytes 1 v.phasors.length ++ (v.phasors.flatMap phasorBytes ++ cellTail v)) := by
  unfold cellBytes
  rw [h]
  simp only [cellHead, cellTail, List.append_assoc]

@[simp] theorem cellHead_length (c : Cell) : (cellHead c).length = 5 := by simp [cellHead]

/-- The head of a cell, field by field. -/
theorem field_cellHead {c : Cell} (hcode : c.code < 65536) (hprimary : c.primary < 16)
    (rest : List Byte) :
    field (cellHead c ++ rest) 0 2 = c.code ∧ field (cellHead c ++ rest) 2 1 = qualityCode c.quality ∧
    field (cellHead c ++ rest) 3 1 = c.flags ∧ field (cellHead c ++ rest) 4 1 = c.primary := by
  have hquality := qualityCode_lt c.quality
  have hflags : c.flags < 256 ^ 1 := (bitsNat_lt _).trans (by simp)
  have hcode' : c.code < 256 ^ 2 := hcode
  have hprimary' : c.primary < 256 ^ 1 := hprimary.trans (by decide)
  simp only [cellHead, List.append_assoc]
  refine ⟨field_first hcode', ?_, ?_, ?_⟩
  · rw [field_skip_beBytes (by omega), field_first hquality]
  · rw [field_skip_beBytes (by omega), field_skip_beBytes (by omega), field_first hflags]
  · rw [field_skip_beBytes (by omega), field_skip_beBytes (by omega), field_skip_beBytes (by omega),
      field_first hprimary']

/-- The tail of a cell, field by field. -/
theorem field_cellTail (v : CellValues) (rest : List Byte) :
    field (cellTail v ++ rest) 0 2 = unsigned16 v.freq ∧
    field (cellTail v ++ rest) 2 2 = unsigned16 v.rocof ∧
    field (cellTail v ++ rest) 4 2 = v.digital.toNat := by
  simp only [cellTail, List.append_assoc]
  refine ⟨field_first (unsigned16_lt _), ?_, ?_⟩
  · rw [field_skip_beBytes (by omega), field_first (unsigned16_lt _)]
  · rw [field_skip_beBytes (by omega), field_skip_beBytes (by omega), field_first v.digital.isLt]

theorem cellFits_iff {c : Cell} : Cell.fits c = true ↔ c.code < 65536 ∧ c.primary < 16 ∧
    (c.values = none → c.quality = .absent) ∧
    ∀ v, c.values = some v → c.quality ≠ .absent ∧ 1 ≤ v.phasors.length ∧ v.phasors.length ≤ 12 ∧
      (∀ p ∈ v.phasors, Phasor.fits p = true) ∧ -32768 ≤ v.freq ∧ v.freq ≤ 32767 ∧ -32768 ≤ v.rocof ∧
      v.rocof ≤ 32767 := by
  unfold Cell.fits
  cases c.values with
  | none => simp [and_assoc]
  | some v => simp [CellValues.fits, and_assoc]

/-- The flag byte of a cell holds its four flags. -/
theorem cell_of_flags {c : Cell} {q : Quality} {vs : Option CellValues} (hq : c.quality = q)
    (hv : c.values = vs) : (⟨c.code, q, c.flags.testBit 0, c.flags.testBit 1, c.flags.testBit 2,
      c.flags.testBit 3, c.primary, vs⟩ : Cell) = c := by
  subst hq hv
  simp only [Cell.flags, testBit_bitsNat]
  rfl

/-- What stands behind the head of a cell with values: its count, its phasors and its tail. -/
theorem cellBytes_body {c : Cell} {v : CellValues} (hv : c.values = some v) (hmax : v.phasors.length ≤ 12)
    (hps : ∀ p ∈ v.phasors, Phasor.fits p = true) (rest : List Byte) :
    field (cellBytes c ++ rest) 5 1 = v.phasors.length ∧
    phasorsAt (cellBytes c ++ rest) 6 v.phasors.length = v.phasors ∧
    ∀ o, field (cellBytes c ++ rest) (6 + 5 * v.phasors.length + o) 2 =
      field (cellTail v ++ rest) o 2 := by
  rw [cellBytes_some hv]
  simp only [List.append_assoc]
  refine ⟨?_, ?_, fun o => ?_⟩
  · rw [field_skip (by simp), cellHead_length, Nat.sub_self, field_first (by omega)]
  · have hread := phasorsAt_phasors hps (cellHead c ++ beBytes 1 v.phasors.length) (cellTail v ++ rest)
    rwa [List.append_assoc, List.length_append, cellHead_length, beBytes_length] at hread
  · rw [field_skip (by simp; omega), field_skip_beBytes (by simp; omega),
      field_skip (by rw [phasors_length]; simp; omega), phasors_length, cellHead_length]
    congr 1
    omega

/-- A cell within its ranges is read back, with what follows it (R216). -/
theorem parseCell_cellBytes {c : Cell} (h : Cell.fits c = true) (rest : List Byte) :
    parseCell (cellBytes c ++ rest) = some (c, rest) := by
  obtain ⟨hcode, hprimary, hnone, hsome⟩ := cellFits_iff.1 h
  have hsize := cellBytes_length c
  unfold Cell.size at hsize
  cases hv : c.values with
  | none =>
    obtain ⟨hc, hq, hf, hp⟩ := field_cellHead hcode hprimary ([0] ++ rest)
    have hn : field (cellHead c ++ ([0] ++ rest)) 5 1 = 0 := field_skip (by simp)
    have hdrop : (cellHead c ++ ([0] ++ rest)).drop 6 = rest := by
      rw [← List.append_assoc]
      exact List.drop_left' (by simp)
    rw [hnone hv] at hq
    rw [cellBytes_none hv, List.append_assoc, parseCell_absent (by simp; omega) hq hn, hc, hf, hp,
      cell_of_flags (hnone hv) hv, hdrop]
  | some v =>
    obtain ⟨hne, hmin, hmax, hps, hfl, hfh, hrl, hrh⟩ := hsome v hv
    obtain ⟨hn, hread, htail⟩ := cellBytes_body hv hmax hps rest
    obtain ⟨hfreq, hrocof, hdigital⟩ := field_cellTail v rest
    simp only [hv] at hsize
    have hhead : ∃ more, cellBytes c ++ rest = cellHead c ++ more :=
      ⟨_, by rw [cellBytes_some hv, List.append_assoc]⟩
    obtain ⟨more, hmore⟩ := hhead
    obtain ⟨hc, hq, hf, hp⟩ := field_cellHead hcode hprimary more
    rw [← hmore] at hc hq hf hp
    have h6 := htail 0
    have h8 := htail 2
    have h10 := htail 4
    rw [Nat.add_zero] at h6
    rw [show 6 + 5 * v.phasors.length + 2 = 8 + 5 * v.phasors.length by omega] at h8
    rw [show 6 + 5 * v.phasors.length + 4 = 10 + 5 * v.phasors.length by omega] at h10
    rw [parseCell_values hn hmin hmax (by rw [List.length_append]; omega) hq.symm hne, hc, hf, hp, hread,
      h6, h8, h10, hfreq, hrocof, hdigital, signed16_unsigned16 hfl hfh, signed16_unsigned16 hrl hrh,
      BitVec.ofNat_toNat, BitVec.setWidth_eq, cell_of_flags rfl hv, List.drop_left' hsize]

/-- Cells within their ranges are read back one after another. -/
theorem parseCells_cells {cs : List Cell} (h : ∀ c ∈ cs, Cell.fits c = true) (rest : List Byte) :
    parseCells cs.length (cs.flatMap cellBytes ++ rest) = some (cs, rest) := by
  induction cs with
  | nil => rfl
  | cons c cs ih =>
    have hrest := ih fun d hd => h d (by simp [hd])
    rw [List.flatMap_cons, List.append_assoc, List.length_cons, parseCells]
    simp only [parseCell_cellBytes (h c (by simp)), hrest]

/-! ## Marks (R216) -/

@[simp] theorem markBytes_length (m : Mark) : (markBytes m).length = 4 := by simp [markBytes]

/-- Marks within their ranges are read back one after another. -/
theorem parseMarks_marks {ms : List Mark} (h : ∀ m ∈ ms, Mark.fits m = true) (rest : List Byte) :
    parseMarks ms.length (ms.flatMap markBytes ++ rest) = some (ms, rest) := by
  induction ms with
  | nil => rfl
  | cons m ms ih =>
    obtain ⟨hmonitor, hcode⟩ : m.monitor < 8 ∧ m.code < 65536 := by simpa [Mark.fits] using h m (by simp)
    have hmonitor' : m.monitor < 256 ^ 1 := hmonitor.trans (by decide)
    have hcode' : m.code < 256 ^ 2 := hcode
    have hdirection := directionCode_lt m.direction
    have hdrop : (markBytes m ++ (ms.flatMap markBytes ++ rest)).drop 4 = ms.flatMap markBytes ++ rest :=
      List.drop_left' (markBytes_length m)
    rw [List.flatMap_cons, List.append_assoc, List.length_cons, parseMarks, if_neg (by simp), hdrop,
      ih fun d hd => h d (by simp [hd])]
    simp [markBytes, field_skip_beBytes, field_first hmonitor', field_first hcode',
      field_first hdirection, directionOf_some.2 rfl]

end Sys2Proof.Machine

/-! Every link frame a station can send passes checks 1 to 3 as what it is (R112, R122 to R124, R213, R216),
and its fields stand at their offsets (R213, R216). -/

namespace Sys2Proof.Machine

open Sys2Proof

variable {sender : Station} {key : ClaimKey} {b pre rest : List Byte} {kind length : Nat}

/-! ## The common header and the check value (R213, R216) -/

/-- A frame of a kind, its body after the common header. -/
def sentFrame (kind : Nat) (sender : Station) (length : Nat) (rest : List Byte) : List Byte :=
  closeCrc32 (commonHeader kind sender length ++ rest)

theorem noticeBytes_eq (sender : Station) (n : Notice) : noticeBytes sender n =
    sentFrame 0 sender 14 (beBytes 1 (noticeCode n.kind) ++ tagBytes n.tag) := by
  simp only [noticeBytes, sentFrame, List.append_assoc]
  rfl

/-- The byte of a beacon that holds its clock state and, in bit 7, whether its second is known. -/
def beaconClockByte (f : BeaconFrame) : Nat := clockCode f.clock + if f.second.known then 128 else 0

theorem beaconBytes_eq (sender : Station) (f : BeaconFrame) : beaconBytes sender f =
    sentFrame 2 sender 26 (beBytes 1 (beaconClockByte f) ++
      (beBytes 1 f.slotRate.toNat ++ (beBytes 4 f.digest.toNat ++ (beBytes 4 f.wait.toNat ++
        (beBytes 4 f.grace.toNat ++ beBytes 4 f.second.second))))) := by
  simp only [beaconBytes, sentFrame, beBytes_toNat, List.append_assoc]
  rfl

theorem shareBytes_eq (sender : Station) (f : ShareFrame) : shareBytes sender f =
    sentFrame 1 sender f.size (tagBytes f.tag ++ (beBytes 1 f.slotRate.toNat ++
      (beBytes 4 f.digest.toNat ++ (beBytes 1 (clockCode f.clock) ++ (beBytes 1 f.cells.length ++
        (beBytes 1 f.marks.length ++ (f.cells.flatMap cellBytes ++ f.marks.flatMap markBytes))))))) := by
  simp only [shareBytes, sentFrame, beBytes_toNat, List.append_assoc]
  rfl

@[simp] theorem commonHeader_length (kind : Nat) (sender : Station) (length : Nat) :
    (commonHeader kind sender length).length = 4 := by simp [commonHeader]

theorem closeCrc32_length (body : List Byte) : (closeCrc32 body).length = body.length + 4 := by
  simp [closeCrc32]

theorem sentFrame_length (kind : Nat) (sender : Station) (length : Nat) (rest : List Byte) :
    (sentFrame kind sender length rest).length = 8 + rest.length := by
  rw [sentFrame, closeCrc32_length, List.length_append, commonHeader_length]
  omega

/-- Behind the common header stand the rest of the body and the check value. -/
theorem field_sent {off w : Nat} (h : 4 ≤ off) : field (sentFrame kind sender length rest) off w =
    field (rest ++ beBytes 4 (crc32 (commonHeader kind sender length ++ rest)).toNat) (off - 4) w := by
  rw [sentFrame, closeCrc32, List.append_assoc, field_skip (by simpa using h), commonHeader_length]

/-- The fields of the common header. -/
theorem field_header (hkind : kind < 3) (hlen : length < 65536) :
    field (sentFrame kind sender length rest) 0 1 = 16 + kind ∧
    field (sentFrame kind sender length rest) 1 1 = sender.val ∧
    field (sentFrame kind sender length rest) 2 2 = length := by
  have hs := sender.isLt
  have hsender : sender.val < 256 ^ 1 := by omega
  have hk : 16 + kind < 256 ^ 1 := by omega
  have hl : length < 256 ^ 2 := hlen
  simp [sentFrame, closeCrc32, commonHeader, field_skip_beBytes, field_first hsender, field_first hk,
    field_first hl]

theorem frameClass_lt : ∀ f : OutFrame, f.frameClass < 3
  | .notice _ => show kindNotice < 3 by decide
  | .share _ => show kindShare < 3 by decide
  | .beacon _ => show kindBeacon < 3 by decide

theorem key_toNat (sender : Station) (f : OutFrame) :
    (f.key sender).toNat = 16 * f.frameClass + sender.val := by
  have hs := sender.isLt
  have hclass := frameClass_lt f
  exact Nat.mod_eq_of_lt (by omega)

theorem keyStation_key (sender : Station) (f : OutFrame) : keyStation (f.key sender) = sender := by
  have hs := sender.isLt
  apply Fin.ext
  show (f.key sender).toNat % 16 = sender.val
  rw [key_toNat]
  omega

/-- The claim key of a sent frame agrees with its common header (R124). -/
theorem headerAgrees_sent {f : OutFrame} (hlen : length < 65536)
    (hb : f.bytes sender = sentFrame f.frameClass sender length rest) :
    HeaderAgrees (f.key sender) (f.bytes sender) := by
  have hs := sender.isLt
  have hclass := frameClass_lt f
  obtain ⟨hkind, hsender, -⟩ := field_header (sender := sender) (rest := rest) hclass hlen
  rw [hb]
  refine ⟨?_, ?_, ?_⟩
  · rw [hkind]; omega
  · rw [hkind, key_toNat]; omega
  · rw [hsender, key_toNat]; omega

/-- What check 3 reads a frame of the kind of `f` as. -/
def readAs (b : List Byte) : OutFrame → Option LinkFrame
  | .notice _ => (parseNotice b).map .notice
  | .share _ => (parseShare b).map .share
  | .beacon _ => (parseBeacon b).map .beacon

theorem parseLinkFrame_sent {f : OutFrame} (hlen : length < 65536)
    (hb : f.bytes sender = sentFrame f.frameClass sender length rest) :
    parseLinkFrame (f.key sender) (f.bytes sender) = readAs (f.bytes sender) f := by
  obtain ⟨hkind, -, -⟩ := field_header (sender := sender) (rest := rest) (frameClass_lt f) hlen
  rw [parseLinkFrame_agrees (headerAgrees_sent hlen hb)]
  rw [← hb] at hkind
  have hmod : field (f.bytes sender) 0 1 % 16 = f.frameClass := by
    have hclass := frameClass_lt f
    omega
  rw [hmod]
  cases f with
  | notice n => rfl
  | share x => rfl
  | beacon x => rfl

/-- A sent frame of a good length passes checks 1 to 3 as what check 3 reads it as. -/
theorem checkForm_sent (f : OutFrame) {g : LinkFrame} (hlen : 8 + rest.length = length)
    (hmin : 14 ≤ length) (hmax : length ≤ 3509)
    (hb : f.bytes sender = sentFrame f.frameClass sender length rest)
    (hread : readAs (f.bytes sender) f = some g) :
    checkForm (f.key sender) (f.bytes sender) = .ok g := by
  obtain ⟨-, -, hlength⟩ := field_header (sender := sender) (rest := rest) (frameClass_lt f)
    (show length < 65536 by omega)
  have hgood : ¬((f.bytes sender).length < 14 ∨ 3509 < (f.bytes sender).length ∨
      field (f.bytes sender) 2 2 ≠ (f.bytes sender).length) := by
    rw [hb, hlength, sentFrame_length]
    omega
  have hcrc : crc32 ((f.bytes sender).take ((f.bytes sender).length - 4)) =
      BitVec.ofNat 32 (field (f.bytes sender) ((f.bytes sender).length - 4) 4) := by
    rw [hb]
    exact closeCrc32_good _
  rw [checkForm_parse hgood hcrc, parseLinkFrame_sent (by omega) hb, hread]

/-! ## The kinds read back (R124, R216) -/

/-- A notice is read back. -/
theorem parseNotice_sent {n : Notice} (h : n.tag.wellFormed = true) :
    parseNotice (noticeBytes sender n) = some n := by
  obtain ⟨hsec, hk⟩ := tag_lt h
  have hkind : field (noticeBytes sender n) 4 1 = noticeCode n.kind := by
    simp [noticeBytes_eq, field_sent, field_first (noticeCode_lt n.kind)]
  have htag : tagAt (noticeBytes sender n) 5 = n.tag := by
    simp [tagAt, tagBytes, noticeBytes_eq, field_sent, field_skip_beBytes, field_first hsec, field_first hk]
  have hlen : (noticeBytes sender n).length = 14 := by
    simp [noticeBytes_eq, sentFrame_length, tagBytes]
  unfold parseNotice
  simp only [hlen, hkind, htag, noticeOf_eq_some.2 rfl]
  rfl

theorem beaconClockByte_bits (f : BeaconFrame) : beaconClockByte f < 256 ∧
    beaconClockByte f % 128 = clockCode f.clock ∧ beaconClockByte f % 8 = clockCode f.clock ∧
    (beaconClockByte f).testBit 7 = f.second.known := by
  have hcode := clockCode_lt f.clock
  unfold beaconClockByte
  rw [Nat.testBit_eq_decide_div_mod_eq]
  cases f.second.known
  · simp; omega
  · simp; omega

theorem field_beaconClock (sender : Station) (f : BeaconFrame) :
    field (beaconBytes sender f) 4 1 = beaconClockByte f := by
  simp [beaconBytes_eq, field_sent, field_first (w := 1) (beaconClockByte_bits f).1]

/-- A beacon is read back. -/
theorem parseBeacon_sent {f : BeaconFrame} (h : f.second.second ≤ 4294967295) :
    parseBeacon (beaconBytes sender f) = some f := by
  have hsecond : f.second.second < 256 ^ 4 := by omega
  obtain ⟨hclock, -, hlow, hknown⟩ := beaconClockByte_bits f
  have hlen : (beaconBytes sender f).length = 26 := by simp [beaconBytes_eq, sentFrame_length]
  have hfields : field (beaconBytes sender f) 5 1 = f.slotRate.toNat ∧
      field (beaconBytes sender f) 6 4 = f.digest.toNat ∧ field (beaconBytes sender f) 10 4 = f.wait.toNat ∧
      field (beaconBytes sender f) 14 4 = f.grace.toNat ∧
      field (beaconBytes sender f) 18 4 = f.second.second := by
    simp [beaconBytes_eq, field_sent, field_skip_beBytes, field_first (byte_lt f.slotRate),
      field_first (word_lt f.digest), field_first (word_lt f.wait), field_first (word_lt f.grace),
      field_first hsecond]
  obtain ⟨hrate, hdigest, hwait, hgrace, hsec⟩ := hfields
  unfold parseBeacon
  simp only [beaconClock_eq, getLsbD_field, getD_eq_ofNat _ 5, hlen, field_beaconClock, hlow, hknown, hrate, hdigest,
    hwait, hgrace, hsec, clockOf_eq_some.2 rfl, BitVec.ofNat_toNat, BitVec.setWidth_eq]
  rfl

/-! ## Shares (R124, R216) -/

theorem closeCrc32_take (body : List Byte) :
    (closeCrc32 body).take ((closeCrc32 body).length - 4) = body := by
  rw [closeCrc32_length, Nat.add_sub_cancel, closeCrc32, List.take_left]

/-- Behind the 17 bytes of its header a share holds its cells and its marks. -/
theorem share_body (sender : Station) (f : ShareFrame) :
    ((shareBytes sender f).take ((shareBytes sender f).length - 4)).drop 17 =
      f.cells.flatMap cellBytes ++ f.marks.flatMap markBytes := by
  rw [shareBytes, closeCrc32_take, List.append_assoc, List.drop_left' (by simp [tagBytes])]

theorem cells_length (cs : List Cell) : (cs.flatMap cellBytes).length = (cs.map Cell.size).sum := by
  rw [List.length_flatMap, funext cellBytes_length]

theorem marks_length (ms : List Mark) : (ms.flatMap markBytes).length = 4 * ms.length := by
  rw [List.length_flatMap, funext markBytes_length, List.map_const', List.sum_replicate, smul_eq_mul,
    Nat.mul_comm]

theorem shareBytes_length (sender : Station) (f : ShareFrame) : (shareBytes sender f).length = f.size := by
  rw [shareBytes, closeCrc32_length]
  simp only [List.length_append, cells_length, marks_length, commonHeader_length, tagBytes, beBytes_length,
    List.length_singleton, ShareFrame.size, Config.minShare]
  omega

/-- A cell within its ranges has 72 bytes at most. -/
theorem size_le {c : Cell} (h : Cell.fits c = true) : c.size ≤ 72 := by
  obtain ⟨-, -, -, hsome⟩ := cellFits_iff.1 h
  unfold Cell.size
  cases hv : c.values with
  | none => simp
  | some v =>
    obtain ⟨-, -, hmax, -⟩ := hsome v hv
    simp only
    omega

theorem shareFits_iff {f : ShareFrame} : (OutFrame.share f).fits = true ↔ f.tag.wellFormed = true ∧
    f.cells.length ≤ 48 ∧ f.marks.length ≤ 8 ∧ (∀ c ∈ f.cells, Cell.fits c = true) ∧
    ∀ m ∈ f.marks, Mark.fits m = true := by
  simp [OutFrame.fits, and_assoc]

theorem share_size {f : ShareFrame} (h : (OutFrame.share f).fits = true) :
    21 ≤ f.size ∧ f.size ≤ 3509 := by
  obtain ⟨-, hcells, hmarks, hfits, -⟩ := shareFits_iff.1 h
  have hsum : (f.cells.map Cell.size).sum ≤ (f.cells.map Cell.size).length • 72 :=
    List.sum_le_card_nsmul _ _ fun n hn => by
      obtain ⟨c, hc, rfl⟩ := List.mem_map.1 hn
      exact size_le (hfits c hc)
  rw [List.length_map, smul_eq_mul] at hsum
  simp only [ShareFrame.size, Config.minShare]
  omega

/-- A share is read back. -/
theorem parseShare_sent {f : ShareFrame} (h : (OutFrame.share f).fits = true) :
    parseShare (shareBytes sender f) = some f := by
  obtain ⟨htag, hcells, hmarks, hcellFits, hmarkFits⟩ := shareFits_iff.1 h
  obtain ⟨hmin, -⟩ := share_size h
  obtain ⟨hsec, hk⟩ := tag_lt htag
  have hncells : f.cells.length < 256 ^ 1 := by omega
  have hnmarks : f.marks.length < 256 ^ 1 := by omega
  have hcode : clockCode f.clock < 256 ^ 1 := (clockCode_lt f.clock).trans (by decide)
  have hfields : field (shareBytes sender f) 9 1 = f.slotRate.toNat ∧
      field (shareBytes sender f) 10 4 = f.digest.toNat ∧
      field (shareBytes sender f) 14 1 = clockCode f.clock ∧
      field (shareBytes sender f) 15 1 = f.cells.length ∧
      field (shareBytes sender f) 16 1 = f.marks.length ∧ tagAt (shareBytes sender f) 4 = f.tag := by
    simp [shareBytes_eq, tagAt, tagBytes, field_sent, field_skip_beBytes, field_first hsec, field_first hk,
      field_first (byte_lt f.slotRate), field_first (word_lt f.digest), field_first hcode,
      field_first hncells, field_first hnmarks]
  obtain ⟨hrate, hdigest, hclock, hncells', hnmarks', htag'⟩ := hfields
  refine parseShare_eq_some.2 ⟨?_, ?_, ?_, ?_, ⟨f.marks.flatMap markBytes, ?_, ?_⟩, htag'.symm, ?_, ?_⟩
  · rwa [shareBytes_length]
  · rwa [hncells']
  · rwa [hnmarks']
  · rw [hclock, clockOf_eq_some]
  · rw [hncells', share_body]
    exact parseCells_cells hcellFits _
  · rw [hnmarks']
    simpa using parseMarks_marks hmarkFits []
  · rw [getD_eq_ofNat, hrate, BitVec.ofNat_toNat, BitVec.setWidth_eq]
  · rw [hdigest, BitVec.ofNat_toNat, BitVec.setWidth_eq]

/-! ## Checks 1 to 3 on a sent frame -/

/-- A frame within its ranges passes checks 1 to 3 as what it is (R122 to R124). -/
theorem checkForm_received {f : OutFrame} (h : f.fits = true) :
    checkForm (f.key sender) (f.bytes sender) = .ok f.received := by
  cases f with
  | notice n =>
    have hread : readAs (noticeBytes sender n) (.notice n) = some (.notice n) := by
      rw [readAs, parseNotice_sent h]
      rfl
    exact checkForm_sent (.notice n) (by simp [tagBytes]) (by decide) (by decide) (noticeBytes_eq sender n)
      hread
  | beacon x =>
    have hread : readAs (beaconBytes sender x) (.beacon x) = some (.beacon x) := by
      rw [readAs, parseBeacon_sent (by simpa [OutFrame.fits] using h)]
      rfl
    exact checkForm_sent (.beacon x) (by simp) (by decide) (by decide) (beaconBytes_eq sender x) hread
  | share x =>
    have hread : readAs (shareBytes sender x) (.share x) = some (.share x) := by
      rw [readAs, parseShare_sent h]
      rfl
    have hb := shareBytes_eq sender x
    obtain ⟨hmin, hmax⟩ := share_size h
    refine checkForm_sent (.share x) ?_ (by omega) hmax hb hread
    rw [← sentFrame_length 1 sender x.size, ← hb, shareBytes_length]

end Sys2Proof.Machine

/-! Where the fields of a sent frame, a cell and a mark stand (R213, R216). -/

namespace Sys2Proof.Machine

open Sys2Proof

variable {sender : Station} {rest : List Byte} {kind length off n v w : Nat}

/-! ## Slices of a sent frame -/

theorem drop_beBytes (h : v ≤ off) : (beBytes v n ++ rest).drop off = rest.drop (off - v) := by
  rw [List.drop_append, List.drop_eq_nil_of_le (by simpa using h), List.nil_append, beBytes_length]

theorem take_beBytes (h : v ≤ w) : (beBytes v n ++ rest).take w = beBytes v n ++ rest.take (w - v) := by
  rw [List.take_append, List.take_of_length_le (by simpa using h), beBytes_length]

theorem sent_take : (sentFrame kind sender length rest).take 4 = commonHeader kind sender length := by
  rw [sentFrame, closeCrc32, List.append_assoc, List.take_left' (commonHeader_length _ _ _)]

theorem sent_drop (h : 4 ≤ off) : (sentFrame kind sender length rest).drop off =
    (rest ++ beBytes 4 (crc32 (commonHeader kind sender length ++ rest)).toNat).drop (off - 4) := by
  rw [sentFrame, closeCrc32, List.append_assoc, List.drop_append, commonHeader_length,
    List.drop_eq_nil_of_le (by simpa using h), List.nil_append]

/-- The check value of a sent frame is that of all the bytes before it. -/
theorem sent_crc (h : 4 + rest.length = n) : (sentFrame kind sender length rest).drop n =
    beBytes 4 (crc32 ((sentFrame kind sender length rest).take n)).toNat := by
  have hlen : (commonHeader kind sender length ++ rest).length = n := by simpa using h
  rw [sentFrame, closeCrc32, List.drop_left' hlen, List.take_left' hlen]

/-! ## Notices -/

theorem noticeBytes_layout (sender : Station) (n : Notice) :
    (noticeBytes sender n).length = 14 ∧
    (noticeBytes sender n).take 4 = [0x10#8, BitVec.ofNat 8 sender.val, 0, 14] ∧
    ((noticeBytes sender n).drop 4).take 1 = beBytes 1 (noticeCode n.kind) ∧
    ((noticeBytes sender n).drop 5).take 5 = beBytes 4 n.tag.sec ++ beBytes 1 n.tag.k ∧
    (noticeBytes sender n).drop 10 = beBytes 4 (crc32 ((noticeBytes sender n).take 10)).toNat := by
  rw [noticeBytes_eq]
  refine ⟨by simp [sentFrame_length, tagBytes], ?_, ?_, ?_, sent_crc (by simp [tagBytes])⟩
  · rw [sent_take]
    simp [commonHeader, beBytes]
  · simp [sent_drop]
  · simp [sent_drop, take_beBytes, tagBytes]

theorem beaconBytes_layout (sender : Station) (f : BeaconFrame) :
    (beaconBytes sender f).length = 26 ∧
    (beaconBytes sender f).take 4 = [0x12#8, BitVec.ofNat 8 sender.val, 0, 26] ∧
    ((beaconBytes sender f).drop 5).take 1 = [f.slotRate] ∧
    ((beaconBytes sender f).drop 6).take 4 = beBytes 4 f.digest.toNat ∧
    ((beaconBytes sender f).drop 10).take 4 = beBytes 4 f.wait.toNat ∧
    ((beaconBytes sender f).drop 14).take 4 = beBytes 4 f.grace.toNat ∧
    ((beaconBytes sender f).drop 18).take 4 = beBytes 4 f.second.second ∧
    (beaconBytes sender f).drop 22 = beBytes 4 (crc32 ((beaconBytes sender f).take 22)).toNat := by
  rw [beaconBytes_eq]
  refine ⟨by simp [sentFrame_length], ?_, ?_, ?_, ?_, ?_, ?_, sent_crc (by simp)⟩
  · rw [sent_take]
    simp [commonHeader, beBytes]
  · simp [sent_drop, beBytes_one]
  · simp [sent_drop, drop_beBytes]
  · simp [sent_drop, drop_beBytes]
  · simp [sent_drop, drop_beBytes]
  · simp [sent_drop, drop_beBytes]

theorem shareBytes_layout (sender : Station) (f : ShareFrame) :
    (shareBytes sender f).take 2 = [0x11#8, BitVec.ofNat 8 sender.val] ∧
    ((shareBytes sender f).drop 2).take 2 = beBytes 2 (shareBytes sender f).length ∧
    ((shareBytes sender f).drop 4).take 5 = beBytes 4 f.tag.sec ++ beBytes 1 f.tag.k ∧
    ((shareBytes sender f).drop 9).take 1 = [f.slotRate] ∧
    ((shareBytes sender f).drop 10).take 4 = beBytes 4 f.digest.toNat ∧
    ((shareBytes sender f).drop 14).take 3 = beBytes 1 (clockCode f.clock) ++ beBytes 1 f.cells.length ++
      beBytes 1 f.marks.length ∧
    (shareBytes sender f).drop ((shareBytes sender f).length - 4) =
      beBytes 4 (crc32 ((shareBytes sender f).take ((shareBytes sender f).length - 4))).toNat := by
  have hlen := shareBytes_length sender f
  have htake : (shareBytes sender f).take 4 = commonHeader 1 sender f.size := by
    rw [shareBytes_eq, sent_take]
  refine ⟨?_, ?_, ?_, ?_, ?_, ?_, ?_⟩
  · rw [show 2 = min 2 4 from rfl, ← List.take_take, htake]
    simp [commonHeader, beBytes_one]
  · rw [hlen, List.take_drop, htake]
    simp [commonHeader, drop_beBytes]
  · simp [shareBytes_eq, sent_drop, take_beBytes, tagBytes]
  · simp [shareBytes_eq, sent_drop, drop_beBytes, tagBytes, beBytes_one]
  · simp [shareBytes_eq, sent_drop, drop_beBytes, tagBytes]
  · simp [shareBytes_eq, sent_drop, drop_beBytes, take_beBytes, tagBytes]
  · rw [shareBytes, closeCrc32_take, closeCrc32_length, Nat.add_sub_cancel, closeCrc32, List.drop_left]

/-! ## Cells and marks -/

theorem unsigned16_eq (v : Int) : unsigned16 v = (v.emod 65536).toNat := BitVec.toNat_ofInt _

theorem cellBytes_begins (c : Cell) : ∃ more, cellBytes c = cellHead c ++ more := by
  cases h : c.values with
  | none => exact ⟨_, cellBytes_none h⟩
  | some v => exact ⟨_, cellBytes_some h⟩

theorem cellBytes_layout (c : Cell) : (cellBytes c).take 2 = beBytes 2 c.code ∧
    ((cellBytes c).drop 2).take 1 = beBytes 1 (qualityCode c.quality) ∧
    ((cellBytes c).drop 3).take 1 = beBytes 1 c.flags ∧
    ((cellBytes c).drop 4).take 1 = beBytes 1 c.primary := by
  obtain ⟨more, hmore⟩ := cellBytes_begins c
  rw [hmore]
  refine ⟨?_, ?_, ?_, ?_⟩
  · simp [cellHead]
  · simp [cellHead]
  · simp [cellHead, drop_beBytes]
  · simp [cellHead, drop_beBytes]

/-- The phasors and what follows them in a cell with values. -/
theorem cellBytes_values {c : Cell} {v : CellValues} (hv : c.values = some v) :
    ((cellBytes c).drop 5).take 1 = beBytes 1 v.phasors.length ∧
    (∀ i p, v.phasors[i]? = some p → ((cellBytes c).drop (6 + 5 * i)).take 5 = phasorBytes p) ∧
    (cellBytes c).drop (6 + 5 * v.phasors.length) = cellTail v := by
  have h5 : (cellBytes c).drop 5 =
      beBytes 1 v.phasors.length ++ (v.phasors.flatMap phasorBytes ++ cellTail v) := by
    rw [cellBytes_some hv, List.drop_left' (cellHead_length c)]
  have h6 (k : Nat) : (cellBytes c).drop (6 + k) = (v.phasors.flatMap phasorBytes ++ cellTail v).drop k := by
    rw [show 6 + k = 5 + (1 + k) by omega, ← List.drop_drop, h5, drop_beBytes (Nat.le_add_right 1 k),
      Nat.add_sub_cancel_left]
  refine ⟨?_, fun i p hp => ?_, ?_⟩
  · rw [h5, take_beBytes le_rfl, Nat.sub_self, List.take_zero, List.append_nil]
  · have hi : i < v.phasors.length := (List.getElem?_eq_some_iff.1 hp).1
    rw [h6, List.drop_append_of_le_length (by rw [phasors_length]; omega),
      drop_flatMap_get phasorBytes_length hp, List.append_assoc, List.take_left' (phasorBytes_length p)]
  · rw [h6, List.drop_left' (phasors_length _)]

/-! ## Check values (R213) -/

/-- One byte more goes into the CRC-32 bit by bit. -/
theorem crc32_append (b : List Byte) (x : Byte) :
    ~~~crc32 (b ++ [x]) = crc32Bit^[8] (~~~crc32 b ^^^ x.setWidth 32) := by
  rw [crc32, crc32, BitVec.not_not, BitVec.not_not, List.foldl_append]
  rfl

/-- One byte more goes into the CRC-16 bit by bit. -/
theorem crc16_append (b : List Byte) (x : Byte) :
    crc16 (b ++ [x]) = crc16Bit^[8] (crc16 b ^^^ (x.setWidth 16 <<< 8)) := by
  rw [crc16, crc16, List.foldl_append]
  rfl

/-! ## The statement -/

/-- Settles O47: the round trip, the levels of a transmission, what a station drives of it, and the layouts. -/
theorem linkFramesAreReadAsSent : Obligations.LinkFramesAreReadAsSent := by
  unfold Obligations.LinkFramesAreReadAsSent
  refine ⟨fun sender f h => ⟨checkForm_received h, keyStation_key sender f,
      readTransmission_transmission _ _⟩, ?_, ?_,
    fun drivers => ⟨lineLevel_dominant drivers, lineLevel_recessive drivers⟩, ?_, ?_, ?_, ?_, ?_, ?_⟩
  · rintro key bytes levels rfl
    refine ⟨transmissionLevels_length key bytes, readTransmission_transmission key bytes,
      fun other => eq_of_readTransmission, fun i hi => transmissionLevels_dominant ?_, rfl,
      fun i hi => ?_, fun n x hx => ⟨?_, ?_, fun i hi => ?_⟩⟩
    · rwa [transmissionLevels_length] at hi
    · rw [transmissionLevels_claim (by omega), claimLevels_key hi]
    · exact transmissionLevels_character hx (r := 0) (by omega)
    · rw [show 16 + 10 * n = 7 + (10 * n + 9) by omega, transmissionLevels_character hx (by omega)]
      rfl
    · rw [show 8 + 10 * n + i = 7 + (10 * n + (1 + i)) by omega,
        transmissionLevels_character hx (by omega), characterLevels_bit x hi]
  · intro s read own f phase
    refine ⟨fun h => drives_idle h read, fun h hown => ?_⟩
    have hdrives : s.drives read = drivenAfter own read := by
      cases phase with
      | claiming => exact drives_eq hown h
      | transmitting => exact drives_eq hown h
    rw [hdrives]
    refine ⟨drivenAfter_same, fun m hr ho hne hpre => ?_⟩
    have hfirst := firstDifference_of_mismatch hr ho hne hpre
    refine ⟨drivenAfter_lost hfirst, ?_⟩
    rintro c i rfl hi
    rw [drivenAfter_some hfirst, stopsAt_character c hi]
    exact ⟨fun hlt => if_pos hlt, fun hle => if_neg (Nat.not_lt.2 hle)⟩
  · rintro sender n b rfl
    obtain ⟨hlen, hhead, hkind, htag, hcrc⟩ := noticeBytes_layout sender n
    refine ⟨hlen, hhead, hkind.trans ?_, htag, hcrc⟩
    cases n.kind <;> rfl
  · rintro sender f b rfl
    obtain ⟨hlen, hhead, hrest⟩ := beaconBytes_layout sender f
    obtain ⟨-, hcode, -, hknown⟩ := beaconClockByte_bits f
    refine ⟨hlen, hhead, fun x hx => ?_, hrest⟩
    have hbyte : (beaconBytes sender f).getD 4 0 = x := by
      rw [List.getD_eq_getElem?_getD, show (beaconBytes sender f)[4]? = some x from hx]
      rfl
    rw [← hbyte, getD_toNat, getLsbD_field, field_beaconClock]
    exact ⟨hcode, hknown⟩
  · rintro sender f b rfl
    obtain ⟨hhead, hlen, htag, hrate, hdigest, hcounts, hcrc⟩ := shareBytes_layout sender f
    exact ⟨hhead, hlen, htag, hrate, hdigest, hcounts, share_body sender f, hcrc⟩
  · rintro c b rfl
    obtain ⟨hcode, hquality, hflags, hprimary⟩ := cellBytes_layout c
    refine ⟨hcode, hquality, hflags, hprimary, fun hv => ?_, fun v hv => ?_⟩
    · rw [cellBytes_none hv, List.drop_left' (cellHead_length c)]
    · obtain ⟨hcount, hphasors, htail⟩ := cellBytes_values (Option.mem_def.1 hv)
      refine ⟨hcount, hphasors, ?_⟩
      rw [htail, cellTail, unsigned16_eq, unsigned16_eq]
  · intro m
    unfold markBytes
    cases m.direction <;> rfl
  · exact ⟨fun _ => rfl, fun _ => rfl, fun _ => rfl, by decide +kernel, by decide +kernel, crc32_append,
      crc16_append⟩

end Sys2Proof.Machine

/-! The blocks of the share store at every step (R139 to R144): where the blocks stand, which operations leave
them there, and that every other one only moves them between the free list, the reception and the records. -/

namespace Sys2Proof.Machine

open Sys2Proof

variable {s t : State} {r q : Record}

/-! ## Where the blocks stand -/

/-- The blocks of the free list, those of the reception and those of each record (R139). -/
def State.stored (s : State) : List Block × List Block × List (List Block) :=
  (s.gather.free, receptionBlocks s, s.table.records.map Record.blocks)

/-- The law reads nothing else of the node. -/
theorem StoreLaw.of_stored (hs : StoreLaw s) (h : t.stored = s.stored) : StoreLaw t := by
  obtain ⟨hfree, h⟩ := Prod.mk.inj h
  obtain ⟨hreception, hrecords⟩ := Prod.mk.inj h
  unfold StoreLaw blocksInPlace
  rw [hfree, hreception, List.flatMap_def, hrecords, ← List.flatMap_def]
  exact hs

theorem StoreLaw.of_perm (hs : StoreLaw s) (h : (blocksInPlace t).Perm (blocksInPlace s)) :
    StoreLaw t := h.trans hs

/-- The blocks stand where they stood when the free list and the reception do and every record has its
attachments. -/
theorem stored_of_parts (hf : t.gather.free = s.gather.free)
    (hr : t.gather.reception = s.gather.reception)
    (hb : t.table.records.map Record.blocks = s.table.records.map Record.blocks) :
    t.stored = s.stored := by
  unfold State.stored receptionBlocks
  rw [hf, hr, hb]

/-- A frame that lists neither the table, the free list nor the reception leaves the blocks in place. -/
theorem ChangesOnly.stored {ps : List Part} (h : ChangesOnly ps s t)
    (ht : Part.table ∉ ps := by decide) (hf : Part.freeList ∉ ps := by decide)
    (hr : Part.reception ∉ ps := by decide) : t.stored = s.stored := by
  have htable : t.table = s.table := h .table ht
  exact stored_of_parts (h .freeList hf) (h .reception hr) (by rw [htable])

theorem blocks_of_attachments (h : q.attachments = r.attachments) : q.blocks = r.blocks := by
  unfold Record.blocks
  rw [h]

/-! ## The updates -/

@[simp] theorem stored_setPins (v : Pins) : (s.setPins v).stored = s.stored := rfl
@[simp] theorem stored_setLoader (v : Loader) : (s.setLoader v).stored = s.stored := rfl
@[simp] theorem stored_setClock (v : Clock) : (s.setClock v).stored = s.stored := rfl
@[simp] theorem stored_setIntake (v : Intake) : (s.setIntake v).stored = s.stored := rfl
@[simp] theorem stored_setStreams (v : List Stream) : (s.setStreams v).stored = s.stored := rfl
@[simp] theorem stored_setLink (v : Link) : (s.setLink v).stored = s.stored := rfl
@[simp] theorem stored_setAssembler (v : Assembler) : (s.setAssembler v).stored = s.stored := rfl
@[simp] theorem stored_setMonitors (v : Vector Monitor 8) : (s.setMonitors v).stored = s.stored := rfl
@[simp] theorem stored_setPort (v : Port) : (s.setPort v).stored = s.stored := rfl
@[simp] theorem stored_raise (c : Cause) : (raise c s).stored = s.stored := rfl
@[simp] theorem stored_bump (c : Counter) : (bump c s).stored = s.stored := (bump_frame c).stored
@[simp] theorem stored_updatePeer (i : Station) (f : Peer → Peer) :
    (updatePeer i f s).stored = s.stored := rfl

/-- Every record changed, none of them in its attachments. -/
theorem stored_mapRecords {f : Record → Record} (hf : ∀ r, (f r).attachments = r.attachments) :
    (withRecords (s.table.records.map f) s).stored = s.stored := by
  refine stored_of_parts rfl rfl ?_
  rw [withRecords_records, List.map_map]
  exact List.map_congr_left fun r _ => blocks_of_attachments (hf r)

@[simp] theorem stored_updateRecord (tag : Tag) {f : Record → Record}
    (hf : ∀ r, (f r).attachments = r.attachments) : (updateRecord tag f s).stored = s.stored := by
  refine stored_mapRecords fun r => ?_
  split
  · exact hf r
  · rfl

/-! ## Judgement and the roster (R79, R80, R136, R138, R141) -/

theorem StoreLaw.after_freeRecords (h : StoreLaw s) (gone : Record → Bool) :
    StoreLaw (freeRecords gone s) := h.of_perm (freeRecords_blocks gone)

theorem StoreLaw.after_leaveGathering (h : StoreLaw s) (r : Record) :
    StoreLaw (leaveGathering r s) := by
  unfold leaveGathering
  split
  · exact h.of_stored (takeRecord_frame.stored.trans (stored_updateRecord _ fun _ => rfl))
  · exact (h.after_freeRecords _).of_stored (stored_bump _)

theorem StoreLaw.after_judge (h : StoreLaw s) : StoreLaw (judge s) :=
  judgeUpTo_keeps (P := StoreLaw) (fun _ r hs _ => hs.after_leaveGathering r) _ s h

@[simp] theorem stored_leavePresent (i : Station) (next : PeerState) :
    (leavePresent i next s).stored = s.stored := by
  have hunexpect (u : State) : (unexpect i u).stored = u.stored := stored_mapRecords fun r => by
    split <;> rfl
  unfold leavePresent
  split
  · rw [hunexpect, stored_bump, stored_updatePeer]
  · exact stored_updatePeer _ _

@[simp] theorem stored_countMiss (s : State) (i : Station) : (countMiss s i).stored = s.stored := by
  unfold countMiss
  dsimp only
  split
  · rw [stored_leavePresent, stored_updatePeer]
  · exact stored_updatePeer _ _

/-- A run of changes that each leave the blocks in place leaves them there. -/
theorem stored_foldl {α : Type} {f : State → α → State} (h : ∀ s a, (f s a).stored = s.stored)
    (l : List α) (s : State) : (l.foldl f s).stored = s.stored := by
  induction l generalizing s with
  | nil => rfl
  | cons a l ih => rw [List.foldl_cons, ih, h]

/-- A run of changes that each keep the law keeps it. -/
theorem StoreLaw.after_foldl {α : Type} {f : State → α → State}
    (hf : ∀ (s : State) (a : α), StoreLaw s → StoreLaw (f s a)) (l : List α) :
    ∀ {s : State}, StoreLaw s → StoreLaw (l.foldl f s) := by
  induction l with
  | nil => exact fun h => h
  | cons a l ih => exact fun h => ih (hf _ a h)

/-! ## The local close (R73 to R78) -/

theorem stored_startClose (r : Record) : (startClose r s).stored = s.stored := by
  have hframe := startClose_frame (s := s) r
  refine stored_of_parts (hframe .freeList (by decide)) (hframe .reception (by decide)) ?_
  rw [startClose_records, List.map_map]
  refine List.map_congr_left fun q _ => blocks_of_attachments ?_
  dsimp only
  split <;> rfl

theorem StoreLaw.after_finishClose (h : StoreLaw s) (r : Record) : StoreLaw (finishClose r s) := by
  have hhanded : ∀ (u : State) (share : QueuedShare), (handOver share u).stored = u.stored :=
    fun _ share => (handOver_frame share).stored
  refine StoreLaw.of_stored (StoreLaw.after_judge (h.of_stored ?_)) rfl
  simp [hhanded]

theorem StoreLaw.after_examine (h : StoreLaw s) : StoreLaw (examine s) := by
  unfold examine
  generalize s.table.records.length = n
  induction n generalizing s with
  | zero => exact h
  | succ n ih =>
    unfold examineUpTo
    split
    · exact h
    · next r _ =>
      have hstart := h.of_stored (stored_startClose r)
      dsimp only
      split
      · exact ih (hstart.after_finishClose _)
      · exact hstart

theorem StoreLaw.after_examineFor (h : StoreLaw s) (n : Nat) : StoreLaw (examineFor n s) := by
  unfold examineFor
  split
  · split
    · exact h.after_examine
    · exact h
  · exact h

theorem StoreLaw.after_examineForAny (h : StoreLaw s) (ns : List Nat) :
    StoreLaw (examineForAny ns s) := by
  unfold examineForAny
  split
  · split
    · exact h.after_examine
    · exact h
  · exact h

theorem StoreLaw.after_completeClose (h : StoreLaw s) : StoreLaw (completeClose s) := by
  unfold completeClose
  split
  · exact h
  · exact (h.after_finishClose _).after_examine

/-! ## Openings, abandonment and deadlines (R22, R67, R71, R82, R120) -/

/-- A record just opened holds no block. -/
theorem newRecord_blocks (s : State) (tag : Tag) : (newRecord s tag).blocks = [] := by
  simp [Record.blocks, newRecord, Attachment.blocks]

theorem StoreLaw.after_openTag (h : StoreLaw s) (tag : Tag) : StoreLaw (openTag tag s) := by
  unfold openTag
  dsimp only
  split
  · have hopened : StoreLaw ((s.setClock { s.clock with newest := some tag }).setTable { s.table with
        records := s.table.records ++ [newRecord (s.setClock { s.clock with newest := some tag }) tag]
        afterStep := false }) := by
      refine h.of_perm (.of_eq ?_)
      simp [blocksInPlace, receptionBlocks, newRecord_blocks]
    split
    · exact hopened.after_examine
    · exact hopened
  · exact h.of_stored (stored_bump _)

theorem StoreLaw.after_evaluate (h : StoreLaw s) : StoreLaw (evaluate s) := by
  unfold evaluate
  dsimp only
  split
  · exact h.after_openTag _
  · exact h

theorem StoreLaw.after_abandonOpen (h : StoreLaw s) : StoreLaw (abandonOpen s) :=
  (h.after_freeRecords _).of_stored ((bumpTimes_frame _ _ _).stored)

theorem StoreLaw.after_enterStopped (h : StoreLaw s) : StoreLaw (enterStopped s) :=
  h.after_abandonOpen.of_stored rfl

theorem StoreLaw.after_passClose (h : StoreLaw s) (tag : Tag) : StoreLaw (passClose tag s) := by
  have hmark : StoreLaw (updateRecord tag Record.markClose s) :=
    h.of_stored (stored_updateRecord tag fun _ => rfl)
  unfold passClose
  dsimp only
  split
  · split
    · exact hmark.after_examine
    · exact hmark
  · exact hmark

theorem StoreLaw.after_passGather (h : StoreLaw s) (tag : Tag) : StoreLaw (passGather tag s) := by
  have hmark : StoreLaw (updateRecord tag Record.markGather s) :=
    h.of_stored (stored_updateRecord tag fun _ => rfl)
  unfold passGather
  dsimp only
  split
  · split
    · exact (hmark.of_stored (stored_foldl stored_countMiss _ _)).after_judge
    · exact hmark
  · exact hmark

@[simp] theorem stored_passShare (tag : Tag) : (passShare tag s).stored = s.stored :=
  (passShare_frame tag).stored

theorem StoreLaw.after_passReached (h : StoreLaw s) : StoreLaw (passReached s) := by
  have hclose (s : State) (tag : Tag) (h : StoreLaw s) : StoreLaw (passCloseIfReached tag s) := by
    unfold passCloseIfReached
    split
    · split
      · exact h.after_passClose tag
      · exact h
    · exact h
  have hgather (s : State) (tag : Tag) (h : StoreLaw s) : StoreLaw (passGatherIfReached tag s) := by
    unfold passGatherIfReached
    split
    · split
      · exact h.after_passGather tag
      · exact h
    · exact h
  have hshare (s : State) (tag : Tag) : (passShareIfReached tag s).stored = s.stored := by
    unfold passShareIfReached
    split
    · split
      · exact stored_passShare tag
      · rfl
    · rfl
  exact (StoreLaw.after_foldl (fun s tag h => hgather _ tag (hclose s tag h)) _ h).of_stored
    (stored_foldl hshare _ _)

/-! ## The second boundary and the station clock (R2, R8 to R21) -/

theorem StoreLaw.after_deliverBoundary (h : StoreLaw s) : StoreLaw (deliverBoundary s) := by
  have hcopy (u : State) (hu : StoreLaw u) :
      StoreLaw (queueBeacon (recomputeWait (copyEnableSets u))) := hu.of_stored rfl
  unfold deliverBoundary
  dsimp only
  split_ifs
  · exact ((hcopy _ (h.of_stored (stored_setClock _))).after_examineForAny _).after_evaluate
  · exact (hcopy s h).after_examineForAny _

theorem StoreLaw.after_reachBoundary (h : StoreLaw s) : StoreLaw (reachBoundary s) :=
  (h.of_stored (stored_setClock _)).after_deliverBoundary

theorem StoreLaw.after_reachSlot (h : StoreLaw s) : StoreLaw (reachSlot s) :=
  (h.of_stored (stored_setClock _)).after_evaluate

theorem StoreLaw.after_expireHoldover (h : StoreLaw s) : StoreLaw (expireHoldover s) := by
  unfold expireHoldover
  split
  · exact h.after_enterStopped
  · exact h.of_stored (stored_setClock _)

theorem stored_endTod (chars : List TodChar) : (endTod chars s).stored = s.stored := by
  unfold endTod
  split
  · unfold takeTod
    split <;> simp
  · rfl

theorem StoreLaw.after_settleDue (h : StoreLaw s) : StoreLaw (settleDue s) := by
  unfold settleDue
  dsimp only
  split_ifs
  · exact h.after_reachBoundary.after_reachSlot.after_passReached
  · exact h.after_reachBoundary.after_passReached
  · exact h.after_reachSlot.after_passReached
  · exact h.after_passReached

theorem StoreLaw.after_afterSet (h : StoreLaw s) (before : Time) (locks : Bool) :
    StoreLaw (afterSet before locks s) := by
  unfold afterSet
  dsimp only
  split_ifs
  · exact h.after_deliverBoundary.after_passReached.after_evaluate
  · exact h.after_passReached.after_evaluate
  · exact h.after_deliverBoundary.after_passReached
  · exact h.after_passReached

theorem StoreLaw.after_stepTo (h : StoreLaw s) (second : Nat) : StoreLaw (stepTo second s) := by
  unfold stepTo
  dsimp only
  split
  · exact (h.of_stored (stored_setClock _)).after_enterStopped.after_passReached
  · refine StoreLaw.after_passReached (StoreLaw.of_stored ?_ (stored_setClock _))
    split
    · exact h.after_abandonOpen.of_stored (stored_setLink _)
    · exact h.after_abandonOpen

theorem StoreLaw.after_setCount (h : StoreLaw s) (c : Clock) (before : Time) (locks : Bool) :
    StoreLaw (afterSet before locks (s.setClock c)) :=
  (h.of_stored (stored_setClock c)).after_afterSet before locks

theorem StoreLaw.after_phaseSet (h : StoreLaw s) (second : Nat) : StoreLaw (phaseSet second s) := by
  unfold phaseSet
  dsimp only
  split
  · exact h.after_setCount _ _ _
  · exact h.after_setCount _ _ _

theorem StoreLaw.after_edgeAcquiring (h : StoreLaw s) : StoreLaw (edgeAcquiring s) := by
  unfold edgeAcquiring
  dsimp only
  split
  · exact h.after_setCount _ _ _
  · exact h.after_setCount _ _ _

theorem StoreLaw.after_edgeDisciplined (h : StoreLaw s) : StoreLaw (edgeDisciplined s) := by
  have hleap (decided : Decided) : StoreLaw (if decided = .leap then
      bump .leap (s.setClock (consumeTod s.clock)) else s.setClock (consumeTod s.clock)) := by
    split
    · exact h.of_stored (stored_bump _)
    · exact h.of_stored (stored_setClock _)
  unfold edgeDisciplined
  dsimp only
  split
  · exact (hleap _).after_stepTo _
  · exact (hleap _).after_stepTo _
  · exact ((hleap _).of_stored (stored_bump _)).after_phaseSet _
  · exact (hleap _).after_phaseSet _

theorem StoreLaw.after_takeEdge (h : StoreLaw s) (edge : Transition) : StoreLaw (takeEdge edge s) := by
  have hage : StoreLaw ((settleDue s).setClock { (settleDue s).clock with edgeAge := some 0 }) :=
    h.after_settleDue.of_stored (stored_setClock _)
  unfold takeEdge acceptEdge
  dsimp only
  split_ifs
  · exact h.of_stored (stored_bump _)
  · split
    · exact hage.after_edgeAcquiring
    · exact hage.of_stored (stored_setClock _)
    · exact hage.after_edgeDisciplined
    · exact hage.after_edgeDisciplined
    · exact hage.after_edgeDisciplined
  · exact h

/-! ## The snapshot port, the directory and the monitors -/

theorem stored_takeSnapshotByte : (takeSnapshotByte s).stored = s.stored := by
  unfold takeSnapshotByte
  split
  · split <;> rfl
  · rfl
  · rfl

theorem StoreLaw.after_endDelivery (h : StoreLaw s) : StoreLaw (endDelivery s) := by
  have hfinish (c : Composition) : StoreLaw (finishDelivery c s) :=
    (((h.of_stored (stored_bump _)).after_freeRecords _).after_judge.of_stored
      (stored_setAssembler _)).of_stored takeRecord_frame.stored
  unfold endDelivery
  split
  · split
    · exact hfinish _
    · exact h
  · exact h
  · exact h

theorem StoreLaw.after_stallStream (h : StoreLaw s) (n : Nat) : StoreLaw (stallStream n s) :=
  (h.of_stored (stored_setStreams _)).after_examineFor n

theorem StoreLaw.after_silencePeer (h : StoreLaw s) (i : Station) : StoreLaw (silencePeer i s) :=
  (h.of_stored (stored_leavePresent i _)).after_judge

theorem stored_offerMark (tag : Tag) (m : Mark) : (offerMark tag m s).stored = s.stored := by
  unfold offerMark
  split
  · rfl
  · split <;> simp

theorem stored_judgeCell (pos : Nat) (c : Cell) (tag : Tag) (s : State) (i : Fin 8) :
    (judgeCell pos c tag s i).stored = s.stored := by
  unfold judgeCell
  dsimp only
  split
  · rfl
  · split
    · rfl
    · split
      · rfl
      · split_ifs
        · rfl
        · exact stored_offerMark _ _
        · exact stored_bump _

theorem stored_resolveNext : (resolveNext s).stored = s.stored := by
  unfold resolveNext
  split
  · rfl
  · split
    · rfl
    · exact (stored_foldl (stored_judgeCell _ _ _) _ _).trans (stored_updateRecord _ fun _ => rfl)

end Sys2Proof.Machine

/-! The blocks at the commands of the intake unit, the link and the service port, at a reset and at the step
(R139 to R144): a share header takes blocks from the free list, a share at its frame end gives them to its
record or back, and no other of these moves one. -/

namespace Sys2Proof.Machine

open Sys2Proof

variable {s t : State} {r : Record} {tag : Tag} {i : Station}

/-! ## The intake unit -/

@[simp] theorem stored_recordDrop (code : Nat) (reason : DropReason) (stamp : Time) :
    (recordDrop code reason stamp s).stored = s.stored := by
  unfold recordDrop
  cases reason.counter <;> simp

@[simp] theorem stored_checkerTake : (checkerTake s).stored = s.stored := by
  unfold checkerTake
  split <;> rfl

theorem stored_takeFrameStart : (takeFrameStart s).stored = s.stored := by
  unfold takeFrameStart beginFrame
  dsimp only
  split
  · rfl
  · split
    · split <;> simp
    · exact stored_bump _
    all_goals rfl

theorem stored_takeByte (b : Byte) : (takeByte b s).stored = s.stored := by
  unfold takeByte
  split
  · split
    · split_ifs
      · simp [undoFrame]
      · simp [undoFrame]
      · rfl
    all_goals rfl
  · rfl

theorem stored_takeFrameEnd : (takeFrameEnd s).stored = s.stored := by
  unfold takeFrameEnd
  dsimp only
  split
  · split
    · exact stored_checkerTake
    all_goals rfl
  · rfl

theorem StoreLaw.after_judgeHeld (h : StoreLaw s) : StoreLaw (judgeHeld s) := by
  have hoffer (n code : Nat) (x : Sample) : StoreLaw (offerSample n code x s) := by
    unfold offerSample
    split
    · exact h
    · dsimp only
      split
      · exact h.of_stored (stored_recordDrop _ _ _)
      · exact StoreLaw.after_examineFor (h.of_stored (by simp)) n
  have hrelease (n : Nat) (u : State) : (releaseFrame n u).stored = u.stored :=
    stored_checkerTake.trans (stored_setIntake _)
  unfold judgeHeld
  split
  · dsimp only
    split
    · exact h.of_stored ((hrelease _ _).trans (stored_recordDrop _ _ _))
    · exact (hoffer _ _ _).of_stored (hrelease _ _)
  · exact h

/-! ## The transmitter -/

@[simp] theorem stored_returnFrame (f : OutFrame) (m : Medium) :
    (returnFrame f m s).stored = s.stored := by
  unfold returnFrame expireReturned
  split
  · split
    · split
      · exact (withdrawShare_frame _).stored
      · rfl
    · rfl
  · rfl
  · rfl

@[simp] theorem stored_collide (f : OutFrame) (m : Medium) : (collide f m s).stored = s.stored := by
  unfold collide
  dsimp only
  split <;> simp

theorem stored_startClaim : (startClaim s).stored = s.stored := by
  unfold startClaim
  split
  · split <;> rfl
  · rfl

theorem stored_resolveClaim (line : ClaimKey) : (resolveClaim line s).stored = s.stored := by
  unfold resolveClaim
  split
  · split <;> simp
  · rfl
  · rfl

theorem stored_foreignClaim : (foreignClaim s).stored = s.stored := by
  unfold foreignClaim
  split <;> rfl

theorem stored_deferIdle : (deferIdle s).stored = s.stored := by
  unfold deferIdle
  split <;> rfl

theorem stored_completeSend : (completeSend s).stored = s.stored := by
  unfold completeSend
  split <;> simp

theorem stored_findMismatch : (findMismatch s).stored = s.stored := by
  unfold findMismatch
  split <;> simp

theorem stored_judgeIdle : (judgeIdle s).stored = s.stored := by
  unfold judgeIdle
  split <;> rfl

/-! ## The blocks of a reception (R140, R141, R143) -/

/-- A header's blocks go from the head of the free list to the reception. -/
theorem StoreLaw.after_handHeader (h : StoreLaw s) (hn : s.gather.reception = none)
    (header : List Byte) : StoreLaw (handHeader header s) := by
  refine h.of_perm ?_
  unfold handHeader
  dsimp only
  split_ifs
  · simp only [blocksInPlace, receptionBlocks, hn, State.setGather_gather, State.setGather_table,
      List.append_nil]
    refine List.Perm.append_right _ (List.perm_append_comm.trans (.of_eq ?_))
    rw [List.take_append_drop]
  · exact .of_eq (by simp [blocksInPlace, receptionBlocks, hn])
  · exact .of_eq (by simp [blocksInPlace, receptionBlocks, hn])

/-- A reception's blocks go back to the tail of the free list. -/
theorem StoreLaw.after_dropReception (h : StoreLaw s) : StoreLaw (dropReception s) := by
  unfold dropReception
  split
  · exact h
  · next rec hrec => exact h.of_perm (.of_eq (by simp [blocksInPlace, receptionBlocks, freeBlocks, hrec]))

theorem StoreLaw.after_refuseShare (h : StoreLaw s) (c : Counter) : StoreLaw (refuseShare c s) :=
  (h.of_stored (stored_bump c)).after_dropReception

/-- An attachment made where none was adds its blocks to the record's. -/
theorem blocks_attach (hn : r.attachments[i] = .none) (a : Attachment) :
    (r.attach i a).blocks.Perm (a.blocks ++ r.blocks) := by
  have hi : i.val < r.attachments.toList.length := by simp
  have hnone : r.attachments.toList[i.val] = .none := by simpa using hn
  unfold Record.blocks Record.attach
  rw [Vector.toList_set, List.set_eq_take_append_cons_drop, if_pos hi]
  conv_rhs => rw [← List.take_append_drop i.val r.attachments.toList, List.drop_eq_getElem_cons hi, hnone]
  simp only [List.flatMap_append, List.flatMap_cons, Attachment.blocks, List.nil_append]
  exact List.perm_append_comm_assoc _ _ _

/-- What an accepted share attaches holds the reception's blocks. -/
theorem attachmentOf_blocks (length : Nat) (s : State) :
    (attachmentOf length s).blocks = receptionBlocks s := by
  have hreceived : receivedBlocks s = receptionBlocks s := by
    unfold receivedBlocks receptionBlocks
    cases s.gather.reception <;> rfl
  unfold attachmentOf
  split
  · next h => rw [← hreceived, h]; rfl
  · exact hreceived

/-- The reception's blocks go to the record that its share is attached to. -/
theorem StoreLaw.after_attachShare (h : StoreLaw s) (ho : inOrder s.table.records = true)
    (hr : r ∈ s.table.records) (hn : r.attachments[i] = .none) (length : Nat) :
    StoreLaw (attachShare i r.tag length s) := by
  obtain ⟨before, after, hs⟩ := List.append_of_mem hr
  have hfree : (attachShare i r.tag length s).gather.free = s.gather.free :=
    attachShare_frame i r.tag length s .freeList (by decide)
  have hreception : receptionBlocks (attachShare i r.tag length s) = [] := by
    unfold receptionBlocks
    rw [attachShare_reception]
  have hrecords : (attachShare i r.tag length s).table.records =
      before ++ r.attach i (attachmentOf length s) :: after := by
    rw [attachShare_records, hs]
    exact map_tag_split (hs ▸ ho) _
  have hattached := blocks_attach hn (attachmentOf length s)
  rw [attachmentOf_blocks] at hattached
  refine h.of_perm ?_
  unfold blocksInPlace
  rw [hfree, hreception, hrecords, hs, List.append_nil, List.append_assoc]
  simp only [List.flatMap_append, List.flatMap_cons]
  refine List.Perm.append_left _ (.trans ?_ (List.perm_append_comm_assoc _ _ _))
  refine List.Perm.append_left _ ?_
  rw [← List.append_assoc]
  exact hattached.append_right _

theorem StoreLaw.after_acceptShare (h : StoreLaw s) (hs : TableLaw s) (length : Nat)
    (hm : matchShare s i tag = .accepted) : StoreLaw (acceptShare i tag length s) := by
  obtain ⟨r, hr, -, hn⟩ := matchShare_accepted hm
  obtain ⟨hmem, rfl⟩ := recordOf_some hr
  have hattached := h.after_attachShare hs.ordered hmem hn length
  rw [acceptShare_of_record length hr]
  split
  · exact hattached.after_judge
  · exact hattached

theorem StoreLaw.after_settleMatch (h : StoreLaw s) (hs : TableLaw s) (i : Station) (tag : Tag)
    (length : Nat) : StoreLaw (settleMatch i tag length s) := by
  unfold settleMatch
  split
  · exact h.after_refuseShare _
  · exact h.after_refuseShare _
  · exact h.after_refuseShare _
  · exact h.after_refuseShare _
  · next hm => exact h.after_acceptShare hs length hm

/-! ## The receiver (R121 to R148) -/

theorem StoreLaw.after_mismatch (h : StoreLaw s) (i : Station) : StoreLaw (mismatch i s) :=
  StoreLaw.after_judge (h.of_stored (by simp))

theorem StoreLaw.after_takeBeacon (h : StoreLaw s) (i : Station) (f : BeaconFrame) :
    StoreLaw (takeBeacon i f s) := by
  have hheard : StoreLaw (updatePeer i (fun p => { p with
      lastEffective := some (f.wait.toNat, f.grace.toNat), lastBeacon := some f.second })
      (heard i f.clock s)) := h.of_stored rfl
  unfold takeBeacon
  dsimp only
  split
  · exact hheard.after_mismatch i
  · split
    · exact hheard.of_stored rfl
    · exact hheard.of_stored rfl
    · exact hheard.of_stored rfl
    · exact (hheard.of_stored (stored_leavePresent i _)).after_judge
    · exact hheard

/-- A STEPPED notice gives up no attachment that holds a block (R148). -/
theorem abandonAttachment_blocks (i : Station) (x : Tag) (r : Record) :
    (abandonAttachment i x r).blocks.Perm r.blocks := by
  unfold abandonAttachment
  split
  · next h =>
    obtain ⟨-, -, hn⟩ := h
    exact blocks_attach hn .abandoned
  · exact .refl _

theorem StoreLaw.after_takeNotice (h : StoreLaw s) (i : Station) (n : Notice) :
    StoreLaw (takeNotice i n s) := by
  have hheard (c : ClockState) : StoreLaw (heard i c s) := h.of_stored rfl
  unfold takeNotice
  dsimp only
  split
  · exact h.of_stored rfl
  · split
    · split
      · exact ((hheard _).of_stored (stored_leavePresent i _)).after_judge
      · exact hheard _
    · refine StoreLaw.after_judge ((hheard .stepping).of_perm (List.Perm.append_left _ ?_))
      rw [withRecords_records, List.flatMap_map]
      exact List.Perm.flatMap_left _ fun r _ => abandonAttachment_blocks i n.tag r

theorem StoreLaw.after_takeShare (h : StoreLaw s) (hs : TableLaw s) (i : Station) (f : ShareFrame)
    (length : Nat) : StoreLaw (takeShare i f length s) := by
  have hheard : StoreLaw (heard i f.clock s) := h.of_stored rfl
  have hsettle (u : State) (hu : u.stored = s.stored) (hslots : u.slots = s.slots) :
      StoreLaw (settleMatch i f.tag length u) :=
    (h.of_stored hu).after_settleMatch (Forward.of_slots hslots hs).1 _ _ _
  unfold takeShare
  dsimp only
  split
  · exact (hheard.after_mismatch i).after_dropReception
  · split
    · exact hheard.after_refuseShare _
    · exact hsettle _ rfl rfl
    · exact hsettle _ rfl rfl
    · exact hsettle _ rfl rfl
    · exact hheard.after_dropReception
    · exact hheard.after_dropReception

theorem StoreLaw.after_receiveFrame (h : StoreLaw s) (hs : TableLaw s) (key : ClaimKey)
    (bytes : List Byte) : StoreLaw (receiveFrame key bytes s) := by
  have hbump (c : Counter) : StoreLaw (bump c s) := h.of_stored (stored_bump c)
  unfold receiveFrame
  dsimp only
  split
  · exact (hbump _).after_dropReception
  · next f _ =>
    split
    · exact (hbump _).after_dropReception
    · split
      · exact ((hbump _).of_stored (stored_raise _)).after_dropReception
      · cases f with
        | notice n => exact (hbump _).after_takeNotice _ n
        | beacon f => exact (hbump _).after_takeBeacon _ f
        | share x => exact (hbump _).after_takeShare (Forward.of_slots (slots_bump _) hs).1 _ x _

theorem stored_impliedClaim : (impliedClaim s).stored = s.stored := by
  unfold impliedClaim
  split
  · exact stored_foreignClaim
  · rfl

theorem StoreLaw.after_takeHeader (h : StoreLaw s) (bytes : List Byte) :
    StoreLaw (takeHeader bytes s) := by
  unfold takeHeader
  dsimp only
  split
  · split
    · next hc =>
      simp only [Bool.and_eq_true, Option.isNone_iff_eq_none] at hc
      exact (h.of_stored stored_impliedClaim).after_handHeader hc.2 _
    · exact h
  · exact h

theorem StoreLaw.after_gatherBytes {bytes : List Byte} (h : StoreLaw s)
    (ht : gatherBytes bytes s = some t) : StoreLaw t := by
  unfold gatherBytes at ht
  split at ht
  · split at ht
    · cases ht
      exact h.of_stored rfl
    · cases ht
  · next hn =>
    split at ht
    · cases ht
      exact h
    · cases ht
      exact (h.after_handHeader hn _).of_stored rfl

theorem StoreLaw.after_takeFrame (h : StoreLaw s) (hs : TableLaw s) (key : ClaimKey)
    (bytes : List Byte) : StoreLaw (takeFrame key bytes s) := by
  have hcount : (countFrame key bytes s).stored = s.stored := by
    unfold countFrame
    split
    · exact stored_bump _
    · exact stored_bump _
  unfold takeFrame
  dsimp only
  split
  · split
    · next hg =>
      exact ((h.after_gatherBytes hg).after_receiveFrame
        (Forward.of_slots (slots_gatherBytes hg) hs).1 key bytes).of_stored (stored_setLink _)
    · exact h
  · exact h.of_stored hcount
  · exact h

theorem StoreLaw.after_endLinkFrame (h : StoreLaw s) (hs : TableLaw s) (key : ClaimKey)
    (bytes : List Byte) : StoreLaw (endLinkFrame key bytes s) := by
  have hclaim := h.of_stored stored_impliedClaim
  unfold endLinkFrame
  dsimp only
  split
  · exact hclaim.after_takeFrame (Forward.of_slots slots_impliedClaim hs).1 key bytes
  · exact hclaim.of_stored stored_judgeIdle
  · exact hclaim.of_stored stored_judgeIdle
  · exact h

/-! ## Resets and loads (R153, R189, R198, R199) -/

/-- A reset frees every block. -/
theorem storeLaw_of_reset {m : List Host.Cell} (hg : t.gather = .reset m) (ht : t.table = .reset) :
    StoreLaw t := by
  simp [StoreLaw, blocksInPlace, receptionBlocks, hg, ht, Gather.reset, Table.reset]

theorem StoreLaw.after_assertReset (h : StoreLaw s) : StoreLaw (assertReset s) := by
  unfold assertReset
  split
  · exact h
  · exact storeLaw_of_reset rfl rfl

theorem stored_releaseReset (straps : Station) : (releaseReset straps s).stored = s.stored := by
  unfold releaseReset
  split <;> rfl

theorem stored_completeLoad (image : List Byte) : (completeLoad image s).stored = s.stored := by
  unfold completeLoad
  split <;> rfl

theorem stored_faultLoad (image : List Byte) : (faultLoad image s).stored = s.stored := by
  unfold faultLoad
  split <;> rfl

/-! ## The service port -/

theorem stored_assertSelect : (assertSelect s).stored = s.stored := by
  unfold assertSelect
  dsimp only
  split_ifs <;> rfl

theorem stored_cutShort : (cutShort s).stored = s.stored := by
  unfold cutShort
  split
  · rfl
  · exact stored_bump _

theorem StoreLaw.after_deassertSelect (h : StoreLaw s) (straps : Station) :
    StoreLaw (deassertSelect straps s) := by
  unfold deassertSelect
  dsimp only
  split
  · split
    · exact h.of_stored (by rw [meetReload_eq]; rfl)
    · split
      · exact h.of_stored stored_cutShort
      · exact h.of_stored stored_cutShort
      · split
        · exact storeLaw_of_reset rfl rfl
        · exact h.of_stored rfl
      · exact h.of_stored rfl
      · exact h.of_stored rfl
  · exact h

theorem stored_refuseCommand (code : Byte) : (refuseCommand code s).stored = s.stored := stored_bump _

/-- A command without arguments leaves the blocks in place where carrying it out does. -/
theorem stored_plainCommand {carryOut : State → State} (h : (carryOut s).stored = s.stored) :
    (plainCommand carryOut s).stored = s.stored := by
  unfold plainCommand takeCommand
  split_ifs
  · rfl
  · exact h
  · rfl

/-- A command with arguments leaves the blocks in place where carrying it out does. -/
theorem stored_argumentCommand (code : Byte) (bytes : List Byte) {carryOut : List Byte → State → State}
    (h : ∀ args, (carryOut args s).stored = s.stored) :
    (argumentCommand code bytes carryOut s).stored = s.stored := by
  unfold argumentCommand takeCommand
  dsimp only
  split
  · rfl
  · split_ifs
    · rfl
    · exact h _
    · rfl

theorem stored_reportStream (args : List Byte) : (reportStream args s).stored = s.stored := by
  unfold reportStream
  split
  · rfl
  · exact stored_refuseCommand _

theorem stored_setPendingMember (member : Bool) (args : List Byte) :
    (setPendingMember member args s).stored = s.stored := by
  unfold setPendingMember
  split
  · rfl
  · exact stored_refuseCommand _

theorem stored_resumeClock : (resumeClock s).stored = s.stored := by
  unfold resumeClock
  split
  · rfl
  · exact stored_refuseCommand _

/-! ## The passage of time and the step -/

theorem StoreLaw.after_atMoment {due : State → Option Nat} {event : State → State} (h : StoreLaw s)
    (he : ∀ s, StoreLaw s → StoreLaw (event s)) : StoreLaw (atMoment due event s) := by
  rcases atMoment_cases due event s with hs | ⟨d, -, -, hs⟩
  · rwa [hs]
  · rw [hs, momentOf]
    split
    · exact he _ h
    · exact he _ (h.of_stored rfl)

theorem StoreLaw.after_tickLater (h : StoreLaw s) : StoreLaw (tickLater s) := by
  unfold tickLater
  split
  · exact h.after_stallStream _
  · split
    · exact h.after_passClose _
    · split
      · exact h.after_passGather _
      · split
        · exact h.of_stored (stored_passShare _)
        · split
          · exact h.after_silencePeer _
          · exact h.of_stored rfl

theorem StoreLaw.after_tick (h : StoreLaw s) : StoreLaw (tick s) := by
  unfold tick
  split_ifs
  · exact h.of_stored rfl
  · exact h.after_reachBoundary
  · exact h.after_reachSlot
  · exact h.of_stored rfl
  · exact h.after_endDelivery
  · exact h.of_stored rfl
  · exact h.after_expireHoldover
  · exact h.after_tickLater

/-- Every command keeps the blocks, each once; a share is attached to the one record of its tag. -/
theorem StoreLaw.after_exec (h : StoreLaw s) (hs : TableLaw s) (c : Instr)
    (ht : exec c s = .next t) : StoreLaw t := by
  have keeps {f : State → State} (he : exec c s = perform c f s) (hf : StoreLaw (f s)) :
      StoreLaw t := (perform_cases (he ▸ ht)).2 ▸ hf
  have timed {due : State → Option Nat} {event : State → State}
      (he : exec c s = perform c (atMoment due event) s) (hf : ∀ s, StoreLaw s → StoreLaw (event s)) :
      StoreLaw t := keeps he (h.after_atMoment hf)
  have same {f : State → State} (he : exec c s = perform c f s) (hf : (f s).stored = s.stored) :
      StoreLaw t := keeps he (h.of_stored hf)
  cases c with
  | powerOn straps => exact keeps rfl (storeLaw_of_reset rfl rfl)
  | resetPinAssert => exact keeps rfl h.after_assertReset
  | chipSelectDeassert straps => exact keeps rfl (h.after_deassertSelect straps)
  | resetPinRelease straps => exact same rfl (stored_releaseReset straps)
  | loadComplete image => exact same rfl (stored_completeLoad image)
  | loadFault image => exact same rfl (stored_faultLoad image)
  | ppsEdge edge => exact keeps rfl (h.after_takeEdge edge)
  | timeOfDayMessage chars => exact same rfl (stored_endTod chars)
  | localSecondBoundary => exact timed rfl fun _ h => h.after_reachBoundary
  | slotTimeReached => exact timed rfl fun _ h => h.after_reachSlot
  | holdoverEntry => exact timed rfl fun _ h => h.of_stored rfl
  | holdoverLimitExpiry => exact timed rfl fun _ h => h.after_expireHoldover
  | frameStart => exact same rfl stored_takeFrameStart
  | byteEvent b => exact same rfl (stored_takeByte b)
  | frameEnd => exact same rfl stored_takeFrameEnd
  | frameJudgement => exact keeps rfl h.after_judgeHeld
  | stallExpiry n => exact timed rfl fun _ h => h.after_stallStream n
  | closeDeadline tag => exact timed rfl fun _ h => h.after_passClose tag
  | streamResolution => exact same rfl stored_resolveNext
  | closeCompletion => exact keeps rfl h.after_completeClose
  | gatheringDeadline tag => exact timed rfl fun _ h => h.after_passGather tag
  | shareExpiry tag => exact timed rfl fun _ h => h.of_stored (stored_passShare tag)
  | snapshotByteTaken => exact same rfl stored_takeSnapshotByte
  | deliveryEnd => exact keeps rfl h.after_endDelivery
  | markPulseEnd => exact timed rfl fun _ h => h.of_stored rfl
  | claimStart => exact same rfl stored_startClaim
  | claimResolved line => exact same rfl (stored_resolveClaim line)
  | foreignClaimResolved => exact same rfl stored_foreignClaim
  | deferIdleExpiry => exact same rfl stored_deferIdle
  | transmissionComplete => exact same rfl stored_completeSend
  | collision => exact same rfl stored_findMismatch
  | shareHeader bytes => exact keeps rfl (h.after_takeHeader bytes)
  | linkFrameEnd key bytes => exact keeps rfl (h.after_endLinkFrame hs key bytes)
  | silenceExpiry peer => exact timed rfl fun _ h => h.after_silencePeer peer
  | chipSelectAssert => exact same rfl stored_assertSelect
  | readStatus => exact same rfl (stored_plainCommand rfl)
  | readRoster => exact same rfl (stored_plainCommand rfl)
  | readStream args => exact same rfl (stored_argumentCommand _ _ stored_reportStream)
  | readCounters => exact same rfl (stored_plainCommand rfl)
  | readLastDrop => exact same rfl (stored_plainCommand rfl)
  | readResetCause => exact same rfl (stored_plainCommand rfl)
  | clearCounters => exact same rfl (stored_plainCommand rfl)
  | setWait args => exact same rfl (stored_argumentCommand _ _ fun _ => rfl)
  | enableStream args => exact same rfl (stored_argumentCommand _ _ (stored_setPendingMember true))
  | disableStream args => exact same rfl (stored_argumentCommand _ _ (stored_setPendingMember false))
  | resumeClock => exact same rfl (stored_plainCommand stored_resumeClock)
  | ackAttention args => exact same rfl (stored_argumentCommand _ _ fun _ => rfl)
  | reload => exact same rfl (stored_plainCommand rfl)
  | unknownCommand code => exact same rfl (stored_plainCommand (stored_refuseCommand codeUnknown))
  | linkIdleJudged => exact same rfl stored_judgeIdle

/-- Settles O8: every step keeps the blocks, each once. -/
theorem stepKeepsTheStoreLaw : Obligations.StepKeepsTheStoreLaw := by
  unfold Obligations.StepKeepsTheStoreLaw
  intro s t hs h ht
  cases hp : s.pending with
  | nil =>
    rw [step_nil hp] at ht
    cases ht
    exact h.after_tick
  | cons c rest =>
    have hc : exec c (s.setPending rest) = .next t := by simpa only [step, hp] using ht
    exact StoreLaw.after_exec (s := s.setPending rest) h hs c hc

end Sys2Proof.Machine

/-! The cells of an outgoing share (R150): each cell left in carries its stream's role, and a SECONDARY cell is
left out exactly where its primary's stored share has a value for its code. -/

namespace Sys2Proof.Machine

open Sys2Proof

variable {streams : List Stream} {mem : Memory} {r : Record} {cs : List Cell} {st : Stream} {pos : Nat}
  {c d : Cell} {p : Station}

theorem withRole_code (streams : List Stream) (pos : Nat) (c : Cell) :
    (withRole streams pos c).code = c.code := by
  unfold withRole
  split
  · split <;> rfl
  · rfl

theorem withRole_primary (hst : streams[pos]? = some st) (hr : st.entry.role = .primary) :
    withRole streams pos c = { c with secondary := false, primary := 0 } := by
  simp only [withRole, hst, hr]

theorem withRole_secondary (hst : streams[pos]? = some st) (hr : st.entry.role = .secondary p) :
    withRole streams pos c = { c with secondary := true, primary := p.val } := by
  simp only [withRole, hst, hr]

/-- A PRIMARY stream's cell is never left out. -/
theorem leftOut_primary (hst : streams[pos]? = some st) (hr : st.entry.role = .primary) :
    leftOut streams mem r pos c = false := by
  simp only [leftOut, hst, hr]

/-- A SECONDARY stream's cell is left out where its primary's stored share has a value for its code. -/
theorem leftOut_secondary_iff (hst : streams[pos]? = some st) (hr : st.entry.role = .secondary p) :
    leftOut streams mem r pos c = true ↔ ∃ f, storedShare mem r.attachments[p] = some f ∧
      ∃ d ∈ f.cells, d.code = c.code ∧ d.quality ≠ .absent := by
  simp only [leftOut, hst, hr]
  cases storedShare mem r.attachments[p] with
  | none => simp
  | some f => simp [Cell.isValue]

/-- The cells of the outgoing share are those of the record that are not left out. -/
theorem mem_outgoingCells (hcs : r.cells = some cs) : d ∈ outgoingCells streams mem r ↔
    ∃ (k pos : Nat) (c : Cell), r.enabled[k]? = some pos ∧ cs[k]? = some c ∧
      leftOut streams mem r pos c = false ∧ withRole streams pos c = d := by
  have hzip (e : Nat × Cell) : e ∈ r.enabled.zip cs ↔
      ∃ k : Nat, r.enabled[k]? = some e.1 ∧ cs[k]? = some e.2 := by
    simp only [List.mem_iff_getElem?, List.getElem?_zip_eq_some]
  simp only [outgoingCells, hcs, Option.getD_some, List.mem_map, List.mem_filter, hzip, Prod.exists,
    Bool.not_eq_true']
  constructor
  · rintro ⟨pos, c, ⟨⟨k, hpos, hc⟩, hin⟩, rfl⟩
    exact ⟨k, pos, c, hpos, hc, hin, rfl⟩
  · rintro ⟨k, pos, c, hpos, hc, hin, rfl⟩
    exact ⟨pos, c, ⟨⟨k, hpos, hc⟩, hin⟩, rfl⟩

/-- The second halves of pairs stand in the order of the second list. -/
theorem map_snd_zip_sublist {α β : Type} : ∀ (l : List α) (m : List β),
    ((l.zip m).map Prod.snd).Sublist m
  | [], m => m.nil_sublist
  | _ :: _, [] => .slnil
  | _ :: l, b :: m => (map_snd_zip_sublist l m).cons_cons b

/-- The codes of the outgoing share stand in the order of the record's cells. -/
theorem outgoingCells_codes (hcs : r.cells = some cs) :
    ((outgoingCells streams mem r).map (·.code)).Sublist (cs.map (·.code)) := by
  have hcodes : (outgoingCells streams mem r).map (·.code) =
      (((r.enabled.zip cs).filter (fun e => !leftOut streams mem r e.1 e.2)).map Prod.snd).map
        (·.code) := by
    simp only [outgoingCells, hcs, Option.getD_some, List.map_map, Function.comp_def, withRole_code]
  rw [hcodes]
  exact ((List.filter_sublist.map _).trans (map_snd_zip_sublist _ _)).map _

/-- Where codes are distinct, a left-out cell's code is none of the outgoing share's. -/
theorem code_ne_of_leftOut {k : Nat} (hcs : r.cells = some cs) (hpos : r.enabled[k]? = some pos)
    (hc : cs[k]? = some c) (hout : leftOut streams mem r pos c = true)
    (hnodup : (cs.map (·.code)).Nodup) (hd : d ∈ outgoingCells streams mem r) : d.code ≠ c.code := by
  obtain ⟨k', pos', c', hpos', hc', hin, rfl⟩ := (mem_outgoingCells hcs).1 hd
  rw [withRole_code]
  intro hcode
  have hk : k = k' := by
    obtain ⟨hlt, -⟩ := List.getElem?_eq_some_iff.1 hc
    refine (List.getElem?_inj (by simpa using hlt) hnodup).1 ?_
    rw [List.getElem?_map, List.getElem?_map, hc, hc', Option.map_some, Option.map_some, hcode]
  subst hk
  cases hpos.symm.trans hpos'
  cases hc.symm.trans hc'
  rw [hin] at hout
  cases hout

/-- Settles O38: by the role of the cell's stream. -/
theorem outgoingShareLeavesOutCoveredCells : Obligations.OutgoingShareLeavesOutCoveredCells := by
  unfold Obligations.OutgoingShareLeavesOutCoveredCells
  intro streams mem r cs hcs k pos c st hpos hc hst
  refine ⟨fun hr => ?_, fun p hr => ⟨fun hno => ?_, fun hcovered hnodup d hd => ?_⟩,
    outgoingCells_codes hcs⟩
  · exact (mem_outgoingCells hcs).2
      ⟨k, pos, c, hpos, hc, leftOut_primary hst hr, withRole_primary hst hr⟩
  · refine (mem_outgoingCells hcs).2
      ⟨k, pos, c, hpos, hc, Bool.eq_false_iff.2 fun hout => ?_, withRole_secondary hst hr⟩
    obtain ⟨f, hf, d, hd, hcode, hvalue⟩ := (leftOut_secondary_iff hst hr).1 hout
    exact hvalue (hno f hf d hd hcode)
  · exact code_ne_of_leftOut hcs hpos hc ((leftOut_secondary_iff hst hr).2 hcovered) hnodup hd

end Sys2Proof.Machine

/-! A roster entry that a frame moves (R132 to R138): what a valid frame makes of its sender's entry, what a
departure from PRESENT counts and takes out of the expected sets, and what the judgement after it leaves. -/

namespace Sys2Proof.Machine

open Sys2Proof

variable {s t u : State} {q : Record} {i j : Station} {p : Peer} {next : PeerState} {c : Counter}
  {moved : List Counter}

/-! ## One entry -/

theorem updatePeer_same (i : Station) (f : Peer → Peer) (s : State) :
    (updatePeer i f s).gather.roster[i] = f s.gather.roster[i] := by
  simp [updatePeer, State.setGather]

theorem updatePeer_other (f : Peer → Peer) (s : State) (h : j ≠ i) :
    (updatePeer i f s).gather.roster[j] = s.gather.roster[j] := by
  have hij : i.val ≠ j.val := fun he => h (Fin.ext he.symm)
  simp only [updatePeer, State.setGather_gather, Fin.getElem_fin, Vector.getElem_set_ne _ _ hij]

theorem bump_peer (c : Counter) (s : State) (i : Station) :
    (bump c s).gather.roster[i] = s.gather.roster[i] := by
  rw [bump_gather]

/-! ## A judgement's records (R79) -/

/-- A judgement leaves every record's tag, attachments and expected set. -/
theorem judge_record (hq : q ∈ (judge s).table.records) : ∃ p ∈ s.table.records,
    p.tag = q.tag ∧ q.attachments = p.attachments ∧ q.expected = p.expected := by
  refine judgeUpTo_keeps (P := fun t => ∀ q ∈ t.table.records, ∃ p ∈ s.table.records,
    p.tag = q.tag ∧ q.attachments = p.attachments ∧ q.expected = p.expected)
    (fun t r h _ q hq => ?_) _ s (fun q hq => ⟨q, hq, rfl, rfl, rfl⟩) q hq
  unfold leaveGathering at hq
  split at hq
  · rw [takeRecord_table, updateRecord_eq] at hq
    obtain ⟨p, hp, rfl⟩ := List.mem_map.1 hq
    split
    · exact h p hp
    · exact h p hp
  · rw [reportSkip, State.setAssembler_table, bump_table, freeRecords_eq] at hq
    exact h q (List.mem_filter.1 hq).1

/-! ## A departure (R138) -/

theorem leavePresent_peer (i : Station) (next : PeerState) (s : State) :
    (leavePresent i next s).gather.roster[i] = { s.gather.roster[i] with state := next } := by
  unfold leavePresent
  split
  · exact (bump_peer _ _ _).trans (updatePeer_same _ _ _)
  · exact updatePeer_same _ _ _

theorem leavePresent_count (h : c ≠ .peerSilent) (i : Station) (next : PeerState) (s : State) :
    (leavePresent i next s).count c = s.count c := by
  unfold leavePresent
  split
  · exact count_bump_other h
  · rfl

theorem leavePresent_records (h : s.gather.roster[i].state = .present) (next : PeerState) :
    (leavePresent i next s).table.records =
      s.table.records.map (fun r => if r.state = .gathering then r.unexpecting i else r) := by
  unfold leavePresent
  rw [if_pos h, unexpect, withRecords_records, bump_table]
  rfl

theorem leavePresent_of_absent (h : s.gather.roster[i].state ≠ .present) (next : PeerState) :
    leavePresent i next s = updatePeer i (fun p => { p with state := next }) s := if_neg h

/-- From one state to the next a station's entry takes a value, and where it leaves PRESENT the departure is
counted and no GATHERING record expects the station; the listed counters and those of a judgement aside, no
other counter moves. -/
structure EntryTakes (i : Station) (p : Peer) (moved : List Counter) (s t : State) : Prop where
  entry : t.gather.roster[i] = p
  counts : ∀ c, c ∉ moved → c ≠ .peerSilent → c ∉ examineCounters → t.count c = s.count c
  leaves : s.gather.roster[i].state = .present → p.state ≠ .present →
    t.count .peerSilent = min (s.count .peerSilent + 1) 65535 ∧
      ∀ q ∈ t.table.records, q.state = .gathering → i ∉ q.expected.getD []
  stays : s.gather.roster[i].state ≠ .present ∨ p.state = .present →
    t.count .peerSilent = s.count .peerSilent

/-- An entry changed that does not leave PRESENT. -/
theorem entryTakes_of_roster (he : t.gather.roster[i] = p) (hc : t.counters = s.counters)
    (hp : s.gather.roster[i].state = .present → p.state = .present) : EntryTakes i p moved s t := by
  have hcount (c : Counter) : t.count c = s.count c := by rw [State.count, hc]; rfl
  exact ⟨he, fun c _ _ _ => hcount c, fun h hn => absurd (hp h) hn, fun _ => hcount _⟩

/-- What comes before may change the entry within its state and move counters of its own. -/
theorem EntryTakes.after (h : EntryTakes i p moved u t)
    (hs : u.gather.roster[i].state = s.gather.roster[i].state)
    (hc : ∀ c, c ∉ moved → u.count c = s.count c) (hm : Counter.peerSilent ∉ moved) :
    EntryTakes i p moved s t := by
  obtain ⟨hentry, hcounts, hleaves, hstays⟩ := h
  rw [hs, hc _ hm] at hleaves hstays
  exact ⟨hentry, fun c hn hp he => (hcounts c hn hp he).trans (hc c hn), hleaves, hstays⟩

/-- An entry that takes a state other than PRESENT, and the judgement that follows (R138). -/
theorem judge_leavePresent_takes (hn : next ≠ .present) (i : Station) (s : State) :
    EntryTakes i { s.gather.roster[i] with state := next } moved s (judge (leavePresent i next s)) := by
  refine ⟨?_, fun c _ hc he => ?_, fun hp _ => ⟨?_, fun q hq hg hi => ?_⟩, fun h => ?_⟩
  · rw [judge_roster]
    exact leavePresent_peer i next s
  · rw [judge_count he, leavePresent_count hc]
  · rw [judge_count (by decide), leavePresent, if_pos hp]
    exact count_bump_same _
  · have hq := judge_gathering hq hg
    rw [leavePresent_records hp] at hq
    obtain ⟨r, -, rfl⟩ := List.mem_map.1 hq
    by_cases hr : r.state = .gathering
    · rw [if_pos hr] at hi
      exact (mem_unexpecting.1 hi).2 rfl
    · rw [if_neg hr] at hg
      exact hr hg
  · have ha : s.gather.roster[i].state ≠ .present := h.resolve_right hn
    rw [judge_count (by decide), leavePresent_of_absent ha]
    rfl

/-- The entry of a peer that differs (R137, R138). -/
theorem mismatch_takes (i : Station) (s : State) :
    EntryTakes i { s.gather.roster[i] with state := .mismatched } [.mismatch] s (mismatch i s) ∧
      (mismatch i s).count .mismatch = min (s.count .mismatch + 1) 65535 := by
  have h {moved : List Counter} := judge_leavePresent_takes (next := .mismatched) (moved := moved)
    (by decide) i (bump .mismatch s)
  rw [bump_peer] at h
  refine ⟨h.after (congrArg Peer.state (bump_peer _ s i)) (fun c hc => ?_) (by decide), ?_⟩
  · exact count_bump_other (by simpa using hc)
  · exact (h.counts (moved := []) _ (by simp) (by decide) (by decide)).trans (count_bump_same _)

/-- A departure and its judgement leave every record's tag and attachments. -/
theorem judge_leavePresent_attachments (hq : q ∈ (judge (leavePresent i next s)).table.records) :
    ∃ r ∈ s.table.records, r.tag = q.tag ∧ q.attachments = r.attachments := by
  obtain ⟨p, hp, htag, hatt, -⟩ := judge_record hq
  by_cases h : s.gather.roster[i].state = .present
  · rw [leavePresent_records h] at hp
    obtain ⟨r, hr, rfl⟩ := List.mem_map.1 hp
    refine ⟨r, hr, ?_⟩
    split at htag
    · next hg => rw [if_pos hg] at hatt; exact ⟨htag, hatt⟩
    · next hg => rw [if_neg hg] at hatt; exact ⟨htag, hatt⟩
  · rw [leavePresent_of_absent h] at hp
    exact ⟨p, hp, htag, hatt⟩

end Sys2Proof.Machine

/-! A share that is refused and one that differs (R133, R137, R138, R142, R144). -/

namespace Sys2Proof.Machine

open Sys2Proof

variable {s u : State} {r : Record} {rec : Reception} {key : ClaimKey} {b : List Byte}
  {f : ShareFrame} {i : Station} {tag : Tag} {c : Counter}

/-! ## The tests of R142 -/

theorem matchShare_ahead (h : newerThanOpened s.clock.newest tag = true) :
    matchShare s i tag = .ahead := if_pos h

/-- A tag opened whose record is held is judged by that record. -/
theorem matchShare_held (hn : newerThanOpened s.clock.newest tag = false)
    (hr : recordOf tag s.table.records = some r) : matchShare s i tag =
      if r.state = .draining then .late else if r.attachments[i] ≠ .none then .duplicate
      else .accepted := by
  unfold matchShare
  rw [if_neg (by simp [hn]), hr]

/-- A tag opened whose record is not held is judged by the oldest record. -/
theorem matchShare_gone (hn : newerThanOpened s.clock.newest tag = false)
    (hr : recordOf tag s.table.records = none) : matchShare s i tag =
      s.table.records.head?.elim .orphan fun q => if tag.older q.tag then .late else .orphan := by
  unfold matchShare
  rw [if_neg (by simp [hn]), hr]
  cases s.table.records <;> rfl

/-- The counter of a refusal, none where the share is accepted (R144). -/
def Match.counter : Match → Option Counter
  | .ahead => some .aheadShare
  | .late => some .lateShare
  | .duplicate => some .duplicateShare
  | .orphan => some .orphanShare
  | .accepted => none

theorem match_counter {m : Match} (h : m = .ahead ∧ c = .aheadShare ∨ m = .late ∧ c = .lateShare ∨
    m = .duplicate ∧ c = .duplicateShare ∨ m = .orphan ∧ c = .orphanShare) : m.counter = some c := by
  rcases h with ⟨rfl, rfl⟩ | ⟨rfl, rfl⟩ | ⟨rfl, rfl⟩ | ⟨rfl, rfl⟩ <;> rfl

theorem match_counter_received {m : Match} (h : m.counter = some c) : c ≠ .linkFramesReceived := by
  rintro rfl
  cases m <;> cases h

theorem settleMatch_refuses (h : (matchShare s i tag).counter = some c) (length : Nat) :
    settleMatch i tag length s = refuseShare c s := by
  unfold settleMatch
  cases hm : matchShare s i tag with
  | accepted => rw [hm] at h; cases h
  | _ => rw [hm] at h; cases h; rfl

/-! ## The frame's end up to the refusal (R121, R126, R133) -/

/-- The node with a valid share counted, its bytes in the reception's blocks (R121, R126). -/
def shareCounted (rec : Reception) (b : List Byte) (s : State) : State :=
  bump .linkFramesReceived (storeFrame rec b s)

theorem shareCounted_peer (rec : Reception) (b : List Byte) (s : State) (i : Station) :
    (shareCounted rec b s).gather.roster[i] = s.gather.roster[i] := bump_peer _ _ _

theorem shareCounted_loader (rec : Reception) (b : List Byte) (s : State) :
    (shareCounted rec b s).loader = s.loader := bump_loader _

/-- The roster's rules on a valid share from a configured peer are what its frame's end does. -/
theorem exec_linkFrameEnd_share (hl : s.loader.state = .loaded) (hm : s.link.medium = .foreign)
    (hrec : s.gather.reception = some rec) (hh : shareHeaderOf b = some rec.header)
    (hf : checkForm key b = .ok (.share f)) (hi : keyStation key ∈ s.loader.shared.stations)
    (hstrap : keyStation key ≠ s.loader.strap) : exec (.linkFrameEnd key b) s =
      .next (quiet (takeShare (keyStation key) f b.length (shareCounted rec b s))) := by
  rw [exec_next (effect := endLinkFrame key b) rfl rfl, endLinkFrame_share hl hm hrec hh hf hi hstrap]
  rfl

theorem shareCounted_arrives (hrec : s.gather.reception = some rec) (b : List Byte) :
    ShareArrives s rec b (shareCounted rec b s) := counted_arrives hrec b

theorem ShareArrives.heard (h : ShareArrives s rec b u) (i : Station) (k : ClockState) :
    ShareArrives s rec b (heard i k u) := h.updatePeer i _

theorem ShareArrives.entered (h : ShareArrives s rec b u) :
    ShareArrives s rec b (enterPresent i u) := h.updatePeer i _

/-- The matching reads nothing that the arrival changes. -/
theorem ShareArrives.matchShare (h : ShareArrives s rec b u) (i : Station) (tag : Tag) :
    matchShare u i tag = Machine.matchShare s i tag := by
  unfold Machine.matchShare
  rw [h.clock, h.table]

/-- A reception dropped after the arrival: its blocks at the free list's tail. -/
theorem quiet_dropReception_of_reception (h : u.gather.reception = some rec) :
    quiet (dropReception u) = { u with
      gather := { u.gather with free := u.gather.free ++ rec.blocks, reception := none }
      link := { u.link with medium := .idle } } := by
  rw [dropReception_some h]
  rfl

/-- What a share refused at its frame's end leaves (R144). -/
theorem ShareArrives.refused (h : ShareArrives s rec b u) (hc : c ≠ .linkFramesReceived) :
    (quiet (refuseShare c u)).count c = min (s.count c + 1) 65535 ∧
    (quiet (refuseShare c u)).gather.free = s.gather.free ++ rec.blocks ∧
    (quiet (refuseShare c u)).gather.reception = none ∧
    (quiet (refuseShare c u)).table = s.table ∧
    ∀ j : Station, (quiet (refuseShare c u)).gather.roster[j] = u.gather.roster[j] := by
  have hrec : (bump c u).gather.reception = some rec := by rw [bump_gather]; exact h.reception
  rw [refuseShare, quiet_dropReception_of_reception hrec]
  refine ⟨?_, ?_, rfl, (bump_table c).trans h.table, fun j => bump_peer c u j⟩
  · exact (count_bump_same c).trans (by rw [h.counts c hc])
  · exact congrArg (· ++ rec.blocks) ((congrArg Gather.free (bump_gather c)).trans h.free)

/-- A share that agrees, from a MISMATCHED peer, is refused (R142). -/
theorem takeShare_mismatched (ha : agrees s f.slotRate f.digest = true)
    (hp : s.gather.roster[i].state = .mismatched) (length : Nat) :
    takeShare i f length s = refuseShare .mismatchedShare (heard i f.clock s) := by
  have hstate : (heard i f.clock s).gather.roster[i].state = .mismatched := by rw [heard_peer, hp]
  unfold takeShare
  simp only [ha, hstate]
  rfl

/-- A share that differs makes its sender MISMATCHED (R137). -/
theorem takeShare_differs (ha : agrees s f.slotRate f.digest = false) (length : Nat) :
    takeShare i f length s = dropReception (mismatch i (heard i f.clock s)) := by
  unfold takeShare
  simp only [ha, Bool.not_false, if_true]

/-! ## The refusal with its sender's entry (R133, R144) -/

/-- A share from a MISMATCHED or PRESENT peer, refused: the peer is heard. -/
theorem takeShare_refused (hr : f.slotRate.toNat = s.loader.shared.slotRate.perSecond)
    (hd : f.digest = s.loader.shared.digest)
    (h : s.gather.roster[i].state = .mismatched ∧ c = .mismatchedShare ∨
      s.gather.roster[i].state = .present ∧ (matchShare s i f.tag).counter = some c)
    (hrec : s.gather.reception = some rec) (b : List Byte) (length : Nat) :
    takeShare i f length (shareCounted rec b s) =
      refuseShare c (heard i f.clock (shareCounted rec b s)) := by
  have hagrees : agrees (shareCounted rec b s) f.slotRate f.digest = true := by
    apply agrees_of_eq
    all_goals rw [shareCounted_loader]; assumption
  have hpeer := congrArg Peer.state (shareCounted_peer rec b s i)
  have harrives := (shareCounted_arrives hrec b).heard i f.clock
  rcases h with ⟨hp, rfl⟩ | ⟨hp, hm⟩
  · exact takeShare_mismatched hagrees (hpeer.trans hp) length
  · rw [takeShare_matches hagrees (.inl (hpeer.trans hp)), if_pos (hpeer.trans hp)]
    exact settleMatch_refuses (by rwa [harrives.matchShare]) length

/-- A share from an UNHEARD or SILENT peer, refused: the peer is heard and PRESENT all the same. -/
theorem takeShare_refused_enters (hr : f.slotRate.toNat = s.loader.shared.slotRate.perSecond)
    (hd : f.digest = s.loader.shared.digest)
    (hp : s.gather.roster[i].state = .unheard ∨ s.gather.roster[i].state = .silent)
    (hm : (matchShare s i f.tag).counter = some c) (hrec : s.gather.reception = some rec)
    (b : List Byte) (length : Nat) : takeShare i f length (shareCounted rec b s) =
      refuseShare c (enterPresent i (heard i f.clock (shareCounted rec b s))) := by
  have hagrees : agrees (shareCounted rec b s) f.slotRate f.digest = true := by
    apply agrees_of_eq
    all_goals rw [shareCounted_loader]; assumption
  have hpeer := congrArg Peer.state (shareCounted_peer rec b s i)
  have hne : (shareCounted rec b s).gather.roster[i].state ≠ .present := by
    rw [hpeer]
    rcases hp with hp | hp <;> rw [hp] <;> decide
  have harrives := ((shareCounted_arrives hrec b).heard i f.clock).entered (i := i)
  rw [takeShare_matches hagrees (.inr (hpeer ▸ hp)), if_neg hne]
  exact settleMatch_refuses (by rwa [harrives.matchShare]) length

/-! ## A share that differs (R137, R138) -/

/-- What a departure and its judgement leave of the free list and the reception. -/
theorem mismatch_blocks (i : Station) (s : State) :
    (mismatch i s).gather.reception = s.gather.reception ∧
      ∀ k ∈ s.gather.free, k ∈ (mismatch i s).gather.free := by
  have hleft : (leavePresent i .mismatched (bump .mismatch s)).gather.free = s.gather.free := by
    rw [show (leavePresent i .mismatched (bump .mismatch s)).gather.free = _ from
      leavePresent_frame i .mismatched .freeList (by decide), bump_gather]
  have hheld : (leavePresent i .mismatched (bump .mismatch s)).gather.reception =
      s.gather.reception := by
    rw [show (leavePresent i .mismatched (bump .mismatch s)).gather.reception = _ from
      leavePresent_frame i .mismatched .reception (by decide), bump_gather]
  have hjudged : (mismatch i s).gather.reception =
      (leavePresent i .mismatched (bump .mismatch s)).gather.reception :=
    judge_frame (s := leavePresent i .mismatched (bump .mismatch s)) .reception (by decide)
  exact ⟨hjudged.trans hheld, fun k hk => judgeUpTo_free _ (hleft ▸ hk)⟩

/-- What a share that differs leaves at its frame's end (R137, R138, R144). -/
theorem ShareArrives.differs (h : ShareArrives s rec b u) (i : Station) {t : State}
    (ht : t = quiet (dropReception (mismatch i u))) :
    t.gather.reception = none ∧ (∀ k ∈ s.gather.free ++ rec.blocks, k ∈ t.gather.free) ∧
    t.count .mismatch = min (s.count .mismatch + 1) 65535 ∧
    t.count .mismatchedShare = s.count .mismatchedShare ∧
    t.gather.roster[i] = { u.gather.roster[i] with state := .mismatched } ∧
    (∀ q ∈ t.table.records, ∃ r ∈ s.table.records, r.tag = q.tag ∧ q.attachments = r.attachments) ∧
    (u.gather.roster[i].state = .present →
      t.count .peerSilent = min (s.count .peerSilent + 1) 65535 ∧
      ∀ q ∈ t.table.records, q.state = .gathering → i ∉ q.expected.getD []) := by
  obtain ⟨hreception, hfree⟩ := mismatch_blocks i u
  obtain ⟨⟨hentry, hcounts, hleaves, -⟩, hmismatch⟩ := mismatch_takes i u
  rw [quiet_dropReception_of_reception (hreception.trans h.reception)] at ht
  rw [h.counts _ (by decide)] at hmismatch hleaves
  subst ht
  refine ⟨rfl, fun k hk => ?_, hmismatch, ?_, hentry, fun q hq => ?_, fun hp => hleaves hp (by simp)⟩
  · rcases List.mem_append.1 hk with hk | hk
    · exact List.mem_append_left _ (hfree k (h.free ▸ hk))
    · exact List.mem_append_right _ hk
  · exact (hcounts _ (by decide) (by decide) (by decide)).trans (h.counts _ (by decide))
  · obtain ⟨r, hr, hkeeps⟩ := judge_leavePresent_attachments hq
    rw [bump_table, h.table] at hr
    exact ⟨r, hr, hkeeps⟩

/-- Settles O51: the tests in order, the refusals by the sender's entry, and a share that differs. -/
theorem shareTagsAreMatchedInOrder : Obligations.ShareTagsAreMatchedInOrder := by
  unfold Obligations.ShareTagsAreMatchedInOrder
  refine ⟨fun s i tag => ⟨fun h => matchShare_ahead ?_, fun n hn hold => ⟨fun r hr => ?_, fun hr => ?_⟩⟩,
    fun s key b i f rec c hl hm hrec hh hf hi hist hstrap hrate hdig hc => ?_,
    fun s key b i f rec c hl hm hrec hh hf hi hist hstrap hrate hdig hp hc => ?_,
    fun s key b i f rec hl hm hrec hh hf hi hist hstrap hdiff => ?_⟩
  · rcases h with h | ⟨n, hn, h⟩
    · rw [h]; rfl
    · rw [hn]; exact h
  · have hopened : newerThanOpened s.clock.newest tag = false := by rw [hn]; exact hold
    rw [matchShare_held hopened hr]
    exact ⟨fun hd => if_pos hd, fun hd ha => (if_neg hd).trans (if_pos ha),
      fun hd ha => (if_neg hd).trans (if_neg (not_not.2 ha))⟩
  · have hopened : newerThanOpened s.clock.newest tag = false := by rw [hn]; exact hold
    rw [matchShare_gone hopened hr]
    cases s.table.records with
    | nil => exact ⟨fun r hr => (nomatch hr), fun _ => rfl⟩
    | cons q rest => exact ⟨fun r hr ht => by cases hr; exact if_pos ht,
        fun ht => if_neg (by simp [ht q rfl])⟩
  · subst hi
    have hc' : s.gather.roster[keyStation key].state = .mismatched ∧ c = .mismatchedShare ∨
        s.gather.roster[keyStation key].state = .present ∧
          (matchShare s (keyStation key) f.tag).counter = some c :=
      hc.imp id fun ⟨hp, hm⟩ => ⟨hp, match_counter hm⟩
    have hne : c ≠ .linkFramesReceived := by
      rcases hc' with ⟨-, rfl⟩ | ⟨-, hm⟩
      · decide
      · exact match_counter_received hm
    rw [exec_linkFrameEnd_share hl hm hrec hh hf hist hstrap, takeShare_refused hrate hdig hc' hrec]
    obtain ⟨hcount, hfree, hreception, htable, hroster⟩ :=
      ((shareCounted_arrives hrec b).heard (keyStation key) f.clock).refused hne
    refine ⟨_, rfl, hcount, hfree, hreception, htable, (hroster _).trans ?_⟩
    rw [heard_peer, shareCounted_peer]
  · subst hi
    have hm' := match_counter hc
    rw [exec_linkFrameEnd_share hl hm hrec hh hf hist hstrap,
      takeShare_refused_enters hrate hdig hp hm' hrec]
    obtain ⟨hcount, hfree, hreception, htable, hroster⟩ :=
      ((shareCounted_arrives hrec b).heard (keyStation key) f.clock).entered.refused
        (match_counter_received hm')
    refine ⟨_, rfl, hcount, hfree, hreception, htable, (hroster _).trans ?_, fun j hj =>
      (hroster j).trans ?_⟩
    · rw [enterPresent_peer, heard_peer, shareCounted_peer]
    · rw [enterPresent, heard, updatePeer_other _ _ hj, updatePeer_other _ _ hj, shareCounted_peer]
  · subst hi
    have hagrees : agrees (shareCounted rec b s) f.slotRate f.digest = false := by
      rw [Bool.eq_false_iff, ne_eq, agrees_iff, shareCounted_loader]
      tauto
    rw [exec_linkFrameEnd_share hl hm hrec hh hf hist hstrap, takeShare_differs hagrees]
    obtain ⟨hreception, hfree, hmismatch, hcount, hpeer, hrecords, hleaves⟩ :=
      ((shareCounted_arrives hrec b).heard (keyStation key) f.clock).differs (keyStation key) rfl
    have hentry : (heard (keyStation key) f.clock (shareCounted rec b s)).gather.roster[keyStation key] =
        { s.gather.roster[keyStation key] with silence := some 0, lastClock := some f.clock } := by
      rw [heard_peer, shareCounted_peer]
    rw [hentry] at hpeer hleaves
    exact ⟨_, rfl, hmismatch, hcount, hpeer, hreception, hfree, hrecords, hleaves⟩

end Sys2Proof.Machine

/-! A beacon and a notice at the roster (R132, R134, R137, R138, R148, R149). -/

namespace Sys2Proof.Machine

open Sys2Proof

variable {s : State} {key : ClaimKey} {b : List Byte} {f : BeaconFrame} {i : Station}

/-! ## A frame that is no share's at its end (R121, R126) -/

theorem parse_of_checkForm {f : LinkFrame} (h : checkForm key b = .ok f) :
    parseLinkFrame key b = some f := by
  unfold checkForm at h
  split_ifs at h
  split at h
  · cases h
  · next hf => cases h; exact hf

/-- A frame of another kind than SHARE has no header to hand over. -/
theorem shareHeaderOf_of_kind (h : field b 0 1 % 16 ≠ 1) : shareHeaderOf b = none := by
  refine if_neg fun ⟨_, hkind, _⟩ => h ?_
  unfold frameKind at hkind
  split at hkind
  · exact Option.some.inj hkind
  · cases hkind

/-- A frame without a share's header, from a configured peer and with no reception open, is counted and
handed on by its kind. -/
theorem exec_linkFrameEnd_handOn {f : LinkFrame} (hl : s.loader.state = .loaded)
    (hm : s.link.medium = .foreign) (hrec : s.gather.reception = none) (hh : shareHeaderOf b = none)
    (hf : checkForm key b = .ok f) (hi : keyStation key ∈ s.loader.shared.stations)
    (hstrap : keyStation key ≠ s.loader.strap) :
    exec (.linkFrameEnd key b) s = .next (quiet (handOn (keyStation key) f b.length s)) := by
  have hgather : gatherBytes b s = some s := by
    unfold gatherBytes
    rw [hrec, hh]
  have hreceive : receiveFrame key b s = handOn (keyStation key) f b.length s := by
    unfold receiveFrame
    rw [hf]
    exact (if_neg (not_not.2 hi)).trans (if_neg hstrap)
  rw [exec_linkFrameEnd_loaded hl hm hgather, hreceive]

/-! ## A beacon (R132, R137) -/

/-- An entry with a beacon's values (R132). -/
def Peer.beaconHeard (f : BeaconFrame) (p : Peer) : Peer :=
  { p with
    silence := some 0, lastClock := some f.clock
    lastEffective := some (f.wait.toNat, f.grace.toNat), lastBeacon := some f.second }

/-- The node with a beacon's values in its sender's entry, before the entry moves. -/
def hearBeacon (i : Station) (f : BeaconFrame) (s : State) : State :=
  updatePeer i (fun p => { p with
    lastEffective := some (f.wait.toNat, f.grace.toNat), lastBeacon := some f.second })
    (heard i f.clock s)

theorem hearBeacon_peer (i : Station) (f : BeaconFrame) (s : State) :
    (hearBeacon i f s).gather.roster[i] = s.gather.roster[i].beaconHeard f := by
  rw [hearBeacon, updatePeer_same, heard_peer]
  rfl

theorem hearBeacon_state (i : Station) (f : BeaconFrame) (s : State) :
    (hearBeacon i f s).gather.roster[i].state = s.gather.roster[i].state := by
  rw [hearBeacon_peer]
  rfl

theorem takeBeacon_differs (ha : agrees s f.slotRate f.digest = false) :
    takeBeacon i f s = mismatch i (hearBeacon i f s) := by
  unfold takeBeacon
  simp only [ha, Bool.not_false, if_true]
  rfl

/-- A beacon that agrees, by its clock state and its sender's entry. -/
theorem takeBeacon_agrees (ha : agrees s f.slotRate f.digest = true)
    (hu : s.gather.roster[i].state ≠ .unconfigured) (hlocal : s.gather.roster[i].state ≠ .local_) :
    takeBeacon i f s =
      if qualifies f.clock = true then
        if s.gather.roster[i].state = .present then hearBeacon i f s
        else enterPresent i (hearBeacon i f s)
      else if s.gather.roster[i].state = .present then
        judge (leavePresent i .silent (hearBeacon i f s))
      else hearBeacon i f s := by
  have hmatch : takeBeacon i f s =
      match qualifies f.clock, (hearBeacon i f s).gather.roster[i].state with
      | true, .unheard => enterPresent i (hearBeacon i f s)
      | true, .silent => enterPresent i (hearBeacon i f s)
      | true, .mismatched => enterPresent i (hearBeacon i f s)
      | false, .present => judge (leavePresent i .silent (hearBeacon i f s))
      | _, _ => hearBeacon i f s := by
    exact if_neg (by rw [ha]; decide)
  rw [hmatch, hearBeacon_state]
  cases hp : s.gather.roster[i].state with
  | unconfigured => exact absurd hp hu
  | local_ => exact absurd hp hlocal
  | unheard => cases qualifies f.clock <;> rfl
  | present => cases qualifies f.clock <;> rfl
  | silent => cases qualifies f.clock <;> rfl
  | mismatched => cases qualifies f.clock <;> rfl

/-- The table of R132 on the entry of a configured peer. -/
def Peer.afterBeacon (f : BeaconFrame) (agree : Bool) (p : Peer) : Peer :=
  if agree = false then { p.beaconHeard f with state := .mismatched }
  else if qualifies f.clock = true then
    if p.state = .present then p.beaconHeard f
    else { p.beaconHeard f with state := .present, misses := 0 }
  else if p.state = .present then { p.beaconHeard f with state := .silent }
  else p.beaconHeard f

/-- Whatever a beacon makes of an entry, it has the beacon's values. -/
theorem afterBeacon_values (f : BeaconFrame) (agree : Bool) (p : Peer) :
    (p.afterBeacon f agree).silence = some 0 ∧ (p.afterBeacon f agree).lastClock = some f.clock ∧
    (p.afterBeacon f agree).lastEffective = some (f.wait.toNat, f.grace.toNat) ∧
    (p.afterBeacon f agree).lastBeacon = some f.second := by
  unfold Peer.afterBeacon
  split_ifs <;> exact ⟨rfl, rfl, rfl, rfl⟩

theorem afterBeacon_qualifies (hq : qualifies f.clock = true) (p : Peer) :
    (p.afterBeacon f true).state = .present ∧
      (p.state ≠ .present → (p.afterBeacon f true).misses = 0) := by
  unfold Peer.afterBeacon
  rw [if_neg Bool.noConfusion, if_pos hq]
  split
  · next hp => exact ⟨hp, fun hn => absurd hp hn⟩
  · exact ⟨rfl, fun _ => rfl⟩

theorem afterBeacon_departs (hq : qualifies f.clock = false) (p : Peer) :
    (p.afterBeacon f true).state = if p.state = .present then .silent else p.state := by
  unfold Peer.afterBeacon
  rw [if_neg Bool.noConfusion, if_neg (by simp [hq])]
  split <;> rfl

/-- The counters that a beacon moves but for a departure's and a judgement's (R137). -/
def beaconCounters (agree : Bool) : List Counter := if agree then [] else [.mismatch]

/-- A beacon moves its sender's entry by the table of R132. -/
theorem takeBeacon_takes (hu : s.gather.roster[i].state ≠ .unconfigured)
    (hlocal : s.gather.roster[i].state ≠ .local_) (f : BeaconFrame) :
    EntryTakes i (s.gather.roster[i].afterBeacon f (agrees s f.slotRate f.digest))
      (beaconCounters (agrees s f.slotRate f.digest)) s (takeBeacon i f s) ∧
    (agrees s f.slotRate f.digest = false →
      (takeBeacon i f s).count .mismatch = min (s.count .mismatch + 1) 65535) := by
  cases ha : agrees s f.slotRate f.digest with
  | false =>
    obtain ⟨htakes, hcount⟩ := mismatch_takes i (hearBeacon i f s)
    rw [hearBeacon_peer] at htakes
    rw [takeBeacon_differs ha]
    exact ⟨htakes.after (hearBeacon_state i f s) (fun _ _ => rfl) (by decide), fun _ => hcount⟩
  | true =>
    refine ⟨?_, nofun⟩
    have hstays : EntryTakes i (s.gather.roster[i].beaconHeard f) [] s (hearBeacon i f s) :=
      entryTakes_of_roster (hearBeacon_peer i f s) rfl id
    have henters : EntryTakes i
        { s.gather.roster[i].beaconHeard f with state := .present, misses := 0 } [] s
        (enterPresent i (hearBeacon i f s)) :=
      entryTakes_of_roster (by rw [enterPresent_peer, hearBeacon_peer]) rfl fun _ => rfl
    have hleaves := judge_leavePresent_takes (next := .silent) (moved := []) (by decide) i
      (hearBeacon i f s)
    rw [hearBeacon_peer] at hleaves
    have hleaves := hleaves.after (hearBeacon_state i f s) (fun _ _ => rfl) (by simp)
    rw [takeBeacon_agrees ha hu hlocal]
    unfold Peer.afterBeacon
    rw [if_neg Bool.noConfusion]
    split_ifs
    · exact hstays
    · exact henters
    · exact hleaves
    · exact hstays

/-- Settles O52: the entry by the table of R132, and what its departure counts. -/
theorem beaconUpdatesTheRoster : Obligations.BeaconUpdatesTheRoster := by
  unfold Obligations.BeaconUpdatesTheRoster
  intro s key b i f hl hm hrec hf hi hist hstrap hu hlocal
  subst hi
  have hh : shareHeaderOf b = none := by
    obtain ⟨hkind, -⟩ := parseLinkFrame_reads (parse_of_checkForm hf)
    exact shareHeaderOf_of_kind (by omega)
  have hpeer := bump_peer .linkFramesReceived s (keyStation key)
  obtain ⟨⟨hentry, hcounts, hleaves, hstays⟩, hmismatch⟩ := takeBeacon_takes
    (s := bump .linkFramesReceived s) (i := keyStation key) (by rwa [hpeer]) (by rwa [hpeer]) f
  have hother : ∀ c, c ≠ .linkFramesReceived → (bump .linkFramesReceived s).count c = s.count c :=
    fun c hc => count_bump_other hc
  rw [hpeer] at hentry hleaves hstays
  rw [hother _ (by decide)] at hmismatch hleaves hstays
  have hagrees := agrees_iff (s := bump .linkFramesReceived s) (rate := f.slotRate) (digest := f.digest)
  rw [bump_loader] at hagrees
  generalize agrees (bump .linkFramesReceived s) f.slotRate f.digest = agree at *
  obtain ⟨hsilence, hclock, heffective, hbeacon⟩ :=
    afterBeacon_values f agree s.gather.roster[keyStation key]
  rw [exec_linkFrameEnd_handOn hl hm hrec hh hf hist hstrap]
  refine ⟨_, rfl, ?_, ?_, ?_, ?_, ?_, fun hdiff => ?_, fun hrate hdig => ⟨fun hc => ?_, fun hc => ?_⟩,
    fun hp hn => hleaves hp ?_, fun hn => hstays (.inl hn)⟩
  · refine (hcounts _ ?_ (by decide) (by decide)).trans (count_bump_same _)
    cases agree <;> decide
  · exact (congrArg Peer.silence hentry).trans hsilence
  · exact (congrArg Peer.lastClock hentry).trans hclock
  · exact (congrArg Peer.lastEffective hentry).trans heffective
  · exact (congrArg Peer.lastBeacon hentry).trans hbeacon
  · obtain rfl : agree = false := Bool.eq_false_iff.2 (by tauto)
    exact ⟨congrArg Peer.state hentry, hmismatch rfl⟩
  · obtain rfl : agree = true := hagrees.2 ⟨hrate, hdig⟩
    obtain ⟨hpresent, hmisses⟩ := afterBeacon_qualifies
      (f := f) (by rcases hc with hc | hc | hc <;> rw [hc] <;> rfl) s.gather.roster[keyStation key]
    exact ⟨(congrArg Peer.state hentry).trans hpresent,
      fun hn => (congrArg Peer.misses hentry).trans (hmisses hn)⟩
  · obtain rfl : agree = true := hagrees.2 ⟨hrate, hdig⟩
    have hstate := afterBeacon_departs
      (f := f) (by rcases hc with hc | hc <;> rw [hc] <;> rfl) s.gather.roster[keyStation key]
    refine ⟨(congrArg Peer.state hentry).trans hstate, fun hp => (hleaves hp ?_).2⟩
    rw [hstate, if_pos hp]
    decide
  · exact hentry ▸ hn

end Sys2Proof.Machine

/-! A notice at the roster and the records (R134, R138, R148, R149). -/

namespace Sys2Proof.Machine

open Sys2Proof

variable {s u : State} {r q : Record} {key : ClaimKey} {b : List Byte} {n : Notice} {i : Station}
  {tag : Tag}

/-! ## A notice by its kind and its sender's entry (R134, R148) -/

/-- From a MISMATCHED entry only the silence age restarts. -/
theorem takeNotice_mismatched (h : s.gather.roster[i].state = .mismatched) (n : Notice) :
    takeNotice i n s = updatePeer i (fun p => { p with silence := some 0 }) s := if_pos h

/-- A STOPPING notice makes a PRESENT entry depart, and of any other only says the clock. -/
theorem takeNotice_stopping (hk : n.kind = .stopping) (h : s.gather.roster[i].state ≠ .mismatched) :
    takeNotice i n s = if s.gather.roster[i].state = .present then
      judge (leavePresent i .silent (heard i .stopped s)) else heard i .stopped s := by
  have hstate : (heard i .stopped s).gather.roster[i].state = s.gather.roster[i].state := by
    rw [heard_peer]
  unfold takeNotice
  rw [if_neg h, hk]
  simp only [hstate]

/-- The node with a peer's share given up for every record that its STEPPED notice reaches (R148). -/
def giveUpShares (i : Station) (tag : Tag) (s : State) : State :=
  withRecords (s.table.records.map (abandonAttachment i tag)) s

theorem takeNotice_stepped (hk : n.kind = .stepped) (h : s.gather.roster[i].state ≠ .mismatched) :
    takeNotice i n s = judge (giveUpShares i n.tag (heard i .stepping s)) := by
  unfold takeNotice
  rw [if_neg h, hk]
  rfl

/-! ## The records a STEPPED notice reaches (R148) -/

theorem abandonAttachment_eq (i : Station) (tag : Tag) (r : Record) : abandonAttachment i tag r =
    if r.state ≠ .draining ∧ tag.older r.tag = false ∧ r.attachments[i] = .none then
      { r with attachments := r.attachments.set i .abandoned
               expected := r.expected.map (·.filter (· ≠ i)) }
    else r := by
  unfold abandonAttachment Tag.atOrOlder
  simp only [Bool.not_eq_true']

theorem abandonAttachment_tag (i : Station) (tag : Tag) (r : Record) :
    (abandonAttachment i tag r).tag = r.tag := by
  unfold abandonAttachment
  split <;> rfl

/-- A record that the notice reaches: the share given up and the station awaited no more. -/
theorem abandonAttachment_reached (hd : r.state ≠ .draining) (ho : tag.older r.tag = false)
    (hn : r.attachments[i] = .none) :
    (abandonAttachment i tag r).attachments = r.attachments.set i .abandoned ∧
      i ∉ (abandonAttachment i tag r).expected.getD [] := by
  rw [abandonAttachment_eq, if_pos ⟨hd, ho, hn⟩]
  exact ⟨rfl, fun hi => (mem_unexpecting (r := r).1 hi).2 rfl⟩

/-- A record that the notice does not reach. -/
theorem abandonAttachment_missed
    (h : r.state = .draining ∨ tag.older r.tag = true ∨ r.attachments[i] ≠ .none) :
    abandonAttachment i tag r = r := by
  rw [abandonAttachment_eq, if_neg]
  rintro ⟨hd, ho, hn⟩
  rcases h with h | h | h
  · exact hd h
  · rw [ho] at h; cases h
  · exact h hn

/-- After the judgement the records still stand as the notice left them. -/
theorem judge_giveUpShares (hs : TableLaw s) (hr : r ∈ s.table.records)
    (hq : q ∈ (judge (giveUpShares i tag s)).table.records) (ht : q.tag = r.tag) :
    q.attachments = (abandonAttachment i tag r).attachments ∧
      q.expected = (abandonAttachment i tag r).expected := by
  obtain ⟨p, hp, htag, hkeeps⟩ := judge_record hq
  obtain ⟨x, hx, rfl⟩ := List.mem_map.1 hp
  rw [abandonAttachment_tag] at htag
  rw [eq_of_tag_eq hs.ordered hr hx (htag.trans ht)] at hkeeps
  exact hkeeps

/-! ## The entry and the counters (R134, R138) -/

/-- The clock state that a notice gives of its sender (R134). -/
def noticeClock : NoticeKind → ClockState
  | .stopping => .stopped
  | .stepped => .stepping

/-- An entry that is not MISMATCHED after a notice (R134). -/
def Peer.afterNotice (k : NoticeKind) (p : Peer) : Peer :=
  { p with
    silence := some 0
    lastClock := some (noticeClock k)
    state := if k = .stopping ∧ p.state = .present then .silent else p.state }

theorem takeNotice_takes (h : s.gather.roster[i].state ≠ .mismatched) (n : Notice) :
    EntryTakes i (s.gather.roster[i].afterNotice n.kind) [] s (takeNotice i n s) := by
  unfold Peer.afterNotice
  cases hk : n.kind with
  | stopping =>
    rw [takeNotice_stopping hk h]
    by_cases hp : s.gather.roster[i].state = .present
    · have htakes := judge_leavePresent_takes (next := .silent) (moved := []) (by decide) i
        (heard i .stopped s)
      rw [heard_peer] at htakes
      rw [if_pos hp, if_pos ⟨rfl, hp⟩]
      exact htakes.after (by rw [heard_peer]) (fun _ _ => rfl) (by simp)
    · rw [if_neg hp, if_neg fun hc => hp hc.2]
      exact entryTakes_of_roster (heard_peer i .stopped s) rfl id
  | stepped =>
    rw [takeNotice_stepped hk h, if_neg fun hc => nomatch hc.1]
    refine ⟨?_, fun c _ _ he => judge_count he, fun hp hn => absurd hp hn,
      fun _ => judge_count (by decide)⟩
    rw [judge_roster]
    exact heard_peer i .stepping s

/-! ## The notice as R138, R148 and R149 have it -/

/-- A counted frame's sender heard, written out. -/
theorem heard_counted (i : Station) (k : ClockState) (s : State) :
    heard i k (bump .linkFramesReceived s) = { bump .linkFramesReceived s with
      gather := { s.gather with
        roster := s.gather.roster.set i
          { s.gather.roster[i] with silence := some 0, lastClock := some k } } } := by
  rw [heard, updatePeer, bump_gather]
  rfl

theorem giveUpShares_eq (i : Station) (tag : Tag) (s : State) : giveUpShares i tag s =
    { s with table := { s.table with records := s.table.records.map (fun r =>
      if r.state ≠ .draining ∧ tag.older r.tag = false ∧ r.attachments[i] = .none then
        { r with attachments := r.attachments.set i .abandoned
                 expected := r.expected.map (·.filter (· ≠ i)) }
      else r) } } := by
  simp only [← abandonAttachment_eq]
  rfl

/-- A departure and a judgement, nothing but the entry, or the shares given up and a judgement. -/
theorem takeNotice_moves (h : s.gather.roster[i].state ≠ .mismatched)
    (hu : u = heard i (noticeClock n.kind) s) :
    (n.kind = .stopping → s.gather.roster[i].state = .present →
      ∃ v, LeavesPresent i .silent u v ∧ Judgement v (takeNotice i n s)) ∧
    (n.kind = .stopping → s.gather.roster[i].state ≠ .present → takeNotice i n s = u) ∧
    (n.kind = .stepped → Judgement (giveUpShares i n.tag u) (takeNotice i n s)) := by
  refine ⟨fun hk hp => ?_, fun hk hp => ?_, fun hk => ?_⟩
  · have hpu : u.gather.roster[i].state = .present := by rw [hu, heard_peer, hp]
    rw [hk] at hu
    rw [takeNotice_stopping hk h, if_pos hp, show heard i .stopped s = u from hu.symm]
    exact ⟨_, leavePresent_leaves _ hpu, judge_judgement _⟩
  · rw [takeNotice_stopping hk h, if_neg hp, hu, hk]
    rfl
  · rw [takeNotice_stepped hk h, hu, hk]
    exact judge_judgement _

theorem quiet_takeNotice (i : Station) (n : Notice) (s : State) :
    quiet (takeNotice i n (bump .linkFramesReceived s)) =
      { takeNotice i n (bump .linkFramesReceived s) with link := { s.link with medium := .idle } } := by
  rw [quiet, takeNotice_link, bump_link]

theorem exec_linkFrameEnd_notice (hl : s.loader.state = .loaded) (hm : s.link.medium = .foreign)
    (hrec : s.gather.reception = none) (hf : checkForm key b = .ok (.notice n))
    (hi : keyStation key ∈ s.loader.shared.stations) (hstrap : keyStation key ≠ s.loader.strap) :
    exec (.linkFrameEnd key b) s =
      .next (quiet (takeNotice (keyStation key) n (bump .linkFramesReceived s))) := by
  obtain ⟨hkind, -⟩ := parseLinkFrame_reads (parse_of_checkForm hf)
  exact exec_linkFrameEnd_handOn hl hm hrec (shareHeaderOf_of_kind (by omega)) hf hi hstrap

/-- Settles O53, by the sender's entry and the notice's kind. -/
theorem noticeUpdatesRosterAndRecords : Obligations.NoticeUpdatesRosterAndRecords := by
  unfold Obligations.NoticeUpdatesRosterAndRecords
  intro s key b i n hs hl hm hrec hf hi hist hstrap
  subst hi
  rw [exec_linkFrameEnd_notice hl hm hrec hf hist hstrap]
  have hpeer := bump_peer .linkFramesReceived s (keyStation key)
  have hsilent : (bump .linkFramesReceived s).count .peerSilent = s.count .peerSilent :=
    count_bump_other (by decide)
  refine ⟨_, rfl, ?_⟩
  by_cases hmis : s.gather.roster[keyStation key].state = .mismatched
  · rw [takeNotice_mismatched (hpeer ▸ hmis)]
    have hentry := updatePeer_same (keyStation key) (fun p => { p with silence := some 0 })
      (bump .linkFramesReceived s)
    rw [hpeer] at hentry
    exact ⟨congrArg Peer.silence hentry, fun _ _ _ _ hn => absurd hmis hn,
      fun _ => ⟨bump_table _, hentry⟩, fun hn => absurd hmis hn⟩
  · have hmis' := hpeer.symm ▸ hmis
    obtain ⟨hentry, -, hleaves, hstays⟩ := takeNotice_takes hmis' n
    rw [hpeer] at hentry hleaves hstays
    rw [hsilent] at hleaves hstays
    refine ⟨congrArg Peer.silence hentry, fun u p hp hu _ => ?_, fun hn => absurd hn hmis, fun _ =>
      ⟨fun hk => ?_, fun hk => ?_⟩⟩
    · have hu' : u = heard (keyStation key) (noticeClock n.kind) (bump .linkFramesReceived s) := by
        rw [heard_counted, hu, hp]
        cases n.kind <;> rfl
      obtain ⟨hdeparts, hother, hstepped⟩ := takeNotice_moves hmis' hu'
      rw [hpeer] at hdeparts hother
      refine ⟨_, quiet_takeNotice _ n s, hdeparts, hother, fun hk => ?_⟩
      have htable : u.table = s.table := by rw [hu]; exact bump_table _
      have hjudged := hstepped hk
      rw [giveUpShares_eq, htable] at hjudged
      exact hjudged
    · have hafter : (s.gather.roster[keyStation key].afterNotice n.kind).state =
          if s.gather.roster[keyStation key].state = .present then .silent
          else s.gather.roster[keyStation key].state := by
        simp [Peer.afterNotice, hk]
      refine ⟨(congrArg Peer.lastClock hentry).trans (by rw [Peer.afterNotice, hk]; rfl),
        (congrArg Peer.state hentry).trans hafter, fun hp => hleaves hp ?_, fun hp =>
          ⟨?_, hstays (.inl hp)⟩⟩
      · rw [hafter, if_pos hp]
        decide
      · rw [takeNotice_stopping hk hmis', if_neg (hpeer.symm ▸ hp)]
        exact bump_table _
    · have hafter : (s.gather.roster[keyStation key].afterNotice n.kind).state =
          s.gather.roster[keyStation key].state := by
        simp [Peer.afterNotice, hk]
      refine ⟨(congrArg Peer.lastClock hentry).trans (by rw [Peer.afterNotice, hk]; rfl),
        (congrArg Peer.state hentry).trans hafter, hstays ?_, fun r hr q hq ht => ?_⟩
      · rw [hafter]
        exact (Decidable.em _).symm
      · rw [takeNotice_stepped hk hmis'] at hq
        have hlaw : TableLaw (heard (keyStation key) .stepping (bump .linkFramesReceived s)) :=
          (Forward.of_slots ((slots_heard _ _).trans (slots_bump _)) hs).1
        have hrs : r ∈ (heard (keyStation key) .stepping
            (bump .linkFramesReceived s)).table.records := by
          rw [show (heard (keyStation key) .stepping (bump .linkFramesReceived s)).table = s.table from
            bump_table _]
          exact hr
        obtain ⟨hatt, hexp⟩ := judge_giveUpShares hlaw hrs hq ht
        refine ⟨fun hd ho hn => ?_, fun hmissed => ?_⟩
        · rw [hatt, hexp]
          exact abandonAttachment_reached hd ho hn
        · rw [hatt, hexp, abandonAttachment_missed hmissed]
          exact ⟨rfl, rfl⟩

end Sys2Proof.Machine
